-- ==== Sys2Proof/Word.lean ====
section
/-! DEFINITION. The words of the machine (02 Table 2.1) and their plainest arithmetic. -/
namespace Sys2Proof

/-- A byte of memory. -/
abbrev Byte := BitVec 8
/-- A 32-bit register value (01 Table 1.1). -/
abbrev W32 := BitVec 32
/-- A 64-bit value, an even/odd register pair (01 R11), and an instruction word (03 R59). -/
abbrev W64 := BitVec 64

/-- The low 32 bits of a 64-bit value. -/
def W64.lo (x : W64) : W32 := x.extractLsb' 0 32
/-- The high 32 bits of a 64-bit value. -/
def W64.hi (x : W64) : W32 := x.extractLsb' 32 32
/-- The 64-bit value of a pair, low word first (01 R11). -/
def W64.ofPair (lo hi : W32) : W64 := hi ++ lo

end Sys2Proof
end

