-- ==== Sys2Proof/Syntax.lean ====
section
/-! DEFINITION. The instructions: one constructor for each row of spec/opcode_table.json.
The first 190 are the instructions of Tables 3.10 to 3.17, with the type codes of their opcode and
their format's fields (03 R59 to R69); the rest are the device's own steps (95), with what each acts on
and what comes from outside the module. -/
namespace Sys2Proof

/-! ### Type codes (03 Table 3.9) -/

/-- Integer type code t. -/
inductive IntTy where | i32 | n32 | i64 | n64
deriving DecidableEq, Repr, Inhabited
/-- Floating type code t. -/
inductive FloatTy where | f64 | f32 | f16 | bf16
deriving DecidableEq, Repr, Inhabited
/-- Width code w. -/
inductive Width where | b32 | b64
deriving DecidableEq, Repr, Inhabited
/-- Conversion code (4 bits, 15 reserved). -/
inductive CvtTy where
  | i8 | n8 | i16 | n16 | i32 | n32 | i64 | n64 | f64 | f32 | f16 | bf16 | e4m3 | e5m2 | e2m1
deriving DecidableEq, Repr, Inhabited
/-- Size code z of loads and stores (03 R77). -/
inductive SizeZ where | n8 | i8 | n16 | i16 | b32 | b64
deriving DecidableEq, Repr, Inhabited
/-- Type code t′ of reductions and scans (06 R169). -/
inductive RedTy where | i32 | n32 | f32 | f64
deriving DecidableEq, Repr, Inhabited
/-- Type code t″ of fabric reductions (03 Table 3.16). -/
inductive FabTy where | f32 | f64 | i32 | i64
deriving DecidableEq, Repr, Inhabited
/-- T4 weight format (03 Table 3.14). -/
inductive WFmt where | e2m1 | int4 | q16
deriving DecidableEq, Repr, Inhabited
/-- Activation format code a (03 Table 3.14). -/
inductive AFmt where | e4m3 | e5m2 | int8 | bf16
deriving DecidableEq, Repr, Inhabited
/-- 8-bit format code of T8 products and G4 activations (03 Table 3.14). -/
inductive Fmt8 where | e4m3 | e5m2 | int8
deriving DecidableEq, Repr, Inhabited
/-- Number of bit planes of a G4 product. -/
inductive Planes where | w1 | w2 | w3
deriving DecidableEq, Repr, Inhabited
/-- Paths (08 Table 8.1). -/
inductive Path where | mem | copy | la | srch | fab
deriving DecidableEq, Repr, Inhabited
/-- Execution scope (03 R60). -/
inductive Scope where | strand | ply | lay | cable
deriving DecidableEq, Repr, Inhabited
/-- Atomic operations (09 R248). -/
inductive AtomOp where | add | min | max | and | or | xor | xchg | cas | addF32
deriving DecidableEq, Repr, Inhabited
/-- Engine classes (03 Table 3.2). -/
inductive Cls where | alu | mem | copy | la | srch | sync | fab | sys
deriving DecidableEq, Repr, Inhabited

/-! ### Instruction formats (03 R59, R65 to R69) -/

/-- The common fields of every instruction word, OP aside (03 Table 3.1). -/
structure Common where
  pinv : Bool
  pmask : BitVec 4
  lay : BitVec 2
  scope : Scope
deriving DecidableEq, Repr, Inhabited

/-- Format A (03 Table 3.3). -/
structure FmtA where
  c : Common
  dst : BitVec 10
  sa : BitVec 10
  sb : BitVec 10
  nega : Bool
  absa : Bool
  lra : Bool
  negb : Bool
  absb : Bool
  lrb : Bool
  clamp : BitVec 2
  scale : BitVec 4
deriving DecidableEq, Repr, Inhabited

/-- Format B (03 Table 3.4). -/
structure FmtB where
  c : Common
  dst : BitVec 10
  sa : BitVec 10
  sb : BitVec 10
  sc : BitVec 10
  lra : Bool
  lrb : Bool
  lrc : Bool
deriving DecidableEq, Repr, Inhabited

/-- Format I (03 Table 3.5). -/
structure FmtI where
  c : Common
  dst : BitVec 10
  sa : BitVec 10
  imm : BitVec 24
deriving DecidableEq, Repr, Inhabited

/-- Format M (03 Table 3.6). -/
structure FmtM where
  c : Common
  data : BitVec 10
  base : BitVec 10
  lrd : Bool
  lrbs : Bool
  ord : BitVec 2
  ssc : BitVec 3
  split : Bool
  off : BitVec 16
deriving DecidableEq, Repr, Inhabited

/-- Format E (03 Table 3.7). -/
structure FmtE where
  c : Common
  opd : BitVec 10
  opa : BitVec 10
  opb : BitVec 10
  ce : Bool
  cnt : BitVec 4
  te : Bool
  tok : BitVec 6
  var : BitVec 2
deriving DecidableEq, Repr, Inhabited

/-! ### What a device step acts on -/

/-- Who begins a clause: a scheduler of a core (05 R156), or a walker (14 R350). -/
inductive Beginner where
  | sched (core slot : Nat)
  | walker (uid cmd w : Nat)
deriving DecidableEq, Repr, Inhabited

/-- Why a word is no instruction (03 R83, rank 4 and the ranks before it). -/
inductive Reject where
  | notAnInstruction        -- bit [63] is 0 (R18)
  | unassignedOp            -- R73
  | reservedField           -- a reserved format bit is set
  | unusedField             -- an unused operand field or modifier is nonzero (R70)
  | maskField               -- bits [9:4] of a mask or type field, or its modifiers (R70)
  | scopeNotAccepted        -- R60
  | reservedPredicate       -- PMASK = 0 with PINV = 1 (R61)
  | rounding                -- R50, R71, R76
  | cvtTypes                -- R76
  | order                   -- ORD, SSC (R68)
  | split                   -- R68, R145
  | lastRead                -- LRD on a row that does not accept it (R68)
  | variant                 -- VAR (R69)
  | counterOrToken          -- CE, CNT, TE, TOK (R69)
  | immediate               -- a zero part of IMM is set
deriving DecidableEq, Repr, Inhabited

/-- What a fabric message asks of its target (18 Table 18.3, OP). -/
inductive NetOp where
  | load (size : Nat)
  | store (size : Nat)
  | atomic (op : AtomOp) (ty : IntTy) (ret : Bool)
  | ack (refused : Option Nat)
  | put (len : Nat)
  | get (len : Nat)
  | sig
  | coll (crew seq chunk : Nat)
deriving DecidableEq, Repr, Inhabited

/-- A head flit (18 Table 18.3). -/
structure NetHead where
  src : Nat
  dst : Nat
  dom : Nat
  hops : Nat
  op : NetOp
  ndata : Nat
  mseq : Nat
  off : Nat
  psn : List Bool
  inline : List Byte
  age : Nat
  limit : Nat
deriving DecidableEq, Repr, Inhabited

/-- One flit of a received block (18 R400, R401). -/
inductive Flit where
  | idle
  /-- a head flit, or one whose CRC fails -/
  | head (h : Option NetHead)
  | data (bytes : List Byte)
deriving DecidableEq, Repr, Inhabited

/-- What one rank offers to a collective (18 R411, R413, R414): its descriptor list, its operation,
type and COUNT, its elements and their poison. -/
structure Contribution where
  rank : Nat
  peers : List Nat
  kind : Nat
  ty : FabTy
  count : Nat
  elems : List (BitVec 64)
  psn : List Bool
deriving DecidableEq, Repr, Inhabited

/-- Every instruction and every step of the device. -/
inductive Instr where
  -- integer arithmetic (04 R95 to R97)
  | addInt (t : IntTy) (f : FmtA)
  | subInt (t : IntTy) (f : FmtA)
  | mulInt (t : IntTy) (f : FmtA)
  | mulhi (t : IntTy) (f : FmtA)
  | minInt (t : IntTy) (f : FmtA)
  | maxInt (t : IntTy) (f : FmtA)
  | divInt (t : IntTy) (f : FmtA)
  | rem (t : IntTy) (f : FmtA)
  | shl (t : IntTy) (f : FmtA)
  | shr (t : IntTy) (f : FmtA)
  | mad (t : IntTy) (f : FmtB)
  | addiI32 (f : FmtI)
  | addiI64 (f : FmtI)
  -- bit operations (04 R98)
  | and (w : Width) (f : FmtA)
  | or (w : Width) (f : FmtA)
  | xor (w : Width) (f : FmtA)
  | andn (w : Width) (f : FmtA)
  | not (w : Width) (f : FmtA)
  | popc (w : Width) (f : FmtA)
  | clz (w : Width) (f : FmtA)
  | ctz (w : Width) (f : FmtA)
  | brev (w : Width) (f : FmtA)
  | bfe (w : Width) (f : FmtA)
  | bfi (w : Width) (f : FmtB)
  -- moves, immediates, selection (04 R99 to R102)
  | mov (w : Width) (f : FmtA)
  | nop (f : FmtA)
  | li (f : FmtI)
  | lih (f : FmtI)
  | sel (w : Width) (f : FmtB)
  -- comparisons (04 R103)
  | cmpEqInt (t : IntTy) (f : FmtA)
  | cmpNeInt (t : IntTy) (f : FmtA)
  | cmpLtInt (t : IntTy) (f : FmtA)
  | cmpLeInt (t : IntTy) (f : FmtA)
  | cmpGtInt (t : IntTy) (f : FmtA)
  | cmpGeInt (t : IntTy) (f : FmtA)
  | cmpEqFloat (t : FloatTy) (f : FmtA)
  | cmpNeFloat (t : FloatTy) (f : FmtA)
  | cmpLtFloat (t : FloatTy) (f : FmtA)
  | cmpLeFloat (t : FloatTy) (f : FmtA)
  | cmpGtFloat (t : FloatTy) (f : FmtA)
  | cmpGeFloat (t : FloatTy) (f : FmtA)
  | cmpNum (t : FloatTy) (f : FmtA)
  | cmpNan (t : FloatTy) (f : FmtA)
  -- floating point (04 R104 to R106)
  | addFloat (t : FloatTy) (rm : BitVec 3) (f : FmtA)
  | subFloat (t : FloatTy) (rm : BitVec 3) (f : FmtA)
  | mulFloat (t : FloatTy) (rm : BitVec 3) (f : FmtA)
  | divFloat (t : FloatTy) (rm : BitVec 3) (f : FmtA)
  | sqrt (t : FloatTy) (rm : BitVec 3) (f : FmtA)
  | minFloat (t : FloatTy) (rm : BitVec 3) (f : FmtA)
  | maxFloat (t : FloatTy) (rm : BitVec 3) (f : FmtA)
  | rint (t : FloatTy) (rm : BitVec 3) (f : FmtA)
  | fma (t : FloatTy) (rm : BitVec 3) (f : FmtB)
  | fms (t : FloatTy) (rm : BitVec 3) (f : FmtB)
  | fnma (t : FloatTy) (rm : BitVec 3) (f : FmtB)
  | fnms (t : FloatTy) (rm : BitVec 3) (f : FmtB)
  | rsqrt (t : FloatTy) (rm : BitVec 3) (f : FmtA)
  | exp2 (t : FloatTy) (rm : BitVec 3) (f : FmtA)
  | log2 (t : FloatTy) (rm : BitVec 3) (f : FmtA)
  | tanh (t : FloatTy) (rm : BitVec 3) (f : FmtA)
  | sin (t : FloatTy) (rm : BitVec 3) (f : FmtA)
  | cos (t : FloatTy) (rm : BitVec 3) (f : FmtA)
  -- conversion (04 R107)
  | cvt (d : CvtTy) (rm : BitVec 3) (f : FmtA)
  -- control transfer (04 R108 to R111)
  | br (f : FmtI)
  | brx (f : FmtA)
  | call (f : FmtI)
  | ret (f : FmtI)
  -- parallel instructions (06 R167 to R172)
  | musterCnt (f : FmtA)
  | musterFirst (f : FmtA)
  | musterSame (f : FmtA)
  | musterLanes (f : FmtA)
  | xlaneAt (f : FmtA)
  | xlaneBelow (f : FmtA)
  | xlaneAbove (f : FmtA)
  | xlaneFlip (f : FmtA)
  | redAdd (t : RedTy) (f : FmtA)
  | redMin (t : RedTy) (f : FmtA)
  | redMax (t : RedTy) (f : FmtA)
  | scanAdd (t : RedTy) (f : FmtA)
  | redAnd (w : Width) (f : FmtA)
  | redOr (w : Width) (f : FmtA)
  | redXor (w : Width) (f : FmtA)
  | mand (f : FmtA)
  | mor (f : FmtA)
  | mxor (f : FmtA)
  | mandn (f : FmtA)
  | mnot (f : FmtA)
  | mpop (f : FmtA)
  | mfirst (f : FmtA)
  | mtov (f : FmtA)
  | vtom (f : FmtA)
  | mlive (f : FmtA)
  -- memory (09 R244 to R257)
  | ldG (z : SizeZ) (f : FmtM)
  | stG (z : SizeZ) (f : FmtM)
  | ldP (z : SizeZ) (f : FmtM)
  | stP (z : SizeZ) (f : FmtM)
  | ldK (z : SizeZ) (f : FmtM)
  | atomAdd (t : IntTy) (f : FmtM)
  | atomMin (t : IntTy) (f : FmtM)
  | atomMax (t : IntTy) (f : FmtM)
  | atomAnd (t : IntTy) (f : FmtM)
  | atomOr (t : IntTy) (f : FmtM)
  | atomXor (t : IntTy) (f : FmtM)
  | atomXchg (t : IntTy) (f : FmtM)
  | atomCas (t : IntTy) (f : FmtM)
  | atomAddF32 (f : FmtM)
  | aredAdd (t : IntTy) (f : FmtM)
  | aredMin (t : IntTy) (f : FmtM)
  | aredMax (t : IntTy) (f : FmtM)
  | aredAnd (t : IntTy) (f : FmtM)
  | aredOr (t : IntTy) (f : FmtM)
  | aredXor (t : IntTy) (f : FmtM)
  | aredAddF32 (f : FmtM)
  | nredAddI32 (f : FmtM)
  | nredAddF32 (f : FmtM)
  | pfhL1 (f : FmtM)
  | pfhLlc (f : FmtM)
  | pfhNode0 (f : FmtM)
  | sub (f : FmtM)
  | unsub (f : FmtM)
  -- synchronisation (06, 09, 11)
  | fence (f : FmtM)
  | xfence (from_ to_ : Path) (f : FmtA)
  | wtq (f : FmtM)
  | wake (f : FmtM)
  | send (f : FmtE)
  | recv (f : FmtE)
  | join (f : FmtA)
  | bar (f : FmtA)
  | ringPut (f : FmtE)
  | ringGet (f : FmtE)
  | cntWait (f : FmtI)
  | cntMode (f : FmtI)
  | cntRd (f : FmtI)
  -- system (04, 06)
  | crd (f : FmtI)
  | cwr (f : FmtI)
  | trap (f : FmtI)
  | rft (f : FmtI)
  | launch (f : FmtA)
  | yield (f : FmtA)
  | exit (f : FmtA)
  -- copy engine (11)
  | cp1d (f : FmtE)
  | cp2d (f : FmtE)
  | cpGth (f : FmtE)
  | cpSct (f : FmtE)
  | cpFillRaw (f : FmtE)
  | cpFillEsr (f : FmtE)
  | cpFillN4e (f : FmtE)
  | cpZero (f : FmtE)
  | cpSeg (f : FmtE)
  | cpCancel (f : FmtE)
  -- lookup array (13)
  | tbldT4 (x : WFmt) (a : AFmt) (f : FmtE)
  | tbldG4 (a : Fmt8) (f : FmtE)
  | tbinv (f : FmtE)
  | tbspill (f : FmtE)
  | tbfill (f : FmtE)
  | lmmT8 (x a : Fmt8) (f : FmtE)
  | lmmT4 (x : WFmt) (f : FmtE)
  | lmmT4Rb (x : WFmt) (f : FmtE)
  | lmmG4 (b : Planes) (f : FmtE)
  | lmmG4Rb (b : Planes) (f : FmtE)
  | dmm (t : FloatTy) (f : FmtE)
  | saccMx (f : FmtE)
  | saccQ16 (f : FmtE)
  | zld (f : FmtE)
  | zst (f : FmtE)
  | zzero (f : FmtE)
  | zmov (f : FmtE)
  -- search (14 R343 to R347)
  | srchDist (f : FmtE)
  | srchKnn (f : FmtE)
  | srchWalk (f : FmtE)
  | srchIns (f : FmtE)
  | srchDel (f : FmtE)
  | srchSnap (f : FmtE)
  | srchRel (f : FmtE)
  | srchHeap (f : FmtE)
  | srchReclaim (f : FmtE)
  -- walker instructions (14 R351)
  | dist (f : FmtE)
  | heapPush (f : FmtE)
  | heapTop (f : FmtE)
  | heapPop (f : FmtE)
  | visit (f : FmtE)
  | hop (f : FmtE)
  | walkEnd (f : FmtE)
  -- fabric (18 R406 to R415)
  | fabRedAdd (t : FabTy) (f : FmtE)
  | fabRedMin (t : FabTy) (f : FmtE)
  | fabRedMax (t : FabTy) (f : FmtE)
  | fabTopk (f : FmtE)
  | fabPut (f : FmtE)
  | fabGet (f : FmtE)
  | fabBar (f : FmtE)
  | fabSig (f : FmtE)
  -- a word that is no instruction (03 R83)
  | illegalInstruction (why : Reject)
  -- steps of the core (05 R63, 01 R33, 07 R191)
  | clauseBegin (who : Beginner)
  | spill (core : Nat)
  | tick
  -- steps of the memory system (07, 08, 09)
  | homeRead (txn : Nat) (evict : List Nat)
  | loadReply (txn : Nat)
  | homeWrite (txn : Nat)
  | writeAck (txn : Nat)
  | homeAtomic (txn : Nat)
  | capstanNred (txn : Nat)
  | refreshWindow
  | meshEpoch
  | bankAccess (core bank : Nat)
  | homeSubscribe (txn : Nat)
  | segmentSnapshot (uid seg : Nat)
  | segmentUpdate (uid seg : Nat)
  | wtqAppend (txn : Nat)
  | wakeAtHome (txn : Nat)
  | wtqTimeout (waiter : Nat)
  | messageDelivery (msg : Nat)
  | pageWalk (core ctx : Nat) (va : W64) (write fetch : Bool)
  -- steps of the engines (11 to 14)
  | copyUnit (uid cmd : Nat)
  | copyComplete (uid cmd : Nat)
  | laUnit (uid cmd : Nat)
  | laComplete (uid cmd : Nat)
  | srchStart (uid cmd : Nat)
  | versionCommit (uid cmd : Nat)
  | walkerReply (uid cmd w : Nat)
  | hopArrival (uid cmd w : Nat)
  | srchFinish (uid cmd : Nat)
  -- launches, placement, saves (05, 16)
  | launchEnter (launch : Nat)
  | placement (part : Nat)
  | cableEnd (uid : Nat)
  | saveComplete (uid : Nat)
  -- power and temperature (19 R432 to R434)
  | powerWindow (watts : Nat)
  | thermalMigration (core temp : Nat) (temps : List Nat)
  | thermalTrip (temp : Nat)
  | gateIdle (core section_ : Nat)
  | powerWakeComplete (core section_ : Nat)
  -- fabric (18 R396 to R408)
  | fabricSlot (fibre : Nat) (relays : List (Nat × Nat × Nat))
  | fecBlockReceive (fibre : Nat) (header flits check : List Nat)
  | peerAccessTarget (msg : Nat)
  | peerAck (mseq : Nat) (refused : Option Nat) (data : List Byte) (psn : Bool)
  | messageLost (mseq : Nat)
  | fabComplete (uid cmd : Nat) (contribs : List Contribution)
  -- CXL ports and the host (18 R420 to R423)
  | cxlCompletionTimeout (port : Nat)
  | cxlLinkDown (port : Nat)
  | hostMemWrite (off : Nat) (bytes : List Byte)
  | hostMemRead (off len : Nat)
  -- context services (16 R370 to R382, 18 R422, R423)
  | resumeRetry (ctx handle : Nat)
  | resumeSkip (ctx handle : Nat)
  | resumeTerminate (ctx handle : Nat)
  | resumeCancel (ctx handle : Nat)
  | resumeRetrySpill (ctx handle size : Nat)
  | ctxPreempt (ctx cid : Nat)
  | ctxRestore (ctx slot : Nat)
  | ctxTlbinv (ctx : Nat) (value : W64)
  | ctxFqCtl (ctx : Nat) (value : W32)
  | ctxFqTailRead (uid : Nat)
  | ctxNotify (ctx : Nat) (value : W32)
  | ctxGpfStart (ctx : Nat) (value : W32)
  | gpfComplete (port : Nat)
  -- firmware and reset (18 R420, 19)
  | portOnline (port : Nat)
  | devSvnWrite (value : W32)
  | devPartCfgWrite (value : W64)
  | devCoreMapWrite (value : W64)
  | ctxEnable
  | ctxDisable
  | ctxTerm
  | devCtxLaunch (value : W64)
  | devFwqWrite (value : W64)
  | fwqService (part : Nat)
  | devReset
  | powerOn
  | port0HotReset
  | scrubComplete (trained : Bool) (width : Nat)
  | bootDoor (value : W64)
  | firmwareLoad
  | attestationRequest (nonce : List Byte)
  | ctxCreate (creq arg0 arg1 arg2 : W64)
  | ctxDestroy (creq arg0 arg1 arg2 : W64)
  | ctxAnswer (creq arg0 arg1 arg2 : W64)
  | ctxTerminate (creq arg0 arg1 arg2 : W64)
  | badRequest (creq arg0 arg1 arg2 : W64)
  | resumeActionReserved (ctx handle action : Nat)
deriving DecidableEq, Repr, Inhabited

end Sys2Proof
end

