-- ==== Sys2Proof/Config.lean ====
section
/-! DEFINITION. What the module's specification fixes for the device, and the values it leaves open: those are
constants without a body, so that nothing can be proved from a value of theirs. -/
namespace Sys2Proof

/-- Whose step comes next (log 1). -/
inductive Turn where
  /-- the running group of a ply of the cable `uid` executes the instruction at its position -/
  | instr (uid ply : Nat)
  /-- a walker of a search command executes its next instruction -/
  | walker (uid cmd w : Nat)
  /-- a step of the device -/
  | event (i : Instr)
  /-- firmware on the management controller performs a `crd` or `cwr` at machine level, `val` being the source -/
  | firmware (i : Instr) (val : W64)
deriving DecidableEq, Repr, Inhabited

/-- FREE (log 1): which agent moves at a step whose agenda is empty; the spec fixes no order of the agents. -/
opaque Config.freeTurn : Nat → Turn
/-- FREE (log 2): the cycles of the 3.0 GHz arithmetic clock that pass at a step. -/
opaque Config.freeCycles : Nat → Nat
/-- FREE (log 8): SHA-384 digest of a byte string. -/
opaque Config.sha384 : List Byte → Nat
/-- FREE (log 8): whether a signature of the named scheme over a digest verifies under a key. -/
opaque Config.verifies : Nat → List Byte → List Byte → List Byte → Bool
/-- FREE (log 8): the byte at a place of the signature that the device forms over a byte string with its identity key of a
scheme: 0 for RSA-3072, 1 for SLH-DSA. -/
opaque Config.sign : Nat → List Byte → Nat → Byte

/-- FREE (log 12): the bank of a memory node that holds a physical address; the spec does not give the mapping. -/
opaque Config.bankOf : Nat → Nat
/-- FREE (log 12): the row of its bank that holds a physical address. -/
opaque Config.rowOf : Nat → Nat

/-- FREE (log 8): the fused SHA-384 hash of the keys that sign firmware. -/
opaque Config.keyHash : Nat
/-- FREE (log 8): the module's serial number. -/
opaque Config.serial : Nat
/-- FREE (log 8): the certificate chain of the boot ROM for a scheme: 0 for RSA-3072, 1 for SLH-DSA. -/
opaque Config.certificates : Nat → List Byte
/-- FREE (log 10): the partition to which firmware gives each 4 KiB physical page that is not partition 0's. -/
opaque Config.pageOwners : List (Nat × Nat)
/-- FREE (log 25): the schedule MATCH that firmware loads: 64 f + j with the peer of fibre f in matching j. -/
opaque Config.schedule : List (Nat × Nat)

/-- FREE (log 23): whether the memory controller finds the granule uncorrectable when it is read from its bank at a
step. -/
opaque Config.uncorrectable : Nat → Nat → Bool

/-- FREE (log 103): which way of a full set a cache gives to a line that comes in, by step. -/
opaque Config.freeWay : Nat → Nat

/-- FREE (log 135): whether the home slice of a granule performs an engine's write of it at once, by step and granule; else
before the command's next unit or its completion. -/
opaque Config.landsNow : Nat → Nat → Bool

/-- FREE (log 141): what the host has written of its own memory behind its link by a step: addresses and bytes. -/
opaque Config.hostWrites : Nat → List (Nat × Byte)
/-- FREE (log 142): the width to which a port's link has trained, by step: 0 x4, 1 x8, 2 x16. -/
opaque Config.freeWidth : Nat → Fin 3

/-- FREE (log 121): the cycles that LLC ways take to wake, by step; R205 bounds them by 2 µs. -/
opaque Config.wakeCycles : Nat → Nat

/-- FREE (log 26): a byte that is written under poison where the spec gives it no value, by step and position. -/
opaque Config.poisonByte : Nat → Nat → Byte

/-! ### The module's fixed numbers -/

/-- Cores of the module (00, R393). -/
def Config.cores : Nat := 704
/-- Clusters of 8 cores and stacks of 44 cores follow from the core number (18). -/
def Config.stackCount : Nat := 16
/-- Physical 32-bit registers of a core (01). -/
def Config.physRegs : Nat := 131072

end Sys2Proof
end

