-- ==== Sys2Proof/Machine/Fields.lean ====
section
/-! DEFINITION. The opcode maps (03 Tables 3.10 to 3.17): each row's engine class, OP and format, and the
checks of the fourth rank of Table 3.19 that the word alone decides. -/
namespace Sys2Proof

/-! ### Codes of types (03 Tables 3.9 to 3.16) -/

def IntTy.code : IntTy → Nat | .i32 => 0 | .n32 => 1 | .i64 => 2 | .n64 => 3
def IntTy.ofCode : Nat → IntTy | 0 => .i32 | 1 => .n32 | 2 => .i64 | _ => .n64
def FloatTy.code : FloatTy → Nat | .f64 => 0 | .f32 => 1 | .f16 => 2 | .bf16 => 3
def FloatTy.ofCode : Nat → FloatTy | 0 => .f64 | 1 => .f32 | 2 => .f16 | _ => .bf16
def Width.code : Width → Nat | .b32 => 0 | .b64 => 1
def Width.ofCode : Nat → Width | 0 => .b32 | _ => .b64
def CvtTy.code : CvtTy → Nat
  | .i8 => 0 | .n8 => 1 | .i16 => 2 | .n16 => 3 | .i32 => 4 | .n32 => 5 | .i64 => 6 | .n64 => 7
  | .f64 => 8 | .f32 => 9 | .f16 => 10 | .bf16 => 11 | .e4m3 => 12 | .e5m2 => 13 | .e2m1 => 14
def CvtTy.ofCode : Nat → Option CvtTy
  | 0 => some .i8 | 1 => some .n8 | 2 => some .i16 | 3 => some .n16 | 4 => some .i32 | 5 => some .n32
  | 6 => some .i64 | 7 => some .n64 | 8 => some .f64 | 9 => some .f32 | 10 => some .f16 | 11 => some .bf16
  | 12 => some .e4m3 | 13 => some .e5m2 | 14 => some .e2m1 | _ => none
def CvtTy.isFloat (d : CvtTy) : Bool := 8 ≤ d.code
def SizeZ.code : SizeZ → Nat | .n8 => 0 | .i8 => 1 | .n16 => 2 | .i16 => 3 | .b32 => 4 | .b64 => 5
def SizeZ.ofCode : Nat → Option SizeZ
  | 0 => some .n8 | 1 => some .i8 | 2 => some .n16 | 3 => some .i16 | 4 => some .b32 | 5 => some .b64 | _ => none
/-- Stores accept z = 0, 2, 4 and 5 (R77). -/
def SizeZ.storable : SizeZ → Bool | .i8 => false | .i16 => false | _ => true
def RedTy.code : RedTy → Nat | .i32 => 0 | .n32 => 1 | .f32 => 2 | .f64 => 3
def RedTy.ofCode : Nat → RedTy | 0 => .i32 | 1 => .n32 | 2 => .f32 | _ => .f64
def FabTy.code : FabTy → Nat | .f32 => 0 | .f64 => 1 | .i32 => 2 | .i64 => 3
def FabTy.ofCode : Nat → FabTy | 0 => .f32 | 1 => .f64 | 2 => .i32 | _ => .i64
def WFmt.code : WFmt → Nat | .e2m1 => 0 | .int4 => 1 | .q16 => 2
def WFmt.ofCode : Nat → WFmt | 0 => .e2m1 | 1 => .int4 | _ => .q16
def AFmt.code : AFmt → Nat | .e4m3 => 0 | .e5m2 => 1 | .int8 => 2 | .bf16 => 3
def AFmt.ofCode : Nat → AFmt | 0 => .e4m3 | 1 => .e5m2 | 2 => .int8 | _ => .bf16
def Fmt8.code : Fmt8 → Nat | .e4m3 => 0 | .e5m2 => 1 | .int8 => 2
def Fmt8.ofCode : Nat → Option Fmt8 | 0 => some .e4m3 | 1 => some .e5m2 | 2 => some .int8 | _ => none
def Planes.code : Planes → Nat | .w1 => 0 | .w2 => 1 | .w3 => 2
def Planes.ofCode : Nat → Planes | 0 => .w1 | 1 => .w2 | _ => .w3
def Path.code : Path → Nat | .mem => 0 | .copy => 1 | .la => 2 | .srch => 3 | .fab => 4
def Path.ofCode : Nat → Option Path
  | 0 => some .mem | 1 => some .copy | 2 => some .la | 3 => some .srch | 4 => some .fab | _ => none
def Scope.code : Scope → BitVec 2 | .strand => 0 | .ply => 1 | .lay => 2 | .cable => 3
def Scope.ofCode (b : BitVec 2) : Scope :=
  if b = 0 then .strand else if b = 1 then .ply else if b = 2 then .lay else .cable
def Cls.code : Cls → BitVec 4
  | .alu => 0 | .mem => 1 | .copy => 2 | .la => 3 | .srch => 4 | .sync => 5 | .fab => 6 | .sys => 7
def Cls.ofCode (b : BitVec 4) : Option Cls :=
  match b.toNat with
  | 0 => some .alu | 1 => some .mem | 2 => some .copy | 3 => some .la
  | 4 => some .srch | 5 => some .sync | 6 => some .fab | 7 => some .sys | _ => none

/-! ### Rows -/

/-- The class and OP of an instruction (Tables 3.10 to 3.17); none for a device step, which has no word. -/
def Instr.row : Instr → Option (Cls × Nat)
  | .addInt t _ => some (.alu, 0x000 + t.code)
  | .subInt t _ => some (.alu, 0x004 + t.code)
  | .mulInt t _ => some (.alu, 0x008 + t.code)
  | .mulhi t _ => some (.alu, 0x00C + t.code)
  | .minInt t _ => some (.alu, 0x010 + t.code)
  | .maxInt t _ => some (.alu, 0x014 + t.code)
  | .divInt t _ => some (.alu, 0x018 + t.code)
  | .rem t _ => some (.alu, 0x01C + t.code)
  | .shl t _ => some (.alu, 0x020 + t.code)
  | .shr t _ => some (.alu, 0x024 + t.code)
  | .mad t _ => some (.alu, 0x028 + t.code)
  | .addiI32 _ => some (.alu, 0x062)
  | .addiI64 _ => some (.alu, 0x063)
  | .and w _ => some (.alu, 0x040 + w.code)
  | .or w _ => some (.alu, 0x042 + w.code)
  | .xor w _ => some (.alu, 0x044 + w.code)
  | .andn w _ => some (.alu, 0x046 + w.code)
  | .not w _ => some (.alu, 0x048 + w.code)
  | .popc w _ => some (.alu, 0x04A + w.code)
  | .clz w _ => some (.alu, 0x04C + w.code)
  | .ctz w _ => some (.alu, 0x04E + w.code)
  | .brev w _ => some (.alu, 0x050 + w.code)
  | .bfe w _ => some (.alu, 0x052 + w.code)
  | .bfi w _ => some (.alu, 0x054 + w.code)
  | .mov w _ => some (.alu, 0x056 + w.code)
  | .nop _ => some (.alu, 0x058)
  | .li _ => some (.alu, 0x060)
  | .lih _ => some (.alu, 0x061)
  | .sel w _ => some (.alu, 0x064 + w.code)
  | .cmpEqInt t _ => some (.alu, 0x080 + t.code)
  | .cmpNeInt t _ => some (.alu, 0x084 + t.code)
  | .cmpLtInt t _ => some (.alu, 0x088 + t.code)
  | .cmpLeInt t _ => some (.alu, 0x08C + t.code)
  | .cmpGtInt t _ => some (.alu, 0x090 + t.code)
  | .cmpGeInt t _ => some (.alu, 0x094 + t.code)
  | .cmpEqFloat t _ => some (.alu, 0x0A0 + t.code)
  | .cmpNeFloat t _ => some (.alu, 0x0A4 + t.code)
  | .cmpLtFloat t _ => some (.alu, 0x0A8 + t.code)
  | .cmpLeFloat t _ => some (.alu, 0x0AC + t.code)
  | .cmpGtFloat t _ => some (.alu, 0x0B0 + t.code)
  | .cmpGeFloat t _ => some (.alu, 0x0B4 + t.code)
  | .cmpNum t _ => some (.alu, 0x0B8 + t.code)
  | .cmpNan t _ => some (.alu, 0x0BC + t.code)
  | .addFloat t rm _ => some (.alu, 0x100 + 8 * t.code + rm.toNat)
  | .subFloat t rm _ => some (.alu, 0x120 + 8 * t.code + rm.toNat)
  | .mulFloat t rm _ => some (.alu, 0x140 + 8 * t.code + rm.toNat)
  | .divFloat t rm _ => some (.alu, 0x160 + 8 * t.code + rm.toNat)
  | .sqrt t rm _ => some (.alu, 0x180 + 8 * t.code + rm.toNat)
  | .minFloat t rm _ => some (.alu, 0x1A0 + 8 * t.code + rm.toNat)
  | .maxFloat t rm _ => some (.alu, 0x1C0 + 8 * t.code + rm.toNat)
  | .rint t rm _ => some (.alu, 0x1E0 + 8 * t.code + rm.toNat)
  | .fma t rm _ => some (.alu, 0x200 + 8 * t.code + rm.toNat)
  | .fms t rm _ => some (.alu, 0x220 + 8 * t.code + rm.toNat)
  | .fnma t rm _ => some (.alu, 0x240 + 8 * t.code + rm.toNat)
  | .fnms t rm _ => some (.alu, 0x260 + 8 * t.code + rm.toNat)
  | .rsqrt t rm _ => some (.alu, 0x280 + 8 * t.code + rm.toNat)
  | .exp2 t rm _ => some (.alu, 0x2A0 + 8 * t.code + rm.toNat)
  | .log2 t rm _ => some (.alu, 0x2C0 + 8 * t.code + rm.toNat)
  | .tanh t rm _ => some (.alu, 0x2E0 + 8 * t.code + rm.toNat)
  | .sin t rm _ => some (.alu, 0x380 + 8 * t.code + rm.toNat)
  | .cos t rm _ => some (.alu, 0x3A0 + 8 * t.code + rm.toNat)
  | .cvt d rm _ => some (.alu, 0x300 + 8 * d.code + rm.toNat)
  | .br _ => some (.alu, 0x070)
  | .brx _ => some (.alu, 0x071)
  | .call _ => some (.alu, 0x072)
  | .ret _ => some (.alu, 0x073)
  | .musterCnt _ => some (.alu, 0x0C0)
  | .musterFirst _ => some (.alu, 0x0C1)
  | .musterSame _ => some (.alu, 0x0C2)
  | .musterLanes _ => some (.alu, 0x0C3)
  | .xlaneAt _ => some (.alu, 0x0C4)
  | .xlaneBelow _ => some (.alu, 0x0C5)
  | .xlaneAbove _ => some (.alu, 0x0C6)
  | .xlaneFlip _ => some (.alu, 0x0C7)
  | .redAdd t _ => some (.alu, 0x0D0 + t.code)
  | .redMin t _ => some (.alu, 0x0D4 + t.code)
  | .redMax t _ => some (.alu, 0x0D8 + t.code)
  | .scanAdd t _ => some (.alu, 0x0DC + t.code)
  | .redAnd w _ => some (.alu, 0x0E0 + w.code)
  | .redOr w _ => some (.alu, 0x0E2 + w.code)
  | .redXor w _ => some (.alu, 0x0E4 + w.code)
  | .mand _ => some (.alu, 0x0F0)
  | .mor _ => some (.alu, 0x0F1)
  | .mxor _ => some (.alu, 0x0F2)
  | .mandn _ => some (.alu, 0x0F3)
  | .mnot _ => some (.alu, 0x0F4)
  | .mpop _ => some (.alu, 0x0F5)
  | .mfirst _ => some (.alu, 0x0F6)
  | .mtov _ => some (.alu, 0x0F7)
  | .vtom _ => some (.alu, 0x0F8)
  | .mlive _ => some (.alu, 0x0F9)
  | .ldG z _ => some (.mem, 0x000 + z.code)
  | .stG z _ => some (.mem, 0x008 + z.code)
  | .ldP z _ => some (.mem, 0x010 + z.code)
  | .stP z _ => some (.mem, 0x018 + z.code)
  | .ldK z _ => some (.mem, 0x020 + z.code)
  | .atomAdd t _ => some (.mem, 0x040 + t.code)
  | .atomMin t _ => some (.mem, 0x044 + t.code)
  | .atomMax t _ => some (.mem, 0x048 + t.code)
  | .atomAnd t _ => some (.mem, 0x04C + t.code)
  | .atomOr t _ => some (.mem, 0x050 + t.code)
  | .atomXor t _ => some (.mem, 0x054 + t.code)
  | .atomXchg t _ => some (.mem, 0x058 + t.code)
  | .atomCas t _ => some (.mem, 0x05C + t.code)
  | .atomAddF32 _ => some (.mem, 0x060)
  | .aredAdd t _ => some (.mem, 0x070 + t.code)
  | .aredMin t _ => some (.mem, 0x074 + t.code)
  | .aredMax t _ => some (.mem, 0x078 + t.code)
  | .aredAnd t _ => some (.mem, 0x07C + t.code)
  | .aredOr t _ => some (.mem, 0x080 + t.code)
  | .aredXor t _ => some (.mem, 0x084 + t.code)
  | .aredAddF32 _ => some (.mem, 0x088)
  | .nredAddI32 _ => some (.mem, 0x090)
  | .nredAddF32 _ => some (.mem, 0x091)
  | .pfhL1 _ => some (.mem, 0x0A0)
  | .pfhLlc _ => some (.mem, 0x0A0)
  | .pfhNode0 _ => some (.mem, 0x0A0)
  | .sub _ => some (.mem, 0x0B0)
  | .unsub _ => some (.mem, 0x0B1)
  | .fence _ => some (.sync, 0x000)
  | .xfence a b _ => some (.sync, 0x040 + 8 * a.code + b.code)
  | .wtq _ => some (.sync, 0x080)
  | .wake _ => some (.sync, 0x081)
  | .send _ => some (.sync, 0x090)
  | .recv _ => some (.sync, 0x091)
  | .join _ => some (.sync, 0x0A0)
  | .bar _ => some (.sync, 0x0A1)
  | .ringPut _ => some (.sync, 0x0B0)
  | .ringGet _ => some (.sync, 0x0B1)
  | .cntWait _ => some (.sync, 0x0C0)
  | .cntMode _ => some (.sync, 0x0C1)
  | .cntRd _ => some (.sync, 0x0C2)
  | .crd _ => some (.sys, 0x000)
  | .cwr _ => some (.sys, 0x001)
  | .trap _ => some (.sys, 0x010)
  | .rft _ => some (.sys, 0x011)
  | .launch _ => some (.sys, 0x020)
  | .yield _ => some (.sys, 0x030)
  | .exit _ => some (.sys, 0x031)
  | .cp1d _ => some (.copy, 0x000)
  | .cp2d _ => some (.copy, 0x001)
  | .cpGth _ => some (.copy, 0x002)
  | .cpSct _ => some (.copy, 0x003)
  | .cpFillRaw _ => some (.copy, 0x004)
  | .cpFillEsr _ => some (.copy, 0x005)
  | .cpFillN4e _ => some (.copy, 0x006)
  | .cpZero _ => some (.copy, 0x007)
  | .cpSeg _ => some (.copy, 0x008)
  | .cpCancel _ => some (.copy, 0x009)
  | .tbldT4 x a _ => some (.la, 0x000 + 4 * x.code + a.code)
  | .tbldG4 a _ => some (.la, 0x010 + a.code)
  | .tbinv _ => some (.la, 0x020)
  | .tbspill _ => some (.la, 0x021)
  | .tbfill _ => some (.la, 0x022)
  | .lmmT8 x a _ => some (.la, 0x040 + 4 * x.code + a.code)
  | .lmmT4 x _ => some (.la, 0x050 + x.code)
  | .lmmT4Rb x _ => some (.la, 0x058 + x.code)
  | .lmmG4 b _ => some (.la, 0x060 + b.code)
  | .lmmG4Rb b _ => some (.la, 0x068 + b.code)
  | .dmm t _ => some (.la, 0x070 + t.code)
  | .saccMx _ => some (.la, 0x080)
  | .saccQ16 _ => some (.la, 0x081)
  | .zld _ => some (.la, 0x090)
  | .zst _ => some (.la, 0x091)
  | .zzero _ => some (.la, 0x092)
  | .zmov _ => some (.la, 0x093)
  | .srchDist _ => some (.srch, 0x000)
  | .srchKnn _ => some (.srch, 0x001)
  | .srchWalk _ => some (.srch, 0x002)
  | .srchIns _ => some (.srch, 0x003)
  | .srchDel _ => some (.srch, 0x004)
  | .srchSnap _ => some (.srch, 0x005)
  | .srchRel _ => some (.srch, 0x006)
  | .srchHeap _ => some (.srch, 0x007)
  | .srchReclaim _ => some (.srch, 0x008)
  | .dist _ => some (.srch, 0x100)
  | .heapPush _ => some (.srch, 0x110)
  | .heapTop _ => some (.srch, 0x111)
  | .heapPop _ => some (.srch, 0x112)
  | .visit _ => some (.srch, 0x120)
  | .hop _ => some (.srch, 0x130)
  | .walkEnd _ => some (.srch, 0x131)
  | .fabRedAdd t _ => some (.fab, 0x000 + t.code)
  | .fabRedMin t _ => some (.fab, 0x004 + t.code)
  | .fabRedMax t _ => some (.fab, 0x008 + t.code)
  | .fabTopk _ => some (.fab, 0x010)
  | .fabPut _ => some (.fab, 0x020)
  | .fabGet _ => some (.fab, 0x021)
  | .fabBar _ => some (.fab, 0x030)
  | .fabSig _ => some (.fab, 0x031)
  | .clauseBegin .. => none | .spill .. => none | .tick => none
  | .homeRead .. => none | .loadReply .. => none | .homeWrite .. => none | .writeAck .. => none
  | .homeAtomic .. => none | .capstanNred .. => none | .refreshWindow => none | .meshEpoch => none
  | .bankAccess .. => none | .homeSubscribe .. => none | .segmentSnapshot .. => none
  | .segmentUpdate .. => none | .wtqAppend .. => none | .wakeAtHome .. => none | .wtqTimeout .. => none
  | .messageDelivery .. => none | .pageWalk .. => none
  | .copyUnit .. => none | .copyComplete .. => none | .laUnit .. => none | .laComplete .. => none
  | .srchStart .. => none | .versionCommit .. => none | .walkerReply .. => none | .hopArrival .. => none
  | .srchFinish .. => none
  | .launchEnter .. => none | .placement .. => none | .cableEnd .. => none | .saveComplete .. => none
  | .powerWindow .. => none | .thermalMigration .. => none | .thermalTrip .. => none
  | .gateIdle .. => none | .powerWakeComplete .. => none
  | .fabricSlot .. => none | .fecBlockReceive .. => none | .peerAccessTarget .. => none
  | .peerAck .. => none | .messageLost .. => none | .fabComplete .. => none
  | .cxlCompletionTimeout .. => none | .cxlLinkDown .. => none | .hostMemWrite .. => none
  | .hostMemRead .. => none
  | .resumeRetry .. => none | .resumeSkip .. => none | .resumeTerminate .. => none
  | .resumeCancel .. => none | .resumeRetrySpill .. => none | .ctxPreempt .. => none
  | .ctxRestore .. => none | .ctxTlbinv .. => none | .ctxFqCtl .. => none | .ctxFqTailRead .. => none
  | .ctxNotify .. => none | .ctxGpfStart .. => none | .gpfComplete .. => none
  | .portOnline .. => none | .devSvnWrite .. => none | .devPartCfgWrite .. => none
  | .devCoreMapWrite .. => none | .ctxEnable => none | .ctxDisable => none | .ctxTerm => none
  | .devCtxLaunch .. => none | .devFwqWrite .. => none | .fwqService .. => none | .devReset => none
  | .powerOn => none | .port0HotReset => none | .scrubComplete .. => none | .bootDoor .. => none
  | .firmwareLoad => none | .attestationRequest .. => none | .ctxCreate .. => none
  | .ctxDestroy .. => none | .ctxAnswer .. => none | .ctxTerminate .. => none
  | .illegalInstruction _ => none | .badRequest .. => none | .resumeActionReserved .. => none

/-- The format fields of an instruction word. -/
inductive Payload where
  | a (f : FmtA) | b (f : FmtB) | i (f : FmtI) | m (f : FmtM) | e (f : FmtE) | none
deriving DecidableEq, Repr, Inhabited

/-- The common fields of a payload. -/
def Payload.common : Payload → Option Common
  | .a f => some f.c | .b f => some f.c | .i f => some f.c | .m f => some f.c | .e f => some f.c | .none => Option.none

/-! ### Field roles -/

/-- How a row uses an operand field (R70): a register operand, a mask field, a type field, or not at all. -/
inductive Role where | reg | mask | type | off
deriving DecidableEq, Repr, Inhabited

/-- Scopes a row accepts (R73). -/
inductive Scopes where | splc | plc | pc | p | s | sp | pl | lc
deriving DecidableEq, Repr, Inhabited

def Scopes.accepts : Scopes → Scope → Bool
  | .splc, _ => true
  | .plc, k => k != .strand
  | .pc, k => k == .ply || k == .cable
  | .p, k => k == .ply
  | .s, k => k == .strand
  | .sp, k => k == .strand || k == .ply
  | .pl, k => k == .ply || k == .lay
  | .lc, k => k == .lay || k == .cable

/-- The common checks: an accepted scope (R60) and no reserved predicate (R61). -/
def Common.reject (c : Common) (sc : Scopes) : Option Reject :=
  if !sc.accepts c.scope then some .scopeNotAccepted
  else if c.pmask = 0 ∧ c.pinv = true then some .reservedPredicate
  else none

/-- R70: the bits a role allows a field and its modifier bits to hold. -/
def Role.reject (r : Role) (x : BitVec 10) (mods : Bool) : Option Reject :=
  match r with
  | .reg => none
  | .off => if x ≠ 0 ∨ mods = true then some .unusedField else none
  | .mask | .type => if x.extractLsb' 4 6 ≠ 0 ∨ mods = true then some .maskField else none

/-- A format A row: the roles of its fields, whether CLAMP and SCALE are used, and whether the
negate and absolute-value bits are (R70). -/
structure ARow where
  sc : Scopes := .splc
  dst : Role := .reg
  sa : Role := .reg
  sb : Role := .reg
  scale : Bool := true
  signs : Bool := true
deriving DecidableEq, Repr, Inhabited

def firstReject : List (Option Reject) → Option Reject
  | [] => none
  | some r :: _ => some r
  | none :: l => firstReject l

def rejectIf (b : Bool) (r : Reject) : Option Reject := if b then some r else none

/-- The checks of a format A word (R60, R61, R65, R70). -/
def FmtA.reject (f : FmtA) (r : ARow) : Option Reject :=
  firstReject [
    f.c.reject r.sc,
    r.dst.reject f.dst false,
    r.sa.reject f.sa (f.nega || f.absa || f.lra),
    r.sb.reject f.sb (f.negb || f.absb || f.lrb),
    rejectIf (!r.scale && (f.clamp != 0 || f.scale != 0)) .unusedField,
    rejectIf (!r.signs && (f.nega || f.absa || f.negb || f.absb)) .unusedField]

/-- The checks of a format B word; `sel` holds a mask number in SC (R102). -/
def FmtB.reject (f : FmtB) (sc : Role) : Option Reject :=
  firstReject [f.c.reject .splc, sc.reject f.sc f.lrc]

/-- The checks of a format I word: roles of DST and SA, and the bits of IMM that must be zero. -/
def FmtI.reject (f : FmtI) (sc : Scopes) (dst sa : Role) (zero : BitVec 24) : Option Reject :=
  firstReject [f.c.reject sc, dst.reject f.dst false, sa.reject f.sa false,
    rejectIf (f.imm &&& zero != 0) .immediate]

/-- The ORD codes a row accepts (Table 3.11). -/
inductive Ords where | relaxed | acq | rel | all | fence
deriving DecidableEq, Repr, Inhabited

def Ords.accepts : Ords → BitVec 2 → Bool
  | .relaxed, o => o == 0
  | .acq, o => o == 0 || o == 1
  | .rel, o => o == 0 || o == 2
  | .all, _ => true
  | .fence, o => o != 0

/-- The checks of a format M word (R68, R145): ORD, SSC, SPLIT and LRD. -/
def FmtM.reject (f : FmtM) (sc : Scopes) (o : Ords) (splitOk lrdOk : Bool) : Option Reject :=
  firstReject [
    f.c.reject sc,
    rejectIf (!o.accepts f.ord) .order,
    rejectIf (f.ord == 0 && f.ssc != 0) .order,
    rejectIf (5 ≤ f.ssc.toNat) .order,
    rejectIf (f.split && !(splitOk && f.c.scope == .strand)) .split,
    rejectIf (f.lrd && !lrdOk) .lastRead]

/-- Signalling that a format E row accepts (R69). -/
inductive Signals where | both | noToken | none
deriving DecidableEq, Repr, Inhabited

/-- The checks of a format E word (R69, R70): roles, VAR, CE with CNT, TE with TOK. -/
def FmtE.reject (f : FmtE) (sc : Scopes) (d a b : Role) (vars : Nat) (g : Signals) : Option Reject :=
  firstReject [
    f.c.reject sc,
    d.reject f.opd false, a.reject f.opa false, b.reject f.opb false,
    rejectIf (vars < f.var.toNat) .variant,
    rejectIf (!f.ce && f.cnt != 0) .counterOrToken,
    rejectIf (!f.te && f.tok != 0) .counterOrToken,
    rejectIf (g == .none && f.ce) .counterOrToken,
    rejectIf (g != .both && f.te) .counterOrToken]

/-- R71: a row that rounds accepts rm 0 to 3; one that does not accepts 0 only. -/
def rmReject (rm : BitVec 3) (max : Nat) : Option Reject := rejectIf (max < rm.toNat) .rounding

/-- R76: equal codes or code 15, a mode other than `rn` between integers, `rs` into an integer. -/
def cvtReject (d : CvtTy) (rm : BitVec 3) (sb : BitVec 10) : Option Reject :=
  match CvtTy.ofCode (sb.extractLsb' 0 4).toNat with
  | none => some .cvtTypes
  | some s =>
    if s = d then some .cvtTypes
    else if d.isFloat then rmReject rm 4
    else if s.isFloat then rmReject rm 3
    else rmReject rm 0

/-! ### The checks of each row -/

/-- A row with two register sources and every modifier. -/
def ARow.two : ARow := {}
/-- A row with one register source and every modifier. -/
def ARow.one : ARow := { sb := .off }
/-- A comparison (R103). -/
def ARow.cmp : ARow := { dst := .mask, scale := false }
/-- A row of R70 without operands. -/
def ARow.bare (sc : Scopes) : ARow :=
  { sc := sc, dst := .off, sa := .off, sb := .off, scale := false, signs := false }
/-- A parallel row with one per-strand source (R166). -/
def ARow.gather (sc : Scopes) : ARow := { sc := sc, sb := .off, scale := false }
/-- `xlane.*` (R168). -/
def ARow.lane : ARow := { sc := .p, scale := false }
/-- A mask row of Table 6.5. -/
def ARow.masks (dst sa sb : Role) : ARow := { sc := .p, dst := dst, sa := sa, sb := sb, scale := false }

/-- The format fields an instruction carries. -/
def Instr.payload : Instr → Payload
  | .addInt _ f | .subInt _ f | .mulInt _ f | .mulhi _ f | .minInt _ f | .maxInt _ f | .divInt _ f
  | .rem _ f | .shl _ f | .shr _ f => .a f
  | .mad _ f => .b f
  | .addiI32 f | .addiI64 f => .i f
  | .and _ f | .or _ f | .xor _ f | .andn _ f | .not _ f | .popc _ f | .clz _ f | .ctz _ f | .brev _ f
  | .bfe _ f => .a f
  | .bfi _ f => .b f
  | .mov _ f => .a f
  | .nop f => .a f
  | .li f | .lih f => .i f
  | .sel _ f => .b f
  | .cmpEqInt _ f | .cmpNeInt _ f | .cmpLtInt _ f | .cmpLeInt _ f | .cmpGtInt _ f | .cmpGeInt _ f
  | .cmpEqFloat _ f | .cmpNeFloat _ f | .cmpLtFloat _ f | .cmpLeFloat _ f | .cmpGtFloat _ f
  | .cmpGeFloat _ f | .cmpNum _ f | .cmpNan _ f => .a f
  | .addFloat _ _ f | .subFloat _ _ f | .mulFloat _ _ f | .divFloat _ _ f | .sqrt _ _ f
  | .minFloat _ _ f | .maxFloat _ _ f | .rint _ _ f => .a f
  | .fma _ _ f | .fms _ _ f | .fnma _ _ f | .fnms _ _ f => .b f
  | .rsqrt _ _ f | .exp2 _ _ f | .log2 _ _ f | .tanh _ _ f | .sin _ _ f | .cos _ _ f => .a f
  | .cvt _ _ f => .a f
  | .br f => .i f
  | .brx f => .a f
  | .call f | .ret f => .i f
  | .musterCnt f | .musterFirst f | .musterSame f | .musterLanes f
  | .xlaneAt f | .xlaneBelow f | .xlaneAbove f | .xlaneFlip f => .a f
  | .redAdd _ f | .redMin _ f | .redMax _ f | .scanAdd _ f => .a f
  | .redAnd _ f | .redOr _ f | .redXor _ f => .a f
  | .mand f | .mor f | .mxor f | .mandn f | .mnot f | .mpop f | .mfirst f | .mtov f | .vtom f
  | .mlive f => .a f
  | .ldG _ f | .stG _ f | .ldP _ f | .stP _ f | .ldK _ f => .m f
  | .atomAdd _ f | .atomMin _ f | .atomMax _ f | .atomAnd _ f | .atomOr _ f | .atomXor _ f
  | .atomXchg _ f | .atomCas _ f => .m f
  | .atomAddF32 f => .m f
  | .aredAdd _ f | .aredMin _ f | .aredMax _ f | .aredAnd _ f | .aredOr _ f | .aredXor _ f => .m f
  | .aredAddF32 f | .nredAddI32 f | .nredAddF32 f | .pfhL1 f | .pfhLlc f | .pfhNode0 f | .sub f
  | .unsub f | .fence f => .m f
  | .xfence _ _ f => .a f
  | .wtq f | .wake f => .m f
  | .send f | .recv f => .e f
  | .join f | .bar f => .a f
  | .ringPut f | .ringGet f => .e f
  | .cntWait f | .cntMode f | .cntRd f | .crd f | .cwr f | .trap f | .rft f => .i f
  | .launch f | .yield f | .exit f => .a f
  | .cp1d f | .cp2d f | .cpGth f | .cpSct f | .cpFillRaw f | .cpFillEsr f | .cpFillN4e f | .cpZero f
  | .cpSeg f | .cpCancel f => .e f
  | .tbldT4 _ _ f => .e f
  | .tbldG4 _ f => .e f
  | .tbinv f | .tbspill f | .tbfill f => .e f
  | .lmmT8 _ _ f => .e f
  | .lmmT4 _ f | .lmmT4Rb _ f => .e f
  | .lmmG4 _ f | .lmmG4Rb _ f => .e f
  | .dmm _ f => .e f
  | .saccMx f | .saccQ16 f | .zld f | .zst f | .zzero f | .zmov f
  | .srchDist f | .srchKnn f | .srchWalk f | .srchIns f | .srchDel f | .srchSnap f | .srchRel f
  | .srchHeap f | .srchReclaim f | .dist f | .heapPush f | .heapTop f | .heapPop f | .visit f | .hop f
  | .walkEnd f => .e f
  | .fabRedAdd _ f | .fabRedMin _ f | .fabRedMax _ f => .e f
  | .fabTopk f | .fabPut f | .fabGet f | .fabBar f | .fabSig f => .e f
  | .clauseBegin .. | .spill .. | .tick | .homeRead .. | .loadReply .. | .homeWrite .. | .writeAck ..
  | .homeAtomic .. | .capstanNred .. | .refreshWindow | .meshEpoch | .bankAccess .. | .homeSubscribe ..
  | .segmentSnapshot .. | .segmentUpdate .. | .wtqAppend .. | .wakeAtHome .. | .wtqTimeout ..
  | .messageDelivery .. | .pageWalk .. | .copyUnit .. | .copyComplete .. | .laUnit .. | .laComplete ..
  | .srchStart .. | .versionCommit .. | .walkerReply .. | .hopArrival .. | .srchFinish ..
  | .launchEnter .. | .placement .. | .cableEnd .. | .saveComplete .. | .powerWindow ..
  | .thermalMigration .. | .thermalTrip .. | .gateIdle .. | .powerWakeComplete .. | .fabricSlot ..
  | .fecBlockReceive .. | .peerAccessTarget .. | .peerAck .. | .messageLost .. | .fabComplete ..
  | .cxlCompletionTimeout .. | .cxlLinkDown .. | .hostMemWrite .. | .hostMemRead .. | .resumeRetry ..
  | .resumeSkip .. | .resumeTerminate .. | .resumeCancel .. | .resumeRetrySpill .. | .ctxPreempt ..
  | .ctxRestore .. | .ctxTlbinv .. | .ctxFqCtl .. | .ctxFqTailRead .. | .ctxNotify .. | .ctxGpfStart ..
  | .gpfComplete .. | .portOnline .. | .devSvnWrite .. | .devPartCfgWrite .. | .devCoreMapWrite ..
  | .ctxEnable | .ctxDisable | .ctxTerm | .devCtxLaunch .. | .devFwqWrite .. | .fwqService ..
  | .devReset | .powerOn | .port0HotReset | .scrubComplete .. | .bootDoor .. | .firmwareLoad
  | .attestationRequest .. | .ctxCreate .. | .ctxDestroy .. | .ctxAnswer .. | .ctxTerminate ..
  | .illegalInstruction .. | .badRequest .. | .resumeActionReserved .. => .none

/-- What the word alone makes defective in an instruction (rank 4 of Table 3.19); none when nothing does. -/
def Instr.reject : Instr → Option Reject
  | .addInt _ f | .subInt _ f | .mulInt _ f | .mulhi _ f | .minInt _ f | .maxInt _ f | .divInt _ f
  | .rem _ f | .shl _ f | .shr _ f => f.reject .two
  | .mad _ f => f.reject .reg
  | .addiI32 f | .addiI64 f => f.reject .splc .reg .reg 0
  | .and _ f | .or _ f | .xor _ f | .andn _ f | .bfe _ f => f.reject .two
  | .not _ f | .popc _ f | .clz _ f | .ctz _ f | .brev _ f => f.reject .one
  | .bfi _ f => f.reject .reg
  | .mov _ f => f.reject .one
  | .nop f => f.reject (.bare .splc)
  | .li f => f.reject .splc .reg .off 0
  | .lih f => f.reject .splc .reg .reg 0xFF0000
  | .sel _ f => f.reject .mask
  | .cmpEqInt _ f | .cmpNeInt _ f | .cmpLtInt _ f | .cmpLeInt _ f | .cmpGtInt _ f | .cmpGeInt _ f
  | .cmpEqFloat _ f | .cmpNeFloat _ f | .cmpLtFloat _ f | .cmpLeFloat _ f | .cmpGtFloat _ f
  | .cmpGeFloat _ f | .cmpNum _ f | .cmpNan _ f => f.reject .cmp
  | .addFloat _ rm f | .subFloat _ rm f | .mulFloat _ rm f | .divFloat _ rm f =>
    firstReject [f.reject .two, rmReject rm 3]
  | .sqrt _ rm f | .rint _ rm f => firstReject [f.reject .one, rmReject rm 3]
  | .minFloat _ rm f | .maxFloat _ rm f => firstReject [f.reject .two, rmReject rm 0]
  | .fma _ rm f | .fms _ rm f | .fnma _ rm f | .fnms _ rm f => firstReject [f.reject .reg, rmReject rm 3]
  | .rsqrt _ rm f | .exp2 _ rm f | .log2 _ rm f | .tanh _ rm f | .sin _ rm f | .cos _ rm f =>
    firstReject [f.reject .one, rmReject rm 3]
  | .cvt d rm f => firstReject [f.reject { sb := .type }, cvtReject d rm f.sb]
  | .br f => f.reject .splc .off .off 0
  | .brx f => f.reject { dst := .off, sb := .off, scale := false, signs := false }
  | .call f => f.reject .s .reg .reg 0
  | .ret f => f.reject .s .reg .reg 0xFFFFFF
  | .musterCnt f | .musterFirst f | .musterSame f => f.reject (.gather .plc)
  | .musterLanes f => f.reject (.gather .p)
  | .xlaneAt f | .xlaneBelow f | .xlaneAbove f | .xlaneFlip f => f.reject .lane
  | .redAdd _ f | .redMin _ f | .redMax _ f => f.reject (.gather .plc)
  | .scanAdd _ f => f.reject (.gather .p)
  | .redAnd _ f | .redOr _ f | .redXor _ f => f.reject (.gather .plc)
  | .mand f | .mor f | .mxor f | .mandn f => f.reject (.masks .mask .mask .mask)
  | .mnot f => f.reject (.masks .mask .mask .off)
  | .mpop f | .mfirst f | .mtov f => f.reject (.masks .reg .mask .off)
  | .vtom f => f.reject (.masks .mask .reg .off)
  | .mlive f => f.reject (.masks .mask .off .off)
  | .ldG _ f | .ldP _ f => f.reject .splc .acq true false
  | .stG z f | .stP z f => firstReject [rejectIf (!z.storable) .unassignedOp, f.reject .splc .rel false true]
  | .ldK _ f => f.reject .pc .acq false false
  | .atomAdd _ f | .atomMin _ f | .atomMax _ f | .atomAnd _ f | .atomOr _ f | .atomXor _ f
  | .atomXchg _ f | .atomCas _ f => f.reject .splc .all false true
  | .atomAddF32 f => f.reject .splc .all false true
  | .aredAdd _ f | .aredMin _ f | .aredMax _ f | .aredAnd _ f | .aredOr _ f | .aredXor _ f =>
    f.reject .splc .rel false true
  | .aredAddF32 f | .nredAddI32 f | .nredAddF32 f => f.reject .splc .rel false true
  | .pfhL1 f => firstReject [rejectIf (f.data != 0) .unusedField, f.reject .splc .relaxed false false]
  | .pfhLlc f => firstReject [rejectIf (f.data != 1) .unusedField, f.reject .splc .relaxed false false]
  | .pfhNode0 f => firstReject [rejectIf (f.data != 2) .unusedField, f.reject .splc .relaxed false false]
  | .sub f | .unsub f => f.reject .pc .relaxed false true
  | .fence f =>
    firstReject [rejectIf (f.data != 0 || f.base != 0 || f.off != 0 || f.lrbs) .unusedField,
      f.reject .splc .fence false false]
  | .xfence a b f => firstReject [rejectIf (a == b) .unassignedOp, f.reject (.bare .splc)]
  | .wtq f => f.reject .s .relaxed false false
  | .wake f => f.reject .splc .relaxed false true
  | .send f => f.reject .sp .reg .reg .reg 0 .noToken
  | .recv f => f.reject .sp .reg .reg .reg 0 .both
  | .join f => f.reject { sc := .s, dst := .off, sa := .mask, sb := .off, scale := false, signs := false }
  | .bar f => f.reject (.bare .lc)
  | .ringPut f | .ringGet f => f.reject .pl .reg .reg .reg 0 .none
  | .cntWait f => f.reject .splc .off .off 0xF00000
  | .cntMode f => f.reject .pc .off .off 0xF0FFFE
  | .cntRd f => f.reject .splc .reg .off 0xF0FFFF
  | .crd f => f.reject .splc .reg .off 0xFF0000
  | .cwr f => f.reject .splc .off .reg 0xFF0000
  | .trap f => f.reject .s .off .off 0xFF0000
  | .rft f => f.reject .s .off .off 0xFFFFFF
  | .launch f => f.reject { dst := .off, sb := .off, scale := false, signs := false }
  | .yield f => f.reject (.bare .p)
  | .exit f => f.reject (.bare .splc)
  | .cp1d f | .cp2d f | .cpGth f | .cpSct f | .cpFillRaw f | .cpFillEsr f | .cpFillN4e f =>
    f.reject .splc .reg .reg .reg 0 .both
  | .cpZero f => f.reject .splc .reg .off .reg 0 .both
  | .cpSeg f => f.reject .splc .reg .off .off 0 .both
  | .cpCancel f => f.reject .splc .off .reg .off 0 .none
  | .tbldT4 _ _ f => f.reject .plc .reg .reg .off 0 .both
  | .tbldG4 _ f => f.reject .plc .reg .reg .reg 0 .both
  | .tbinv f => f.reject .plc .reg .off .off 0 .both
  | .tbspill f | .tbfill f => f.reject .plc .reg .reg .off 0 .both
  | .lmmT8 _ _ f => f.reject .plc .reg .reg .reg 0 .both
  | .lmmT4 _ f | .lmmT4Rb _ f => f.reject .plc .reg .reg .off 2 .both
  | .lmmG4 _ f | .lmmG4Rb _ f => f.reject .plc .reg .reg .off 2 .both
  | .dmm _ f => f.reject .plc .reg .reg .reg 0 .both
  | .saccMx f | .saccQ16 f => f.reject .plc .reg .reg .reg 0 .both
  | .zld f | .zst f => f.reject .plc .reg .reg .reg 0 .both
  | .zzero f => f.reject .plc .reg .off .off 0 .both
  | .zmov f => f.reject .plc .reg .reg .off 0 .both
  | .srchDist f | .srchKnn f | .srchWalk f => f.reject .splc .reg .reg .reg 2 .both
  | .srchIns f => f.reject .splc .reg .reg .reg 0 .both
  | .srchDel f | .srchSnap f | .srchRel f | .srchHeap f | .srchReclaim f =>
    f.reject .splc .reg .off .reg 0 .both
  | .dist f => f.reject .s .reg .reg .off 2 .none
  | .heapPush f => f.reject .s .off .reg .reg 0 .none
  | .heapTop f | .heapPop f => f.reject .s .reg .off .off 0 .none
  | .visit f => f.reject .s .reg .reg .off 0 .none
  | .hop f => f.reject .s .off .reg .off 0 .none
  | .walkEnd f => f.reject .s .off .off .off 0 .none
  | .fabRedAdd _ f | .fabRedMin _ f | .fabRedMax _ f => f.reject .plc .reg .reg .reg 0 .both
  | .fabTopk f | .fabPut f | .fabGet f => f.reject .plc .reg .reg .reg 0 .both
  | .fabBar f => f.reject .plc .off .off .reg 0 .both
  | .fabSig f => f.reject .plc .off .reg .reg 0 .both
  | .clauseBegin .. | .spill .. | .tick | .homeRead .. | .loadReply .. | .homeWrite .. | .writeAck ..
  | .homeAtomic .. | .capstanNred .. | .refreshWindow | .meshEpoch | .bankAccess .. | .homeSubscribe ..
  | .segmentSnapshot .. | .segmentUpdate .. | .wtqAppend .. | .wakeAtHome .. | .wtqTimeout ..
  | .messageDelivery .. | .pageWalk .. | .copyUnit .. | .copyComplete .. | .laUnit .. | .laComplete ..
  | .srchStart .. | .versionCommit .. | .walkerReply .. | .hopArrival .. | .srchFinish ..
  | .launchEnter .. | .placement .. | .cableEnd .. | .saveComplete .. | .powerWindow ..
  | .thermalMigration .. | .thermalTrip .. | .gateIdle .. | .powerWakeComplete .. | .fabricSlot ..
  | .fecBlockReceive .. | .peerAccessTarget .. | .peerAck .. | .messageLost .. | .fabComplete ..
  | .cxlCompletionTimeout .. | .cxlLinkDown .. | .hostMemWrite .. | .hostMemRead .. | .resumeRetry ..
  | .resumeSkip .. | .resumeTerminate .. | .resumeCancel .. | .resumeRetrySpill .. | .ctxPreempt ..
  | .ctxRestore .. | .ctxTlbinv .. | .ctxFqCtl .. | .ctxFqTailRead .. | .ctxNotify .. | .ctxGpfStart ..
  | .gpfComplete .. | .portOnline .. | .devSvnWrite .. | .devPartCfgWrite .. | .devCoreMapWrite ..
  | .ctxEnable | .ctxDisable | .ctxTerm | .devCtxLaunch .. | .devFwqWrite .. | .fwqService ..
  | .devReset | .powerOn | .port0HotReset | .scrubComplete .. | .bootDoor .. | .firmwareLoad
  | .attestationRequest .. | .ctxCreate .. | .ctxDestroy .. | .ctxAnswer .. | .ctxTerminate ..
  | .illegalInstruction .. | .badRequest .. | .resumeActionReserved .. => none

end Sys2Proof
end

