-- ==== Sys2Proof/WellFormed.lean ====
section
/-! DEFINITION. Which instruction words are instructions: nothing in the word is defective at the fourth rank of
03 Table 3.19. -/
namespace Sys2Proof

/-- The instruction's own word has no defect of rank 4 (R60 to R62, R68 to R71, R76 to R78, R145). -/
abbrev Instr.WellFormed (i : Instr) : Prop := i.reject = none

/-- The instruction has a word: it is no step of the device itself. -/
abbrev Instr.HasWord (i : Instr) : Prop := i.row.isSome = true

end Sys2Proof
end

