-- ==== Sys2Proof/Decode.lean ====
section
/-! DEFINITION. Decoding and encoding of clause headers and instruction words (03 R59 to R81). -/
namespace Sys2Proof

/-! ### Clause headers (03 R62) -/

/-- One wait condition of a header. -/
structure Wait where
  en : Bool
  cnt : BitVec 4
  thr : BitVec 6
deriving DecidableEq, Repr, Inhabited

/-- A clause header (03 Table 3.2). -/
structure Header where
  cls : Cls
  len : BitVec 4
  bpmask : BitVec 16
  wa : Wait
  wb : Wait
  yield : Bool
deriving DecidableEq, Repr, Inhabited

/-- The number of instructions of the clause (R17). -/
def Header.count (h : Header) : Nat := h.len.toNat + 1

def boolBit (b : Bool) : BitVec 1 := BitVec.ofBool b

def Wait.ok (w : Wait) : Bool := w.en || (w.cnt == 0 && w.thr == 0)

/-- The header's own checks: no breakpoint at or above the length, no counter or threshold in a wait that is not
enabled (R62). -/
def Header.ok (h : Header) : Bool :=
  h.bpmask.toNat < 2 ^ h.count && h.wa.ok && h.wb.ok

/-- Decodes a header word; none for a header defect of R62 and R22. -/
def Header.decode (w : W64) : Option Header :=
  match Cls.ofCode (w.extractLsb' 60 4) with
  | none => none
  | some c =>
    let h : Header :=
      { cls := c, len := w.extractLsb' 56 4, bpmask := w.extractLsb' 40 16
        wa := { en := w.getLsbD 39, cnt := w.extractLsb' 35 4, thr := w.extractLsb' 29 6 }
        wb := { en := w.getLsbD 28, cnt := w.extractLsb' 24 4, thr := w.extractLsb' 18 6 }
        yield := w.getLsbD 17 }
    if w.extractLsb' 0 17 = 0 ∧ h.ok = true then some h else none

/-- The word of a header. -/
def Header.encode (h : Header) : W64 :=
  h.cls.code ++ h.len ++ h.bpmask ++ boolBit h.wa.en ++ h.wa.cnt ++ h.wa.thr
    ++ boolBit h.wb.en ++ h.wb.cnt ++ h.wb.thr ++ boolBit h.yield ++ (0 : BitVec 17)

/-! ### Format fields (03 R59, R65 to R69) -/

def Common.ofWord (w : W64) : Common :=
  { pinv := w.getLsbD 18, pmask := w.extractLsb' 14 4, lay := w.extractLsb' 12 2
    scope := Scope.ofCode (w.extractLsb' 10 2) }

def FmtA.ofWord (w : W64) : FmtA :=
  { c := Common.ofWord w, dst := w.extractLsb' 53 10, sa := w.extractLsb' 43 10, sb := w.extractLsb' 33 10
    nega := w.getLsbD 32, absa := w.getLsbD 31, lra := w.getLsbD 30
    negb := w.getLsbD 29, absb := w.getLsbD 28, lrb := w.getLsbD 27
    clamp := w.extractLsb' 25 2, scale := w.extractLsb' 21 4 }

def FmtB.ofWord (w : W64) : FmtB :=
  { c := Common.ofWord w, dst := w.extractLsb' 53 10, sa := w.extractLsb' 43 10, sb := w.extractLsb' 33 10
    sc := w.extractLsb' 23 10, lra := w.getLsbD 22, lrb := w.getLsbD 21, lrc := w.getLsbD 20 }

def FmtI.ofWord (w : W64) : FmtI :=
  { c := Common.ofWord w, dst := w.extractLsb' 53 10, sa := w.extractLsb' 43 10, imm := w.extractLsb' 19 24 }

def FmtM.ofWord (w : W64) : FmtM :=
  { c := Common.ofWord w, data := w.extractLsb' 53 10, base := w.extractLsb' 43 10
    lrd := w.getLsbD 42, lrbs := w.getLsbD 41, ord := w.extractLsb' 39 2, ssc := w.extractLsb' 36 3
    split := w.getLsbD 35, off := w.extractLsb' 19 16 }

def FmtE.ofWord (w : W64) : FmtE :=
  { c := Common.ofWord w, opd := w.extractLsb' 53 10, opa := w.extractLsb' 43 10, opb := w.extractLsb' 33 10
    ce := w.getLsbD 32, cnt := w.extractLsb' 28 4, te := w.getLsbD 27, tok := w.extractLsb' 21 6
    var := w.extractLsb' 19 2 }

/-- Bits [18:0] of a word. -/
def Common.bits (c : Common) (op : BitVec 10) : BitVec 19 :=
  boolBit c.pinv ++ c.pmask ++ c.lay ++ c.scope.code ++ op

def FmtA.encode (f : FmtA) (op : BitVec 10) : W64 :=
  (1 : BitVec 1) ++ f.dst ++ f.sa ++ f.sb ++ boolBit f.nega ++ boolBit f.absa ++ boolBit f.lra
    ++ boolBit f.negb ++ boolBit f.absb ++ boolBit f.lrb ++ f.clamp ++ f.scale ++ (0 : BitVec 2) ++ f.c.bits op

def FmtB.encode (f : FmtB) (op : BitVec 10) : W64 :=
  (1 : BitVec 1) ++ f.dst ++ f.sa ++ f.sb ++ f.sc ++ boolBit f.lra ++ boolBit f.lrb ++ boolBit f.lrc
    ++ (0 : BitVec 1) ++ f.c.bits op

def FmtI.encode (f : FmtI) (op : BitVec 10) : W64 :=
  (1 : BitVec 1) ++ f.dst ++ f.sa ++ f.imm ++ f.c.bits op

def FmtM.encode (f : FmtM) (op : BitVec 10) : W64 :=
  (1 : BitVec 1) ++ f.data ++ f.base ++ boolBit f.lrd ++ boolBit f.lrbs ++ f.ord ++ f.ssc ++ boolBit f.split
    ++ f.off ++ f.c.bits op

def FmtE.encode (f : FmtE) (op : BitVec 10) : W64 :=
  (1 : BitVec 1) ++ f.opd ++ f.opa ++ f.opb ++ boolBit f.ce ++ f.cnt ++ boolBit f.te ++ f.tok ++ f.var
    ++ f.c.bits op

/-! ### Rows by OP (03 Tables 3.10 to 3.17) -/

/-- What an assigned OP makes of the fields of its format. -/
inductive Mk where
  | a (k : FmtA → Instr)
  | b (k : FmtB → Instr)
  | i (k : FmtI → Instr)
  | m (k : FmtM → Instr)
  | e (k : FmtE → Instr)

/-- Table 3.10, OP 0x000 to 0x07F. -/
def aluLow (op : Nat) : Option Mk :=
  if op < 0x028 then
    let t := IntTy.ofCode (op % 4)
    match op / 4 with
    | 0 => some (.a (.addInt t)) | 1 => some (.a (.subInt t)) | 2 => some (.a (.mulInt t))
    | 3 => some (.a (.mulhi t)) | 4 => some (.a (.minInt t)) | 5 => some (.a (.maxInt t))
    | 6 => some (.a (.divInt t)) | 7 => some (.a (.rem t)) | 8 => some (.a (.shl t))
    | _ => some (.a (.shr t))
  else if op < 0x02C then some (.b (.mad (IntTy.ofCode (op % 4))))
  else if op < 0x040 then none
  else if op < 0x058 then
    let w := Width.ofCode (op % 2)
    match (op - 0x040) / 2 with
    | 0 => some (.a (.and w)) | 1 => some (.a (.or w)) | 2 => some (.a (.xor w)) | 3 => some (.a (.andn w))
    | 4 => some (.a (.not w)) | 5 => some (.a (.popc w)) | 6 => some (.a (.clz w)) | 7 => some (.a (.ctz w))
    | 8 => some (.a (.brev w)) | 9 => some (.a (.bfe w)) | 10 => some (.b (.bfi w))
    | _ => some (.a (.mov w))
  else match op with
    | 0x058 => some (.a .nop)
    | 0x060 => some (.i .li)
    | 0x061 => some (.i .lih)
    | 0x062 => some (.i .addiI32)
    | 0x063 => some (.i .addiI64)
    | 0x064 => some (.b (.sel .b32))
    | 0x065 => some (.b (.sel .b64))
    | 0x070 => some (.i .br)
    | 0x071 => some (.a .brx)
    | 0x072 => some (.i .call)
    | 0x073 => some (.i .ret)
    | _ => none

/-- Table 3.10, OP 0x080 to 0x0FF. -/
def aluMid (op : Nat) : Option Mk :=
  if op < 0x098 then
    let t := IntTy.ofCode (op % 4)
    match (op - 0x080) / 4 with
    | 0 => some (.a (.cmpEqInt t)) | 1 => some (.a (.cmpNeInt t)) | 2 => some (.a (.cmpLtInt t))
    | 3 => some (.a (.cmpLeInt t)) | 4 => some (.a (.cmpGtInt t)) | _ => some (.a (.cmpGeInt t))
  else if op < 0x0A0 then none
  else if op < 0x0C0 then
    let t := FloatTy.ofCode (op % 4)
    match (op - 0x0A0) / 4 with
    | 0 => some (.a (.cmpEqFloat t)) | 1 => some (.a (.cmpNeFloat t)) | 2 => some (.a (.cmpLtFloat t))
    | 3 => some (.a (.cmpLeFloat t)) | 4 => some (.a (.cmpGtFloat t)) | 5 => some (.a (.cmpGeFloat t))
    | 6 => some (.a (.cmpNum t)) | _ => some (.a (.cmpNan t))
  else if op < 0x0D0 then
    match op with
    | 0x0C0 => some (.a .musterCnt) | 0x0C1 => some (.a .musterFirst) | 0x0C2 => some (.a .musterSame)
    | 0x0C3 => some (.a .musterLanes) | 0x0C4 => some (.a .xlaneAt) | 0x0C5 => some (.a .xlaneBelow)
    | 0x0C6 => some (.a .xlaneAbove) | 0x0C7 => some (.a .xlaneFlip) | _ => none
  else if op < 0x0E0 then
    let t := RedTy.ofCode (op % 4)
    match (op - 0x0D0) / 4 with
    | 0 => some (.a (.redAdd t)) | 1 => some (.a (.redMin t)) | 2 => some (.a (.redMax t))
    | _ => some (.a (.scanAdd t))
  else match op with
    | 0x0E0 => some (.a (.redAnd .b32)) | 0x0E1 => some (.a (.redAnd .b64))
    | 0x0E2 => some (.a (.redOr .b32)) | 0x0E3 => some (.a (.redOr .b64))
    | 0x0E4 => some (.a (.redXor .b32)) | 0x0E5 => some (.a (.redXor .b64))
    | 0x0F0 => some (.a .mand) | 0x0F1 => some (.a .mor) | 0x0F2 => some (.a .mxor) | 0x0F3 => some (.a .mandn)
    | 0x0F4 => some (.a .mnot) | 0x0F5 => some (.a .mpop) | 0x0F6 => some (.a .mfirst) | 0x0F7 => some (.a .mtov)
    | 0x0F8 => some (.a .vtom) | 0x0F9 => some (.a .mlive) | _ => none

/-- Table 3.10, OP 0x100 to 0x3FF: the rows that name a rounding mode. -/
def aluHigh (op : Nat) : Option Mk :=
  let t := FloatTy.ofCode (op / 8 % 4)
  let rm := BitVec.ofNat 3 (op % 8)
  match op / 32 with
  | 8 => some (.a (.addFloat t rm)) | 9 => some (.a (.subFloat t rm)) | 10 => some (.a (.mulFloat t rm))
  | 11 => some (.a (.divFloat t rm)) | 12 => some (.a (.sqrt t rm)) | 13 => some (.a (.minFloat t rm))
  | 14 => some (.a (.maxFloat t rm)) | 15 => some (.a (.rint t rm))
  | 16 => some (.b (.fma t rm)) | 17 => some (.b (.fms t rm)) | 18 => some (.b (.fnma t rm))
  | 19 => some (.b (.fnms t rm))
  | 20 => some (.a (.rsqrt t rm)) | 21 => some (.a (.exp2 t rm)) | 22 => some (.a (.log2 t rm))
  | 23 => some (.a (.tanh t rm))
  | 24 | 25 | 26 | 27 => (CvtTy.ofCode ((op - 0x300) / 8)).map fun d => .a (.cvt d rm)
  | 28 => some (.a (.sin t rm)) | 29 => some (.a (.cos t rm))
  | _ => none

/-- Table 3.10. -/
def aluMk (op : Nat) : Option Mk :=
  if op < 0x080 then aluLow op else if op < 0x100 then aluMid op else aluHigh op

/-- `pfh` selects its level by DATA (Table 3.11). -/
def pfhOf (f : FmtM) : Instr :=
  if f.data = 1 then .pfhLlc f else if f.data = 2 then .pfhNode0 f else .pfhL1 f

/-- Table 3.11. -/
def memMk (op : Nat) : Option Mk :=
  if op < 0x028 then
    match SizeZ.ofCode (op % 8) with
    | none => none
    | some z =>
      match op / 8 with
      | 0 => some (.m (.ldG z)) | 1 => some (.m (.stG z)) | 2 => some (.m (.ldP z)) | 3 => some (.m (.stP z))
      | _ => some (.m (.ldK z))
  else if op < 0x040 then none
  else if op < 0x060 then
    let t := IntTy.ofCode (op % 4)
    match (op - 0x040) / 4 with
    | 0 => some (.m (.atomAdd t)) | 1 => some (.m (.atomMin t)) | 2 => some (.m (.atomMax t))
    | 3 => some (.m (.atomAnd t)) | 4 => some (.m (.atomOr t)) | 5 => some (.m (.atomXor t))
    | 6 => some (.m (.atomXchg t)) | _ => some (.m (.atomCas t))
  else if op < 0x070 then if op = 0x060 then some (.m .atomAddF32) else none
  else if op < 0x088 then
    let t := IntTy.ofCode (op % 4)
    match (op - 0x070) / 4 with
    | 0 => some (.m (.aredAdd t)) | 1 => some (.m (.aredMin t)) | 2 => some (.m (.aredMax t))
    | 3 => some (.m (.aredAnd t)) | 4 => some (.m (.aredOr t)) | _ => some (.m (.aredXor t))
  else match op with
    | 0x088 => some (.m .aredAddF32)
    | 0x090 => some (.m .nredAddI32) | 0x091 => some (.m .nredAddF32)
    | 0x0A0 => some (.m pfhOf)
    | 0x0B0 => some (.m .sub) | 0x0B1 => some (.m .unsub)
    | _ => none

/-- Table 3.12. -/
def syncMk (op : Nat) : Option Mk :=
  if op = 0x000 then some (.m .fence)
  else if op < 0x040 then none
  else if op < 0x080 then
    match Path.ofCode ((op - 0x040) / 8), Path.ofCode (op % 8) with
    | some a, some b => some (.a (.xfence a b))
    | _, _ => none
  else match op with
    | 0x080 => some (.m .wtq) | 0x081 => some (.m .wake)
    | 0x090 => some (.e .send) | 0x091 => some (.e .recv)
    | 0x0A0 => some (.a .join) | 0x0A1 => some (.a .bar)
    | 0x0B0 => some (.e .ringPut) | 0x0B1 => some (.e .ringGet)
    | 0x0C0 => some (.i .cntWait) | 0x0C1 => some (.i .cntMode) | 0x0C2 => some (.i .cntRd)
    | _ => none

/-- Table 3.17. -/
def sysMk (op : Nat) : Option Mk :=
  match op with
  | 0x000 => some (.i .crd) | 0x001 => some (.i .cwr)
  | 0x010 => some (.i .trap) | 0x011 => some (.i .rft)
  | 0x020 => some (.a .launch)
  | 0x030 => some (.a .yield) | 0x031 => some (.a .exit)
  | _ => none

/-- Table 3.13. -/
def copyMk (op : Nat) : Option Mk :=
  match op with
  | 0x000 => some (.e .cp1d) | 0x001 => some (.e .cp2d) | 0x002 => some (.e .cpGth) | 0x003 => some (.e .cpSct)
  | 0x004 => some (.e .cpFillRaw) | 0x005 => some (.e .cpFillEsr) | 0x006 => some (.e .cpFillN4e)
  | 0x007 => some (.e .cpZero) | 0x008 => some (.e .cpSeg) | 0x009 => some (.e .cpCancel)
  | _ => none

/-- Table 3.14. -/
def laMk (op : Nat) : Option Mk :=
  if op < 0x00C then some (.e (.tbldT4 (WFmt.ofCode (op / 4)) (AFmt.ofCode (op % 4))))
  else if op < 0x010 then none
  else if op < 0x013 then (Fmt8.ofCode (op - 0x010)).map fun a => .e (.tbldG4 a)
  else if op < 0x040 then
    match op with
    | 0x020 => some (.e .tbinv) | 0x021 => some (.e .tbspill) | 0x022 => some (.e .tbfill)
    | _ => none
  else if op < 0x050 then
    match Fmt8.ofCode ((op - 0x040) / 4), Fmt8.ofCode (op % 4) with
    | some x, some a => some (.e (.lmmT8 x a))
    | _, _ => none
  else if op < 0x070 then
    match op with
    | 0x050 => some (.e (.lmmT4 .e2m1)) | 0x051 => some (.e (.lmmT4 .int4)) | 0x052 => some (.e (.lmmT4 .q16))
    | 0x058 => some (.e (.lmmT4Rb .e2m1)) | 0x059 => some (.e (.lmmT4Rb .int4))
    | 0x05A => some (.e (.lmmT4Rb .q16))
    | 0x060 => some (.e (.lmmG4 .w1)) | 0x061 => some (.e (.lmmG4 .w2)) | 0x062 => some (.e (.lmmG4 .w3))
    | 0x068 => some (.e (.lmmG4Rb .w1)) | 0x069 => some (.e (.lmmG4Rb .w2)) | 0x06A => some (.e (.lmmG4Rb .w3))
    | _ => none
  else if op < 0x074 then some (.e (.dmm (FloatTy.ofCode (op - 0x070))))
  else match op with
    | 0x080 => some (.e .saccMx) | 0x081 => some (.e .saccQ16)
    | 0x090 => some (.e .zld) | 0x091 => some (.e .zst) | 0x092 => some (.e .zzero) | 0x093 => some (.e .zmov)
    | _ => none

/-- Table 3.15. -/
def srchMk (op : Nat) : Option Mk :=
  match op with
  | 0x000 => some (.e .srchDist) | 0x001 => some (.e .srchKnn) | 0x002 => some (.e .srchWalk)
  | 0x003 => some (.e .srchIns) | 0x004 => some (.e .srchDel) | 0x005 => some (.e .srchSnap)
  | 0x006 => some (.e .srchRel) | 0x007 => some (.e .srchHeap) | 0x008 => some (.e .srchReclaim)
  | 0x100 => some (.e .dist)
  | 0x110 => some (.e .heapPush) | 0x111 => some (.e .heapTop) | 0x112 => some (.e .heapPop)
  | 0x120 => some (.e .visit)
  | 0x130 => some (.e .hop) | 0x131 => some (.e .walkEnd)
  | _ => none

/-- Table 3.16. -/
def fabMk (op : Nat) : Option Mk :=
  match op with
  | 0x000 => some (.e (.fabRedAdd .f32)) | 0x001 => some (.e (.fabRedAdd .f64))
  | 0x002 => some (.e (.fabRedAdd .i32)) | 0x003 => some (.e (.fabRedAdd .i64))
  | 0x004 => some (.e (.fabRedMin .f32)) | 0x005 => some (.e (.fabRedMin .f64))
  | 0x006 => some (.e (.fabRedMin .i32)) | 0x007 => some (.e (.fabRedMin .i64))
  | 0x008 => some (.e (.fabRedMax .f32)) | 0x009 => some (.e (.fabRedMax .f64))
  | 0x00A => some (.e (.fabRedMax .i32)) | 0x00B => some (.e (.fabRedMax .i64))
  | 0x010 => some (.e .fabTopk)
  | 0x020 => some (.e .fabPut) | 0x021 => some (.e .fabGet)
  | 0x030 => some (.e .fabBar) | 0x031 => some (.e .fabSig)
  | _ => none

/-- The row an OP selects in an engine class (R73). -/
def mkOf (c : Cls) (op : Nat) : Option Mk :=
  match c with
  | .alu => aluMk op | .mem => memMk op | .copy => copyMk op | .la => laMk op
  | .srch => srchMk op | .sync => syncMk op | .fab => fabMk op | .sys => sysMk op

/-- The instruction a row makes of a word, or the reserved bits of its format that are set (R65, R66). -/
def Mk.build (k : Mk) (w : W64) : Except Reject Instr :=
  match k with
  | .a k => if w.extractLsb' 19 2 ≠ 0 then .error .reservedField else .ok (k (FmtA.ofWord w))
  | .b k => if w.getLsbD 19 = true then .error .reservedField else .ok (k (FmtB.ofWord w))
  | .i k => .ok (k (FmtI.ofWord w))
  | .m k => .ok (k (FmtM.ofWord w))
  | .e k => .ok (k (FmtE.ofWord w))

/-- Decodes an instruction word in a clause of class `c`: bit [63] (R18), the OP (R73), the reserved bits and the
row's own checks (rank 3 and rank 4 of Table 3.19). -/
def decodeWord (c : Cls) (w : W64) : Except Reject Instr :=
  if w.getLsbD 63 = false then .error .notAnInstruction
  else match mkOf c (w.extractLsb' 0 10).toNat with
    | none => .error .unassignedOp
    | some k =>
      match k.build w with
      | .error r => .error r
      | .ok i =>
        match i.reject with
        | some r => .error r
        | none => .ok i

/-- The word of an instruction (R59), all zero for a step of the device, which has none. -/
def encode (i : Instr) : W64 :=
  match i.row with
  | none => 0
  | some (_, op) =>
    match i.payload with
    | .a f => f.encode (BitVec.ofNat 10 op)
    | .b f => f.encode (BitVec.ofNat 10 op)
    | .i f => f.encode (BitVec.ofNat 10 op)
    | .m f => f.encode (BitVec.ofNat 10 op)
    | .e f => f.encode (BitVec.ofNat 10 op)
    | .none => 0

/-- The class of the clause an instruction stands in (R17). -/
def Instr.cls (i : Instr) : Option Cls := i.row.map Prod.fst

/-- The decoder on the numbering of the opcode table: the header of the clause in bits [63:0] and the instruction
word in bits [127:64]; with 64 bits or fewer, the instruction word alone, read in a clause of class ALU. -/
def decodeTableWord (nbits w : Nat) : Option Instr :=
  if nbits ≤ 64 then (decodeWord .alu (BitVec.ofNat 64 w)).toOption
  else match Header.decode (BitVec.ofNat 64 w) with
    | none => none
    | some h => (decodeWord h.cls (BitVec.ofNat 64 (w / 2 ^ 64))).toOption

end Sys2Proof
end

