-- ==== Sys2Proof/Machine/Numbers.lean ====
section
/-! DEFINITION. Number formats and exact arithmetic (02): exact values, patterns, rounding, flags, ordered sums. -/
namespace Sys2Proof

/-! ### Formats (02 R41, R42, Table 2.2) -/

/-- The floating-point formats. -/
inductive Fmt where | f64 | f32 | f16 | bf16 | e5m2 | e4m3 | e2m1
deriving DecidableEq, Repr, Inhabited

/-- Bits of a pattern. -/
def Fmt.bits : Fmt → Nat | .f64 => 64 | .f32 => 32 | .f16 => 16 | .bf16 => 16 | .e5m2 => 8 | .e4m3 => 8 | .e2m1 => 4
/-- Fraction width p. -/
def Fmt.p : Fmt → Nat | .f64 => 52 | .f32 => 23 | .f16 => 10 | .bf16 => 7 | .e5m2 => 2 | .e4m3 => 3 | .e2m1 => 1
/-- Exponent width e. -/
def Fmt.ebits (F : Fmt) : Nat := F.bits - 1 - F.p
/-- The bias. -/
def Fmt.bias : Fmt → Nat | .f64 => 1023 | .f32 => 127 | .f16 => 15 | .bf16 => 127 | .e5m2 => 15 | .e4m3 => 7 | .e2m1 => 1
/-- The exponent of the smallest normal value, 1 − bias (R51). -/
def Fmt.emin (F : Fmt) : Int := 1 - (F.bias : Int)
def Fmt.hasInf : Fmt → Bool | .e4m3 => false | .e2m1 => false | _ => true
def Fmt.hasNaN : Fmt → Bool | .e2m1 => false | _ => true
/-- The pattern of the largest finite value (Table 2.2). -/
def Fmt.maxPat : Fmt → Nat
  | .f64 => 0x7FEFFFFFFFFFFFFF | .f32 => 0x7F7FFFFF | .f16 => 0x7BFF | .bf16 => 0x7F7F
  | .e5m2 => 0x7B | .e4m3 => 0x7E | .e2m1 => 0x7
/-- The canonical NaN (R43); `e2m1` has none and delivers +0 (R51). -/
def Fmt.nanPat : Fmt → Nat
  | .f64 => 0x7FF8000000000000 | .f32 => 0x7FC00000 | .f16 => 0x7E00 | .bf16 => 0x7FC0
  | .e5m2 => 0x7F | .e4m3 => 0x7F | .e2m1 => 0
/-- The pattern of +∞ where the format has one. -/
def Fmt.infPat (F : Fmt) : Nat := (2 ^ F.ebits - 1) * 2 ^ F.p
/-- The sign bit. -/
def Fmt.signBit (F : Fmt) : Nat := 2 ^ (F.bits - 1)

def FloatTy.fmt : FloatTy → Fmt | .f64 => .f64 | .f32 => .f32 | .f16 => .f16 | .bf16 => .bf16

/-! ### Exact values (02 R41, R45) -/

/-- An exact real, an infinity or a NaN; zero keeps its sign. A finite value is ± num / den, both positive. -/
inductive XVal where
  | nan
  | inf (neg : Bool)
  | zero (neg : Bool)
  | fin (neg : Bool) (num den : Nat)
deriving DecidableEq, Repr, Inhabited

/-- ± num / den, zero when num is. -/
def XVal.ofRat (neg : Bool) (num den : Nat) : XVal := if num = 0 then .zero neg else .fin neg num den

/-- (num, den) × 2^k. -/
def scale2 (num den : Nat) (k : Int) : Nat × Nat :=
  if 0 ≤ k then (num * 2 ^ k.toNat, den) else (num, den * 2 ^ (-k).toNat)

/-- ± m × 2^k. -/
def XVal.ofDyadic (neg : Bool) (m : Nat) (k : Int) : XVal :=
  let (n, d) := scale2 m 1 k
  XVal.ofRat neg n d

/-- An integer. -/
def XVal.ofInt (i : Int) : XVal := XVal.ofRat (i < 0) i.natAbs 1

def XVal.isNaN : XVal → Bool | .nan => true | _ => false
def XVal.isInf : XVal → Bool | .inf _ => true | _ => false
def XVal.isZero : XVal → Bool | .zero _ => true | _ => false
/-- The sign, of zeros and infinities too. -/
def XVal.neg? : XVal → Bool | .nan => false | .inf s => s | .zero s => s | .fin s _ _ => s
def XVal.neg : XVal → XVal
  | .nan => .nan | .inf s => .inf (!s) | .zero s => .zero (!s) | .fin s n d => .fin (!s) n d
def XVal.withSign (s : Bool) : XVal → XVal
  | .nan => .nan | .inf _ => .inf s | .zero _ => .zero s | .fin _ n d => .fin s n d
/-- x × 2^k. -/
def XVal.scale (x : XVal) (k : Int) : XVal :=
  match x with
  | .fin s n d => let (n', d') := scale2 n d k; .fin s n' d'
  | y => y

/-- Decode(F, bits) (R58): bits above the format's width are ignored. -/
def Fmt.decode (F : Fmt) (bits : Nat) : XVal :=
  let b := bits % 2 ^ F.bits
  let s := decide (F.signBit ≤ b)
  let mag := b % F.signBit
  let e := mag / 2 ^ F.p
  let m := mag % 2 ^ F.p
  if F.hasInf && e == 2 ^ F.ebits - 1 then (if m = 0 then .inf s else .nan)
  else if F == .e4m3 && mag == 0x7F then .nan
  else if e = 0 then XVal.ofDyadic s m (F.emin - F.p)
  else XVal.ofDyadic s (2 ^ F.p + m) ((e : Int) - F.bias - F.p)

/-! ### Flags (02 Table 2.9) -/

abbrev Flags := BitVec 5
def Flags.nx : Flags := 1
def Flags.uf : Flags := 2
def Flags.of : Flags := 4
def Flags.dz : Flags := 8
def Flags.nv : Flags := 16

/-! ### Rounding (02 R50 to R53) -/

/-- A rounding mode; stochastic rounding carries its 16-bit draw (R53). -/
inductive RMode where | rn | rz | rp | rm | rs (draw : Nat)
deriving DecidableEq, Repr, Inhabited

/-- The mode of a code (Table 2.5), given the draw that code 0b100 would use. -/
def RMode.ofCode (c : BitVec 3) (draw : Nat) : RMode :=
  if c = 0 then .rn else if c = 1 then .rz else if c = 2 then .rp else if c = 3 then .rm else .rs draw

/-- Whether |x| = (n + rem/den) units rounds away from zero (R51, R52). -/
def RMode.up (m : RMode) (neg : Bool) (n rem den : Nat) : Bool :=
  rem != 0 &&
  match m with
  | .rn => den < 2 * rem || (den == 2 * rem && n % 2 == 1)
  | .rz => false
  | .rp => !neg
  | .rm => neg
  | .rs d => 2 ^ 16 ≤ rem * 2 ^ 16 / den + d

/-- ⌊log₂ (num / den)⌋. -/
def floorLog2 (num den : Nat) : Int :=
  let l : Int := (Nat.log2 num : Int) - Nat.log2 den
  let (n, d) := scale2 num den (-l)
  if n < d then l - 1 else l

/-- Pattern of ±mag. -/
def Fmt.signed (F : Fmt) (neg : Bool) (mag : Nat) : Nat := if neg then F.signBit + mag else mag

/-- RoundToFormat (R51): the pattern and the flags. -/
def Fmt.round (F : Fmt) (x : XVal) (mode : RMode) (sat : Bool) : Nat × Flags :=
  match x with
  | .nan => if F.hasNaN then (F.nanPat, 0) else (0, Flags.nv)
  | .inf s =>
    if F.hasInf && !sat then (F.signed s F.infPat, 0)
    else if F.hasNaN && !F.hasInf && !sat then (F.nanPat, Flags.of)
    else (F.signed s F.maxPat, Flags.of)
  | .zero s => (F.signed s 0, 0)
  | .fin s num den =>
    let e := max (floorLog2 num den) F.emin
    let (qn, qd) := scale2 num den ((F.p : Int) - e)
    let n := qn / qd
    let rem := qn % qd
    let y := if mode.up s n rem qd then n + 1 else n
    let pat := (e - F.emin).toNat * 2 ^ F.p + y
    let nx : Flags := if rem = 0 then 0 else Flags.nx
    if F.maxPat < pat then
      let fl := nx ||| Flags.of ||| Flags.nx
      if sat || !(F.hasInf || F.hasNaN) then (F.signed s F.maxPat, fl)
      else if mode == .rz || (mode == .rp && s) || (mode == .rm && !s) then (F.signed s F.maxPat, fl)
      else if F.hasInf then (F.signed s F.infPat, fl)
      else (F.nanPat, fl)
    else if rem ≠ 0 ∧ pat < 2 ^ F.p then (F.signed s pat, nx ||| Flags.uf)
    else (F.signed s pat, nx)

/-- An integer type: width and signedness. -/
structure IntFmt where
  w : Nat
  signed : Bool
deriving DecidableEq, Repr, Inhabited

def IntFmt.min (T : IntFmt) : Int := if T.signed then -(2 ^ (T.w - 1) : Nat) else 0
def IntFmt.max (T : IntFmt) : Int := if T.signed then (2 ^ (T.w - 1) : Nat) - 1 else (2 ^ T.w : Nat) - 1
/-- The pattern of an integer modulo 2^w. -/
def IntFmt.wrap (T : IntFmt) (i : Int) : Nat := (i % ((2 ^ T.w : Nat) : Int)).toNat
/-- The integer a pattern stands for; bits above the width are ignored (R40). -/
def IntFmt.decode (T : IntFmt) (bits : Nat) : Int :=
  let b := bits % 2 ^ T.w
  if T.signed && 2 ^ (T.w - 1) ≤ b then (b : Int) - (2 ^ T.w : Nat) else b

def IntTy.fmt : IntTy → IntFmt
  | .i32 => ⟨32, true⟩ | .n32 => ⟨32, false⟩ | .i64 => ⟨64, true⟩ | .n64 => ⟨64, false⟩

/-- x rounded to an integer under a mode, and whether that changed it. -/
def roundInt (neg : Bool) (num den : Nat) (mode : RMode) : Int × Bool :=
  let n := num / den
  let rem := num % den
  let y := if mode.up neg n rem den then n + 1 else n
  (if neg then -(y : Int) else y, rem != 0)

/-- RoundToInteger (R52). -/
def IntFmt.round (T : IntFmt) (x : XVal) (mode : RMode) (sat : Bool) : Int × Flags :=
  match x with
  | .nan => (0, Flags.nv)
  | .inf s => if sat then (if s then T.min else T.max, Flags.of) else (0, Flags.nv)
  | .zero _ => (0, 0)
  | .fin s num den =>
    let (n, inexact) := roundInt s num den mode
    let fl : Flags := if inexact then Flags.nx else 0
    if T.min ≤ n ∧ n ≤ T.max then (n, fl)
    else if sat then (if n < T.min then T.min else T.max, fl ||| Flags.of)
    else (T.decode (T.wrap n), fl ||| Flags.nv)

/-- The generator's next state (R53). -/
def srNext (x : W32) : W32 :=
  let x := x ^^^ (x <<< 13)
  let x := x ^^^ (x >>> 17)
  x ^^^ (x <<< 5)
/-- The draw that a state delivers: bits [31:16]. -/
def srDraw (x : W32) : Nat := (x.extractLsb' 16 16).toNat
/-- A generator state is never zero (R53). -/
def srFix (x : W32) : W32 := if x = 0 then 1 else x

/-! ### Exact operations (02 R45, 04 Tables 4.5 and R105) -/

/-- a + b; `rmMinus` makes an exact zero sum −0 (Table 4.5). -/
def XVal.add (a b : XVal) (rmMinus : Bool) : XVal × Flags :=
  match a, b with
  | .nan, _ => (.nan, 0)
  | _, .nan => (.nan, 0)
  | .inf s, .inf t => if s = t then (.inf s, 0) else (.nan, Flags.nv)
  | .inf s, _ => (.inf s, 0)
  | _, .inf t => (.inf t, 0)
  | .zero s, .zero t => (.zero (if s = t then s else rmMinus), 0)
  | .zero _, y => (y, 0)
  | x, .zero _ => (x, 0)
  | .fin s n d, .fin t m e =>
    if s = t then (.fin s (n * e + m * d) (d * e), 0)
    else
      let p := n * e
      let q := m * d
      if p = q then (.zero rmMinus, 0)
      else if q < p then (.fin s (p - q) (d * e), 0)
      else (.fin t (q - p) (d * e), 0)

/-- a × b. -/
def XVal.mul (a b : XVal) : XVal × Flags :=
  match a, b with
  | .nan, _ => (.nan, 0)
  | _, .nan => (.nan, 0)
  | .inf _, .zero _ => (.nan, Flags.nv)
  | .zero _, .inf _ => (.nan, Flags.nv)
  | .fin s n d, .fin t m e => (.fin (s ^^ t) (n * m) (d * e), 0)
  | .inf s, y => (.inf (s ^^ y.neg?), 0)
  | x, .inf t => (.inf (x.neg? ^^ t), 0)
  | x, y => (.zero (x.neg? ^^ y.neg?), 0)

/-- a / b. -/
def XVal.div (a b : XVal) : XVal × Flags :=
  match a, b with
  | .nan, _ => (.nan, 0)
  | _, .nan => (.nan, 0)
  | .inf _, .inf _ => (.nan, Flags.nv)
  | .zero _, .zero _ => (.nan, Flags.nv)
  | .inf s, y => (.inf (s ^^ y.neg?), 0)
  | x, .inf t => (.zero (x.neg? ^^ t), 0)
  | .zero s, y => (.zero (s ^^ y.neg?), 0)
  | x, .zero t => (.inf (x.neg? ^^ t), Flags.dz)
  | .fin s n d, .fin t m e => (.fin (s ^^ t) (n * e) (d * m), 0)

/-- fusedMultiplyAdd: a × b + c (R105). -/
def XVal.fma (a b c : XVal) (rmMinus : Bool) : XVal × Flags :=
  let (p, fl) := a.mul b
  let (r, fl') := p.add c rmMinus
  (r, fl ||| fl')

/-- Whether a < b, both finite or infinite. -/
def XVal.ltNum (a b : XVal) : Bool :=
  match a, b with
  | .nan, _ => false
  | _, .nan => false
  | .inf s, .inf t => s && !t
  | .inf s, _ => s
  | _, .inf t => !t
  | .zero _, .zero _ => false
  | .zero _, .fin t _ _ => !t
  | .fin s _ _, .zero _ => s
  | .fin s n d, .fin t m e =>
    match s, t with
    | true, false => true
    | false, true => false
    | false, false => n * e < m * d
    | true, true => m * d < n * e

/-- Whether a = b as numbers, +0 equal to −0. -/
def XVal.eqNum (a b : XVal) : Bool := !a.isNaN && !b.isNaN && !a.ltNum b && !b.ltNum a

/-- The lesser of two values with −0 < +0; a NaN yields to the other (Table 4.5). -/
def XVal.least (a b : XVal) : XVal :=
  if a.isNaN then b else if b.isNaN then a
  else if a.ltNum b then a else if b.ltNum a then b else if a.neg? then a else b
/-- The greater of two values likewise. -/
def XVal.greatest (a b : XVal) : XVal :=
  if a.isNaN then b else if b.isNaN then a
  else if a.ltNum b then b else if b.ltNum a then a else if a.neg? then b else a

/-- a rounded to an integral value (Table 4.5, `rint`); NX when the value changes. -/
def XVal.rint (a : XVal) (mode : RMode) : XVal × Flags :=
  match a with
  | .fin s n d =>
    let (i, inexact) := roundInt s n d mode
    (XVal.ofRat s i.natAbs 1, if inexact then Flags.nx else 0)
  | x => (x, 0)

/-- ⌊√n⌋, one result bit at a time from bit `k`. -/
def isqrtFrom (n : Nat) : Nat → Nat → Nat
  | 0, r => r
  | k + 1, r =>
    let r' := r + 2 ^ k
    isqrtFrom n k (if r' * r' ≤ n then r' else r)
/-- ⌊√n⌋. -/
def isqrt (n : Nat) : Nat := isqrtFrom n (Nat.log2 n / 2 + 1) 0

/-- The number of fraction bits beyond which no rounding decision of a format can lie: every value that a
rounding to F, after a scale of 2^−8 to 2^7, can turn on is a multiple of 2^−grid. -/
def Fmt.grid (F : Fmt) : Nat := F.bias + F.p + 16

/-- A rational that rounds as √(num/den) does: the root itself where it is a multiple of 2^−k, otherwise the middle
of the interval of multiples that holds it. -/
def sqrtSurrogate (k num den : Nat) : XVal :=
  let t := num * 4 ^ k / den
  let r := isqrt t
  if r * r * den = num * 4 ^ k then XVal.ofRat false r (2 ^ k)
  else .fin false (2 * r + 1) (2 ^ (k + 1))

/-- √a (Table 4.5). -/
def XVal.sqrt (F : Fmt) (a : XVal) : XVal × Flags :=
  match a with
  | .nan => (.nan, 0)
  | .zero s => (.zero s, 0)
  | .inf false => (.inf false, 0)
  | .inf true => (.nan, Flags.nv)
  | .fin true _ _ => (.nan, Flags.nv)
  | .fin false n d => (sqrtSurrogate F.grid n d, 0)

/-- 1/√a (Table 4.6). -/
def XVal.rsqrt (F : Fmt) (a : XVal) : XVal × Flags :=
  match a with
  | .nan => (.nan, 0)
  | .zero s => (.inf s, Flags.dz)
  | .inf false => (.zero false, 0)
  | .inf true => (.nan, Flags.nv)
  | .fin true _ _ => (.nan, Flags.nv)
  | .fin false n d => (sqrtSurrogate F.grid d n, 0)

/-! ### Ordered sums (02 R56) -/

/-- One step of an ordered sum: acc + t rounded to nearest even in F. -/
def sumStep (F : Fmt) (acc : XVal × Flags) (t : XVal) : XVal × Flags :=
  let (x, f1) := acc.1.add t false
  let (bits, f2) := F.round x .rn false
  (F.decode bits, acc.2 ||| f1 ||| f2)

/-- OrderedSum(init, t, n, F), with the flags of every step. -/
def orderedSum (F : Fmt) (init : XVal) (ts : List XVal) : XVal × Flags := ts.foldl (sumStep F) (init, 0)

/-- The pattern of a value that is representable in F, or its canonical NaN. -/
def Fmt.encode (F : Fmt) (x : XVal) : Nat := (F.round x .rn false).1

/-! ### The destination clamp (01 Table 1.7) -/

/-- The clamp of a floating-point result y. -/
def clampFloat (F : Fmt) (code : BitVec 2) (pat : Nat) : Nat :=
  let y := F.decode pat
  let one := F.encode (XVal.ofInt 1)
  if code = 1 then
    (if y.isNaN || y.isZero || y.neg? then 0
     else if (XVal.ofInt 1).ltNum y then one else pat)
  else if code = 2 then
    (if y.isNaN then 0
     else if (XVal.ofInt 1).ltNum y then one
     else if y.ltNum (XVal.ofInt (-1)) then F.signed true one else pat)
  else pat

/-- A floating-point result through R29: scaled, rounded once, clamped. -/
def finishFloat (F : Fmt) (x : XVal) (mode : RMode) (clamp : BitVec 2) (scale : Int) : Nat × Flags :=
  let (pat, fl) := F.round (x.scale scale) mode (clamp = 3)
  (clampFloat F clamp pat, fl)

/-- An integer result through R29: scaled, rounded to nearest even, clamped or wrapped. -/
def finishInt (T : IntFmt) (x : Int) (clamp : BitVec 2) (scale : Int) : Nat × Flags :=
  let y : Int :=
    if 0 ≤ scale then x * (2 ^ scale.toNat : Nat)
    else (roundInt (x < 0) x.natAbs (2 ^ (-scale).toNat) .rn).1
  if clamp = 1 then (T.wrap (min (max y 0) 1), 0)
  else if clamp = 2 then (T.wrap (min (max y (-1)) 1), 0)
  else if clamp = 3 then
    (if y < T.min then (T.wrap T.min, Flags.of) else if T.max < y then (T.wrap T.max, Flags.of) else (T.wrap y, 0))
  else (T.wrap y, 0)

/-- σ: the scale field in two's complement. -/
def scaleOf (s : BitVec 4) : Int := s.toInt

/-! ### Block formats (02 R46 to R49) -/

/-- The value of an SC10 scale (R46); bits [15:10] are ignored. -/
def decodeSC10 (bits : Nat) : XVal :=
  let e := bits / 16 % 64
  let m := bits % 16
  if e = 0 then .zero false
  else if e = 63 ∧ m = 15 then .nan
  else XVal.ofDyadic false (16 + m) ((e : Int) - 35)

/-- The Q16 codebook (R49, Table 2.4), as `f16` patterns. -/
def q16Pattern (code : Nat) : Nat :=
  match code % 16 with
  | 0 => 0xBC00 | 1 => 0xB964 | 2 => 0xB81E | 3 => 0xB653 | 4 => 0xB4B7 | 5 => 0xB28D | 6 => 0xAFB9 | 7 => 0xA91B
  | 8 => 0x291B | 9 => 0x2FB9 | 10 => 0x328D | 11 => 0x34B7 | 12 => 0x3653 | 13 => 0x381E | 14 => 0x3964
  | _ => 0x3C00

/-- BlockValue(e, s, g) (R47). -/
def blockValue (e s g : XVal) : XVal := ((e.mul s).1.mul g).1

/-! ### The constant set (01 R27, Table 1.6) -/

/-- A constant as an integer or raw value of w bits; none where the entry is illegal there. -/
def constInt (i : Nat) (maxPat : Nat) (w : Nat) : Option Nat :=
  if i < 32 then some i
  else if i < 40 then some (2 ^ w - (i - 31))
  else if i = 53 then some maxPat
  else none

/-- Irrational entries, to 128 fraction bits. -/
def constIrr (num : Nat) : XVal := .fin false (2 * num + 1) (2 ^ 129)

/-- A constant as an exact value of a floating type; none where the entry is illegal or the type lacks it. -/
def constFloat (i : Nat) (F : Fmt) : Option Nat :=
  let rnd (x : XVal) : Option Nat := some (F.round x .rn true).1
  if i < 32 then rnd (XVal.ofInt i)
  else if i < 40 then rnd (XVal.ofInt (-(i - 31 : Int)))
  else match i with
    | 40 => rnd (.fin false 1 2)
    | 41 => rnd (.fin false 1 4)
    | 42 => rnd (.fin false 1 8)
    | 43 => rnd (.fin false 1 65536)
    | 44 => rnd (constIrr 0x3243f6a8885a308d313198a2e03707344)
    | 45 => rnd (constIrr 0x2b7e151628aed2a6abf7158809cf4f3c7)
    | 46 => rnd (constIrr 0xb17217f7d1cf79abc9e3b39803f2f6af)
    | 47 => rnd (constIrr 0x171547652b82fe1777d0ffda0d23a7d11)
    | 48 => rnd (constIrr 0x24d763776aaa2b05ba95b58ae0b4c28a3)
    | 49 => rnd (constIrr 0x16a09e667f3bcc908b2fb1366ea957d3e)
    | 50 => rnd (constIrr 0xb504f333f9de6484597d89b3754abe9f)
    | 51 => if F.hasInf then some F.infPat else none
    | 52 => if F.hasNaN then some F.nanPat else none
    | 53 => some F.maxPat
    | 54 => some (2 ^ F.p)
    | _ => none

end Sys2Proof
end

