-- ==== Sys2Proof/Machine/Store.lean ====
section
/-! DEFINITION. Sparse maps, and memory as a canonical list of (address, byte) pairs. -/
namespace Sys2Proof.Machine

/-! ### Sparse maps -/

/-- A map from numbers, its keys strictly rising. -/
abbrev SMap (α : Type) := List (Nat × α)

/-- The entry of a key. -/
def SMap.find? {α : Type} : SMap α → Nat → Option α
  | [], _ => none
  | (a, x) :: l, k => if a = k then some x else SMap.find? l k

/-- The entry of a key, or a default. -/
def SMap.getD {α : Type} (m : SMap α) (k : Nat) (d : α) : α := (m.find? k).getD d

/-- Sets the entry of a key. -/
def SMap.insert {α : Type} (k : Nat) (v : α) : SMap α → SMap α
  | [] => [(k, v)]
  | (a, x) :: l =>
    if k < a then (k, v) :: (a, x) :: l
    else if k = a then (k, v) :: l
    else (a, x) :: SMap.insert k v l

/-- Removes the entry of a key. -/
def SMap.erase {α : Type} (k : Nat) (m : SMap α) : SMap α := m.filter fun e => e.1 != k

/-- Applies a function to the entry of a key, if there is one. -/
def SMap.update {α : Type} (k : Nat) (f : α → α) (m : SMap α) : SMap α :=
  m.map fun e => if e.1 = k then (e.1, f e.2) else e

def SMap.keys {α : Type} (m : SMap α) : List Nat := m.map Prod.fst
def SMap.vals {α : Type} (m : SMap α) : List α := m.map Prod.snd

/-- Keys strictly rise. -/
abbrev SMap.wf {α : Type} (m : SMap α) : Prop := m.Pairwise fun a b => a.1 < b.1

/-! ### Bytes at addresses -/

/-- Memory: the bytes that are not zero, by strictly rising address. -/
abbrev Memory := List Host.Cell

/-- What an unlisted address reads as: 0. A reset zero-fills nodes 0 and 1 (19 R424); 08 R218 gives 0 to a location
that nothing has written; for nodes 2 and 3 it is the model's choice (log 4). -/
def Memory.unlisted : Byte := 0

def Memory.read : Memory → Nat → Byte
  | [], _ => Memory.unlisted
  | (a, b) :: l, x => if a = x then b else if x < a then Memory.unlisted else Memory.read l x

/-- Writes one byte; writing what an unlisted address reads as removes the entry. -/
def Memory.write (x : Nat) (v : Byte) : Memory → Memory
  | [] => if v = Memory.unlisted then [] else [(x, v)]
  | (a, b) :: l =>
    if x < a then (if v = Memory.unlisted then (a, b) :: l else (x, v) :: (a, b) :: l)
    else if x = a then (if v = Memory.unlisted then l else (x, v) :: l)
    else (a, b) :: Memory.write x v l

/-- The canonical form: addresses strictly rise and no entry equals what an unlisted address reads as. -/
abbrev Memory.wf (m : Memory) : Prop :=
  (m.Pairwise fun a b => a.1 < b.1) ∧ ∀ c ∈ m, c.2 ≠ Memory.unlisted

/-- Bytes from `x` upward. -/
def Memory.readN (m : Memory) (x n : Nat) : List Byte := (List.range n).map fun i => m.read (x + i)

/-- Writes bytes from `x` upward. -/
def Memory.writeN (x : Nat) : List Byte → Memory → Memory
  | [], m => m
  | b :: bs, m => Memory.writeN (x + 1) bs (m.write x b)

/-- Writes zero to every byte of [x, x + n). -/
def Memory.zeroRange (x n : Nat) (m : Memory) : Memory := m.filter fun c => c.1 < x || x + n ≤ c.1

/-! ### Little-endian numbers (01 R36) -/

/-- The number of a little-endian byte string. -/
def leNat : List Byte → Nat
  | [] => 0
  | b :: bs => b.toNat + 256 * leNat bs

/-- The `n` low bytes of a number, lowest first. -/
def leBytes (v : Nat) : Nat → List Byte
  | 0 => []
  | n + 1 => BitVec.ofNat 8 (v % 256) :: leBytes (v / 256) n

/-- A set of granules or other numbers, kept rising without repeats. -/
def setInsert (x : Nat) : List Nat → List Nat
  | [] => [x]
  | a :: l => if x < a then x :: a :: l else if x = a then a :: l else a :: setInsert x l
/-- The numbers of a list, rising, each once. -/
def distinct (l : List Nat) : List Nat := l.foldl (fun a x => setInsert x a) []
def setErase (x : Nat) (l : List Nat) : List Nat := l.filter fun a => a != x
def setPut (on : Bool) (x : Nat) (l : List Nat) : List Nat := if on then setInsert x l else setErase x l

end Sys2Proof.Machine
end

