-- ==== Sys2Proof/Machine/State.lean ====
section
/-! DEFINITION. The state of the module: everything the spec gives it, as plain data, and its value after reset. -/
namespace Sys2Proof.Machine

/-! ### Registers -/

/-- A 32-bit register with its poison bit (01 Table 1.1). -/
structure PReg where
  val : W32 := 0
  psn : Bool := false
deriving DecidableEq, Repr, Inhabited

/-- The last-result latch (01 R26): the width it was written at, its value, its poison. -/
structure Latch where
  wide : Bool := false
  val : W64 := 0
  psn : Bool := false
deriving DecidableEq, Repr, Inhabited

/-- The name of a register that a late result is written to (01 R20). -/
inductive RegKey where
  | v (strand n : Nat)
  | o (strand n : Nat)
  | s (ply n : Nat)
  | k (n : Nat)
  | y (lay n : Nat)
  | lat (strand : Nat)
  | fflags (strand : Nat)
deriving DecidableEq, Repr, Inhabited

/-- A strand (01 Table 1.1, 02 R53, R54). `v` lists the names that hold a physical register. -/
structure Strand where
  live : Bool := true
  v : SMap PReg := []
  spilled : List Nat := []
  o : SMap PReg := []
  latch : Option Latch := none
  fflags : Flags := 0
  sr : W32 := 1
deriving DecidableEq, Repr, Inhabited

/-! ### Groups and plies (05 R136 to R144) -/

/-- One unpublished write to a shared register (05 R131): who wrote, and, where this group publishes it, the step that made
it: the entries of one write in the logs of several groups share it. -/
inductive SharedWrite where
  | reg (key : RegKey) (strand : Nat) (val : PReg) (publish : Option Nat)
  | mask (n : Nat) (lanes val : W32) (publish : Option Nat)
  /-- a control register of the cable: the writing strand sees it at once, others after the clause (04 R114) -/
  | creg (num strand : Nat) (val : W64) (publish : Option Nat)
deriving DecidableEq, Repr, Inhabited

/-- One lane's access of a scratchpad instruction that has begun: its strand, its offset, and the bytes of a store
(07 R184). -/
structure PadLane where
  strand : Nat
  off : Nat
  store : Option (List (Byte × Bool)) := none
deriving DecidableEq, Repr, Inhabited

/-- The shared registers as a clause found them when it began (05 R131). -/
structure View where
  s : SMap PReg := []
  m : SMap W32 := []
  k : SMap PReg := []
  y : SMap PReg := []
  cregs : SMap W64 := []
deriving DecidableEq, Repr, Inhabited

/-- A clause that a group is running (01 R17): fetched whole, with the position of the next instruction. -/
structure Clause where
  addr : Nat
  hdr : Header
  words : List W64
  pos : Nat := 0
  born : Nat := 0
  view : View := {}
  log : List SharedWrite := []
  /-- strands with a split load in this clause, with the operation they wait for (05 R144) -/
  splits : List (Nat × Nat) := []
  /-- strands with a `wtq` in this clause, likewise (09 R258) -/
  sleeps : List (Nat × Nat) := []
  /-- the instruction at this position has taken its first part: a ring commit or release (06 R175), a `wake` that has
  left the core (09 R259) -/
  begun : Bool := false
  /-- operations issued in this clause whose result goes to a shared register; false once the clause has ended in
  another of the groups that issued it, so that the result is public as it arrives -/
  ops : List (Nat × Bool) := []
  /-- accesses of a scratchpad instruction that its full banks still keep out (07 R184) -/
  pads : List PadLane := []
  /-- the debug causes whose check its handler lets the next instruction pass (16 R370) -/
  passed : List Nat := []
  /-- its handler lets the next instruction complete as though its predicate were false (16 R370) -/
  skip : Bool := false
  /-- the step of its last turn, where the next instruction could not execute then; and, where it waits for physical
  registers, the strands that wait and the `v` names it reads (01 R33) -/
  blocked : Option Nat := none
  allocs : List Nat × List Nat := ([], [])
deriving DecidableEq, Repr, Inhabited

/-- Where a group stands (05 R141, R143). -/
inductive Place where
  | slot (n : Nat)
  | parked (rank : Nat)
  /-- held or late; `slot` is the path slot it gave up -/
  | out (slot : Nat)
deriving DecidableEq, Repr, Inhabited

/-- What a group is held at (05 R136, R144, 06 R173, R175). -/
inductive Hold where
  | none
  | rendezvous
  | join (addr : Nat)
  | joinFull (addr : Nat)
  /-- a ring wait, with the scratchpad offset of its descriptor (05 R138); none where a save slot alone says that it waits -/
  | ring (d : Option Nat)
  | late
deriving DecidableEq, Repr, Inhabited

/-- A group of strands of one ply at one program counter (05 R140). -/
structure Group where
  gid : Nat
  lanes : W32
  /-- the header at which the group stands, or of the clause it runs -/
  pc : Nat
  clause : Option Clause := Option.none
  place : Place := .slot 0
  hold : Hold := .none
  signed : Bool := false
  /-- order of arrival where the group is held -/
  since : Nat := 0
  /-- operations whose results a late group waits for -/
  waits : List (Nat × Nat) := []
  /-- the clauses of its ply that have ended while it stood ready in the parked set (05 R143) -/
  aged : Nat := 0
  /-- operations of its strands' earlier clauses that had not brought a shared register when those ended (05 R141) -/
  ops : List Nat := []
deriving DecidableEq, Repr, Inhabited

/-- An open join instance (06 R173). -/
structure JoinInst where
  addr : Nat
  lanes : W32
deriving DecidableEq, Repr, Inhabited

/-- A ply (05 R122, Table 5.3; 16 Table 16.12). -/
structure Ply where
  s : SMap PReg := []
  m : SMap W32 := []
  groups : List Group := []
  joins : List JoinInst := []
  nextSlot : Nat := 0
  running : Option Nat := none
  unack : Nat := 0
  ic : W64 := 0
  seq : W32 := 0
  skid : Nat := 0
  faulting : Bool := false
  demoted : Bool := false
  /-- it has reached a stop point under a halt or a save (16 R367) -/
  stopped : Bool := false
deriving DecidableEq, Repr, Inhabited

/-! ### Engines -/

/-- The tag of a table register (12 Table 12.4). -/
structure TableTag where
  kind : Nat := 0
  stale : Bool := false
  g4 : Bool := false
  wfmt : Nat := 0
  afmt : Nat := 0
  valid : BitVec 16 := 0
  m : Nat := 0
  kt : Nat := 0
  lo : Nat := 0
  rstr : Nat := 0
  ply : Nat := 0
  vlo : Nat := 0
  vcnt : Nat := 0
deriving DecidableEq, Repr, Inhabited

/-- A table register: its tag, its entries that are not zero (index 16 t + c), its poisoned tables. -/
structure Table where
  tag : TableTag := {}
  entries : SMap W32 := []
  psn : List Nat := []
deriving DecidableEq, Repr, Inhabited

/-- An accumulator tile: elements that are not zero (index 256 i + n), and its poison bit. -/
structure Tile where
  elems : SMap W32 := []
  psn : Bool := false
deriving DecidableEq, Repr, Inhabited

/-- An entry of a heap (14 R342). -/
structure HeapEntry where
  d : W32
  id : W32
  expanded : Bool := false
  psn : Bool := false
deriving DecidableEq, Repr, Inhabited

/-- What a walker is doing (14 R350 to R352). -/
inductive WalkState where
  | run
  | asking (key : W32)
  | hopping (stack : Nat)
  | ended
  | faulted (cause pc : Nat)
deriving DecidableEq, Repr, Inhabited

/-- A 64-bit walker register with its poison bit. -/
structure WReg where
  val : W64 := 0
  psn : Bool := false
deriving DecidableEq, Repr, Inhabited

/-- A walker (14 Table 14.1, R349, R350). -/
structure Walker where
  stack : Nat
  pc : Nat
  clause : Option Clause := none
  s : SMap WReg := []
  m : W32 := 0
  latch : Option Latch := none
  count : Nat := 0
  state : WalkState := .run
  /-- the answer that its next instruction asked for has arrived (R351) -/
  answered : Bool := false
deriving DecidableEq, Repr, Inhabited

/-- What a search command holds on the Capstan dies (14 R337, R342, R345, R349). -/
structure Search where
  /-- the step after which it stood at its control die: the commands there start in that order (14 R345) -/
  arrived : Nat := 0
  started : Bool := false
  desc : Nat := 0
  snap : Nat := 0
  referenced : Bool := false
  version : Nat := 0
  home : Nat := 0
  query : List Byte := []
  queryPsn : Bool := false
  heap : List HeapEntry := []
  results : List HeapEntry := []
  filter : List W32 := []
  vfull : Bool := false
  walkers : List Walker := []
  status : Nat := 0
  aux : Nat := 0
  flags : Flags := 0
  psn : Bool := false
  written : Bool := false
  finished : Bool := false
  /-- the pages found at issue: by virtual page, twice the physical page, plus its ESR bit (R344) -/
  pages : SMap Nat := []
  /-- the first poisoned granule that it met (R353) -/
  bad : Option Nat := none
deriving DecidableEq, Repr, Inhabited

/-- The state of an engine command (16 Table 16.14). -/
inductive CmdState where | waiting | running | suspended | done
deriving DecidableEq, Repr, Inhabited

/-- An engine command from its issue to its retirement (11 R290, 12 R309, 16 Table 16.14). -/
structure Cmd where
  id : Nat
  path : Path
  instr : Instr
  word : W64 := 0
  pc : Nat := 0
  ply : Nat := 0
  strand : Nat := 0
  scope : Scope := .strand
  /-- operand registers read at issue -/
  d : List PReg := []
  a : List PReg := []
  b : List PReg := []
  ce : Bool := false
  cnt : Nat := 0
  te : Bool := false
  /-- the token registers: `s` of each ply (03 R69) -/
  tok : List RegKey := []
  super : Bool := false
  state : CmdState := .waiting
  progress : Nat := 0
  progress2 : Nat := 0
  written : Nat := 0
  psn : Bool := false
  ixr : Bool := false
  rb : Bool := false
  cancel : Bool := false
  fail : Bool := false
  cause : Nat := 0
  flags : Flags := 0
  handle : Nat := 0
  reported : Bool := false
  checkStale : Bool := true
  /-- the bytes of a register-source build, with the poison of each byte (13 R318) -/
  build : List (Byte × Bool) := []
  /-- a register-source build: its ply, first name and count of names, and whether one was written since the issue
  (13 R318) -/
  srcReg : Option (Nat × Nat × Nat) := none
  srcWritten : Bool := false
  /-- scratchpad offsets written since a `tbfill` began (12 R307) -/
  touched : List Nat := []
  wmax : Nat := 0
  /-- updates of subscribed ranges that its writes became (07 R208) -/
  upds : List (Nat × Nat) := []
  /-- writes of memory that their home slices have still to perform, in order: address, byte, poison, ESR bit of the page
  (08 R231, log 135) -/
  held : List (List ((Nat × Byte × Bool) × Bool)) := []
  /-- the tags of the blocks of an ESR unit that its held writes bring: block and tag (11 R287) -/
  tags : List (Nat × Nat) := []
  /-- its place among the command entries of its cable's save slot (16 Table 16.10) -/
  entry : Nat := 0
  srch : Search := {}
deriving DecidableEq, Repr, Inhabited

/-- An operation on a counter that has not retired, in issue order (11 R272, R273). -/
structure CntOp where
  op : Nat
  cnt : Nat
  done : Bool := false
  /-- the cycle and the ply of its issue (11 R272) -/
  cycle : Nat := 0
  ply : Nat := 0
deriving DecidableEq, Repr, Inhabited

/-- A completion counter (11 R271, R273). -/
structure Counter where
  val : Nat := 0
  strict : Bool := false
deriving DecidableEq, Repr, Inhabited

/-- One update of a subscribed range (07 R206). -/
structure Update where
  num : Nat
  /-- the written bytes by their offset in the range -/
  bytes : List (Nat × Byte × Bool)
  /-- the step at which its home sent it on the reply mesh (07 R199) -/
  sent : Nat := 0
deriving DecidableEq, Repr, Inhabited

/-- The state of a segment that is not Invalid (07 Table 7.8). -/
inductive SegState where | inTransit | current | saved
deriving DecidableEq, Repr, Inhabited

/-- A subscribed segment of a cable's scratchpad (07 R207). -/
structure Seg where
  state : SegState
  owned : Bool
  /-- physical 4 KiB page of the range -/
  range : Nat
  va : Nat
  /-- the page's ESR bit -/
  esr : Bool := false
  last : Nat := 0
  /-- the snapshot that it asked for has been applied; without it a restore asks for one again (log 117) -/
  synced : Bool := false
  snapshot : Option (Nat × List Byte × List Nat) := none
  /-- the step at which its home sent that snapshot -/
  sent : Nat := 0
  inbox : List Update := []
  /-- writes of the cable's own `st.p` not yet returned -/
  pendingStores : Nat := 0
deriving DecidableEq, Repr, Inhabited

/-- A waiter record (09 R258). -/
structure Waiter where
  id : Nat
  part : Nat
  key : Nat
  uid : Nat
  strand : Nat
  t0 : Nat
  tmo : Nat
  /-- the ply's instruction count at the `wtq` (16 R387) -/
  ic : Nat := 0
  dest : List RegKey
  /-- released, with the status it takes and the P that the `wake` carried -/
  status : Option Nat := none
deriving DecidableEq, Repr, Inhabited

/-! ### Cables and coils -/

/-- Where a cable is (05 R152, 16 R378, R382). -/
inductive CableState where
  | placed (core : Nat)
  | saved (slot : Nat) (device : Bool)
  | requeued (slot : Nat) (device : Bool)
  | ended
deriving DecidableEq, Repr, Inhabited

/-- A save in progress (16 R379). -/
structure Saving where
  slot : Nat
  device : Bool
  /-- HALTED, and the halted lays, as the save began (16 Table 16.11) -/
  halted : Nat := 0
  migrateTo : Option Nat := none
  requeue : Bool := false
  /-- the cycle at which it began (19 R435) -/
  at_ : Nat := 0
deriving DecidableEq, Repr, Inhabited

/-- A halt of plies of a cable, until its handle is answered (16 R368, R369); `plies` empty means all. -/
structure Halt where
  handle : Nat
  plies : List Nat
deriving DecidableEq, Repr, Inhabited

/-- An engine's write of scratchpad bytes that the banks have still to apply (07 R184, log 35). -/
structure LateWrite where
  path : Path
  /-- the command that made it -/
  op : Nat := 0
  bytes : List (Nat × Byte × Bool)
deriving DecidableEq, Repr, Inhabited

/-- The record of a preemption that did not begin: its context, cable, ADDR and DETAIL, in the cycle of the write; the collector
posts it once that cycle is over (16 R378, 19 R435). -/
structure Unsaved where
  ctx : Nat
  uid : Nat
  addr : Nat
  detail : Nat
  at_ : Nat
deriving DecidableEq, Repr, Inhabited

/-- A cable (05 Table 5.1; 16 Table 16.11). -/
structure Cable where
  uid : Nat
  cid : Nat := 0
  part : Nat := 0
  ctx : Nat := 0
  coil : Nat := 0
  lrec : List W64 := []
  x : Nat := 0
  y : Nat := 0
  z : Nat := 0
  lin : Nat := 0
  state : CableState := .placed 0
  /-- the core it is placed on, or was saved from (09 R263, R266) -/
  lastCore : Nat := 0
  /-- order among the cables placed on its core since the core's reset (05 R155) -/
  order : Nat := 0
  /-- clock of its latest placement or restore (05 R161) -/
  since : Nat := 0
  priv : BitVec 2 := 0
  k : SMap PReg := []
  lays : SMap PReg := []
  /-- by `y` register (16 × lay + number), the cycle of the latest clause end that wrote it, and that clause's ply (05 R131) -/
  yEnds : SMap (Nat × Nat) := []
  counters : SMap Counter := []
  cntOps : List CntOp := []
  /-- the scratchpad units of its core's pool that it holds (07 R183) -/
  units : List Nat := []
  spad : Memory := []
  spadPsn : List Nat := []
  /-- the engines' writes that the banks have still to apply, oldest first (07 R184, 08 R231) -/
  late : List LateWrite := []
  unitCounts : SMap Nat := []
  tables : SMap Table := []
  tiles : SMap Tile := []
  spillBase : W64 := 0
  spillSize : W32 := 0
  trapVec : W64 := 0
  trapPc : W64 := 0
  trapInfo : W32 := 0
  /-- the strand whose `trap` is stopping the other plies, and the cycle in which it reached it: the trap takes effect once
  they stand (04 R118) -/
  trapping : Option (Nat × Nat) := none
  /-- `CBL_SPILL_BASE` and `CBL_SPILL_SIZE` as a `cwr` left them whose clause has not ended: the next spill uses them
  (04 R114) -/
  spillNext : Option W64 × Option W32 := (none, none)
  nredCnt : W32 := 0
  wtqTmo : W32 := 0
  laFlags : W32 := 0
  dbg : W32 := 0
  stop : W64 := 0
  wps : List W64 := [0, 0, 0, 0]
  ept : List Nat := [0, 0, 0, 0]
  cmds : List Cmd := []
  segs : SMap Seg := []
  /-- scoreboard: registers whose value has not arrived, with the operation that brings it (01 R20) -/
  board : List (RegKey × Nat) := []
  plies : SMap Ply := []
  strands : SMap Strand := []
  halts : List Halt := []
  saving : Option Saving := none
  terminated : Bool := false
  /-- the waiters removed when the cable was saved (16 Table 16.11, 09 R260) -/
  savedWaits : List Waiter := []
  /-- the rebases of its partition up to the save, which the timestamps in its slot have seen (08 R230) -/
  savedRebases : Nat := 0
  /-- its counters as its slot holds them: what retires while it is saved is taken from the restored values (11 R275) -/
  savedCounters : SMap Counter := []
  /-- how many entries of its slot held commands at its save (16 Table 16.11) -/
  savedEntries : Nat := 0
  /-- the physical pages of its save slot, each doubled with the page's ESR bit, from the save to the restore (16 R378) -/
  slotMap : List Nat := []
  /-- restored, and waiting until every segment is current (07 R208) -/
  resuming : Bool := false
deriving DecidableEq, Repr, Inhabited

/-- A launch from its instruction to the end of its coil (05 R150, 06 R176, R177). -/
structure Coil where
  id : Nat
  ctx : Nat
  part : Nat
  lrec : List W64
  kargs : List W32
  launcher : Option Nat := none
  doneOp : Nat := 0
  /-- the launcher's core time at the launch, which the launch edge carries (08 R221) -/
  p : Nat := 0
  /-- the cycle of the launch, its core and the launcher's place on it: the order of launches (06 R177) -/
  cycle : Nat := 0
  core : Nat := 0
  order : Nat := 0
  queued : Bool := false
  placedCables : Nat := 0
  endedCables : Nat := 0
deriving DecidableEq, Repr, Inhabited

/-- One item of a priority queue (05 R151): the unplaced cables of a coil, or one cable to be restored. -/
inductive QItem where
  | coil (id : Nat)
  | restore (uid : Nat)
deriving DecidableEq, Repr, Inhabited

/-! ### Cores -/

/-- One L1 copy (07 R188): the way that holds it, which is the number of an L1 section; per 16-byte sector a valid bit
and its bytes with poison. -/
structure L1Line where
  way : Nat
  w : Nat
  r : Nat
  sectors : SMap (List Byte × Bool)
  /-- the version of the line that it holds: how many writes its home had performed -/
  ver : Nat := 0
deriving DecidableEq, Repr, Inhabited

/-- One byte of a store on its way to its home slice; `seen` gives, for each ply (cable, ply) whose store it holds, the
byte of that ply's own latest store, which the ply observes (07 R189, 08 R216). -/
structure WcByte where
  val : Byte
  psn : Bool
  seen : List ((Nat × Nat) × Byte × Bool)
deriving DecidableEq, Repr, Inhabited

/-- A write-combining entry (07 R189): a line and its bytes by offset. -/
structure WcEntry where
  line : Nat
  bytes : SMap WcByte
  born : Nat
  /-- the ply (cable, ply) of each store it holds, counted in that ply's UNACK -/
  stores : List (Nat × Nat)
  /-- loads that precede a store of it in program order and have not returned (08 R214) -/
  after : List Nat := []
  esr : Bool := false
deriving DecidableEq, Repr, Inhabited

/-- One lane's part of a load: the physical address or scratchpad offset, and the registers it writes. -/
structure LoadPart where
  strand : Nat
  pa : Nat
  z : SizeZ
  dests : List (List RegKey)
  lats : List Nat
  /-- bytes of its ply's own stores that the load reads, by offset (07 R189, 08 R216) -/
  own : List (Nat × Byte × Bool) := []
deriving DecidableEq, Repr, Inhabited

/-- One access in a bank queue (07 R184). -/
structure BankReq where
  op : Nat
  uid : Nat
  /-- the plies whose access it is: those of the contributors at a wider scope -/
  plies : List Nat
  off : Nat
  /-- the bytes of a store; none for a load of the word at `off` -/
  store : Option (List (Byte × Bool))
  acq : Bool := false
  /-- the strands whose access it is -/
  strands : List Nat := []
  parts : List LoadPart := []
  /-- loads that precede a store in program order and have not returned (08 R214) -/
  after : List Nat := []
deriving DecidableEq, Repr, Inhabited

/-- A translation held in a TLB (16 R376). -/
structure TlbEntry where
  ctx : Nat
  /-- the 4 KiB page number at which its page begins, and the page's bytes -/
  va : Nat
  size : Nat
  pte : W64
  /-- the 4 KiB parts of a 64 KiB page whose entries are known to have A set, and D (R375); of another page, part 0 -/
  seen : List Nat := []
  dirt : List Nat := []
deriving DecidableEq, Repr, Inhabited

/-- A core (05 R155, 07 R183 to R191). -/
structure Core where
  p : Nat := 0
  slots : List (Option (Nat × Nat)) := [none, none, none, none]
  placedCount : Nat := 0
  l1 : SMap L1Line := []
  wc : List WcEntry := []
  banks : SMap (List BankReq) := []
  tlb : List TlbEntry := []
  /-- pool sections that are gated, and those that are waking (07 R205) -/
  gated : List Nat := []
  waking : List Nat := []
  idleSince : Nat := 0
  lastMigration : Option Nat := none
  /-- a migration that found no free slot is tried again at the end of each window (19 R434) -/
  migrating : Bool := false
  /-- the cable whose unit its copy engine moved last (11 R279) -/
  copyLast : Nat := 0
deriving DecidableEq, Repr, Inhabited

/-! ### Transactions between cores and home slices -/

/-- Ordering of an access (03 R68). -/
structure Sync where
  ord : BitVec 2 := 0
  ssc : BitVec 3 := 0
deriving DecidableEq, Repr, Inhabited

/-- What a transaction asks of its home slice (07 R186, R193, R194; 09). -/
inductive TxnKind where
  | load (line lo size lease : Nat) (ldk install acq : Bool) (parts : List LoadPart)
  | write (bytes : List (Nat × WcByte)) (release : Bool) (seg : Option Nat)
  | atom (op : AtomOp) (ty : IntTy) (pa : Nat) (val cmp : W64) (psn : Bool) (part : Option LoadPart)
  | nred (float : Bool) (pa : Nat) (val : W32) (psn : Bool) (cntOp : Option Nat)
  | sub (range va seg : Nat) (owned esr : Bool) (part : LoadPart)
  | unsub (range seg : Nat) (part : LoadPart)
  | wtq (key va : Nat) (part : LoadPart)
  | wake (key count : Nat)
  | peerLoad (peer off : Nat) (acq : Bool) (part : LoadPart)
  | peerWrite (peer off : Nat) (bytes : List Byte) (psn : Bool)
  | peerAtom (peer off : Nat) (op : AtomOp) (ty : IntTy) (val cmp : W64) (psn : Bool) (part : Option LoadPart)
deriving DecidableEq, Repr, Inhabited

/-- How far a transaction has come: asked, or performed at its home with what the reply carries: the line's wts; for a
load its rts; the bytes; the flags. -/
inductive TxnState where
  | asked
  | performed (w rt : Nat) (bytes : List (Byte × Bool)) (flags : Flags)
deriving DecidableEq, Repr, Inhabited

/-- A transaction of a core (07 R186). `after` names the transactions whose return this one waits for (08 R214), and
`upd` the update of a subscribed range it became. -/
structure Txn where
  id : Nat
  core : Nat
  uid : Nat
  ply : Nat
  strands : List Nat
  sync : Sync := {}
  pc : Nat := 0
  va : Nat := 0
  word : W64 := 0
  /-- the ply's instruction count at the access (16 R387) -/
  ic : Nat := 0
  born : Nat := 0
  sent : Nat := 0
  kind : TxnKind
  state : TxnState := .asked
  after : List Nat := []
  upd : Option (Nat × Nat) := none
  esr : Bool := false
  /-- the plies (cable, ply) in whose UNACK it counts, once for each write -/
  acks : List (Nat × Nat) := []
  entry : Bool := true
  /-- the step at which its home slice performed it: the order of replies from one slice to one core (07 R199) -/
  done : Nat := 0
  /-- the version of its line that its home read for it, or made by it -/
  ver : Option Nat := none
deriving DecidableEq, Repr, Inhabited

/-! ### Memory nodes -/

/-- A scope record (08 Table 8.5). -/
structure ScopeRec where
  ssc : BitVec 3
  cluster : Nat
  ply : Nat
  part : Nat
  cid : Nat
deriving DecidableEq, Repr, Inhabited

/-- A line's metadata (07 R192, R195; 08 R234). -/
structure Line where
  inLlc : Bool := false
  /-- the 16-byte sectors that its slice holds (07 R197, R200) -/
  sectors : List Nat := []
  /-- the way of its set that holds it (07 R197) -/
  way : Nat := 0
  w : Nat := 0
  r : Nat := 0
  scope : Option ScopeRec := none
  /-- how many writes its home has performed: which writes a copy holds, whatever rebases have done to timestamps -/
  ver : Nat := 0
  dirty : Bool := false
  /-- while a line behind an expander link is dirty: what the far device holds, bytes and poisoned granules (18 R420) -/
  far : Option (List Byte × List Nat) := none
deriving DecidableEq, Repr, Inhabited

/-- A row tracker (07 R203): entries (row, count), the spill count, and the rows refreshed by direction. -/
structure Tracker where
  rows : List (Nat × Nat) := []
  spill : Nat := 0
  refreshed : List Nat := []
deriving DecidableEq, Repr, Inhabited

/-- A subscriber of a range (07 R206). -/
structure Subscriber where
  uid : Nat
  seg : Nat
  owned : Bool
deriving DecidableEq, Repr, Inhabited

/-- A subscribed range (07 R206): its directory entry and replay window. -/
structure Dir where
  part : Nat
  seq : Nat := 0
  subs : List Subscriber := []
  log : List Update := []
deriving DecidableEq, Repr, Inhabited

/-- A posted receive (09 R264). -/
structure Recv where
  id : Nat
  uid : Nat
  scid : Nat
  tag : Nat
  buf : Nat
  max : Nat
  /-- the counter it signals -/
  cntOp : Option Nat
  tok : List RegKey
  /-- where it was issued, for the replay log (16 R387) -/
  strand : Nat := 0
  ply : Nat := 0
  ic : Nat := 0
  pc : Nat := 0
  word : W64 := 0
  /-- loads of its strand that precede it and had not returned (08 R214) -/
  after : List Nat := []
deriving DecidableEq, Repr, Inhabited

/-- A message accepted by a message unit (09 R263). -/
structure Msg where
  id : Nat
  scid : Nat
  dcid : Nat
  tag : Nat
  sender : Nat
  /-- the receiving cable -/
  to_ : Nat
  bytes : List (Byte × Bool)
  /-- the counter of its sender that it signals -/
  cntOp : Option Nat
  /-- the receive it has matched -/
  taken : Option Recv := none
deriving DecidableEq, Repr, Inhabited

/-! ### Faults, contexts, partitions -/

/-- A fault record (16 Table 16.2). -/
structure FRec where
  cause : Nat
  restart : Bool := false
  coal : Bool := false
  write : Bool := false
  fetch : Bool := false
  super : Bool := false
  halt : Bool := false
  issuer : Nat := 0
  seq : Nat := 0
  count : Nat := 0
  skid : Nat := 0
  ce : Bool := false
  cnt : Nat := 0
  part : Nat := 0
  strand : Nat := 0
  ply : Nat := 0
  cid : Nat := 0
  pc : Nat := 0
  addr : Nat := 0
  progress : Nat := 0
  detail : Nat := 0
  instr : W64 := 0
  handle : Nat := 0
deriving DecidableEq, Repr, Inhabited

/-- Who is stopped by an unanswered record (16 R370, R377). -/
inductive Stopped where
  | group (uid ply gid : Nat)
  /-- the members of a scope instance: its scope (4 for a whole cable that cannot go on) and its ply or lay -/
  | held (uid : Nat) (plies : List Nat) (scope index : Nat)
  | cmd (uid cmd : Nat)
deriving DecidableEq, Repr, Inhabited

/-- An unanswered record that accepts actions (16 R370, R377). -/
structure Handle where
  h : Nat
  cause : Nat
  engine : Bool
  /-- FETCH = 1, or a header defect: action 1 is not accepted -/
  atHeader : Bool
  detail : Nat := 0
  /-- the page of a record of cause 7 or 8 -/
  page : Option Nat := none
  /-- the pages on which the agents faulted, whatever the cause (17 R390) -/
  pages : List Nat := []
  agents : List Stopped
  /-- its record goes to the firmware queue rather than to the context's (R364) -/
  toFirmware : Bool := false
  /-- its record has reached an event page (19 R441) -/
  atEvent : Bool := false
deriving DecidableEq, Repr, Inhabited

/-- A context (19 R436): its registers and what the device keeps for it. -/
structure Context where
  en : Bool := false
  minres : Nat := 2000
  lease : Nat := 10
  fqBase : W64 := 0
  fqLog : Nat := 8
  fqHead : BitVec 16 := 0
  fqTail : BitVec 16 := 0
  fqPdrop : Bool := false
  resume : W64 := 0
  ptbr : W64 := 0
  tlbinv : W64 := 0
  saveBase : W64 := 0
  nslot : Nat := 0
  slots : SMap Nat := []
  rlogBase : W64 := 0
  rlogHead : W32 := 0
  rlogLog : Nat := 10
  rlogMode : Nat := 0
  rlogTail : W32 := 0
  rlogFull : Bool := false
  /-- entries at or above HEAD that have been consumed (16 R388) -/
  rlogDone : List Nat := []
  peerEn : Bool := false
  gpfBusy : BitVec 2 := 0
  queues : List (List QItem) := [[], [], [], [], [], [], [], []]
  handles : List Handle := []
  fqWaiting : List FRec := []
  /-- the largest timestamp of the writes of posted records (16 R365) -/
  fqW : Nat := 0
  /-- pages with an unserved prefetch record, and the record's index (09 R256) -/
  pfhPages : List (Nat × Nat) := []
  evPage : Option Nat := none
  evVec : Nat := 0
  evWritten : Nat := 0
deriving DecidableEq, Repr, Inhabited

/-- A partition (07 R195, R209; 19 R431, R440). -/
structure Partition where
  en : Bool := false
  domain : Nat := 0
  hbm : Nat := 0
  ways : BitVec 16 := 0
  fab : Nat := 0
  mts : Nat := 0
  ft : Nat := 0
  cidNext : Nat := 1
  fwHead : BitVec 16 := 0
  fwTail : BitVec 16 := 0
  fwPdrop : Bool := false
  /-- the interrupt of the management controller that a posted record has raised (19 R440) -/
  fwIrq : Bool := false
  fwWaiting : List FRec := []
  /-- pages (context, page) with an unserved prefetch record in the firmware queue, and its index (09 R256) -/
  pfhPages : List (Nat × Nat × Nat) := []
  devSlots : SMap Nat := []
  /-- its firmware log: the granules that a memory controller found uncorrectable, oldest first (16 R371) -/
  fwLog : List Nat := []
  /-- how often its timestamps have been rebased (07 R196) -/
  rebases : Nat := 0
  /-- for each priority, the context served last (05 R152) -/
  rot : SMap Nat := []
deriving DecidableEq, Repr, Inhabited

/-! ### Ports, boot, fabric -/

/-- A CXL port (18 Table 18.13). -/
structure Port where
  online : Bool := false
  mode : Nat := 0
  width : Nat := 0
  cto : Nat := 2000
  mbox : W64 := 0
  mboxEn : Bool := false
  /-- the contexts whose flush of the port is in progress, in the order in which they began (18 R423) -/
  gpf : List Nat := []
deriving DecidableEq, Repr, Inhabited

/-- The reset states (19 Table 19.1). -/
inductive Boot where | scrub | await | verify | load | run | failed
deriving DecidableEq, Repr, Inhabited

/-- A message of this module that has not completed (18 R401 to R403). -/
structure OutMsg where
  id : Nat
  head : NetHead
  data : List (Byte × Bool) := []
  /-- the cycle at which the port sent it -/
  sentAt : Option Nat := none
  /-- the partition in whose share it travels -/
  part : Nat
  /-- the peer access, or the command (cable, command), that it serves; neither for a reply -/
  txn : Option Nat := none
  cmd : Option (Nat × Nat) := none
deriving DecidableEq, Repr, Inhabited

/-- A message held for another module (18 R402), with the cycle at which it arrived. -/
structure Relayed where
  head : NetHead
  data : List (Byte × Bool)
  at_ : Nat
deriving DecidableEq, Repr, Inhabited

/-- A message that has arrived for this module (18 R396). -/
structure InMsg where
  id : Nat
  head : NetHead
  data : List (Byte × Bool)
  /-- the cycle at which it arrived -/
  at_ : Nat := 0
  /-- performed, with its partition, what its reply carries and the updates that subscribers have still to apply (07 R208) -/
  performed : Option (Nat × List (Byte × Bool) × List (Nat × Nat)) := none
deriving DecidableEq, Repr, Inhabited

/-- A collective instance in flight (18 R411). -/
structure Collective where
  part : Nat
  crew : Nat
  seq : Nat
  uid : Nat
  cmd : Nat
  got : List Contribution := []
deriving DecidableEq, Repr, Inhabited

/-! ### The module -/

/-- Which agent performs the instruction being executed (log 3). -/
inductive Agent where
  | none
  | group (uid ply gid : Nat)
  | walker (uid cmd w : Nat)
  | firmware (val : W64)
deriving DecidableEq, Repr, Inhabited

/-- The state of the module. -/
structure State where
  -- the model's own fields (log 1, 2, 3, 5)
  agenda : List Turn
  stepCount : Nat
  cur : Agent
  fwResult : W64
  /-- a write of `DEV_CTX_LAUNCH` that waits for room, with its context: firmware does nothing else until then (19 R438) -/
  fwLaunch : Option (Nat × W64)
  /-- the fault that firmware's last `crd` or `cwr` raised, by its cause; 0 for none (01 R16) -/
  fwFault : Nat
  /-- the groups at whose instruction an exit of this step left every live member signed: cable, ply, group (05 R137) -/
  due : List (Nat × Nat × Nat)
  nextUid : Nat
  nextOp : Nat
  nextHandle : Nat
  -- time
  cycle : Nat
  -- cables and cores
  cables : SMap Cable
  coils : SMap Coil
  cores : SMap Core
  txns : SMap Txn
  /-- the L2 TLB of each cluster (16 R376) -/
  l2tlb : SMap (List TlbEntry)
  -- memory nodes
  mem : Memory
  psn : List Nat
  esr : SMap Nat
  /-- the partition of each 4 KiB physical page, where it is not partition 0 (07 R209; log 10) -/
  pageOwner : SMap Nat
  lines : SMap Line
  /-- LLC ways that are waking, with the cycle at which they are awake (07 R205) -/
  wayWake : SMap Nat
  trackers : SMap Tracker
  refreshStart : Nat
  epoch : Nat
  golden : Nat × Nat
  dirs : SMap Dir
  waiters : List Waiter
  posted : SMap (List Recv)
  overflow : SMap (List Msg)
  deliveries : List Msg
  -- contexts and partitions
  ctxs : SMap Context
  parts : SMap Partition
  /-- the record that firmware is serving from a partition's queue: (partition, context, its bytes) for each event page
  that it still goes to (19 R441) -/
  evPending : List (Nat × Nat × List (Byte × Bool))
  /-- the records of preemptions that did not begin, which wait for the end of their cycles (19 R435) -/
  unsaved : List Unsaved
  /-- the context whose destruction the host has requested, until it is disabled (19 R439) -/
  hostBusy : Option Nat
  -- module registers
  tickDiv : Nat
  nextTick : Nat
  rdmBlast : Nat
  rdmThresh : Nat
  fabId : Nat
  fabTmo : Nat
  ports : List Port
  partSel : Nat
  partResult : Nat
  coreMap : SMap Nat
  coreMapReg : W64
  pwrLimit : Nat
  thermTrip : Nat
  thermMig : Nat
  thermGidle : Nat
  pwrShed : Bool
  pwrNoslot : Bool
  pwrWatts : Nat
  /-- the temperature last measured at each core, in °C (19 R434) -/
  coreTemps : SMap Nat
  pwrOver : Nat
  nextWindow : Nat
  svn : Nat
  ctxSel : Nat
  ctxResult : Nat
  -- boot and host
  boot : Boot
  bootError : Nat
  ready : Bool
  measured : Nat
  imageSvn : Nat
  nonce : List Byte
  attDone : Bool
  attReport : List Byte
  creq : W64
  cargs : List W64
  cresult : W64
  msix : List Nat
  hostRead : List Byte × Bool
  -- fabric
  matching : SMap Nat
  /-- by fibre, the slot that it will serve next (18 R399, R402) -/
  fibreSlot : SMap Nat
  nextMseq : Nat
  outMsgs : List OutMsg
  /-- the blocks that carried messages on each egress fibre in its latest slot, each of four codewords (18 R400) -/
  egress : SMap (List (List (List Nat)))
  relayed : List Relayed
  inMsgs : List InMsg
  partial_ : SMap (NetHead × List (Byte × Bool))
  collectives : List Collective
  fabSeq : W32
  engSeq : SMap W32
deriving DecidableEq, Repr, Inhabited

/-! ### How a step can stop -/

/-- A stop of the machine. -/
inductive Fault where
  /-- Raised by `exec` of an instruction while no group, walker or firmware is named to perform it, or while that
  agent does not exist; `step` names one before every instruction it executes. Safe: the hardware never decodes an
  instruction outside a clause of a running group or walker (01 R17). -/
  | noAgent
deriving DecidableEq, Repr, Inhabited

/-- An instruction without a meaning. -/
inductive Refusal where
  /-- Raised by `exec` for a row the model gives no meaning. Safe: the run stops. -/
  | notModelled (mnemonic : String)
deriving DecidableEq, Repr, Inhabited

/-- A context that is not enabled; its registers take these values when it is (19 R437). -/
def Context.fresh : Context := {}

/-- The module right after a reset (19 R424): state SCRUB, every register at its reset value, nodes 0 and 1 zero, no
cable. The fuses start unblown (log 6); nodes 2 and 3 read zero (log 4). -/
def State.reset : State where
  agenda := []
  stepCount := 0
  cur := .none
  fwResult := 0
  fwLaunch := none
  fwFault := 0
  due := []
  nextUid := 1
  nextOp := 1
  nextHandle := 1
  cycle := 0
  cables := []
  coils := []
  cores := []
  txns := []
  l2tlb := []
  mem := []
  psn := []
  esr := []
  pageOwner := []
  lines := []
  wayWake := []
  trackers := []
  refreshStart := 0
  epoch := 0
  golden := (0, 0)
  dirs := []
  waiters := []
  posted := []
  overflow := []
  deliveries := []
  ctxs := []
  parts := []
  evPending := []
  unsaved := []
  hostBusy := none
  tickDiv := 4096
  nextTick := 4096
  rdmBlast := 2
  rdmThresh := 1024
  fabId := 0
  fabTmo := 10000
  ports := [{}, {}]
  partSel := 0
  partResult := 0
  coreMap := []
  coreMapReg := 0
  pwrLimit := 5800
  thermTrip := 110
  thermMig := 95
  thermGidle := 100
  pwrShed := false
  pwrNoslot := false
  pwrWatts := 0
  coreTemps := []
  pwrOver := 0
  nextWindow := 3000000
  svn := 0
  ctxSel := 0
  ctxResult := 0
  boot := .scrub
  bootError := 0
  ready := false
  measured := 0
  imageSvn := 0
  nonce := []
  attDone := false
  attReport := []
  creq := 0
  cargs := [0, 0, 0]
  cresult := 0
  msix := []
  hostRead := ([], false)
  matching := []
  fibreSlot := []
  nextMseq := 0
  egress := []
  outMsgs := []
  relayed := []
  inMsgs := []
  partial_ := []
  collectives := []
  fabSeq := 0
  engSeq := []

end Sys2Proof.Machine
end

