-- ==== Sys2Proof/Machine/Home.lean ====
section
/-! DEFINITION. Access to the parts of the state, the physical map, and what home slices do: reads, writes with
timestamps, subscriptions, wait queues (07, 08, 09). -/
namespace Sys2Proof.Machine

/-! ### Parts of the state -/

def State.core (s : State) (c : Nat) : Core := s.cores.getD c {}
def State.updCore (s : State) (c : Nat) (f : Core → Core) : State :=
  { s with cores := s.cores.insert c (f (s.core c)) }
def State.ctx (s : State) (c : Nat) : Context := s.ctxs.getD c {}
def State.updCtx (s : State) (c : Nat) (f : Context → Context) : State :=
  { s with ctxs := s.ctxs.insert c (f (s.ctx c)) }
def State.part (s : State) (p : Nat) : Partition := s.parts.getD p {}
def State.updPart (s : State) (p : Nat) (f : Partition → Partition) : State :=
  { s with parts := s.parts.insert p (f (s.part p)) }
def State.cable (s : State) (uid : Nat) : Cable := s.cables.getD uid { uid := uid, state := .ended }
def State.updCable (s : State) (uid : Nat) (f : Cable → Cable) : State :=
  { s with cables := s.cables.update uid f }
def Cable.ply (c : Cable) (p : Nat) : Ply := c.plies.getD p {}
def Cable.updPly (c : Cable) (p : Nat) (f : Ply → Ply) : Cable := { c with plies := c.plies.update p f }
def Cable.strand (c : Cable) (i : Nat) : Strand := c.strands.getD i { live := false }
def Cable.updStrand (c : Cable) (i : Nat) (f : Strand → Strand) : Cable :=
  { c with strands := c.strands.update i f }
def State.updPly (s : State) (uid p : Nat) (f : Ply → Ply) : State := s.updCable uid fun c => c.updPly p f
def State.updStrand (s : State) (uid i : Nat) (f : Strand → Strand) : State :=
  s.updCable uid fun c => c.updStrand i f
def State.setTxn (s : State) (t : Txn) : State := { s with txns := s.txns.insert t.id t }
def State.dropTxn (s : State) (id : Nat) : State := { s with txns := s.txns.erase id }
def State.port (s : State) (n : Nat) : Port := s.ports.getD n {}
def State.updPort (s : State) (n : Nat) (f : Port → Port) : State :=
  { s with ports := s.ports.set n (f (s.port n)) }

/-- The core a cable is placed on. -/
def Cable.core? (c : Cable) : Option Nat := match c.state with | .placed k => some k | _ => none
/-- The core a cable is placed on, or was. -/
def Cable.coreD (c : Cable) : Nat := c.core?.getD c.lastCore
def Cable.isPlaced (c : Cable) : Bool := c.core?.isSome
def Cable.isSaved (c : Cable) : Bool := match c.state with | .saved .. => true | .requeued .. => true | _ => false

/-- `%clock` counts cycles of the 1.0 GHz reference; the arithmetic clock runs at 3.0 GHz (04 R116). -/
def State.clock (s : State) : Nat := s.cycle / 3
/-- Microseconds of `%clock`. -/
def State.micros (s : State) : Nat := s.clock / 1000

/-! ### Fields of the launch record (05 Table 5.5) -/

def recField (r : List W64) (off lo n : Nat) : Nat := ((r.getD (off / 8) 0).toNat / 2 ^ lo) % 2 ^ n
def Cable.plyCount (c : Cable) : Nat := recField c.lrec 0x10 0 6
def Cable.spadUnits (c : Cable) : Nat := recField c.lrec 0x10 8 8
def Cable.spadBytes (c : Cable) : Nat := c.spadUnits * 4096
def Cable.tableCount (c : Cable) : Nat := recField c.lrec 0x10 16 4
def Cable.tileCount (c : Cable) : Nat := recField c.lrec 0x10 20 5
def Cable.prio (c : Cable) : Nat := recField c.lrec 0x10 25 3
def recPrio (r : List W64) : Nat := recField r 0x10 25 3
/-- Launched at supervisor level (16 R364). -/
def Cable.superLaunch (c : Cable) : Bool := recField c.lrec 0x10 28 1 == 1
def Cable.writer (c : Cable) : Nat := recField c.lrec 0x10 29 5
def Cable.regres (c : Cable) : Nat := recField c.lrec 0x10 34 6
/-- The ply mask of lay i. -/
def recLay (r : List W64) (i : Nat) : Nat := recField r (0x18 + 8 * (i / 2)) (32 * (i % 2)) 32
def Cable.layMask (c : Cable) (i : Nat) : Nat := recLay c.lrec i
def Cable.layDeclared (c : Cable) (i : Nat) : Bool := c.layMask i != 0
def Cable.inLay (c : Cable) (i p : Nat) : Bool := (c.layMask i).testBit p
def recLattr (r : List W64) (i : Nat) : Nat := recField r 0x28 (16 * i) 16
def Cable.layRole (c : Cable) (i : Nat) : Nat := recLattr c.lrec i % 4
def Cable.layBudget (c : Cable) (i : Nat) : Nat := recLattr c.lrec i / 4 % 64 * 8
/-- The register budget of the strands of a ply (05 R128). -/
def Cable.budget (c : Cable) (p : Nat) : Nat :=
  ((List.range 4).filter fun i => c.inLay i p && c.layBudget i != 0).foldl (fun b i => min b (c.layBudget i)) 256
/-- The role of a ply: that of any role lay that holds it (05 R126, R127). -/
def Cable.role (c : Cable) (p : Nat) : Nat :=
  ((List.range 4).filter fun i => c.inLay i p).foldl (fun r i => if c.layRole i ≠ 0 then c.layRole i else r) 0

/-! ### The physical map (07 Table 7.2, 19 Table 19.5) -/

/-- The node of a physical address; none where unpopulated. -/
def nodeOf (pa : Nat) : Option Nat :=
  if pa < 0x010000000000 then some 0
  else if pa < 0x030000000000 then some 1
  else if 0x100000000000 ≤ pa ∧ pa < 0x200000000000 then some 2
  else if 0x200000000000 ≤ pa ∧ pa < 0x300000000000 then some 3
  else none

/-- The base of stack s's reserved region (19 R430). -/
def reservedBase (stack : Nat) : Nat := stack * 2 ^ 36 + 0xFC0000000
def isReserved (pa : Nat) : Bool := nodeOf pa == some 0 && 0xFC0000000 ≤ pa % 2 ^ 36
def State.owner (s : State) (pa : Nat) : Nat := s.pageOwner.getD (pa / 4096) 0
/-- The node is reached through a port: nodes 2 and 3. -/
def portOf (node : Nat) : Option Nat := if node = 2 then some 0 else if node = 3 then some 1 else none
/-- The node's port is a host link (18 R418). -/
def State.hostLink (s : State) (node : Nat) : Bool :=
  match portOf node with | some n => (s.port n).mode == 1 | none => false
def State.offline (s : State) (node : Nat) : Bool :=
  match portOf node with | some n => !(s.port n).online | none => false
/-- A line of the node may be held in caches and carries a scope record (07 R188, 08 R234). -/
def State.cacheable (s : State) (pa : Nat) : Bool :=
  match nodeOf pa with | some n => !(s.hostLink n) | none => false
/-- The cores of a partition (19 R431): bit 4 of the map entry is VALID, bits [3:0] PART. -/
def State.corePart (s : State) (c : Nat) : Option Nat :=
  let e := s.coreMap.getD c 0
  if e.testBit 4 then some (e % 16) else none

/-! ### Home slices -/

def maxTime : Nat := 0xFFFFF
def rebaseBy : Nat := 0x80000

/-- R196, R226, R230, R398: every timestamp of a partition falls by 0x8_0000. A copy that a load's reply would install under
a lease that the rebase clamps is not installed. -/
def State.rebase (s : State) (p : Nat) : State :=
  let low (x : Nat) := x - rebaseBy
  { s with
    lines := s.lines.map fun (l, m) => if s.owner (l * 128) = p then (l, { m with w := low m.w, r := low m.r }) else (l, m)
    ctxs := s.ctxs.map fun (c, x) => if c / 16 = p then (c, { x with fqW := low x.fqW }) else (c, x)
    parts := s.parts.insert p
      { s.part p with mts := low (s.part p).mts, ft := low (s.part p).ft, rebases := (s.part p).rebases + 1 }
    cores := s.cores.map fun (c, k) =>
      if s.corePart c = some p then
        (c, { k with
              p := low k.p
              l1 := (k.l1.filter fun e => rebaseBy ≤ e.2.r).map fun e => (e.1, { e.2 with w := low e.2.w, r := low e.2.r }) })
      else (c, k)
    txns := s.txns.map fun (i, t) =>
      match t.state with
      | .performed w r bs fl =>
        if (s.cables.getD t.uid { uid := t.uid }).part = p then
          (match t.kind with
           | .load l lo n ls ldk install acq parts =>
             (i, { t with kind := .load l lo n ls ldk (install && rebaseBy ≤ r) acq parts, state := .performed (low w) (low r) bs fl })
           | _ => (i, { t with state := .performed (low w) (low r) bs fl }))
        else (i, t)
      | .asked => (i, t)
    coils := s.coils.map fun (i, c) => if c.part = p then (i, { c with p := low c.p }) else (i, c)
    cables := s.cables.map fun (u, c) => if c.part = p then (u, { c with
        ept := c.ept.map low, cmds := c.cmds.map fun m => { m with wmax := low m.wmax } }) else (u, c) }

/-- Raises a core's logical time. -/
def State.raiseP (s : State) (c t : Nat) : State := s.updCore c fun k => { k with p := max k.p t }

/-- The metadata of a line; one that is not in the LLC is refilled with wts = rts = mts (R195). -/
def State.line (s : State) (l : Nat) : Line :=
  let m := s.lines.getD l {}
  if m.inLlc then m else
    let t := (s.part (s.owner (l * 128))).mts
    { m with inLlc := true, sectors := [], w := t, r := t }
def State.setLine (s : State) (l : Nat) (m : Line) : State := { s with lines := s.lines.insert l m }

/-! ### Row trackers (07 R203) -/

/-- An activation of a row of a bank: the Misra–Gries step, and directed refresh at the threshold. -/
def Tracker.activate (t : Tracker) (x thresh blast : Nat) : Tracker :=
  let t1 : Tracker :=
    if t.rows.any fun e => e.1 == x then { t with rows := t.rows.map fun e => if e.1 = x then (e.1, e.2 + 1) else e }
    else match t.rows.findIdx? fun e => e.2 == t.spill with
      | some i => { t with rows := t.rows.set i (x, t.spill + 1) }
      | none =>
        -- the entries after the listed ones are empty, with count 0
        if t.rows.length < 32 && t.spill == 0 then { t with rows := t.rows ++ [(x, 1)] }
        else { t with spill := t.spill + 1 }
  if t1.rows.any fun e => e.1 == x && thresh ≤ e.2 then
    { t1 with
      rows := t1.rows.map fun e => if e.1 = x then (e.1, t1.spill) else e
      refreshed := ((List.range (2 * blast + 1)).map fun i => x + i - blast).filter (· != x) }
  else t1

/-- A row of its bank is activated for an address. -/
def State.rowActivate (s : State) (pa : Nat) : State :=
  let b := Config.bankOf pa
  { s with trackers := s.trackers.insert b ((s.trackers.getD b {}).activate (Config.rowOf pa) s.rdmThresh s.rdmBlast) }

/-! ### Slices (07 R197, R200, R205, R209) -/

/-- The home slice of a physical address: its die and its number there (R197, Table 7.2). -/
def sliceOf (pa : Nat) : Nat × Nat :=
  let die := match nodeOf pa with
    | some 0 => pa / 2 ^ 36 % 16 / 4
    | some 1 => (pa - 0x010000000000) / 4096 % 16 / 4
    | _ => pa / 4096 % 4
  (die, pa / 128 % 72)

/-- The set of its slice that holds a line; the spec gives no index (log 103). -/
def llcSet (l : Nat) : Nat := l / 72 % 1024

/-- The ways of every slice that a partition's lines occupy (R209): those that it is assigned while it is enabled; the others
are gated (19 R432). -/
def State.waysOf (s : State) (p : Nat) : List Nat :=
  if (s.part p).en then (List.range 16).filter fun w => (s.part p).ways.getLsbD w else []

/-- The place of a line that passes through its slice in no way: its partition has none. A slice holds one such line at a
time (DESIGN CHOICE, log 103). -/
def noWay : Nat := 16

/-- The other lines that the 16 ways of a line's set hold. -/
def State.setLines (s : State) (l : Nat) : List (Nat × Line) :=
  s.lines.filter fun e => e.2.inLlc && e.2.way != noWay && e.1 != l && llcSet e.1 == llcSet l
    && sliceOf (e.1 * 128) == sliceOf (l * 128)
/-- The other lines that pass through the slice of a line. -/
def State.passing (s : State) (l : Nat) : List (Nat × Line) :=
  s.lines.filter fun e => e.2.inLlc && e.2.way == noWay && e.1 != l && sliceOf (e.1 * 128) == sliceOf (l * 128)

/-- The way that a line comes into: one of its partition's that holds no line, or else one of the slice's choice (log 103). -/
def State.wayFor (s : State) (l : Nat) : Nat :=
  let ways := s.waysOf (s.owner (l * 128))
  match ways.find? fun w => !((s.setLines l).any fun e => e.2.way == w) with
  | some w => w
  | none => ways.getD (Config.freeWay s.stepCount % ways.length) noWay

/-- An LLC line leaves its slice: mts rises, a far line's scope record is dropped (R195, 08 R234). The model keeps one mts
for a partition over all slices (log 102). -/
def State.evict (s : State) (l : Nat) : State :=
  match s.lines.find? l with
  | none => s
  | some m =>
    if !m.inLlc then s else
      let p := s.owner (l * 128)
      let near : Bool := decide (nodeOf (l * 128) = some 0) || decide (nodeOf (l * 128) = some 1)
      (s.updPart p fun q => { q with mts := max q.mts m.r }).setLine l
        { m with inLlc := false, sectors := [], dirty := false, far := none, scope := if near = true then m.scope else none }

/-- A line that is not in the LLC takes a way of its set; the line that held it leaves. -/
def State.enterLlc (s : State) (l : Nat) : State :=
  if (s.lines.getD l {}).inLlc then s else
    let w := s.wayFor l
    let out := if w = noWay then s.passing l else (s.setLines l).filter fun e => e.2.way == w
    let s1 := (out.map Prod.fst).foldl State.evict s
    s1.setLine l { s1.line l with way := w }

def State.granPsn (s : State) (pa : Nat) : Bool := s.psn.contains (pa / 16)

/-- ESR: the tag of a 64-byte block (07 R201). -/
def esrTag (h : List Nat) (poisoned : Bool) : Nat :=
  let e (x : Nat) := x / 128 % 256
  let B := h.foldl (fun b x => max b (e x)) 0
  if poisoned then 0
  else if h.all (fun x => B - e x ≤ 6 || e x == 0) then 1
  else if h.all (fun x => x / 1024 % 32 == (h.headD 0) / 1024 % 32) then 2
  else 0
def State.readNat (s : State) (pa n : Nat) : Nat := leNat (s.mem.readN pa n)
def State.blockHalfwords (s : State) (blk : Nat) : List Nat :=
  (List.range 32).map fun i => s.readNat (blk * 64 + 2 * i) 2
/-- A block of the page has a tag: it was stored under a page-table entry with ESR = 1. -/
def State.esrPage (s : State) (pa : Nat) : Bool := s.esr.any fun e => e.1 / 64 == pa / 4096

/-- Recodes the blocks of node 0 that a change of some bytes touched: on a page with ESR = 1 (`on`), and where a block has a
tag, raw or not. -/
def State.recode (s : State) (on : Bool) (addrs : List Nat) : State :=
  if !on && s.esr.isEmpty then s else
    let blks := addrs.foldl (fun l a => if nodeOf a = some 0 && (on || (s.esr.find? (a / 64)).isSome) then setInsert (a / 64) l else l) []
    { s with esr := blks.foldl (fun m b =>
        m.insert b (esrTag (s.blockHalfwords b) ((List.range 4).any fun j => s.psn.contains (b * 4 + j)))) s.esr }

/-- The smallest aligned block of 16, 32, 64 or 128 bytes that covers offsets `lo` to `hi` of a line (R200). -/
def blockOf (lo hi : Nat) : Nat × Nat :=
  if lo / 16 = hi / 16 then (lo / 16 * 16, 16) else if lo / 32 = hi / 32 then (lo / 32 * 32, 32)
  else if lo / 64 = hi / 64 then (lo / 64 * 64, 64) else (0, 128)

/-- The sectors that a slice fetches for the sectors `lo` to `hi` of a line (R200): from node 0 those, from the other nodes
the 64-byte halves that hold them. -/
def fetchSectors (node : Option Nat) (lo hi : Nat) : List Nat :=
  (List.range 8).filter fun i => if node = some 0 then lo ≤ i && i ≤ hi else lo / 4 * 4 ≤ i && i ≤ hi / 4 * 4 + 3

/-- Bytes `lo` to `lo + n - 1` of a line come into its slice: the missing sectors are fetched from their bank (R200); a
granule that the memory controller finds uncorrectable comes with its poison bit set, and the partition's firmware log
names it (16 R371; logs 23, 104). A fetch counts as one activation of its row, a write back as none (DESIGN CHOICE, log 153). -/
def State.touchBlock (s : State) (l lo n : Nat) : State :=
  let held := s.line l
  let missing := (fetchSectors (nodeOf (l * 128)) (lo / 16) ((lo + n - 1) / 16)).filter fun i => !held.sectors.contains i
  if (s.lines.getD l {}).inLlc && missing.isEmpty then s else
    let bad := (missing.map (8 * l + ·)).filter fun g => Config.uncorrectable s.stepCount g
    let s1 := (s.enterLlc l).rowActivate (l * 128)
    let m := s1.line l
    let s2 := s1.setLine l { m with sectors := missing.foldl (fun a i => setInsert i a) m.sectors }
    if bad.isEmpty then s2 else
      ({ s2 with psn := bad.foldl (fun m g => setInsert g m) s2.psn }.updPart (s.owner (l * 128)) fun p =>
        { p with fwLog := p.fwLog ++ bad }).recode false (bad.map (16 * ·))

/-- A span of physical bytes comes into the LLC, where its lines may stand there (18 R419). -/
def State.touchSpan (s : State) (pa n : Nat) : State :=
  (List.range ((pa % 128 + n + 127) / 128)).foldl (fun (s : State) i =>
    let l := pa / 128 + i
    let lo := if i = 0 then pa % 128 else 0
    if s.cacheable (l * 128) then s.touchBlock l lo (min (128 - lo) (pa + n - (l * 128 + lo))) else s) s

/-- A value read from memory with the poison of each byte's granule. -/
def State.fetchBytes (s : State) (pa n : Nat) : List (Byte × Bool) :=
  (List.range n).map fun i => (s.mem.read (pa + i), s.granPsn (pa + i))

/-- Puts bytes into memory; a granule's poison bit is set by any poisoned byte and cleared only by sixteen clean
ones (16 R372), which may be several elements of one unit (DESIGN CHOICE, log 154). -/
def State.putBytes (s : State) (bytes : List (Nat × Byte × Bool)) : State :=
  let s1 := { s with mem := bytes.foldl (fun (m : Memory) (e : Nat × Byte × Bool) => Memory.write e.1 e.2.1 m) s.mem }
  let grans : List Nat := bytes.foldl (fun (l : List Nat) (e : Nat × Byte × Bool) => setInsert (e.1 / 16) l) []
  { s1 with psn := grans.foldl (fun (l : List Nat) (g : Nat) =>
      let mine := bytes.filter fun (e : Nat × Byte × Bool) => e.1 / 16 == g
      if mine.any fun e => e.2.2 then setInsert g l
      else if (mine.foldl (fun acc e => setInsert e.1 acc) []).length = 16 then setErase g l
      else l) s1.psn }

/-- What the host writes of its own memory behind its link by this step (18 R419, log 141). -/
def State.hostCells (s : State) : List (Nat × Byte × Bool) :=
  if s.ports.any fun p => p.mode == 1 then
    ((Config.hostWrites s.stepCount).filter fun e => match nodeOf e.1 with | some n => s.hostLink n | none => false).map
      fun e => (e.1, e.2, false)
  else []

/-- What the host has written stands in its memory from now on: no home slice performs it. -/
def State.hostSide (s : State) : State := s.putBytes s.hostCells

/-- A range as its home sends it in a snapshot: its bytes, and which of its granules are poisoned (R207). -/
def State.pageImage (s : State) (range : Nat) : List Byte × List Nat :=
  let page := s.fetchBytes (range * 4096) 4096
  (page.map Prod.fst, (List.range 256).filter fun g => (page.getD (16 * g) (0, false)).2)

/-- Sends one update to the subscribers of a range that are not saved (07 R206, R207). -/
def State.multicast (s : State) (range : Nat) (u : Update) : State :=
  match s.dirs.find? range with
  | none => s
  | some d => d.subs.foldl (fun s sub => s.updCable sub.uid fun c =>
      if c.isSaved then c else
        { c with segs := c.segs.update sub.seg fun g => { g with inbox := g.inbox ++ [u] } }) s

/-- Whether the range of a physical address is subscribed. -/
def State.subscribed (s : State) (pa : Nat) : Bool := (s.dirs.find? (pa / 4096)).isSome

/-- A write to a subscribed range becomes one update with the range's next number (R206). -/
def State.publishRange (s : State) (pa : Nat) (bytes : List (Nat × Byte × Bool)) : State × Option (Nat × Nat) :=
  let range := pa / 4096
  match s.dirs.find? range with
  | none => (s, none)
  | some d =>
    let u : Update := { num := (d.seq + 1) % 2 ^ 32, bytes := bytes.map fun b => (b.1 % 4096, b.2), sent := s.stepCount }
    let d' := { d with seq := u.num, log := (d.log ++ [u]).drop (d.log.length + 1 - 256) }
    (({ s with dirs := s.dirs.insert range d' }).multicast range u, some (range, u.num))

/-- The timestamp W′ that the home slice gives a write of `n` bytes from offset `lo` of a line, from logical time `p`
(R194). -/
def State.stampWrite (s : State) (part p l lo n : Nat) : State × Nat :=
  let s := s.touchBlock l lo n
  let m0 := s.line l
  let big := decide (maxTime < max p (m0.r + 1))
  let s1 := if big then s.rebase part else s
  let m := if big then { m0 with w := m0.w - rebaseBy, r := m0.r - rebaseBy } else m0
  let p1 := if big then p - rebaseBy else p
  let w := max p1 (m.r + 1)
  let far := match m.far with
    | some f => some f
    | none => if (portOf ((nodeOf (l * 128)).getD 0)).isSome && !m.dirty then
        some (s1.mem.readN (l * 128) 128, s1.psn.filter fun g => g / 8 == l) else none
  (s1.setLine l { m with w := w, r := w, dirty := true, far := far, ver := m.ver + 1 }, w)

/-- A write at its home slice from logical time `p` (R194): W′, and the update it became. The bytes lie in one line. -/
def State.homeWrite (s : State) (part p : Nat) (bytes : List (Nat × Byte × Bool)) (esr : Bool := false) :
    State × Nat × Option (Nat × Nat) :=
  match bytes with
  | [] => (s, p, none)
  | (pa, _, _) :: _ =>
    let last := bytes.foldl (fun a b => max a b.1) pa
    let first := bytes.foldl (fun a b => min a b.1) pa
    let (s1, w) := s.stampWrite part p (pa / 128) (first % 128) (last + 1 - first)
    let s3 := (s1.putBytes bytes).recode esr (bytes.map Prod.fst)
    let (s4, u) := s3.publishRange pa bytes
    (s4, w, u)

/-- Bytes from a physical address, cut at line boundaries. -/
def splitLines (bytes : List (Nat × Byte × Bool)) : List (List (Nat × Byte × Bool)) :=
  let lines := bytes.foldl (fun l e => setInsert (e.1 / 128) l) []
  lines.map fun l => bytes.filter fun e => e.1 / 128 == l

/-- A timestamp of before some steps as they left it: the partition may have rebased (R196). -/
def State.sinceRebase (s0 s1 : State) (part w : Nat) : Nat :=
  w - rebaseBy * ((s1.part part).rebases - (s0.part part).rebases)

/-- An engine's write of bytes of one line, as a write from P = 0 (R194): W′, 0 where no timestamps are kept (18 R419), and the
update it became. -/
def State.engineLine (s : State) (part : Nat) (ch : List (Nat × Byte × Bool)) (esr : Bool) : State × Nat × Option (Nat × Nat) :=
  let pa := (ch.headD (0, 0, false)).1
  if s.cacheable pa then s.homeWrite part 0 ch esr
  else
    let (s1, u) := (s.putBytes ch).publishRange pa ch
    (s1, 0, u)

/-- An engine's writes of bytes, each with the ESR bit of its page, as writes from P = 0, a line at a time; the largest W′
and the updates they became. -/
def State.engineCells (s : State) (part : Nat) (cells : List (Nat × Byte × Bool)) (esr : Nat → Bool) :
    State × Nat × List (Nat × Nat) :=
  (splitLines cells).foldl (fun (b : State × Nat × List (Nat × Nat)) ch =>
    let (s1, w, u) := b.1.engineLine part ch (esr ((ch.headD (0, 0, false)).1))
    (s1, max (b.1.sinceRebase s1 part b.2.1) w, b.2.2 ++ u.toList)) (s, 0, [])

/-- An engine's write of bytes from a physical address of a page with this ESR bit, as writes from P = 0 (R194); the
largest W′. -/
def State.engineWrite (s : State) (part pa : Nat) (bytes : List (Byte × Bool)) (esr : Bool := false) : State × Nat :=
  let r := s.engineCells part ((List.range bytes.length).zipWith (fun i b => (pa + i, b)) bytes) fun _ => esr
  (r.1, r.2.1)

/-- Number `a` is at or after number `b`, modulo 2³² (R207). -/
def seqReached (a b : Nat) : Bool := decide ((a + 2 ^ 32 - b % 2 ^ 32) % 2 ^ 32 < 2 ^ 31)

/-- Every subscriber of a range that is not saved has applied an update (R208). -/
def State.applied (s : State) (upd : Option (Nat × Nat)) : Bool :=
  match upd with
  | none => true
  | some (range, num) =>
    match s.dirs.find? range with
    | none => true
    | some d => d.subs.all fun b =>
      let c := s.cable b.uid
      c.isSaved || match c.segs.find? b.seg with
        | none => true
        | some g => (match g.snapshot with | some (q, _) => seqReached q num | none => seqReached g.last num)

/-- A clean engine write of a little-endian number. -/
def State.engineWriteNat (s : State) (part pa v n : Nat) (esr : Bool := false) : State × Nat :=
  s.engineWrite part pa ((leBytes v n).map fun b => (b, false)) esr

/-- A lease or a plain read of `n` bytes from offset `lo` of a line at the home slice (R193, R246): the line's (W, Rt)
after it. -/
def State.homeLease (s : State) (part l lo n p lease : Nat) : State × Nat × Nat :=
  let s := s.touchBlock l lo n
  let m0 := s.line l
  let big := decide (maxTime < max m0.r (max p m0.w + lease))
  let s1 := if big then s.rebase part else s
  let m := if big then { m0 with w := m0.w - rebaseBy, r := m0.r - rebaseBy } else m0
  let p1 := if big then p - rebaseBy else p
  let rt := max m.r (max p1 m.w + lease)
  (s1.setLine l { m with r := rt }, m.w, rt)

/-- A read of `n` bytes at their home slices with P = 0 and no lease, which installs no copy (18 R396, R421). -/
def State.homeRead (s : State) (part pa n : Nat) : State × List (Byte × Bool) :=
  let s1 := (List.range ((pa % 128 + n + 127) / 128)).foldl (fun (s : State) i =>
    let l := pa / 128 + i
    let lo := if i = 0 then pa % 128 else 0
    if s.cacheable (l * 128) then (s.homeLease part l lo (min (128 - lo) (pa + n - (l * 128 + lo))) 0 0).1 else s) s
  (s1, s1.fetchBytes pa n)

/-! ### The scope checker (08 R234, R235) -/

/-- Whether a synchronising access of cable `cid`, ply `p`, on a cluster, may meet a record. -/
def ScopeRec.admits (r : ScopeRec) (ssc : BitVec 3) (cid p cluster : Nat) : Bool :=
  if ssc = 0 then r.cid == cid && r.ply == p
  else if ssc = 1 then r.cid == cid
  else if ssc = 2 then r.cluster == cluster
  else true

end Sys2Proof.Machine
end

