-- ==== Sys2Proof/Machine/Groups.lean ====
section
/-! DEFINITION. Groups of a ply: path slots, the parked set, division and merging at clause ends, holds
(05 R136, R140 to R144; 06 R173). -/
namespace Sys2Proof.Machine

/-! ### Path slots and the parked set (R141 to R143) -/

/-- The path slot a group stands in, or gave up. -/
def Place.slotOr (p : Place) : Nat := match p with | .slot n => n | .out n => n | .parked _ => 0
def Ply.slotFree (y : Ply) (n : Nat) : Bool := y.groups.all fun g => g.place != .slot n
/-- The rank that joins the parked set as its youngest member. -/
def Ply.nextRank (y : Ply) : Nat :=
  y.groups.foldl (fun r g => match g.place with | .parked k => max r (k + 1) | _ => r) 0
def Ply.nextGid (y : Ply) : Nat := y.groups.foldl (fun r g => max r (g.gid + 1)) 0
/-- The lowest rank of the parked set. -/
def Ply.oldestRank (y : Ply) : Option Nat :=
  y.groups.foldl (fun r g => match g.place, r with
    | .parked k, some j => some (min j k) | .parked k, none => some k | _, _ => r) none
/-- The oldest parked group takes a slot that is free (R143). -/
def Ply.fillSlot (y : Ply) (n : Nat) : Ply :=
  if y.slotFree n then
    match y.oldestRank with
    | none => y
    | some r => { y with groups := y.groups.map fun g => if g.place = .parked r then { g with place := .slot n } else g }
  else y
def Ply.promote (y : Ply) : Ply := (y.fillSlot 0).fillSlot 1
/-- Where a group goes that would stand in slot `n`: there, or where another group has taken that slot meanwhile, in the
other slot, or parked as the youngest; R136 does not say what becomes of it then (DESIGN CHOICE, log 128). -/
def Ply.seatFor (y : Ply) (n : Nat) : Place :=
  if y.slotFree n then .slot n else if y.slotFree (1 - n) then .slot (1 - n) else .parked y.nextRank

def Ply.group? (y : Ply) (gid : Nat) : Option Group := y.groups.find? fun g => g.gid == gid
def Ply.updGroup (y : Ply) (gid : Nat) (f : Group → Group) : Ply :=
  { y with groups := y.groups.map fun g => if g.gid = gid then f g else g }
def Ply.dropGroup (y : Ply) (gid : Nat) : Ply := { y with groups := y.groups.filter fun g => g.gid != gid }
/-- The group that holds a lane. -/
def Ply.laneGroup? (y : Ply) (j : Nat) : Option Group := y.groups.find? fun g => g.lanes.getLsbD j

/-- The address of the next instruction of a group, or of its header. -/
def Group.next (g : Group) : Nat := match g.clause with | some cl => cl.addr + 8 * (cl.pos + 1) | none => g.pc
/-- The word of the next instruction. -/
def Clause.word (cl : Clause) : W64 := cl.words.getD cl.pos 0
def Group.atHeader (g : Group) : Bool := g.clause.isNone && g.hold == .none
/-- Ready: it stands at a header or inside a clause and nothing holds it. -/
def Group.ready (g : Group) : Bool := g.hold == .none && (match g.place with | .out _ => false | _ => true)

/-- The lanes of a mask register's word. -/
def laneSet (m : W32) : List Nat := (List.range 32).filter fun j => m.getLsbD j
def lanesOf (l : List Nat) : W32 := l.foldl (fun m j => m ||| (1 <<< j)) 0

/-! ### Merging at a header (R140) -/

/-- Adds a group to a list of older ones: it joins the first that stands ready at the same header. R140 does not say which
of two groups is the older; the model takes the one that stands earlier in the ply's list of groups (DESIGN CHOICE, log
106). -/
def mergeInto (acc : List Group) (g : Group) : List Group :=
  if g.atHeader && acc.any (fun h => h.atHeader && h.pc == g.pc) then
    acc.map fun h => if h.atHeader && h.pc == g.pc then { h with lanes := h.lanes ||| g.lanes, ops := h.ops ++ g.ops } else h
  else acc ++ [g]
def Ply.mergeHeaders (y : Ply) : Ply := { y with groups := y.groups.foldl mergeInto [] }

/-! ### Unpublished writes (R131) -/

/-- The strand that last wrote a shared register in a log, and what it wrote. -/
def lastWrite (log : List SharedWrite) (key : RegKey) : Option SharedWrite :=
  log.foldl (fun r w => match w with | .reg k _ _ _ => if k = key then some w else r | _ => r) none
def SharedWrite.strand : SharedWrite → Nat | .reg _ j _ _ => j | .creg _ j _ _ => j | .mask .. => 0

/-- The unpublished writes of two groups that merge: a register that both wrote keeps the write of the higher-numbered writer.
A group that wrote it more than once ranks by the strand of its last write (DESIGN CHOICE, log 149). -/
def mergeLogs (a b : List SharedWrite) : List SharedWrite :=
  let again := a.filter fun w => match w with
    | .reg k j _ _ => lastWrite a k == some w && (match lastWrite b k with | some v => v.strand < j | none => false)
    | _ => false
  a ++ b ++ again

/-- The clause of a merged group: that of the last to arrive, with the writes of both. Where the groups began their clauses
at different times, a register that neither wrote is read as the last to arrive found it; R131 does not say which
(DESIGN CHOICE, log 129). -/
def mergeClauses (a b : Option Clause) : Option Clause :=
  match a, b with
  | some x, some y => some { y with log := mergeLogs x.log y.log, splits := x.splits ++ y.splits,
                                    sleeps := x.sleeps ++ y.sleeps, ops := x.ops ++ y.ops, pads := x.pads ++ y.pads }
  | _, some y => some y
  | a, none => a

/-- A write as read by a group that does not publish it. -/
def SharedWrite.silent : SharedWrite → SharedWrite
  | .reg k j v _ => .reg k j v none | .mask n l v _ => .mask n l v none | .creg n j v _ => .creg n j v none
/-- The step of a write that its group publishes. -/
def SharedWrite.made : SharedWrite → Option Nat | .reg _ _ _ p => p | .mask _ _ _ p => p | .creg _ _ _ p => p
def SharedWrite.isMask : SharedWrite → Bool | .mask .. => true | _ => false

/-! ### Control registers of a cable (01 Tables 1.9, 1.10; 04 Table 4.9; 09 Tables 9.5, 9.7; 16 Table 16.15) -/

/-- The bits a control register of a cable keeps of a written value. -/
def cregFix (n : Nat) (v : W64) : W64 :=
  if n = 0x100 then v &&& 0x0FFFFFFFFFFFF000
  else if n = 0x101 then v &&& 0xFFFFFFFF
  else if n = 0x102 ∨ n = 0x103 then v &&& 0x0FFFFFFFFFFFFFF8
  else if n = 0x105 then v &&& 0x1F
  else if n = 0x106 then v &&& 0xFFFFFFFF
  else if n = 0x108 then v &&& 0x1F
  else if n = 0x109 then v &&& 0x7F
  else if n = 0x10A then v
  else if 0x10C ≤ n ∧ n ≤ 0x10F then
    let w := v &&& 0xEFFFFFFFFFFFFFFF
    if w.extractLsb' 61 2 = 3 then w &&& 0xDFFFFFFFFFFFFFFF else w
  else 0

def Cable.getCreg (c : Cable) (n : Nat) : W64 :=
  if n = 0x100 then c.spillBase
  else if n = 0x101 then c.spillSize.setWidth 64
  else if n = 0x102 then c.trapVec
  else if n = 0x103 then c.trapPc
  else if n = 0x104 then c.trapInfo.setWidth 64
  else if n = 0x105 then c.nredCnt.setWidth 64
  else if n = 0x106 then c.wtqTmo.setWidth 64
  else if n = 0x107 then BitVec.ofNat 64 c.cid
  else if n = 0x108 then c.laFlags.setWidth 64
  else if n = 0x109 then c.dbg.setWidth 64
  else if n = 0x10A then c.stop
  else if 0x10C ≤ n ∧ n ≤ 0x10F then c.wps.getD (n - 0x10C) 0
  else 0

def Cable.putCreg (c : Cable) (n : Nat) (v : W64) : Cable :=
  let v := cregFix n v
  if n = 0x100 then { c with spillBase := v }
  else if n = 0x101 then { c with spillSize := v.setWidth 32 }
  else if n = 0x102 then { c with trapVec := v }
  else if n = 0x103 then { c with trapPc := v }
  else if n = 0x105 then { c with nredCnt := v.setWidth 32 }
  else if n = 0x106 then { c with wtqTmo := v.setWidth 32 }
  else if n = 0x108 then { c with laFlags := v.setWidth 32 }
  else if n = 0x109 then { c with dbg := v.setWidth 32 }
  else if n = 0x10A then { c with stop := v }
  else if 0x10C ≤ n ∧ n ≤ 0x10F then { c with wps := c.wps.set (n - 0x10C) v }
  else c

/-- The control registers that a clause reads as they stood when it began (04 R114). -/
def cregNumbers : List Nat :=
  [0x100, 0x101, 0x102, 0x103, 0x105, 0x106, 0x108, 0x109, 0x10A, 0x10C, 0x10D, 0x10E, 0x10F]
def Cable.cregs (c : Cable) : SMap W64 :=
  (cregNumbers.map fun n => (n, c.getCreg n)).filter fun e => e.2 != 0

/-- The shared registers as a clause of a ply that begins now finds them (R131, 04 R114). -/
def Cable.view (c : Cable) (p : Nat) : View :=
  { s := (c.ply p).s, m := (c.ply p).m, k := c.k, y := c.lays, cregs := c.cregs }

/-- A logged write of a control register over the value before it. A write of `CBL_LA_FLAGS` replaces only the flags
present when it executed, which its high half lists (12 R296). -/
def cregOver (n : Nat) (old v : W64) : W64 :=
  if n = 0x108 then W64.ofPair ((old.lo &&& ~~~v.hi) ||| (v.lo &&& 0x1F)) 0 else v

/-- The writer of entries that every strand reads: flags that completed commands raise (12 R296). -/
def anyStrand : Nat := 1024

/-- A control register of the cable as a strand reads it: through its own writes of the clause. -/
def Clause.readCreg (cl : Clause) (strand n : Nat) : W64 :=
  cl.log.foldl (fun (r : W64) w => match w with
      | .creg k j v _ => if k = n ∧ (j = strand ∨ j = anyStrand) then cregOver n r v else r | _ => r)
    (cl.view.cregs.getD n 0)
/-- A control register as a group of strands is governed by it. -/
def Clause.groupCreg (cl : Clause) (n : Nat) : W64 :=
  cl.log.foldl (fun (r : W64) w => match w with | .creg k _ v _ => if k = n then cregOver n r v else r | _ => r)
    (cl.view.cregs.getD n 0)
/-- Raises `CBL_LA_FLAGS` in a running clause: they stand after every write of it that has executed. -/
def Clause.raiseLa (cl : Clause) (fl : W32) : Clause :=
  { cl with log := (cl.log.map fun w => match w with
      | .creg 0x108 j v p => .creg 0x108 j (W64.ofPair v.lo (v.hi &&& ~~~fl)) p | w => w) ++
      [.creg 0x108 anyStrand (W64.ofPair fl 0) none] }
/-- The LA path ORs flags into `CBL_LA_FLAGS` (12 R296). -/
def Cable.orLaFlags (c : Cable) (fl : W32) : Cable :=
  if fl = 0 then c else
  { c with
    laFlags := c.laFlags ||| fl
    plies := c.plies.map fun (p, y) => (p, { y with groups := y.groups.map fun g => { g with clause := g.clause.map fun cl => cl.raiseLa fl } }) }

/-- A clause of ply `p` that ends in cycle `t` writes a `y` register, unless one of a higher ply has written it in the same
cycle: that of the lower ply applies first (R131). -/
def Cable.publishY (c : Cable) (t p n : Nat) (v : PReg) : Cable :=
  match c.yEnds.find? n with
  | some (u, q) => if u = t ∧ p < q then c else { c with lays := c.lays.insert n v, yEnds := c.yEnds.insert n (t, p) }
  | none => { c with lays := c.lays.insert n v, yEnds := c.yEnds.insert n (t, p) }

/-- Publishes the writes of a clause of ply `p` that ends in cycle `t` (R131). -/
def Cable.publish (c : Cable) (t p : Nat) (log : List SharedWrite) : Cable :=
  log.foldl (fun (c : Cable) (w : SharedWrite) =>
    match w with
    | .reg (.s q n) _ v (some _) => c.updPly q fun y => { y with s := y.s.insert n v }
    | .reg (.k n) _ v (some _) => { c with k := c.k.insert n v }
    | .reg (.y l n) _ v (some _) => c.publishY t p (16 * l + n) v
    | .creg n _ v (some _) =>
      if n = 0x108 then { c with laFlags := (cregOver n (c.laFlags.setWidth 64) v).lo } else c.putCreg n v
    | .mask n l v (some _) => c.updPly p fun y => { y with m := y.m.insert n ((y.m.getD n 0 &&& ~~~l) ||| (v &&& l)) }
    | _ => c) c

/-- Two entries write the same shared register. -/
def SharedWrite.sameReg : SharedWrite → SharedWrite → Bool
  | .reg a _ _ _, .reg b _ _ _ => a == b
  | .creg a _ _ _, .creg b _ _ _ => a == b
  | _, _ => false

/-- A log after another group has published some of its entries: those, and the writes of their registers that come before
them in program order, are not published again. -/
def silence (gone : SharedWrite → Bool) : List SharedWrite → List SharedWrite
  | [] => []
  | w :: l => (if gone w || l.any (fun v => gone v && w.sameReg v) then w.silent else w) :: silence gone l

/-- A clause has ended in one group of ply `p`: what it published the other groups that logged the same write do not publish again,
and what its operations still bring is public as it arrives (R131). -/
def Cable.clauseEnded (c : Cable) (p : Nat) (cl : Clause) : Cable :=
  if cl.log.isEmpty && cl.ops.isEmpty then c else
  { c with plies := c.plies.map fun (q, y) => (q, { y with groups := y.groups.map fun g => { g with clause := g.clause.map fun d =>
      { d with
        log := silence (fun w => w.made.isSome && (q == p || !w.isMask) && cl.log.contains w) d.log
        ops := d.ops.map fun o => if cl.ops.any fun e => e.1 == o.1 then (o.1, false) else o } } }) }

/-- A clause that has not ended holds a write of a control register that it is to publish. -/
def Cable.holdsCreg (c : Cable) (n : Nat) : Bool :=
  c.plies.any fun e => e.2.groups.any fun g => match g.clause with
    | some cl => cl.log.any fun w => match w with | .creg k _ _ (some _) => k == n | _ => false
    | none => false
/-- What a `cwr` left for the next spill stands until no clause that has not ended holds a write of that register (04 R114). -/
def Cable.settleSpill (c : Cable) : Cable :=
  if c.spillNext = (none, none) then c else
  { c with spillNext := (if c.holdsCreg 0x100 then c.spillNext.1 else none, if c.holdsCreg 0x101 then c.spillNext.2 else none) }

/-! ### Division at a clause end (R142, R144, 09 R258) -/

/-- Lanes by the address they go to, ranked by their lowest lane. -/
def byTarget (l : List (Nat × Nat)) : List (Nat × W32) :=
  l.foldl (fun (acc : List (Nat × W32)) (e : Nat × Nat) =>
    if acc.any fun t => t.1 == e.2 then acc.map fun t => if t.1 = e.2 then (t.1, t.2 ||| (1 <<< e.1)) else t
    else acc ++ [(e.2, (1 : W32) <<< e.1)]) []

/-- Where the strands of a group go at the end of its clause: `early` lanes by target, and the late groups with what
each waits for. -/
structure Division where
  early : List (Nat × W32)
  late : List (Nat × W32 × List (Nat × Nat))
deriving DecidableEq, Repr, Inhabited

/-- Divides lanes, given with their targets: `wait j` lists what a lane's split loads wait for, `sleep j` what its
`wtq` waits for. Without an early strand, and without a sleeping one, nothing is divided. -/
def divide (l : List (Nat × Nat)) (wait sleep : Nat → List (Nat × Nat)) : Division :=
  let asleep := l.filter fun e => !(sleep e.1).isEmpty
  let awake := l.filter fun e => (sleep e.1).isEmpty
  let early := awake.filter fun e => (wait e.1).isEmpty
  let late := awake.filter fun e => !(wait e.1).isEmpty
  let solo := asleep.map fun e => (e.2, (1 : W32) <<< e.1, sleep e.1 ++ wait e.1)
  if early.isEmpty then { early := byTarget late, late := solo }
  else { early := byTarget early, late := ((byTarget late).map fun t => (t.1, t.2, (laneSet t.2).flatMap wait)) ++ solo }

/-- The groups of a ply after one of them ended its clause, each with the operations `ops` still to come for shared registers:
the first target keeps the group's slot, the second takes
the other slot if it is free, the rest park (R142); late groups are held (R144). -/
def Ply.divideGroup (y : Ply) (gid slot : Nat) (d : Division) (ops : List Nat) : Ply :=
  let y1 : Ply := match d.early with
    | [] => y.dropGroup gid
    | (a, lanes) :: rest =>
      rest.foldl (fun (y : Ply) (t : Nat × W32) =>
          let place := if y.slotFree (1 - slot) then Place.slot (1 - slot) else .parked y.nextRank
          { y with groups := y.groups ++ [{ gid := y.nextGid, lanes := t.2, pc := t.1, clause := none, place := place, ops := ops }] })
        (y.updGroup gid fun g => { g with lanes := lanes, pc := a, clause := none, hold := .none, signed := false, ops := ops })
  d.late.foldl (fun (y : Ply) (t : Nat × W32 × List (Nat × Nat)) =>
    { y with groups := y.groups ++ [{ gid := y.nextGid, lanes := t.2.1, pc := t.1, clause := none,
                                      place := .out slot, hold := .late, waits := t.2.2, ops := ops }] }) y1

/-! ### The bound on waiting in the parked set (R143) -/

def Place.isParked (p : Place) : Bool := match p with | .parked _ => true | _ => false
/-- Distinct program counters among the ply's ready groups. -/
def Ply.readyPcs (y : Ply) : Nat := (distinct ((y.groups.filter Group.ready).map Group.next)).length
/-- A clause of the ply has ended: the groups that stand ready in the parked set have waited for one more. -/
def Ply.age (y : Ply) : Ply :=
  { y with groups := y.groups.map fun (g : Group) => { g with aged := if g.place.isParked && g.ready then g.aged + 1 else 0 } }
/-- A group has waited in the parked set for as many clauses as there are program counters. -/
def Ply.overdue (y : Ply) : Bool := y.groups.any fun g => g.place.isParked && g.ready && decide (y.readyPcs ≤ g.aged)
/-- Then the group that ended its clause in a slot gives it up and parks as the youngest, and the oldest parked group takes
the slot: so a ready parked group begins a clause within twice as many clauses (log 107). -/
def Ply.rotate (y : Ply) (slot : Nat) : Ply :=
  if y.overdue then
    ({ y with groups := y.groups.map fun (g : Group) =>
        if g.place = Place.slot slot ∧ g.atHeader = true then { g with place := .parked y.nextRank, aged := 0 } else g }).fillSlot slot
  else y

/-- A group gives up its path slot and its issue slot and is held (R136). -/
def Ply.holdGroup (y : Ply) (gid : Nat) (h : Hold) (stamp : Nat) : Ply :=
  ({ y.updGroup gid fun g => { g with hold := h, signed := h == Hold.rendezvous, place := .out g.place.slotOr, since := stamp } with
      running := if y.running = some gid then none else y.running }).promote

/-- A held group stands ready again, in the slot it gave up where that is free. -/
def Ply.releaseGroup (y : Ply) (gid : Nat) : Ply :=
  match y.group? gid with
  | none => y
  | some g => y.updGroup gid fun g' => { g' with hold := .none, signed := false, place := y.seatFor g.place.slotOr }

/-- Several groups of a ply become one, `keep`, with the lanes and unpublished writes of all (R136). -/
def Ply.mergeGroups (y : Ply) (keep : Nat) (others : List Nat) : Ply :=
  others.foldl (fun y o =>
    match y.group? o with
    | none => y
    | some h =>
      (y.dropGroup o).updGroup keep fun g =>
        { g with lanes := g.lanes ||| h.lanes, clause := mergeClauses h.clause g.clause, ops := g.ops ++ h.ops }) y

/-! ### Late results -/

/-- The strand a register belongs to; none for a shared one. -/
def RegKey.owner : RegKey → Option Nat
  | .v i _ => some i | .o i _ => some i | .lat i => some i | .fflags i => some i | _ => none

/-- Whether a strand's operation is still on the scoreboard. -/
def Cable.pendingOp (c : Cable) (i op : Nat) : Bool :=
  c.board.any fun e => e.2 == op && (e.1.owner == none || e.1.owner == some i)

/-- Late groups whose results have all arrived join the parked set (R144). -/
def Cable.awaken (c : Cable) : Cable :=
  let due (g : Group) : Bool := g.hold == .late && g.waits.all fun w => !c.pendingOp w.1 w.2
  if c.plies.any fun e => e.2.groups.any due then
    { c with plies := c.plies.map fun (p, y) =>
        (p, ((y.groups.filter due).foldl (fun (y : Ply) g =>
          y.updGroup g.gid fun g' => { g' with hold := .none, place := .parked y.nextRank, waits := [] }) y).promote) }
  else c

end Sys2Proof.Machine
end

