-- ==== Sys2Proof/Machine/Translate.lean ====
section
/-! DEFINITION. Translation (16 R373 to R377): the six-level walk, permissions, TLBs, and invalidation. -/
namespace Sys2Proof.Machine

/-- The kind of an access. -/
inductive Access where | read | write | fetch
deriving DecidableEq, Repr, Inhabited

/-- A translated address with the fields of its leaf that an access uses. -/
structure Phys where
  pa : Nat
  lease : Nat
  esr : Bool
  user : Bool
deriving DecidableEq, Repr, Inhabited

/-- Why an address does not translate: cause 5, 7, 8 or 37, with DETAIL. -/
structure TFault where
  cause : Nat
  detail : Nat := 0
  /-- the bytes of the page that its record stands for (R377): of the page whose leaf forbids the access, or of a 4 KiB page
  where no leaf was found (log 105) -/
  size : Nat := 4096
deriving DecidableEq, Repr, Inhabited

/-- The page, by the number of its first 4 KiB, that a record of cause 7 or 8 for an address stands for (R377). -/
def TFault.page (f : TFault) (va : Nat) : Option Nat :=
  if f.cause = 7 ∨ f.cause = 8 then some (va / f.size * f.size / 4096) else none

/-- Fields of a page-table entry (16 Table 16.6). -/
def pteBit (e : Nat) (i : Nat) : Bool := e.testBit i
def ptePa (e : Nat) : Nat := e / 4096 % 2 ^ 36 * 4096
def pteZeroOk (e : Nat) : Bool := e / 2 ^ 48 % 64 == 0 && e / 256 % 16 == 0

/-- The index of a level in a virtual address (Table 16.5). -/
def walkIndex (va level : Nat) : Nat :=
  if level = 5 then va / 2 ^ 57 % 8 else va / 2 ^ (12 + 9 * level) % 512
/-- Bytes of a leaf page at a level. -/
def pageSize (level : Nat) : Nat := 2 ^ (12 + 9 * level)

/-- A found leaf: the address of its entry, the entry, its level, and the bytes of its page. -/
structure Leaf where
  at_ : Nat
  pte : Nat
  level : Nat
  size : Nat
deriving DecidableEq, Repr, Inhabited

/-- The fields of an entry that a C64 group shares: all but PA, A and D. -/
def pteShared (e : Nat) : Nat := e - ptePa e - e / 32 % 4 * 32

/-- The sixteen entries of the aligned group of an entry make one 64 KiB page (R375): each has C64 = 1, they agree but for
PA, A and D, and their PAs are consecutive from an aligned one. -/
def State.isC64 (s : State) (at_ : Nat) : Bool :=
  let entry (j : Nat) : Nat := s.readNat (at_ / 128 * 128 + 8 * j) 8
  ptePa (entry 0) % 65536 == 0 && (List.range 16).all fun j =>
    pteBit (entry j) 54 && pteShared (entry j) == pteShared (entry 0) && ptePa (entry j) == ptePa (entry 0) + 4096 * j

/-- The walk from a table at a level downward (R373, R374). -/
def State.walk (s : State) (va : Nat) : Nat → Nat → Except TFault Leaf
  | table, level =>
    let rec go : Nat → Nat → Except TFault Leaf
      | tbl, lv =>
        let at_ := tbl + 8 * walkIndex va lv
        let e := s.readNat at_ 8
        if !pteBit e 0 then .error { cause := 7, detail := lv }
        else if !pteZeroOk e then .error { cause := 7, detail := 8 + lv }
        else if pteBit e 7 then
          (if 2 < lv then .error { cause := 7, detail := 8 + lv }
           else if lv ≠ 0 ∧ ptePa e % pageSize lv ≠ 0 then .error { cause := 7, detail := 8 + lv }
           else .ok ⟨at_, e, lv, if lv = 0 ∧ s.isC64 at_ = true then 65536 else pageSize lv⟩)
        else match lv with
          | 0 => .error { cause := 7, detail := 8 }
          | n + 1 => go (ptePa e) n
    go table level

/-- Sets A, and D for a write, in a leaf entry by one step at its home slice (R374). -/
def State.touchLeaf (s : State) (part : Nat) (lf : Leaf) (w : Bool) : State × Nat :=
  let e1 := if pteBit lf.pte 5 then lf.pte else lf.pte + 32
  let e2 := if w && !pteBit e1 6 then e1 + 64 else e1
  if e2 = lf.pte then (s, e2) else ((s.engineWriteNat part lf.at_ e2 8 (s.esrPage lf.at_)).1, e2)

/-- Permissions of a leaf (R374): R, W or X for the access, U at user level. -/
def leafAllows (pte : Nat) (acc : Access) (user : Bool) : Bool :=
  (match acc with | .read => pteBit pte 1 | .write => pteBit pte 2 | .fetch => pteBit pte 3)
    && (!user || pteBit pte 4)

/-- The checks on the physical address that a leaf gives (07 R182, R209, 18 R420). -/
def State.checkPhys (s : State) (part pa : Nat) : Option TFault :=
  match nodeOf pa with
  | none => some { cause := 5 }
  | some n =>
    if isReserved pa then some { cause := 5 }
    else if s.owner pa ≠ part then some { cause := 8 }
    else if s.offline n then some { cause := 37 }
    else none

/-- The physical address under a leaf. -/
def Leaf.phys (lf : Leaf) (va : Nat) : Nat := ptePa lf.pte / pageSize lf.level * pageSize lf.level + va % pageSize lf.level

/-- A translation that misses every TLB. -/
def State.translateWalk (s : State) (ctx va : Nat) (acc : Access) (user : Bool) : State × Except TFault (Phys × Leaf) :=
  let part := ctx / 16
  match s.walk va ((s.ctx ctx).ptbr.toNat) 5 with
  | .error f => (s, .error f)
  | .ok lf =>
    if !leafAllows lf.pte acc user then (s, .error ⟨8, 0, lf.size⟩)
    else match s.checkPhys part (lf.phys va) with
      | some f => (s, .error { f with size := lf.size })
      | none =>
        let (s1, e) := s.touchLeaf part lf (acc == .write)
        (s1, .ok (⟨lf.phys va, e / 2 ^ 56 % 256, pteBit e 55, pteBit e 4⟩, { lf with pte := e }))

/-- The part of its page that an address lies in: of a 64 KiB page one of sixteen, of another the whole. -/
def partOf (size va : Nat) : Nat := if size = 65536 then va / 4096 % 16 else 0

/-- The entry of a leaf for an access at an address, with what an entry already held for the page knows of its parts. -/
def Leaf.entry (lf : Leaf) (ctx va : Nat) (old : Option TlbEntry) : TlbEntry :=
  let page := va / lf.size * lf.size
  let pte : W64 := BitVec.ofNat 64 (lf.pte - ptePa lf.pte + (lf.phys va - va % lf.size))
  let part := partOf lf.size va
  let was := match old with
    | some o => if o.size = lf.size ∧ ptePa o.pte.toNat = ptePa pte.toNat ∧ pteShared o.pte.toNat = pteShared pte.toNat
        then (o.seen, o.dirt) else ([], [])
    | none => ([], [])
  { ctx := ctx, va := page / 4096, size := lf.size, pte := pte, seen := setInsert part was.1
    dirt := if pteBit lf.pte 6 then setInsert part was.2 else was.2 }

/-- An entry holds the translation of an address. -/
def TlbEntry.covers (e : TlbEntry) (ctx va : Nat) : Bool :=
  e.ctx == ctx && decide (e.va * 4096 ≤ va) && decide (va < e.va * 4096 + e.size)

/-- Puts an entry into a list of at most `n`, in place of what covers its address, dropping the oldest. -/
def tlbPut (n ctx va : Nat) (lf : Leaf) (l : List TlbEntry) : List TlbEntry :=
  let rest := l.filter fun x => !x.covers ctx va
  (rest ++ [lf.entry ctx va (l.find? fun x => x.covers ctx va)]).drop (rest.length + 1 - n)

/-- Puts an entry into the TLBs of a core and its cluster (R376). -/
def State.fillTlb (s : State) (core ctx va : Nat) (lf : Leaf) : State :=
  let s1 := s.updCore core fun k => { k with tlb := tlbPut 256 ctx va lf k.tlb }
  let cl := core / 8
  { s1 with l2tlb := s1.l2tlb.insert cl (tlbPut 16384 ctx va lf (s1.l2tlb.getD cl [])) }

/-- The entry a core's TLBs hold for an address. -/
def State.findTlb (s : State) (core ctx va : Nat) : Option TlbEntry :=
  match (s.core core).tlb.find? fun e => e.covers ctx va with
  | some e => some e
  | none => (s.l2tlb.getD (core / 8) []).find? fun e => e.covers ctx va

/-- Translates an address for a core (R374, R376): a held entry serves unless A, or D for a write, still has to be set. -/
def State.translate (s : State) (core ctx va : Nat) (acc : Access) (user : Bool) : State × Except TFault Phys :=
  let viaWalk :=
    match s.translateWalk ctx va acc user with
    | (s1, .error f) => (s1, Except.error f)
    | (s1, .ok (p, lf)) => (s1.fillTlb core ctx va lf, .ok p)
  match s.findTlb core ctx va with
  | none => viaWalk
  | some e =>
    let pte := e.pte.toNat
    let part := partOf e.size va
    if !leafAllows pte acc user then (s, .error ⟨8, 0, e.size⟩)
    else if !e.seen.contains part || (acc == .write && !e.dirt.contains part) then viaWalk
    else
      let pa := ptePa pte + va % e.size
      match s.checkPhys (ctx / 16) pa with
      | some f => (s, .error { f with size := e.size })
      | none => (s, .ok ⟨pa, pte / 2 ^ 56 % 256, pteBit pte 55, pteBit pte 4⟩)

/-- Translation outside a core's TLBs: engines, collectors and posts of records (R285, R365, R378). -/
def State.translateEngine (s : State) (ctx va : Nat) (acc : Access) (user : Bool) : State × Except TFault Phys :=
  match s.translateWalk ctx va acc user with
  | (s1, .error f) => (s1, .error f)
  | (s1, .ok (p, _)) => (s1, .ok p)

/-- Drops what a core and its cluster hold for an address. -/
def State.dropTlb (s : State) (core ctx va : Nat) : State :=
  let keep (l : List TlbEntry) := l.filter fun e => !e.covers ctx va
  let s1 := s.updCore core fun k => { k with tlb := keep k.tlb }
  { s1 with l2tlb := s1.l2tlb.insert (core / 8) (keep (s1.l2tlb.getD (core / 8) [])) }

/-- The lease a page gives its loads (07 R192). -/
def State.leaseOf (s : State) (ctx : Nat) (p : Phys) : Nat := if p.lease = 0 then (s.ctx ctx).lease else p.lease

/-- A value of `CTX_TLBINV`: sizes above 4 store 4 (Table 16.7). -/
def tlbinvFix (v : W64) : W64 :=
  let v' := v &&& 0x0FFFFFFFFFFFF007
  if 4 < (v'.extractLsb' 0 3).toNat then (v' &&& 0x0FFFFFFFFFFFF000) ||| 4 else v'

/-- Drops a context's entries in a range from every TLB (R376). -/
def State.tlbInvalidate (s : State) (ctx : Nat) (v : W64) : State :=
  let v := tlbinvFix v
  let size := (v.extractLsb' 0 3).toNat
  let bytes := match size with | 0 => 4096 | 1 => 65536 | 2 => 2 ^ 21 | 3 => 2 ^ 30 | _ => 0
  let base := v.toNat / 4096 * 4096
  let from_ := base / bytes * bytes
  let inRange (e : TlbEntry) : Bool := bytes == 0 || (decide (e.va * 4096 < from_ + bytes) && decide (from_ < e.va * 4096 + e.size))
  let keep (l : List TlbEntry) := l.filter fun e => !(e.ctx == ctx && inRange e)
  let s1 := s.updCtx ctx fun x => { x with tlbinv := v }
  { s1 with
    cores := s1.cores.map fun (c, k) => (c, { k with tlb := keep k.tlb })
    l2tlb := s1.l2tlb.map fun (c, l) => (c, keep l) }

end Sys2Proof.Machine
end

