-- ==== Sys2Proof/Machine/Records.lean ====
section
/-! DEFINITION. Results that arrive late, wakes, and fault records: their layout, their queues, their handles
(01 R20, R26; 09 R258 to R261; 16 R362 to R366; 19 R440). -/
namespace Sys2Proof.Machine

/-! ### Late results -/

/-- Writes a register of a cable directly. A dead strand's registers are discarded (06 R180). -/
def Cable.putReg (c : Cable) (k : RegKey) (r : PReg) : Cable :=
  match k with
  | .v i n => c.updStrand i fun t => if t.live then { t with v := t.v.insert n r, spilled := setErase n t.spilled } else t
  | .o i n => c.updStrand i fun t => if t.live then { t with o := t.o.insert n r } else t
  | .s p n => c.updPly p fun y => { y with s := y.s.insert n r }
  | .k n => { c with k := c.k.insert n r }
  | .y l n => { c with lays := c.lays.insert (16 * l + n) r }
  | .lat i => c.updStrand i fun t => { t with latch := some ⟨false, W64.ofPair r.val 0, r.psn⟩ }
  | .fflags i => c.updStrand i fun t => { t with fflags := t.fflags ||| r.val.setWidth 5 }

/-- A register shared above the strand. -/
def RegKey.shared : RegKey → Bool | .s .. => true | .k _ => true | .y .. => true | _ => false

/-- The view after a shared register took a value. -/
def View.put (w : View) (ply : Nat) (k : RegKey) (r : PReg) : View :=
  match k with
  | .s q n => if q = ply then { w with s := w.s.insert n r } else w
  | .k n => { w with k := w.k.insert n r }
  | .y l n => { w with y := w.y.insert (16 * l + n) r }
  | _ => w

/-- A late value for a shared register (05 R131): while every group that issued the operation runs its clause, into the logs
of those clauses; once one of them has ended its clause, published, so that clauses begun since see it. `who` is the
strand that writes, `now` the step. -/
def Cable.putShared (c : Cable) (now op : Nat) (k : RegKey) (r : PReg) (who : Nat) : Cable :=
  let mine (p : Nat) : Bool := match k with | .s q _ => q == p | _ => true
  let stand := c.plies.flatMap fun e => if mine e.1 then e.2.groups.flatMap fun g => match g.clause with
    | some cl => (cl.ops.filter fun o => o.1 == op).map Prod.snd | none => [] else []
  let inClause := !stand.isEmpty && stand.all id
  let c1 := if inClause then c else c.putReg k r
  { c1 with plies := c1.plies.map fun (p, y) => (p, { y with groups := y.groups.map fun g =>
      match g.clause with
      | some cl =>
        if cl.ops.any fun o => o.1 == op then { g with clause := some { cl with log := cl.log ++ [.reg k who r (if inClause && mine p then some now else none)] } }
        else if !inClause && op < cl.born then { g with clause := some { cl with view := cl.view.put p k r } } else g
      | none => g }) }

/-- Delivers the value of an operation of a strand to its destinations, and releases them on the scoreboard (R20, R26). -/
def Cable.deliver (c : Cable) (now op who : Nat) (wide : Bool) (dests : List (List RegKey)) (lats : List Nat) (val : W64)
    (psn : Bool) : Cable :=
  let half (i : Nat) : PReg := ⟨if i = 0 then val.lo else val.hi, psn⟩
  let c1 := dests.foldl (fun (c : Cable) (ks : List RegKey) =>
    ((List.range ks.length).zip ks).foldl (fun (c : Cable) (e : Nat × RegKey) =>
      if e.2.shared then c.putShared now op e.2 (half e.1) who else c.putReg e.2 (half e.1)) c) c
  let c2 := lats.foldl (fun (c : Cable) (i : Nat) =>
    if c.board.contains (.lat i, op) then c.updStrand i fun t => { t with latch := some ⟨wide, val, psn⟩ } else c) c1
  let left := (c2.board.filter fun e => e.2 != op) ++
    c2.board.filter fun e => e.2 == op && !(dests.any fun ks => ks.contains e.1) && !(lats.any fun i => e.1 == .lat i)
  { c2 with board := left }

/-- Delivers to a cable by its uid. -/
def State.deliver (s : State) (uid op who : Nat) (wide : Bool) (dests : List (List RegKey)) (lats : List Nat) (val : W64)
    (psn : Bool) : State :=
  s.updCable uid fun c => (c.deliver s.stepCount op who wide dests lats val psn).awaken

/-! ### Entries of the replay log (16 R387, R388) -/

/-- An event of Table 16.16. -/
structure LogEvent where
  ctx : Nat
  cid : Nat
  ply : Nat
  ic : Nat
  kind : Nat
  /-- the line's address, the value a read returns, or the peer and tag of a message -/
  word1 : Nat
deriving DecidableEq, Repr, Inhabited

def LogEvent.word0 (e : LogEvent) : Nat := e.cid % 2 ^ 24 + e.ply % 32 * 2 ^ 24 + e.kind % 8 * 2 ^ 29 + e.ic % 2 ^ 32 * 2 ^ 32

/-- The ring address of an entry. -/
def Context.rlogAt (x : Context) (i : W32) : Nat := x.rlogBase.toNat + 16 * (i.toNat % 2 ^ x.rlogLog)

/-- Appends an entry; a ring address that does not translate loses the entry, TAIL advances (log 17). -/
def State.logAppend (s : State) (e : LogEvent) : State :=
  let x := s.ctx e.ctx
  let s1 := match s.translateEngine e.ctx (x.rlogAt x.rlogTail) .write false with
    | (s1, .error _) => s1
    | (s1, .ok p) =>
      (s1.engineWrite (e.ctx / 16) p.pa ((leBytes e.word0 8 ++ leBytes e.word1 8).map fun b => (b, false)) p.esr).1
  s1.updCtx e.ctx fun x => { x with rlogTail := x.rlogTail + 1 }

/-- The unconsumed entries from HEAD to TAIL: index and words. -/
def State.logPending (s : State) (ctx : Nat) : List (W32 × Nat × Nat) :=
  let x := s.ctx ctx
  ((List.range (x.rlogTail - x.rlogHead).toNat).map fun i => x.rlogHead + BitVec.ofNat 32 i).filterMap fun i =>
    if x.rlogDone.contains i.toNat then none
    else match s.translateEngine ctx (x.rlogAt i) .read false with
      | (_, .error _) => none
      | (_, .ok p) => some (i, s.readNat p.pa 8, s.readNat (p.pa + 8) 8)

/-- HEAD passes the consumed entries, at most `n` of them. -/
def Context.logSkip (x : Context) : Nat → Context
  | 0 => x
  | n + 1 =>
    if x.rlogDone.contains x.rlogHead.toNat then
      Context.logSkip { x with rlogHead := x.rlogHead + 1, rlogDone := setErase x.rlogHead.toNat x.rlogDone, rlogFull := false } n
    else x
def State.logConsume (s : State) (ctx : Nat) (i : W32) : State :=
  s.updCtx ctx fun x => { x with rlogDone := setInsert i.toNat x.rlogDone }.logSkip (x.rlogDone.length + 1)

/-- A read of Table 16.16 under its context's mode: the value it gives; none where it waits for room in the ring or has
no entry. -/
def State.logRead (s : State) (e : LogEvent) : Option (State × Nat) :=
  let x := s.ctx e.ctx
  if x.rlogMode = 1 then
    (if (x.rlogTail - x.rlogHead).toNat = 2 ^ x.rlogLog then none else some (s.logAppend e, e.word1))
  else if x.rlogMode = 2 then
    ((s.logPending e.ctx).find? fun w => w.2.1 == e.word0).map fun w => (s.logConsume e.ctx w.1, w.2.2)
  else some (s, e.word1)

/-! ### Fault records (16 Table 16.2) -/

def bit1 (b : Bool) (n : Nat) : Nat := if b then 2 ^ n else 0

/-- The eight words of a record. -/
def FRec.words (r : FRec) : List Nat :=
  [ bit1 r.restart 63 + bit1 r.coal 62 + bit1 r.write 61 + bit1 r.fetch 60 + bit1 r.super 59 + bit1 r.halt 58
      + r.cause % 256 * 2 ^ 48 + r.issuer % 65536 * 2 ^ 32 + r.seq % 2 ^ 32,
    r.count % 2048 * 2 ^ 52 + r.skid % 16 * 2 ^ 48 + bit1 r.ce 47 + r.cnt % 16 * 2 ^ 43 + r.part % 16 * 2 ^ 39
      + r.strand % 1024 * 2 ^ 29 + r.ply % 32 * 2 ^ 24 + r.cid % 2 ^ 24,
    r.pc % 2 ^ 60 / 8 * 8, r.addr % 2 ^ 64, r.progress % 2 ^ 64, r.detail % 2 ^ 64, r.instr.toNat, r.handle % 2 ^ 32 ]
def FRec.bytes (r : FRec) : List (Byte × Bool) := (r.words.flatMap fun w => leBytes w 8).map fun b => (b, false)

/-- ISSUER: die, kind and unit. -/
def issuerOf (kind core : Nat) : Nat := core / 176 * 2 ^ 14 + kind * 2 ^ 10 + core % 176

/-- RESTART (Table 16.2): the causes a handler's change can complete. -/
def causeRestarts (cause : Nat) (engineFill unpop : Bool) : Bool :=
  [7, 8, 10, 19, 23, 24, 25, 37].contains cause || (cause == 20 && engineFill) || (cause == 5 && unpop)

/-- The actions a cause accepts (Tables 16.1 and 18.6). -/
def causeActions (cause : Nat) (engine : Bool) : List Nat :=
  if engine then (if [5, 7, 8, 18, 19, 20, 37].contains cause then [0, 2, 3] else [])
  else if cause = 10 then [0, 1, 2, 4]
  else if cause = 11 ∨ cause = 29 then [0, 2]
  else if (1 ≤ cause ∧ cause ≤ 17) ∨ cause = 23 ∨ cause = 24 ∨ cause = 25 ∨ cause = 37 then [0, 1, 2]
  else []

/-! ### Queues (16 R365, 19 R440) -/

/-- The firmware queue's ring of a partition. -/
def fwRing (part : Nat) : Nat := reservedBase part + 0x21300000

/-- Posts to the firmware queue of a partition, which interrupts the management controller. -/
def State.postFw (s : State) (part : Nat) (r : FRec) : State :=
  let q := s.part part
  if (q.fwTail - q.fwHead).toNat = 8192 then
    (if r.cause = 22 then s.updPart part fun q => { q with fwPdrop := true }
     else s.updPart part fun q => { q with fwWaiting := q.fwWaiting ++ [r] })
  else
    let (s1, _) := s.engineWrite part (fwRing part + 64 * (q.fwTail.toNat % 8192)) r.bytes
    s1.updPart part fun q => { q with fwTail := q.fwTail + 1, fwIrq := true }

/-- Posts to a context's fault queue, whose ring's waiters are woken; to the firmware queue where the ring cannot be written.
`wake` is what a wake of a key of a partition does. -/
def State.postCtxBy (wake : State → Nat → Nat → Nat → State) (s : State) (c : Nat) (r : FRec) : State :=
  let x := s.ctx c
  if (x.fqTail - x.fqHead).toNat = 2 ^ x.fqLog then
    (if r.cause = 22 then s.updCtx c fun x => { x with fqPdrop := true }
     else s.updCtx c fun x => { x with fqWaiting := x.fqWaiting ++ [r] })
  else if x.fqBase = 0 then s.postFw (c / 16) r
  else
    let va := x.fqBase.toNat + 64 * (x.fqTail.toNat % 2 ^ x.fqLog)
    match s.translateEngine c va .write false with
    | (s1, .error _) => s1.postFw (c / 16) r
    | (s1, .ok p) =>
      let (s2, w) := s1.engineWrite (c / 16) p.pa r.bytes p.esr
      let s3 := s2.updCtx c fun x => { x with fqTail := x.fqTail + 1, fqW := max x.fqW w }
      match s3.translateEngine c x.fqBase.toNat .read false with
      | (s4, .error _) => s4
      | (s4, .ok k) => wake s4 (c / 16) k.pa w

/-! ### A full replay log (16 R387) -/

/-- The first wait for a full ring posts a record of cause 28; one of a cable that is being saved posts none, and is not the
first (16 R383). -/
def State.logFullBy (wake : State → Nat → Nat → Nat → State) (s : State) (c : Cable) (e : LogEvent) : State :=
  if c.saving.isSome || (s.ctx e.ctx).rlogFull || (s.ctx e.ctx).rlogMode != 1 then s
  else
    let y := c.ply e.ply
    let s1 := (s.updPly c.uid e.ply fun y => { y with seq := y.seq + 1 }).updCtx e.ctx fun x => { x with rlogFull := true }
    let r : FRec := { cause := 28, super := c.priv != 0, issuer := issuerOf 0 c.coreD, seq := (y.seq + 1).toNat, count := 1
                      part := c.part, ply := e.ply, cid := c.cid }
    if c.superLaunch then s1.postFw c.part r else s1.postCtxBy wake c.ctx r

/-! ### Wakes (09 R259) -/

/-- The event that a status written for a waiter is (16 Table 16.16). -/
def State.waiterEvent (s : State) (w : Waiter) (status : Nat) : LogEvent :=
  let c := s.cable w.uid
  { ctx := c.ctx, cid := c.cid, ply := w.strand / 32, ic := w.ic, kind := 1, word1 := status }

/-- Writes a waiter's status register and drops its record. -/
def State.giveStatus (s : State) (w : Waiter) (status : Nat) : State :=
  { s with waiters := s.waiters.filter fun x => x.id != w.id }.deliver w.uid w.id w.strand false [w.dest] [w.strand]
    (BitVec.ofNat 64 status) false

/-- A wake raises the P of its waiter's core. -/
def State.raiseWaiter (s : State) (w : Waiter) (p : Option Nat) : State :=
  match p, (s.cable w.uid).core? with
  | some p, some c => s.raiseP c p
  | _, _ => s
/-- A waiter stands released with a status that the replay log keeps back. -/
def State.markWaiter (s : State) (w : Waiter) (status : Nat) : State :=
  { s with waiters := s.waiters.map fun x => if x.id = w.id then { x with status := some status } else x }
/-- The waiters of a key that a wake releases, in the order in which they were appended. -/
def State.waitersOf (s : State) (part key count : Nat) : List Waiter :=
  (s.waiters.filter fun w => w.key == key && w.part == part && w.status.isNone).take count
/-- A wake of the queue's handlers for the record of a full log: the log keeps their statuses back too. -/
def State.markKey (s : State) (part key p : Nat) : State :=
  (s.waitersOf part key (2 ^ 32 - 1)).foldl (fun s w => (s.raiseWaiter w (some p)).markWaiter w 0) s

/-- Releases one waiter with a status: its core's P is raised for a wake, its register written; while the replay log keeps
the status back, the waiter stands released. -/
def State.releaseWaiter (s : State) (w : Waiter) (status : Nat) (p : Option Nat) : State :=
  let s1 := s.raiseWaiter w p
  match s1.logRead (s1.waiterEvent w status) with
  | some (s2, v) => s2.giveStatus w v
  | none => (s1.markWaiter w status).logFullBy State.markKey (s1.cable w.uid) (s1.waiterEvent w status)

/-- Releases the first waiters of a key, in the order in which they were appended. -/
def State.wakeKey (s : State) (part key count p : Nat) : State :=
  (s.waitersOf part key count).foldl (fun s w => s.releaseWaiter w 0 (some p)) s

/-! ### Posting -/

/-- Posts to a context's fault queue. -/
def State.postCtx (s : State) (c : Nat) (r : FRec) : State :=
  s.postCtxBy (fun s part key p => s.wakeKey part key (2 ^ 32 - 1) p) c r

/-- Posts a record of a cable: to its context's queue, or to the firmware queue for a cable launched at supervisor
level (R364). -/
def State.postFor (s : State) (c : Cable) (r : FRec) : State :=
  if c.superLaunch then s.postFw c.part r else s.postCtx c.ctx r

/-! ### Handles -/

/-- The next sequence number of an issuer that is no ply (R364). -/
def State.nextEngSeq (s : State) (issuer : Nat) : State × Nat :=
  let n := s.engSeq.getD issuer 0 + 1
  ({ s with engSeq := s.engSeq.insert issuer n }, n.toNat)

/-- The unanswered record that stands for a page of a context (R377). -/
def State.pageHandle (s : State) (ctx page : Nat) : Option Handle :=
  (s.ctx ctx).handles.find? fun h => h.page == some page

def State.joinHandle (s : State) (ctx h : Nat) (a : Stopped) (pages : List Nat := []) : State :=
  s.updCtx ctx fun x => { x with handles := x.handles.map fun y =>
    if y.h = h then { y with agents := y.agents ++ [a], pages := y.pages ++ pages } else y }

/-- The halts of a cable that hold a ply. -/
def Cable.haltedPly (c : Cable) (p : Nat) : Bool := c.halts.any fun h => h.plies.isEmpty || h.plies.contains p

/-- A `trap` of the cable is active (04 Table 4.9). -/
def Cable.trapActive (c : Cable) : Bool := c.trapInfo.getLsbD 31
def Cable.trapStrand (c : Cable) : Nat := (c.trapInfo.extractLsb' 16 10).toNat
/-- A `trap` stops a ply: one that is active, or about to take effect, in another ply (04 R118, R120). -/
def Cable.trapHalts (c : Cable) (p : Nat) : Bool :=
  (c.trapActive && c.trapStrand / 32 != p) || (match c.trapping with | some (j, _) => j / 32 != p | none => false)
/-- A ply of the cable is told to stop: by a halt, by a save, by a trap (16 R367, 04 R118). -/
def Cable.stopping (c : Cable) (p : Nat) : Bool := c.haltedPly p || c.saving.isSome || c.trapHalts p
/-- The plies that nothing stops any more resume. -/
def Cable.resumePlies (c : Cable) : Cable :=
  { c with plies := c.plies.map fun (p, y) => if c.stopping p then (p, y) else (p, { y with stopped := false, faulting := false }) }

/-- Adds a halt of plies to a cable: those that stand between clauses stop where they stand; one in a clause runs on
to its stop point (R367, R368). `whole` plies stop at once. -/
def State.haltPlies (s : State) (uid handle : Nat) (plies now : List Nat) : State :=
  s.updCable uid fun c =>
    { c with
      halts := c.halts ++ [⟨handle, plies⟩]
      plies := c.plies.map fun (p, y) =>
        if plies.isEmpty || plies.contains p then
          (p, { y with
                skid := if c.haltedPly p then y.skid else 0
                stopped := y.stopped || now.contains p || y.running.isNone
                faulting := y.faulting || now.contains p })
        else (p, y) }

/-- The record of a handle waits at its agent for room in a queue (R365). -/
def State.recordWaiting (s : State) (ctx h : Nat) : Bool :=
  (s.ctx ctx).fqWaiting.any (fun r => r.handle == h) || (s.part (ctx / 16)).fwWaiting.any fun r => r.handle == h

/-- A halt of one ply spreads to the cable. -/
def Cable.haltWhole (c : Cable) (handle : Nat) : Cable :=
  if c.halts.any fun h => h.handle == handle then
    { c with
      halts := c.halts.map fun h => if h.handle = handle then { h with plies := [] } else h
      plies := c.plies.map fun (p, y) =>
        if c.haltedPly p then (p, y) else (p, { y with skid := 0, stopped := y.stopped || y.running.isNone }) }
  else c

/-- The record of a handle has come into its queue: the siblings of the plies that it stopped are told to stop (R366). -/
def State.widenHalts (s : State) (h : Nat) : State :=
  (s.ctxs.flatMap fun e => (e.2.handles.filter fun x => x.h == h).flatMap Handle.agents).foldl (fun s a => match a with
    | .group uid _ _ => s.updCable uid fun c => c.haltWhole h
    | .held uid [] _ _ => s.updCable uid fun c => c.haltWhole h
    | _ => s) s

/-- Posts the records that were waiting for room, in order (R365). -/
def State.drainFq (s : State) (c : Nat) : State :=
  let ws := (s.ctx c).fqWaiting
  let s1 := ws.foldl (fun s r => s.postCtx c r) (s.updCtx c fun x => { x with fqWaiting := [] })
  ws.foldl (fun s r => if s.recordWaiting c r.handle then s else s.widenHalts r.handle) s1
def State.drainFw (s : State) (p : Nat) : State :=
  let ws := (s.part p).fwWaiting
  let s1 := ws.foldl (fun s r => s.postFw p r) (s.updPart p fun x => { x with fwWaiting := [] })
  ws.foldl (fun s r => if (s1.part p).fwWaiting.any fun w => w.handle == r.handle then s else s.widenHalts r.handle) s1

/-- Drops the halts of a handle; plies that nothing stops resume. -/
def Cable.release (c : Cable) (handle : Nat) : Cable :=
  { c with halts := c.halts.filter fun h => h.handle != handle }.resumePlies

end Sys2Proof.Machine
end

