-- ==== Sys2Proof/Machine/Operands.lean ====
section
/-! DEFINITION. Operands (01 R11 to R13, R25 to R28, R32; 03 R70, R72; 05 R129 to R133): what a field names, which
forms are legal, reading and writing registers of a strand, a ply, a lay, a cable or a walker. -/
namespace Sys2Proof.Machine

/-- What an operand field names (01 Tables 1.4 and 1.5). -/
inductive Operand where
  | v (n : Nat) | o (n : Nat) | lat | s (n : Nat) | k (n : Nat) | y (n : Nat) | c (n : Nat) | bad
deriving DecidableEq, Repr, Inhabited

/-- The operand of a field; `bad` where Table 1.4 or 1.5 forbids the number. -/
def Operand.ofField (f : BitVec 10) : Operand :=
  let lv := (f.extractLsb' 8 2).toNat
  let n := (f.extractLsb' 0 8).toNat
  match lv with
  | 0 => .v n
  | 1 => if n < 8 then .o n else .bad
  | 2 => if n = 0 then .lat else .bad
  | _ =>
    match n / 64 with
    | 0 => .s (n % 64)
    | 1 => .k (n % 64)
    | 2 => if n % 64 < 16 then .y (n % 16) else .bad
    | _ => .c (n % 64)

/-- Storage of each strand's own (R72). -/
def Operand.perStrand : Operand → Bool | .v _ => true | .o _ => true | .lat => true | _ => false

/-- How an instruction reads or writes an operand: raw bits of 32 or 64, an integer type, a floating type. -/
inductive OTy where
  | raw (wide : Bool) | int (T : IntFmt) | float (F : Fmt)
deriving DecidableEq, Repr, Inhabited

def OTy.wide : OTy → Bool | .raw w => w | .int T => T.w == 64 | .float F => F.bits == 64
/-- Bits of the value (R40, R91). -/
def OTy.bits : OTy → Nat | .raw w => if w then 64 else 32 | .int T => T.w | .float F => F.bits

end Sys2Proof.Machine

namespace Sys2Proof
open Machine

def Width.oty (w : Width) : OTy := .raw (w == .b64)
def IntTy.oty (t : IntTy) : OTy := .int t.fmt
def FloatTy.oty (t : FloatTy) : OTy := .float t.fmt
def CvtTy.oty : CvtTy → OTy
  | .i8 => .int ⟨8, true⟩ | .n8 => .int ⟨8, false⟩ | .i16 => .int ⟨16, true⟩ | .n16 => .int ⟨16, false⟩
  | .i32 => .int ⟨32, true⟩ | .n32 => .int ⟨32, false⟩ | .i64 => .int ⟨64, true⟩ | .n64 => .int ⟨64, false⟩
  | .f64 => .float .f64 | .f32 => .float .f32 | .f16 => .float .f16 | .bf16 => .float .bf16
  | .e4m3 => .float .e4m3 | .e5m2 => .float .e5m2 | .e2m1 => .float .e2m1

end Sys2Proof

namespace Sys2Proof.Machine

/-- The pattern that a constant delivers in a type (R27); none where the entry is illegal there. -/
def constPattern (n : Nat) : OTy → Option Nat
  | .raw w => let b := if w then 64 else 32; constInt n (2 ^ b - 1) b
  | .int T => constInt n (T.wrap T.max) T.w
  | .float F => constFloat n F

/-! ### The agent that issues -/

/-- The group, ply and cable an instruction issues in, or the walker: found once at issue. -/
structure Env where
  walker : Bool := false
  uid : Nat
  ply : Nat := 0
  gid : Nat := 0
  cmd : Nat := 0
  w : Nat := 0
deriving DecidableEq, Repr, Inhabited

def Cable.cmd? (c : Cable) (id : Nat) : Option Cmd := c.cmds.find? fun m => m.id == id
def Cable.updCmd (c : Cable) (id : Nat) (f : Cmd → Cmd) : Cable :=
  { c with cmds := c.cmds.map fun m => if m.id = id then f m else m }
def State.updCmd (s : State) (uid id : Nat) (f : Cmd → Cmd) : State := s.updCable uid fun c => c.updCmd id f

/-- The group a ply of a cable runs under an identity. -/
def State.group? (s : State) (uid p gid : Nat) : Option Group := ((s.cable uid).ply p).group? gid
def State.updGroup (s : State) (uid p gid : Nat) (f : Group → Group) : State :=
  s.updPly uid p fun y => y.updGroup gid f
/-- Applies a function to the clause a group runs. -/
def State.updClause (s : State) (uid p gid : Nat) (f : Clause → Clause) : State :=
  s.updGroup uid p gid fun g => { g with clause := g.clause.map f }

/-- The walker of a search command. -/
def State.walker? (s : State) (uid cmd w : Nat) : Option Walker :=
  match (s.cable uid).cmd? cmd with
  | none => none
  | some m => m.srch.walkers[w]?
def State.updWalker (s : State) (uid cmd w : Nat) (f : Walker → Walker) : State :=
  s.updCmd uid cmd fun m => { m with srch := { m.srch with walkers := m.srch.walkers.modify w f } }

/-! ### Shared registers as a group sees them (05 R131) -/

/-- A shared register read through a clause's own writes, then as the clause found it. -/
def Clause.readReg (cl : Clause) (key : RegKey) : PReg :=
  let own := cl.log.foldl (fun (r : Option PReg) w =>
    match w with | .reg k _ v _ => if k = key then some v else r | _ => r) none
  match own with
  | some r => r
  | none => match key with
    | .s _ n => cl.view.s.getD n {}
    | .k n => cl.view.k.getD n {}
    | .y l n => cl.view.y.getD (16 * l + n) {}
    | _ => {}

/-- A mask register likewise. -/
def Clause.readMask (cl : Clause) (n : Nat) : W32 :=
  cl.log.foldl (fun (r : W32) w =>
    match w with | .mask k lanes v _ => if k = n then (r &&& ~~~lanes) ||| (v &&& lanes) else r | _ => r)
    (cl.view.m.getD n 0)

/-- The clause of an environment's group. -/
def State.envClause (s : State) (e : Env) : Clause :=
  match s.group? e.uid e.ply e.gid with
  | some { clause := some cl, .. } => cl
  | _ => default

/-- The clause in which a strand stands, and its group: after a rendezvous each ply has one group at the instruction. -/
def State.clauseOf (s : State) (uid strand : Nat) : Clause :=
  let y := (s.cable uid).ply (strand / 32)
  match y.groups.find? fun g => g.lanes.getLsbD (strand % 32) with
  | some { clause := some cl, .. } => cl
  | _ => default

/-- The mask register m as a strand's group reads it. -/
def State.readMask (s : State) (e : Env) (strand n : Nat) : W32 :=
  if e.walker then (match s.walker? e.uid e.cmd e.w with | some x => if x.m.getLsbD n then 1 else 0 | none => 0)
  else (s.clauseOf e.uid strand).readMask n

/-! ### Reading -/

/-- One 32-bit register of a strand, ply, lay or cable. -/
def State.readOne (s : State) (e : Env) (strand lay : Nat) (op : Operand) (i : Nat) : PReg :=
  let c := s.cable e.uid
  match op with
  | .v n => (c.strand strand).v.getD (n + i) {}
  | .o n => (c.strand strand).o.getD (n + i) {}
  | .lat =>
    match (c.strand strand).latch with
    | some l => ⟨if i = 0 then l.val.lo else l.val.hi, l.psn⟩
    | none => {}
  | .s n => (s.clauseOf e.uid strand).readReg (.s (strand / 32) (n + i))
  | .k n => (s.clauseOf e.uid strand).readReg (.k (n + i))
  | .y n => (s.clauseOf e.uid strand).readReg (.y lay (n + i))
  | .c _ => {}
  | .bad => {}

/-- A source value: its pattern, zero above the type's width, and its poison (01 R11, R27, 04 R91, R93). -/
def State.readOp (s : State) (e : Env) (strand lay : Nat) (op : Operand) (ty : OTy) : Nat × Bool :=
  match op with
  | .c n => ((constPattern n ty).getD 0, false)
  | _ =>
    if e.walker then
      match s.walker? e.uid e.cmd e.w, op with
      | some x, .s n => let r := x.s.getD n {}; (r.val.toNat % 2 ^ ty.bits, r.psn)
      | some x, .lat => match x.latch with | some l => (l.val.toNat % 2 ^ ty.bits, l.psn) | none => (0, false)
      | _, _ => (0, false)
    else if ty.wide then
      let a := s.readOne e strand lay op 0
      let b := s.readOne e strand lay op 1
      ((W64.ofPair a.val b.val).toNat, a.psn || b.psn)
    else
      let a := s.readOne e strand lay op 0
      (a.val.toNat % 2 ^ ty.bits, a.psn)

/-- The poison of each register of a source, for the carrying instructions (04 Table 4.1). -/
def State.readPoison (s : State) (e : Env) (strand lay : Nat) (op : Operand) (wide : Bool) : Bool × Bool :=
  match op with
  | .c _ => (false, false)
  | _ =>
    if e.walker then let p := (s.readOp e strand lay op (.raw wide)).2; (p, p)
    else if op = .lat then let p := (s.readOne e strand lay op 0).psn; (p, p)
    else ((s.readOne e strand lay op 0).psn, wide && (s.readOne e strand lay op 1).psn)

/-- The scoreboard keys of an operand, for one strand. -/
def Operand.keys (op : Operand) (strand lay : Nat) (n : Nat) : List RegKey :=
  (List.range n).flatMap fun i =>
    match op with
    | .v m => [.v strand (m + i)]
    | .o m => [.o strand (m + i)]
    | .lat => [.lat strand]
    | .s m => [.s (strand / 32) (m + i)]
    | .k m => [.k (m + i)]
    | .y m => [.y lay (m + i)]
    | .c _ => []
    | .bad => []

/-! ### Legality (rank 7 of Table 3.19) -/

/-- What a row accepts of an operand. -/
structure OpRule where
  ty : OTy
  /-- destination: the constant set is illegal -/
  dest : Bool := false
  /-- per-strand storage is accepted at wider scope (R72) -/
  perStrand : Bool := false
  /-- levels accepted, where the row narrows them (06 Table 6.1, 09 R246) -/
  only : Operand → Bool := fun _ => true

/-- Whether a number may name a register pair or a single register. -/
def pairOk (wide : Bool) (n : Nat) : Bool := !wide || n % 2 == 0

/-- Whether an operand is legal for a ply of a cable at a scope, for the lanes of a group (R11, R13, R25 to R27, R72,
R132). The first instruction of a clause reads no latch (R26). -/
def State.operandOk (s : State) (e : Env) (sc : Scope) (lay : Nat) (lanes : List Nat) (r : OpRule) (op : Operand) : Bool :=
  let c := s.cable e.uid
  let wide := r.ty.wide
  r.only op &&
  match op with
  | .bad => false
  | .c n => !r.dest && (constPattern n r.ty).isSome
  | .v n => !e.walker && (sc == .strand || r.perStrand) && pairOk wide n && n + (if wide then 1 else 0) < c.budget e.ply
  | .o n => !e.walker && (sc == .strand || r.perStrand) && pairOk wide n
  | .lat =>
    (sc == .strand || r.perStrand) &&
    (r.dest ||
      (if e.walker then
        match s.walker? e.uid e.cmd e.w with
        | some x => (match x.clause with | some cl => cl.pos != 0 | none => false) &&
            (match x.latch with | some l => l.wide || !wide | none => false)
        | none => false
       else (s.envClause e).pos != 0 && lanes.all fun j =>
        match (c.strand (32 * e.ply + j)).latch with | some l => l.wide || !wide | none => false))
  | .s n => if e.walker then n < 32 else pairOk wide n
  | .k n => !e.walker && pairOk wide n
  | .y n => !e.walker && pairOk wide n &&
      (match sc with | .strand => c.inLay lay e.ply | .ply => c.inLay lay e.ply | .lay => true | .cable => true)

/-- A last-read mark is legal on a `v` operand only (R32). -/
def markOk (mark : Bool) (op : Operand) : Bool := !mark || (match op with | .v _ => true | _ => false)

/-- R28: negate and absolute value act on signed and floating types only. -/
def modOk (neg abs : Bool) (ty : OTy) : Bool :=
  match ty with | .raw _ => !neg && !abs | .int T => T.signed || (!neg && !abs) | .float _ => true

/-- R29: a raw destination takes no clamp and no scale. -/
def scaleOk (clamp : BitVec 2) (scale : BitVec 4) (ty : OTy) : Bool :=
  match ty with | .raw _ => clamp == 0 && scale == 0 | _ => true

/-! ### Source modifiers (R28) -/

/-- Absolute value, then negation, on a pattern of a type. -/
def applyMods (neg abs : Bool) (ty : OTy) (x : Nat) : Nat :=
  match ty with
  | .raw _ => x
  | .int T =>
    let i := T.decode x
    let i := if abs && i < 0 then -i else i
    T.wrap (if neg then -i else i)
  | .float F =>
    let x := x % 2 ^ F.bits
    let x := if abs then x % F.signBit else x
    if neg then (if x < F.signBit then x + F.signBit else x - F.signBit) else x

/-- The exact value of a pattern of a type. -/
def OTy.decode (ty : OTy) (x : Nat) : XVal :=
  match ty with | .raw _ => XVal.ofInt x | .int T => XVal.ofInt (T.decode x) | .float F => F.decode x

/-- A result pattern as its register holds it: signed narrow integers are sign-extended to 32 bits (R40), everything
else zero-extended (R91). -/
def OTy.extend (ty : OTy) (x : Nat) : W64 :=
  match ty with
  | .int T => if T.signed && T.w < 32 then ((BitVec.ofInt 32 (T.decode x)).setWidth 64) else BitVec.ofNat 64 (x % 2 ^ T.w)
  | t => BitVec.ofNat 64 (x % 2 ^ t.bits)

/-! ### Writing -/

/-- Marks stale the table registers built from a name of a ply, and the builds from it that have issued and not begun
(12 R301, 13 R318). -/
def Cable.staleReg (c : Cable) (strand n : Nat) : Cable :=
  if c.tables.isEmpty && c.cmds.isEmpty then c else
  { c with
    tables := c.tables.map fun (t, x) =>
      if x.tag.kind = 2 ∧ x.tag.ply = strand / 32 ∧ x.tag.vlo ≤ n ∧ n < x.tag.vlo + x.tag.vcnt
      then (t, { x with tag := { x.tag with stale := true } }) else (t, x)
    cmds := c.cmds.map fun m =>
      match m.srcReg with
      | some (p, lo, cnt) => if p = strand / 32 ∧ lo ≤ n ∧ n < lo + cnt then { m with srcWritten := true } else m
      | none => m }

/-- Writes one register of a strand, or a shared one in the log of a strand's group; `who` is the strand that writes, which
at a wider scope is the same for every group that logs the write (R130, R131). -/
def State.writeOne (s : State) (uid strand lay : Nat) (op : Operand) (i : Nat) (r : PReg) (who : Nat := strand) : State :=
  let put (key : RegKey) : State :=
    let y := (s.cable uid).ply (strand / 32)
    match y.groups.find? fun g => g.lanes.getLsbD (strand % 32) with
    | some g => s.updClause uid (strand / 32) g.gid fun cl => { cl with log := cl.log ++ [.reg key who r (some s.stepCount)] }
    | none => s
  match op with
  | .v n => s.updCable uid fun c => (c.putReg (.v strand (n + i)) r).staleReg strand (n + i)
  | .o n => s.updCable uid fun c => c.putReg (.o strand (n + i)) r
  | .s n => put (.s (strand / 32) (n + i))
  | .k n => put (.k (n + i))
  | .y n => put (.y lay (n + i))
  | _ => s

/-- Writes a strand's destination; the latch is written apart. -/
def State.writeDst (s : State) (e : Env) (strand lay : Nat) (op : Operand) (wide : Bool) (val : W64) (p0 p1 : Bool)
    (who : Nat := strand) : State :=
  if e.walker then
    match op with
    | .s n => s.updWalker e.uid e.cmd e.w fun x => { x with s := x.s.insert n ⟨val, p0 || p1⟩ }
    | _ => s
  else
    let s1 := s.writeOne e.uid strand lay op 0 ⟨val.lo, p0⟩ who
    if wide then s1.writeOne e.uid strand lay op 1 ⟨val.hi, p1⟩ who else s1

/-- Sets a strand's latch. -/
def State.setLatch (s : State) (e : Env) (strand : Nat) (l : Option Latch) : State :=
  if e.walker then s.updWalker e.uid e.cmd e.w fun x => { x with latch := l }
  else s.updStrand e.uid strand fun t => { t with latch := l }

/-- The value a destination holds now, for the latch of a strand whose predicate is false (R26); zero for the latch
alone. -/
def State.currentDst (s : State) (e : Env) (strand lay : Nat) (op : Operand) (wide : Bool) : Latch :=
  match op with
  | .lat => ⟨wide, 0, false⟩
  | .c _ => ⟨wide, 0, false⟩
  | _ => let (v, p) := s.readOp e strand lay op (.raw wide); ⟨wide, BitVec.ofNat 64 v, p⟩

/-- Releases a marked name, and the second of a pair (R32). -/
def State.releaseName (s : State) (uid strand : Nat) (op : Operand) (wide : Bool) : State :=
  match op with
  | .v n =>
    let drop (s : State) (k : Nat) : State := s.updCable uid fun c =>
      (c.updStrand strand fun t => { t with v := t.v.erase k, spilled := setErase k t.spilled }).staleReg strand k
    let s1 := drop s n
    if wide then drop s1 (n + 1) else s1
  | _ => s

end Sys2Proof.Machine
end

