-- ==== Sys2Proof/Machine/Traffic.lean ====
section
/-! DEFINITION. Traffic between a core and the home slices: the outstanding-transaction table, unacknowledged writes,
the write-combining buffer, L1 copies (07 R186 to R194; 08 R214, R216). -/
namespace Sys2Proof.Machine

/-! ### The outstanding-transaction table (R186) -/

def State.coreTxns (s : State) (core : Nat) : List Txn := s.txns.vals.filter fun t => t.core == core
/-- Whether `n` entries of a core's table are free. -/
def State.freeEntries (s : State) (core n : Nat) : Bool :=
  ((s.coreTxns core).filter fun t => t.entry).length + n ≤ 256

/-- A fresh name for an operation. -/
def State.newOp (s : State) : State × Nat := ({ s with nextOp := s.nextOp + 1 }, s.nextOp)
/-- Sends a transaction under a fresh name. -/
def State.send (s : State) (t : Txn) : State × Nat :=
  let id := s.nextOp
  (({ s with nextOp := id + 1 }).setTxn { t with id := id, born := s.cycle, sent := s.clock }, id)

/-! ### UNACK (R187) -/

def State.addUnack (s : State) (uid p n : Nat) : State := s.updPly uid p fun y => { y with unack := y.unack + n }
/-- One more write of each of the plies (cable, ply). -/
def State.addUnacks (s : State) (acks : List (Nat × Nat)) : State := acks.foldl (fun s a => s.addUnack a.1 a.2 1) s
def State.dropUnack (s : State) (acks : List (Nat × Nat)) : State :=
  acks.foldl (fun s a => s.updPly a.1 a.2 fun y => { y with unack := y.unack - 1 }) s
/-- UNACK has no room for `n` more writes. -/
def State.unackFull (s : State) (uid p n : Nat) : Bool := 65535 < ((s.cable uid).ply p).unack + n

/-! ### Loads that a write follows (08 R214) -/

def TxnKind.isLoad : TxnKind → Bool
  | .load .. => true | .atom _ _ _ _ _ _ (some _) => true | .peerLoad .. => true
  | .peerAtom _ _ _ _ _ _ _ (some _) => true | _ => false

/-- The accesses that wait in the bank queues of a core (07 R184). -/
def State.bankReqs (s : State) (core : Nat) : List BankReq := (s.core core).banks.vals.flatten

/-- The loads of strands of a cable that have not returned: from memory, and from the banks of its scratchpad. -/
def State.loadsOf (s : State) (uid : Nat) (strands : List Nat) : List Nat :=
  (s.txns.vals.filter fun t => t.uid == uid && t.kind.isLoad && t.strands.any fun j => strands.contains j).map Txn.id ++
  ((s.bankReqs (s.cable uid).coreD).filter fun b =>
    b.uid == uid && b.store.isNone && b.strands.any fun j => strands.contains j).map BankReq.op
/-- Loads of a core have returned. -/
def State.loadsReturned (s : State) (core : Nat) (ids : List Nat) : Bool :=
  ids.all fun i => (s.txns.find? i).isNone && !((s.bankReqs core).any fun b => b.op == i && b.store.isNone)

/-! ### The write-combining buffer (R189) -/

/-- An entry leaves the core as a write. -/
def State.drainEntry (s : State) (core : Nat) (e : WcEntry) : State :=
  let s1 := s.updCore core fun k => { k with wc := k.wc.filter fun x => x.line != e.line }
  let who := e.stores.headD (0, 0)
  (s1.send { id := 0, core := core, uid := who.1, ply := who.2, strands := []
             kind := .write (e.bytes.map fun b => (e.line * 128 + b.1, b.2)) false none
             after := e.after, acks := e.stores, esr := e.esr }).1

/-- Drains the entries that a test selects, as far as the table has room. -/
def State.drainWhere (s : State) (core : Nat) (sel : WcEntry → Bool) : State :=
  ((s.core core).wc.filter sel).foldl (fun s e => if s.freeEntries core 1 then s.drainEntry core e else s) s

/-- A release, `bar` or fence of a ply (R189). -/
def State.drainPly (s : State) (core uid p : Nat) : State :=
  s.drainWhere core fun e => e.stores.any fun a => a == (uid, p)
/-- Before an atomic of a ply leaves the core (R190). -/
def State.drainLine (s : State) (core uid p line : Nat) : State :=
  s.drainWhere core fun e => e.line == line && e.stores.any fun a => a == (uid, p)
/-- At a clause end: entries more than 64 cycles old (R189). -/
def State.drainOld (s : State) (core : Nat) : State := s.drainWhere core fun e => e.born + 64 < s.cycle
/-- Before a release at system scope takes effect: entries of the cable for a CXL node (08 R222). -/
def throughPort (pa : Nat) : Bool := ((nodeOf pa).bind portOf).isSome
def State.drainPorts (s : State) (core uid : Nat) : State :=
  s.drainWhere core fun e => throughPort (e.line * 128) && e.stores.any fun a => a.1 == uid
/-- When strands of a cable end, and when the cable does (06 R180). -/
def State.drainCable (s : State) (core uid : Nat) : State :=
  s.drainWhere core fun e => e.stores.any fun a => a.1 == uid
/-- No entry of a ply's stores to a line is left. -/
def State.lineDrained (s : State) (core uid p line : Nat) : Bool :=
  !((s.core core).wc.any fun e => e.line == line && e.stores.any fun a => a == (uid, p))

/-- A byte of a store of plies over what its place in the buffer holds: a ply whose own store it does not replace goes on
observing that one (R216). -/
def WcByte.over (old : Option WcByte) (who : List (Nat × Nat)) (b : Byte × Bool) : WcByte :=
  { val := b.1, psn := b.2
    seen := who.map (fun q => (q, b)) ++ (match old with | some o => o.seen.filter fun e => !who.contains e.1 | none => []) }

/-- A store of plies of a cable enters the buffer, beside the bytes already there for its line, or in a new entry; the
oldest entry drains when the buffer is full. It counts in the UNACK of each of the plies. None while that drain has no
table entry. `loads` are the loads that it follows (08 R214). -/
def State.bufferStore (s : State) (core uid : Nat) (plies loads : List Nat) (pa : Nat) (bytes : List (Byte × Bool)) (esr : Bool) :
    Option State :=
  let who := plies.map fun q => (uid, q)
  let line := pa / 128
  let full := decide (64 ≤ (s.core core).wc.length) && !((s.core core).wc.any fun e => e.line == line)
  let s1 := if full then
      match (s.core core).wc with
      | [] => s
      | e :: _ => if s.freeEntries core 1 then s.drainEntry core e else s
    else s
  if full && decide (64 ≤ (s1.core core).wc.length) then none else
    let add (e : WcEntry) : WcEntry :=
      { e with
        bytes := ((List.range bytes.length).zip bytes).foldl
          (fun m b => m.insert (pa % 128 + b.1) (WcByte.over (m.find? (pa % 128 + b.1)) who b.2)) e.bytes
        stores := e.stores ++ who, after := e.after ++ loads, esr := e.esr || esr }
    let s2 := s1.updCore core fun k =>
      if k.wc.any fun e => e.line == line then { k with wc := k.wc.map fun e => if e.line = line then add e else e }
      else { k with wc := k.wc ++ [add { line := line, bytes := [], born := s.cycle, stores := [] }] }
    some (s2.addUnacks who)

/-- What plies of a cable observe of a byte that a store carries: that of the latest of their own stores (R216). -/
def WcByte.seenBy (b : WcByte) (uid : Nat) (ps : List Nat) : Option (Byte × Bool) :=
  (b.seen.find? fun e => e.1.1 == uid && ps.contains e.1.2).map Prod.snd

/-- The byte of the plies' own latest store to an address that the write-combining buffer holds (R189, R216). -/
def State.heldByte (s : State) (core uid : Nat) (ps : List Nat) (pa : Nat) : Option (Byte × Bool) :=
  ((s.core core).wc.find? fun e => e.line == pa / 128).bind fun e => (e.bytes.find? (pa % 128)).bind fun b => b.seenBy uid ps

/-- The byte of the plies' own latest store to an address that its home slice has not performed: in the buffer, or on its
way. -/
def State.ownByte (s : State) (core uid : Nat) (ps : List Nat) (pa : Nat) : Option (Byte × Bool) :=
  match s.heldByte core uid ps pa with
  | some b => some b
  | none => (s.coreTxns core).foldl (fun (r : Option (Byte × Bool)) (t : Txn) =>
    match t.kind, t.state with
    | .write bytes _ _, .asked =>
      (match (bytes.find? fun b => b.1 == pa).bind fun b => b.2.seenBy uid ps with | some b => some b | none => r)
    | _, _ => r) none

/-- The bytes of a load that its plies' own stores give, by offset. -/
def State.ownBytes (s : State) (core uid : Nat) (ps : List Nat) (pa n : Nat) : List (Nat × Byte × Bool) :=
  (List.range n).filterMap fun i => (s.ownByte core uid ps (pa + i)).map fun b => (i, b)
/-- Those that a request to the home slice does not find there: of stores still in the buffer. A store on its way to the
line is performed there before the request (R197). -/
def State.heldBytes (s : State) (core uid : Nat) (ps : List Nat) (pa n : Nat) : List (Nat × Byte × Bool) :=
  (List.range n).filterMap fun i => (s.heldByte core uid ps (pa + i)).map fun b => (i, b)

/-! ### L1 copies (R188, R193, R194) -/

def TxnState.isAsked : TxnState → Bool | .asked => true | _ => false

/-- Whether an atomic of one of the plies to a line is on its way, or a write that its home slice has performed and whose
acknowledgement has not brought the core's copy up to it: a later load then goes to the home slice (08 R214, R218). -/
def State.atomInFlight (s : State) (core uid : Nat) (ps : List Nat) (line : Nat) : Bool :=
  (s.coreTxns core).any fun t => (t.acks.any fun a => a.1 == uid && ps.contains a.2) &&
    (match t.kind, t.state with
     | .atom _ _ pa .., _ => pa / 128 == line
     | .nred _ pa .., _ => pa / 128 == line
     | .write bytes _ _, .performed .. => bytes.any fun b => b.1 / 128 == line
     | _, _ => false)

/-- A load of one of the strands from a line is on its way: a later load of the strand then goes to the home slice too, so that
the two read in order (08 R218; log 22). -/
def State.loadInFlight (s : State) (core uid : Nat) (strands : List Nat) (line : Nat) : Bool :=
  (s.coreTxns core).any fun t => t.uid == uid && (t.strands.any fun j => strands.contains j) &&
    (match t.kind with | .load l .. => l == line | _ => false)

/-- The strands of a ply. -/
def plyStrands (p : Nat) : List Nat := (List.range 32).map (32 * p + ·)

/-- An atomic of a ply to a line, or a load of one of its strands from it, that the home slice has still to perform: a load that
is performed at once comes after it (08 R214, R218). -/
def State.orderHolds (s : State) (core uid p line : Nat) : Bool :=
  (s.coreTxns core).any fun t => t.state.isAsked &&
    (match t.kind with
     | .atom _ _ pa .. => pa / 128 == line && t.acks.contains (uid, p)
     | .nred _ pa .. => pa / 128 == line && t.acks.contains (uid, p)
     | .load l .. => l == line && t.uid == uid && t.strands.any fun j => j / 32 == p
     | _ => false)

/-- The bytes an L1 copy gives for an address range within its line. -/
def L1Line.read (c : L1Line) (pa n : Nat) : Option (List (Byte × Bool)) :=
  (List.range n).foldr (fun i (r : Option (List (Byte × Bool))) =>
    match r, c.sectors.find? ((pa + i) % 128 / 16) with
    | some l, some (bs, p) => some ((bs.getD ((pa + i) % 16) 0, p) :: l)
    | _, _ => none) (some [])

/-- A hit: a copy that holds the sectors and whose lease has not lapsed at the core's P. -/
def State.l1Hit (s : State) (core pa n : Nat) : Option (Nat × List (Byte × Bool)) :=
  match (s.core core).l1.find? (pa / 128) with
  | none => none
  | some c => if (s.core core).p ≤ c.r then (c.read pa n).map fun bs => (c.w, bs) else none

def State.placedOn (s : State) (core : Nat) : List Cable := s.cables.vals.filter fun c => c.core? == some core
/-- Units of the pool that placed cables hold. -/
def State.unitsUsed (s : State) (core : Nat) : List Nat := (s.placedOn core).flatMap fun c => c.units

/-- The ways of a core's L1: its sections that are powered and hold no scratchpad (R183, R188). -/
def State.l1Ways (s : State) (core : Nat) : List Nat :=
  let used := s.unitsUsed core
  (List.range 10).filter fun n => !(s.core core).gated.contains n && !(used.any fun u => u / 32 == n)
/-- The set of a line; the spec gives no index (log 103). -/
def l1Set (l : Nat) : Nat := l % 1024

/-- The way that a line comes into: its own, one that its set leaves free, or one of the core's choice (log 103); none
where the L1 has no way. -/
def State.l1WayFor (s : State) (core line : Nat) : Option Nat :=
  let k := s.core core
  let ways := s.l1Ways core
  let held (n : Nat) : Bool := k.l1.any fun e => e.2.way == n && l1Set e.1 == l1Set line
  match k.l1.find? line with
  | some c => some c.way
  | none => match ways.find? fun n => !held n with
    | some n => some n
    | none => ways[Config.freeWay s.stepCount % ways.length]?

/-- Installs sectors of a version of a line: a copy of the same write keeps the sectors it holds; another line that its way held
is gone. -/
def State.l1Install (s : State) (core line w r ver : Nat) (lo : Nat) (bytes : List (Byte × Bool)) : State :=
  match s.l1WayFor core line with
  | none => s
  | some n => s.updCore core fun k =>
    let old := match k.l1.find? line with | some c => if c.w = w ∧ c.ver = ver then c.sectors else [] | none => []
    let secs := (List.range (bytes.length / 16)).foldl (fun (m : SMap (List Byte × Bool)) i =>
      let b := (bytes.drop (16 * i)).take 16
      m.insert (lo / 16 + i) (b.map Prod.fst, b.any Prod.snd)) old
    let rest : SMap L1Line := k.l1.filter fun e => !(e.2.way == n && l1Set e.1 == l1Set line && e.1 != line)
    { k with l1 := rest.insert line ⟨n, w, r, secs, ver⟩ }

/-- The writer's own copy takes the written bytes and (W′, W′) (R194), where it is a copy of the line as it was just before the
write, which made version `ver`; any other copy has lapsed at W′ (08 R219; log 21). -/
def State.l1Written (s : State) (core w : Nat) (ver : Option Nat) (bytes : List (Nat × Byte × Bool)) : State :=
  match bytes with
  | [] => s
  | (pa, _, _) :: _ =>
    s.updCore core fun k =>
      match k.l1.find? (pa / 128) with
      | none => k
      | some c =>
        if ver ≠ some (c.ver + 1) then k else
        let secs := c.sectors.map fun (i, (bs, p)) =>
          let mine := bytes.filter fun b => b.1 % 128 / 16 == i
          (i, (mine.foldl (fun l b => l.set (b.1 % 16) b.2.1) bs,
            if mine.any fun b => b.2.2 then true else if mine.length = 16 then false else p))
        { k with l1 := k.l1.insert (pa / 128) ⟨c.way, w, w, secs, c.ver + 1⟩ }

/-- Overlays the own bytes of a load. -/
def overlay (own : List (Nat × Byte × Bool)) (bytes : List (Byte × Bool)) : List (Byte × Bool) :=
  own.foldl (fun l o => l.set o.1 o.2) bytes

/-- A relaxed load of bytes within one 16-byte granule by a ply of a core, at once: an L1 hit, or the lease and the bytes of
the home slice (R193), where an atomic of the ply, or a load of one of its strands, is on its way with what the home slice gave
it. None where that request finds no free entry (R186), or follows one of those that has still to be performed. -/
def State.loadNow (s : State) (core uid p pa n lease : Nat) : Option (State × List (Byte × Bool)) :=
  let own := s.ownBytes core uid [p] pa n
  let forced := s.atomInFlight core uid [p] (pa / 128) || s.loadInFlight core uid (plyStrands p) (pa / 128)
  if s.orderHolds core uid p (pa / 128) then none
  else match (if forced then none else s.l1Hit core pa n) with
  | some (w, bs) => some (s.raiseP core w, overlay own bs)
  | none =>
    if !s.freeEntries core 1 then none
    else if s.cacheable pa then
      let (s1, w, r) := s.homeLease (s.cable uid).part (pa / 128) (pa / 16 * 16 % 128) 16 (s.core core).p lease
      let s2 := s1.l1Install core (pa / 128) w r (s1.line (pa / 128)).ver (pa / 16 * 16 % 128) (s1.fetchBytes (pa / 16 * 16) 16)
      some (s2.raiseP core w, overlay own (s1.fetchBytes pa n))
    else some (s, overlay own (s.fetchBytes pa n))

/-! ### What an acquire holds back (08 R223) -/

def Txn.acquires (t : Txn) : Bool := t.sync.ord == 1 || t.sync.ord == 3

/-- An acquire of one of the strands has not completed. -/
def State.acquiring (s : State) (uid : Nat) (strands : List Nat) : Bool :=
  (s.txns.vals.any fun t => t.uid == uid && t.acquires && t.strands.any fun j => strands.contains j) ||
  ((s.core (s.cable uid).coreD).banks.vals.any fun q => q.any fun b =>
    b.uid == uid && b.acq && b.strands.any fun j => strands.contains j)

/-- A store of the ply waits in a bank queue. -/
def State.bankStoring (s : State) (uid p : Nat) : Bool :=
  (s.bankReqs (s.cable uid).coreD).any fun b => b.uid == uid && b.plies.contains p && b.store.isSome

/-- At system scope: no write of the cable to a peer or to a CXL node is outstanding (08 R222). -/
def State.releasedSystem (s : State) (uid : Nat) : Bool :=
  !(s.txns.vals.any fun t => (t.uid == uid || t.acks.any fun a => a.1 == uid) && (match t.kind with
    | .peerWrite .. => true | .peerAtom .. => true
    | .write bytes _ _ => bytes.any fun b => throughPort b.1
    | .atom _ _ pa .. => throughPort pa
    | .nred _ pa .. => throughPort pa
    | _ => false)) &&
  !((s.core (s.cable uid).coreD).wc.any fun e => throughPort (e.line * 128) && e.stores.any fun a => a.1 == uid)

end Sys2Proof.Machine
end

