-- ==== Sys2Proof/Machine/Ops.lean ====
section
/-! DEFINITION. How an instruction issues (01 R20, R21; 03 R83; 04 R90; 05 R134 to R138): its decoding faults, its
members, its effect or its fault, and the end of its clause. How a fault is taken (16 R362 to R368). -/
namespace Sys2Proof.Machine

/-! ### Faults and waits of an instruction -/

/-- What keeps an instruction from its effect (16 Table 16.1), with the fields of its record. -/
structure Trouble where
  cause : Nat
  /-- the walker-fault cause it stands for in walker code (14 Table 14.9) -/
  walk : Nat := 2
  strand : Option Nat := none
  count : Nat := 0
  addr : Nat := 0
  detail : Nat := 0
  write : Bool := false
  fetch : Bool := false
  /-- the virtual page of a cause 7 or 8 -/
  page : Option Nat := none
  /-- the pages that did not translate, for any strand (17 R390) -/
  pages : List Nat := []
  unpop : Bool := false
  atHeader : Bool := false
deriving DecidableEq, Repr, Inhabited

/-- What an instruction comes to when its members issue it. `goto` gives the strands that a control transfer takes
elsewhere. -/
inductive Attempt where
  | done (s : State) (goto : List (Nat × Nat))
  /-- it waits as on a register, holding its issue slot (01 R20) -/
  | stall (s : State)
  /-- it waits at a stop point (16 R367) -/
  | park (s : State)
  /-- its groups are held (05 R136) -/
  | hold (s : State) (h : Hold)
  /-- it has ended the turn of its group itself -/
  | over (s : State)
  | fault (t : Trouble)
deriving Inhabited

/-- An instruction at its issue: the group or walker, the word and where it stands, its members, those whose
predicate is true, and the groups (ply, group) that issue it. -/
structure Issue where
  e : Env
  c : Common
  addr : Nat
  hdr : Nat
  word : W64
  members : List Nat
  contrib : List Nat
  groups : List (Nat × Nat)
deriving DecidableEq, Repr, Inhabited

def Issue.lay (x : Issue) : Nat := x.c.lay.toNat
def Issue.scope (x : Issue) : Scope := x.c.scope
/-- The strand at which an instruction of wider scope computes (04 R92). -/
def Issue.lead (x : Issue) : Nat := x.contrib.headD 0
def Issue.plies (x : Issue) : List Nat := x.groups.map Prod.fst
/-- The address of the word after the clause's last when this word is last. -/
def Issue.after (x : Issue) : Nat := x.addr + 8

/-! ### Issue slots (05 R155) -/

def State.freeIssue (s : State) (core uid p : Nat) : State :=
  s.updCore core fun k => { k with slots := k.slots.map fun o => if o = some (uid, p) then none else o }

/-- A ply gives up its issue slot; the group that ran stands where it is. -/
def State.stopRunning (s : State) (uid p : Nat) : State :=
  (s.updPly uid p fun y => { y with running := none }).freeIssue (s.cable uid).coreD uid p

/-- A ply stops: at a fault, or at a stop point (16 R367). -/
def State.stopHere (s : State) (uid p : Nat) : State :=
  (s.updPly uid p fun y => { y with stopped := true }).stopRunning uid p

/-! ### Live strands and members (05 R134) -/

def Cable.livePly (c : Cable) (p : Nat) : List Nat :=
  ((List.range 32).map (32 * p + ·)).filter fun j => (c.strand j).live
def Cable.memberPlies (c : Cable) (sc : Scope) (lay p : Nat) : List Nat :=
  match sc with
  | .strand | .ply => [p]
  | .lay => (List.range c.plyCount).filter fun q => c.inLay lay q
  | .cable => List.range c.plyCount
def Cable.membersOf (c : Cable) (sc : Scope) (lay p : Nat) : List Nat := (c.memberPlies sc lay p).flatMap c.livePly
def Cable.live (c : Cable) : List Nat := (List.range c.plyCount).flatMap c.livePly
/-- The strands of a group. -/
def Cable.groupStrands (c : Cable) (p : Nat) (g : Group) : List Nat :=
  ((laneSet g.lanes).map (32 * p + ·)).filter fun j => (c.strand j).live

/-! ### Taking a fault (16 R363, R364, R368, R377) -/

/-- A walker that breaks a rule ends at the instruction (14 R352). -/
def State.walkerFault (s : State) (e : Env) (cause pc : Nat) : State :=
  s.updWalker e.uid e.cmd e.w fun x => { x with state := .faulted cause pc }

/-- The record of a synchronous event of a ply. COUNT is the strands that meet the event: all of the group where it belongs to
no strand (log 31). -/
def State.plyRecord (s : State) (e : Env) (pc : Nat) (word : W64) (t : Trouble) (h : Nat) : FRec :=
  let c := s.cable e.uid
  let y := c.ply e.ply
  let lanes := match y.group? e.gid with | some g => c.groupStrands e.ply g | none => []
  { cause := t.cause, restart := causeRestarts t.cause false t.unpop, coal := t.cause == 7 || t.cause == 8
    write := t.write, fetch := t.fetch, super := c.priv != 0, halt := true, issuer := issuerOf 0 c.coreD
    seq := (y.seq + 1).toNat, count := max 1 (if t.strand.isNone then lanes.length else t.count), skid := if c.haltedPly e.ply then y.skid else 0
    part := c.part, strand := t.strand.getD (lanes.headD 0), ply := e.ply, cid := c.cid, pc := pc, addr := t.addr
    detail := t.detail, instr := word, handle := h }

/-- The plies that a record halts: all, or while it waits for room in its queue its own alone (R366). -/
def State.haltSpan (s : State) (ctx h ply : Nat) : List Nat := if s.recordWaiting ctx h then [ply] else []

/-- Takes a synchronous event of a group: the record is posted, then the cable halts; the group stops at the
instruction. While a save is in progress nothing is posted (R383); for a page whose record is unanswered the cable
joins it (R377). A `trap` that has not taken effect does not (04 R119). -/
def State.raisePly (s : State) (e : Env) (pc : Nat) (word : W64) (t : Trouble) : State :=
  let s := s.updCable e.uid fun c => { c with trapping := none }
  let c := s.cable e.uid
  let me := Stopped.group e.uid e.ply e.gid
  if c.saving.isSome then s.stopHere e.uid e.ply
  else match t.page.bind (s.pageHandle c.ctx) with
    | some h => ((s.joinHandle c.ctx h.h me t.pages).haltPlies e.uid h.h (s.haltSpan c.ctx h.h e.ply) [e.ply]).stopHere e.uid e.ply
    | none =>
      let h := s.nextHandle
      let s1 := { s with nextHandle := h + 1 }.postFor c (s.plyRecord e pc word t h)
      let s2 := s1.updPly e.uid e.ply fun y => { y with seq := y.seq + 1 }
      let s3 := s2.updCtx c.ctx fun x => { x with handles := x.handles ++
        [{ h := h, cause := t.cause, engine := false, atHeader := t.fetch || t.atHeader, detail := t.detail, page := t.page, pages := t.pages
           agents := [me], toFirmware := c.superLaunch }] }
      (s3.haltPlies e.uid h (s3.haltSpan c.ctx h e.ply) [e.ply]).stopHere e.uid e.ply

/-- Takes what an instruction raises. -/
def State.raise (s : State) (x : Issue) (t : Trouble) : State :=
  if x.e.walker then s.walkerFault x.e t.walk x.addr else s.raisePly x.e x.addr x.word t

/-! ### The end of a clause (05 R131, R140 to R144; 07 R189; 03 R64) -/

/-- Ends a group's clause: its writes are published, its strands divide by target, groups at one header merge, the
slots pass on. -/
def State.endGroup (s : State) (uid q gid : Nat) (goto : List (Nat × Nat)) : State :=
  let c := s.cable uid
  match (c.ply q).group? gid with
  | some g =>
    match g.clause with
    | none => s
    | some cl =>
      let nxt := cl.addr + 8 * (cl.words.length + 1)
      let lanes := (laneSet g.lanes).filter fun j => (c.strand (32 * q + j)).live
      let target (j : Nat) : Nat := ((goto.find? fun t => t.1 == 32 * q + j).map Prod.snd).getD nxt
      let open_ (l : List (Nat × Nat)) (j : Nat) := l.filter fun w => w.1 == 32 * q + j && c.pendingOp w.1 w.2
      let d := divide (lanes.map fun j => (j, target j)) (open_ cl.splits) (open_ cl.sleeps)
      let runs := (c.ply q).running = some gid
      let left := (g.ops ++ cl.ops.map Prod.fst).filter fun op => c.board.any fun b => b.2 == op
      let c1 := Cable.settleSpill <| ((c.publish s.cycle q cl.log).clauseEnded q cl).updPly q fun y =>
        let slot := g.place.slotOr
        let y1 := y.age.divideGroup gid slot d left
        let y2 := if c.trapActive then y1 else y1.mergeHeaders
        let y3 := if c.trapActive then y2.promote else y2.promote.rotate slot
        { y3 with
          running := if runs then none else y3.running
          nextSlot := 1 - slot
          demoted := y3.demoted || cl.hdr.yield
          stopped := y3.stopped || (runs && c.stopping q) }
      let s1 := s.updCable uid fun _ => c1
      (if runs then s1.freeIssue c.coreD uid q else s1).drainOld c.coreD
  | none => s

/-- A group has executed an instruction: it counts (16 R386), and the next one follows, or the clause ends. -/
def State.advance (s : State) (uid : Nat) (goto : List (Nat × Nat)) (qg : Nat × Nat) : State :=
  let halted := (s.cable uid).haltedPly qg.1
  let s1 := s.updPly uid qg.1 fun y =>
    { y.updGroup qg.2 fun g => { g with signed := false, clause := g.clause.map fun cl =>
        { cl with pos := cl.pos + 1, passed := [], skip := false, begun := false, pads := [], blocked := none, allocs := ([], []) } } with
      ic := y.ic + 1, skid := if halted then min 15 (y.skid + 1) else y.skid }
  match s1.group? uid qg.1 qg.2 with
  | some { clause := some cl, .. } => if cl.words.length ≤ cl.pos then s1.endGroup uid qg.1 qg.2 goto else s1
  | _ => s1

/-- Single-step (R386): a stepped ply halts after each instruction. -/
def State.stepped (s : State) (uid q gid : Nat) (held : Bool) : State :=
  let c := s.cable uid
  let y := c.ply q
  let dbg := match y.group? gid with | some { clause := some cl, .. } => (cl.groupCreg 0x109).lo | _ => c.dbg
  if dbg.getLsbD 0 && (dbg.extractLsb' 1 5).toNat == q then
    match (match y.group? gid with | some g => some g | none => y.groups.head?) with
    | none => s
    | some g => s.raisePly { uid := uid, ply := q, gid := g.gid } g.next ((g.clause.map Clause.word).getD 0)
        { cause := 25, detail := if held then 2 else 0, atHeader := g.clause.isNone }
  else s

/-! ### Traps and their return (04 R117 to R121) -/

/-- The group of a lane is divided so that the lane stands alone; its new group takes the other path slot where that is
free. -/
def Ply.isolate (y : Ply) (lane : Nat) : Ply :=
  match y.laneGroup? lane with
  | none => y
  | some g =>
    let own : W32 := 1 <<< lane
    if g.lanes = own then y
    else
      let place := match g.place with
        | .out n => .out n
        | p => if y.slotFree (1 - p.slotOr) then Place.slot (1 - p.slotOr) else .parked y.nextRank
      let y1 := y.updGroup g.gid fun h => { h with lanes := h.lanes &&& ~~~own }
      { y1 with groups := y1.groups ++ [{ g with gid := y.nextGid, lanes := own, place := place }] }

/-- A trap of one strand of a group (R118): the strand goes to the vector at supervisor level, in a group of its own. Other
strands whose predicate is true stay at the `trap` in the group's path slot: they have not executed it (R119). Those whose
predicate is false stand at the next header. The other plies stand; nothing else of the cable runs until the return (R120). -/
def State.takeTrap (s : State) (x : Issue) (strand code : Nat) (vec : W64) : State :=
  let uid := x.e.uid
  let q := x.e.ply
  let stay := lanesOf ((x.contrib.filter fun j => j != strand).map (· % 32))
  let s1 := s.updCable uid fun c =>
    { c with
      trapPc := cregFix 0x103 (BitVec.ofNat 64 (x.addr + 8))
      trapInfo := 0x80000000 ||| BitVec.ofNat 32 (strand % 1024 * 65536) ||| BitVec.ofNat 32 (code % 65536)
      trapping := none
      priv := 1 }
  let s2 := if stay = 0 then s1 else s1.updPly uid q fun y =>
    match y.group? x.e.gid with
    | none => y
    | some g =>
      let place := if y.slotFree (1 - g.place.slotOr) then Place.slot (1 - g.place.slotOr) else .parked y.nextRank
      let rest : Group := { g with gid := y.nextGid, lanes := stay }
      let y1 := y.updGroup x.e.gid fun g => { g with lanes := g.lanes &&& ~~~stay, place := place }
      { y1 with groups := y1.groups ++ [rest] }
  (s2.advance uid [(strand, vec.toNat)] (q, x.e.gid)).updPly uid q fun y => y.isolate (strand % 32)

/-- The return of the trapping strand (R121): user level, ACTIVE clear; halted strands go on. The strand's own
transfer to `CBL_TRAP_PC` is its control transfer. -/
def State.returnTrap (s : State) (uid : Nat) : State :=
  s.updCable uid fun c => { c with priv := 0, trapInfo := c.trapInfo &&& 0x7FFFFFFF }.resumePlies

/-- A ply whose strand is at a `trap` tells the other plies to stop (R118): those in a clause run on to its end, the others
stop where they stand. -/
def State.beginTrap (s : State) (uid p strand : Nat) : State :=
  s.updCable uid fun c =>
    { c with trapping := match c.trapping with | some (j, t) => if j = strand then some (j, t) else some (strand, s.cycle)
                                               | none => some (strand, s.cycle)
             plies := c.plies.map fun (q, y) => if q = p then (q, y) else (q, { y with stopped := y.stopped || y.running.isNone }) }
/-- A strand at a `trap` stops before it: it no longer stops the others (R118, R119). -/
def State.dropTrap (s : State) (uid p : Nat) : State :=
  s.updCable uid fun c => match c.trapping with
    | some (j, _) => if j / 32 = p then { c with trapping := none }.resumePlies else c
    | none => c

/-! ### Rendezvous mismatch (05 R138) -/

/-- The scope instance a held group signed: its scope and, at lay scope, its lay; at ply scope, its ply. -/
def heldInstance (p : Nat) (cl : Clause) : Scope × Nat :=
  let c := Common.ofWord cl.word
  (c.scope, match c.scope with | .ply => p | .lay => c.lay.toNat | _ => 0)

/-- A held group with its ply. -/
def Cable.heldGroups (c : Cable) : List (Nat × Group) :=
  c.plies.flatMap fun e => (e.2.groups.filter fun g => match g.hold with
    | .rendezvous => true | .join _ => true | .joinFull _ => true | .ring _ => true | _ => false).map fun g => (e.1, g)

/-- Every one of the strands lies in one of the groups. -/
def Cable.allIn (c : Cable) (l : List Nat) (gs : List (Nat × Group)) : Bool :=
  l.all fun j => gs.any fun e => (c.groupStrands e.1 e.2).contains j

/-- A mismatch of a cable: the held groups concerned, the plies it suspends (none: all), the scope and the number of its
instance (4 for the whole cable); not one that `known` says has a record already, nor one of the cable whose held groups all
belong to instances that have one. -/
def Cable.mismatch (c : Cable) (known : Nat → Nat → Bool) : Option (List (Nat × Group) × List Nat × Nat × Nat) :=
  let held := c.heldGroups
  let signed := held.filter fun e => e.2.hold == .rendezvous
  let instances := signed.filterMap fun e => e.2.clause.map fun cl => (e.1, heldInstance e.1 cl)
  let of (i : Scope × Nat) : List (Nat × Group) := signed.filter fun e => match e.2.clause with
    | some cl => heldInstance e.1 cl == i | none => false
  match instances.find? fun i => !known i.2.1.code.toNat i.2.2 &&
      c.allIn (c.membersOf i.2.1 i.2.2 i.1) (of i.2) && decide (1 < (distinct ((of i.2).map fun e => e.2.next)).length) with
  | some i => some (of i.2, if i.2.1 = .lay then c.memberPlies .lay i.2.2 0 else [], i.2.1.code.toNat, i.2.2)
  | none =>
    let told (e : Nat × Group) : Bool := e.2.hold == .rendezvous && (match e.2.clause with
      | some cl => known (heldInstance e.1 cl).1.code.toNat (heldInstance e.1 cl).2 | none => false)
    if !known 4 0 && !c.live.isEmpty && c.allIn c.live held && !held.all told then some (held, [], 4, 0) else none

/-- A mismatch record of an instance is unanswered; while one suspends the whole cable, none is raised for the cable. -/
def State.mismatchKnown (s : State) (c : Cable) (scope index : Nat) : Bool :=
  (s.ctx c.ctx).handles.any fun h => h.cause == 11 && h.agents.any fun a => match a with
    | .held u plies sc i => u == c.uid && (if scope = 4 then plies.isEmpty else sc == scope && i == index)
    | _ => false

/-- Takes one mismatch of a cable: one record, one handle (R138). The plies it suspends stop; while the record waits for room
in its queue, those of the held groups alone (16 R366). -/
def State.takeMismatch (s : State) (uid : Nat) (m : List (Nat × Group) × List Nat × Nat × Nat) : State :=
  let c := s.cable uid
  match m with
  | (gs, plies, scope, index) =>
    let low := gs.foldl (fun (r : Option (Nat × Nat × Group)) e =>
      match c.groupStrands e.1 e.2, r with
      | [], _ => r
      | j :: _, none => some (j, e.1, e.2)
      | j :: _, some (i, q, g) => if j < i then some (j, e.1, e.2) else some (i, q, g)) none
    match low with
    | none => s
    | some (j, q, g) =>
      let h := s.nextHandle
      let t : Trouble := { cause := 11, strand := some j, count := (gs.flatMap fun e => c.groupStrands e.1 e.2).length
                           detail := (distinct (gs.map fun e => e.2.next)).length }
      let word := match g.clause with | some cl => cl.word | none => 0
      let rec_ := s.plyRecord { uid := uid, ply := q, gid := g.gid } g.next word t h
      let s1 := ({ s with nextHandle := h + 1 }).postFor c rec_
      let s2 := s1.updPly uid q fun y => { y with seq := y.seq + 1 }
      let s3 := s2.updCtx c.ctx fun x => { x with handles := x.handles ++
        [{ h := h, cause := 11, engine := false, atHeader := false, agents := [.held uid plies scope index]
           toFirmware := c.superLaunch }] }
      s3.haltPlies uid h (if plies.isEmpty && s3.recordWaiting c.ctx h then distinct (gs.map Prod.fst) else plies) []

/-- Tests the holds of a cable and takes its mismatches, instance by instance, `n` of them at most. -/
def State.takeMismatches (s : State) (uid : Nat) : Nat → State
  | 0 => s
  | n + 1 =>
    match (s.cable uid).mismatch (s.mismatchKnown (s.cable uid)) with
    | none => s
    | some m => (s.takeMismatch uid m).takeMismatches uid n

/-- Tests the holds of a cable (R138): every instance whose mismatch has no record gets one, and then the cable. -/
def State.checkMismatch (s : State) (uid : Nat) : State :=
  if (s.cable uid).saving.isSome then s else s.takeMismatches uid ((s.cable uid).heldGroups.length + 1)

/-! ### What a row asks of its issue -/

/-- A register source of a row: the field code of 16 R371, the operand, its type, its marks and modifiers; whether a
wider scope reads it from every member (03 R72), and whether its poison is carried and not consumed. -/
structure Use where
  code : Nat
  op : Operand
  ty : OTy
  mark : Bool := false
  neg : Bool := false
  abs : Bool := false
  perStrand : Bool := false
  carry : Bool := false
  only : Operand → Bool := fun _ => true
  /-- kinds that a command demands when it checks its operands, after their poison (13 R314, 14 R344) -/
  late : Operand → Bool := fun _ => true
  /-- registers read from the operand on, beyond the value itself (wide groups, `atom.cas`) -/
  span : Nat := 0

/-- The destination of a row. -/
structure Dest where
  op : Operand
  ty : OTy
  perStrand : Bool := false
  only : Operand → Bool := fun _ => true

/-- What the latch holds after a row (01 R26). -/
inductive LatchRule where
  /-- the row has no destination -/
  | clear
  /-- the destination's value -/
  | value
  /-- the row's effect sets it for every member -/
  | own
deriving DecidableEq, Repr

/-- What a row asks of its issue, and its effect. -/
structure Row where
  srcs : List Use := []
  dst : Option Dest := none
  latch : LatchRule := .value
  /-- rank 5: a control transfer (03 R82) -/
  transfer : Bool := false
  /-- rank 6 -/
  priv : State → Env → Bool := fun _ _ => true
  /-- rank 7, beyond the operands themselves; the lanes of the group are given -/
  legal : State → Env → List Nat → Bool := fun _ _ _ => true
  /-- the effect takes place without a contributor too -/
  always : Bool := false
  /-- registers of a strand that it waits for beside its operands: tokens, flags -/
  extra : Nat → List RegKey := fun _ => []
  /-- operands that its effect reads or writes apart from `srcs` and `dst` -/
  more : List Operand := []
  act : State → Issue → Attempt

def Operand.isY : Operand → Bool | .y _ => true | _ => false
def Row.hasY (r : Row) : Bool :=
  (r.srcs.any fun u => u.op.isY) || (match r.dst with | some d => d.op.isY | none => false) || r.more.any Operand.isY

/-! ### Decoding faults that depend on the cable (03 Table 3.19, ranks 4 to 7) -/

/-- R126: whether a role permits a row. -/
def roleAllows (role : Nat) (row : Option (Cls × Nat)) : Bool :=
  match row with
  | none => true
  | some (cls, op) =>
    role == 0 ||
    match cls with
    | .mem | .sync | .sys => true
    | .alu => op < 0x100 || role == 3
    | .copy => role == 1
    | .la => role == 2
    | .srch | .fab => false

/-- Rows that execute in walker code only (R80). -/
def isWalkerRow (row : Option (Cls × Nat)) : Bool :=
  match row with | some (.srch, op) => 0x100 ≤ op | _ => false

/-- The rows of 14 Table 14.8. -/
def walkerOp (row : Option (Cls × Nat)) : Bool :=
  match row with
  | some (.alu, op) =>
    op < 0x030 || (0x040 ≤ op && op < 0x059) || (0x060 ≤ op && op < 0x066) || op == 0x070 || op == 0x071 ||
    (0x080 ≤ op && op < 0x0C0) || (0x100 ≤ op && op < 0x280) || (0x300 ≤ op && op < 0x380)
  | some (.mem, op) => op < 6
  | some (.srch, op) => 0x100 ≤ op
  | _ => false
def walkerProfile (row : Option (Cls × Nat)) (i : Instr) : Bool :=
  walkerOp row && (match i with | .cvt _ rm _ => rm != 4 | _ => true)

def illegal (walk : Nat) : Option Trouble := some { cause := 1, walk := walk }

/-- The walker-fault cause of a word that is no instruction, of a class and opcode: 1 outside Table 14.8 (14 Table 14.9). -/
def rejectWalk (row : Option (Cls × Nat)) : Reject → Nat
  | .notAnInstruction | .unassignedOp | .rounding | .cvtTypes => 1
  | _ => if walkerOp row then 2 else 1

/-- Whether every operand of a row is legal for a group's lanes (rank 7). -/
def State.rowLegal (s : State) (e : Env) (sc : Scope) (lay : Nat) (lanes : List Nat) (r : Row) : Bool :=
  (r.srcs.all fun u =>
    s.operandOk e sc lay lanes { ty := u.ty, perStrand := u.perStrand, only := u.only } u.op
      && markOk u.mark u.op && modOk u.neg u.abs u.ty) &&
  (match r.dst with
   | none => true
   | some d => s.operandOk e sc lay lanes { ty := d.ty, dest := true, perStrand := d.perStrand, only := d.only } d.op) &&
  r.legal s e lanes

/-- The first decoding fault of an instruction at a group or walker, in the order of Table 3.19. The table does not rank
the illegal instructions of R120 (a wider scope in a trap handler) and of R134 (a lay that does not contain the ply); the
model takes both with rank 4, before ranks 5 to 7 (DESIGN CHOICE, log 108). -/
def State.decodeTrouble (s : State) (e : Env) (i : Instr) (c : Common) (lanes : List Nat) (last : Bool) (r : Row) :
    Option Trouble :=
  let cab := s.cable e.uid
  let lay := c.lay.toNat
  if e.walker then
    if !walkerProfile i.row i then illegal 1
    else match i.reject with
      | some why => illegal (rejectWalk i.row why)
      | none =>
        if c.scope != .strand || c.lay != 0 then illegal 2
        else if r.transfer && !last then illegal 4
        else if !s.rowLegal e c.scope lay [] r then some { cause := 2, walk := 2 }
        else none
  else if i.reject.isSome then illegal 2
  else if (c.scope == .lay || r.hasY) && !cab.layDeclared lay then illegal 2
  else if !roleAllows (cab.role e.ply) i.row then illegal 2
  else if c.scope == .lay && !cab.inLay lay e.ply then illegal 2
  else if isWalkerRow i.row then illegal 1
  else if cab.trapActive && c.scope != .strand && lanes.contains (cab.trapStrand % 32) && cab.trapStrand / 32 == e.ply then
    illegal 2
  else if r.transfer && !last then illegal 4
  else if !r.priv s e then some { cause := 4 }
  else if !s.rowLegal e c.scope lay lanes r then some { cause := 2 }
  else none

/-! ### Registers an issue waits for (01 R20, R26) -/

/-- The scoreboard keys of a strand that a row reads or writes. -/
def Row.keys (r : Row) (strand lay : Nat) : List RegKey :=
  (r.srcs.flatMap fun u => u.op.keys strand lay (max u.span (if u.ty.wide then 2 else 1))) ++
  (match r.dst with
   | some d => (match d.op with | .lat => [] | op => op.keys strand lay (if d.ty.wide then 2 else 1))
   | none => []) ++ r.extra strand

/-- Transactions of KIND 0 in Table 16.16. -/
def Txn.logged (t : Txn) : Bool :=
  t.sync.ord != 0 ||
  match t.kind with
  | .load _ _ _ _ ldk _ _ _ => ldk
  | .atom .. => true
  | .nred .. => true
  | .wtq .. => true
  | .wake .. => true
  | _ => false

/-- An event of the ply waits at its slice for room in the replay log's ring, and holds the ply's issue slot (16 R387). -/
def State.logHolds (s : State) (uid p : Nat) : Bool :=
  let x := s.ctx (s.cable uid).ctx
  x.rlogMode == 1 && (x.rlogTail - x.rlogHead).toNat == 2 ^ x.rlogLog &&
  s.txns.vals.any fun t => t.uid == uid && t.ply == p && t.state.isAsked && t.logged

/-- An operation that brings a shared register is one of a strand's own group, of its clause or of one that its strands have
ended: the scoreboard of a path slot is that of its group (05 R141). -/
def State.ownOp (s : State) (uid strand op : Nat) : Bool :=
  match ((s.cable uid).ply (strand / 32)).laneGroup? (strand % 32) with
  | some g => g.ops.contains op || (match g.clause with | some cl => cl.ops.any fun o => o.1 == op | none => false)
  | none => false

/-- What brings the registers that a row reads or writes and that have not arrived for one of the strands. -/
def State.missing (s : State) (uid lay : Nat) (strands : List Nat) (r : Row) : List Nat :=
  let c := s.cable uid
  if c.board.isEmpty then [] else strands.flatMap fun j => (r.keys j lay).flatMap fun k =>
    (c.board.filter fun b => b.1 == k && (k.owner.isSome || s.ownOp uid j b.2)).map Prod.snd

/-- An event of the ply holds its slot, or a register that the row reads or writes has not arrived for one of the strands. -/
def State.waiting (s : State) (e : Env) (lay : Nat) (strands : List Nat) (r : Row) : Bool :=
  s.logHolds e.uid e.ply || !(s.missing e.uid lay strands r).isEmpty

/-- An operation is a `wtq` whose status has not been written. -/
def State.isSleep (s : State) (op : Nat) : Bool :=
  (s.waiters.any fun w => w.id == op) ||
  (match s.txns.find? op with | some t => (match t.kind with | .wtq .. => true | _ => false) | none => false)
/-- What the row waits for is such a status: a stop point (16 R367). -/
def State.awaitsStatus (s : State) (e : Env) (lay : Nat) (strands : List Nat) (r : Row) : Bool :=
  (s.missing e.uid lay strands r).any s.isSleep

/-! ### Predicates and contributors (03 R61, 06 R163) -/

/-- Whether a strand's predicate holds; an instruction skipped by its handler counts as false (16 R370). -/
def State.predicate (s : State) (e : Env) (c : Common) (strand : Nat) : Bool :=
  (e.walker || !(s.clauseOf e.uid strand).skip) &&
  (c.pmask == 0 || ((s.readMask e strand c.pmask.toNat).getLsbD (strand % 32) != c.pinv))

/-! ### The physical pool (01 R32, R33) -/

/-- Physical registers of a cable's own: reserved ones, and those beyond the reservation. -/
def Cable.poolUse (c : Cable) : Nat :=
  let r := 8 * c.regres
  32 * c.plyCount * r + c.strands.foldl (fun n e => n + (e.2.v.length - r)) 0
def State.poolUse (s : State) (core : Nat) : Nat :=
  s.cables.foldl (fun n e => if e.2.core? = some core then n + e.2.poolUse else n) 0

/-- The `v` names that a row reads, and those it writes. -/
def Row.reads (r : Row) : List Nat := distinct (r.srcs.flatMap fun u => match u.op with
  | .v n => (List.range (max u.span (if u.ty.wide then 2 else 1))).map (n + ·) | _ => [])
def Row.writes (r : Row) : List Nat := match r.dst with
  | some ⟨.v n, ty, _, _⟩ => if ty.wide then [n, n + 1] else [n]
  | _ => []

/-- The spilled names of a strand that an instruction brings back: those it reads; for a strand whose predicate is false
the destination, whose value goes to the latch (R26, R33). -/
def Row.back (r : Row) (x : Issue) (j : Nat) (t : Strand) : List Nat :=
  if x.contrib.contains j then r.reads.filter fun n => t.spilled.contains n
  else if r.latch == .value then r.writes.filter fun n => t.spilled.contains n
  else []
/-- The names that it gives a physical register in a strand. -/
def Row.newNames (r : Row) (x : Issue) (j : Nat) (t : Strand) : List Nat :=
  distinct (r.back x j t ++ if x.contrib.contains j then r.writes.filter fun n => (t.v.find? n).isNone else [])
/-- Registers that it takes from the pool for a strand, beyond those reserved. -/
def Cable.regNeed (c : Cable) (x : Issue) (r : Row) (j : Nat) : Nat :=
  let t := c.strand j
  let res := 8 * c.regres
  (t.v.length + (r.newNames x j t).length - res) - (t.v.length - res)

/-- The pool has room for what an instruction allocates. -/
def State.poolRoom (s : State) (x : Issue) (r : Row) : Bool :=
  let c := s.cable x.e.uid
  let need := x.members.foldl (fun n j => n + c.regNeed x r j) 0
  need == 0 || s.poolUse c.coreD + need ≤ Config.physRegs

/-- `CBL_SPILL_BASE` and `CBL_SPILL_SIZE` for the next spill: as the last `cwr` left them, its clause ended or not
(04 R114). -/
def Cable.spillBaseNow (c : Cable) : Nat := (c.spillNext.1.getD c.spillBase).toNat
def Cable.spillSizeNow (c : Cable) : Nat := (c.spillNext.2.getD c.spillSize).toNat
/-- The slot of a spilled name (R34). -/
def Cable.spillSlot (c : Cable) (strand n : Nat) : Nat := c.spillBaseNow + (strand * 256 + n) * 8

/-- A slot's translation for its core, at supervisor level (DESIGN CHOICE, log 109). -/
def State.slotAt (s : State) (uid slot : Nat) (kind : Access) : State × Option Phys :=
  let c := s.cable uid
  if slot / 2 ^ 56 % 16 = 15 then (s, none)
  else match s.translate c.coreD c.ctx slot kind false with
    | (s1, .ok p) => (s1, some p)
    | (s1, .error _) => (s1, none)

/-- A watchpoint matches an access (16 R385). -/
def watching (wps : List W64) (ea n : Nat) (read write : Bool) : Bool :=
  wps.any fun w =>
    let size := 2 ^ ((w.extractLsb' 0 4).toNat + 4)
    let base := (w.extractLsb' 4 56).toNat * 16 / size * size
    let kind := (w.extractLsb' 61 2).toNat
    w.getLsbD 63 && ea < base + size && base < ea + n && ((kind != 1 && write) || (kind != 0 && read))
/-- A watchpoint as a clause's strand reads it matches an access, and no handler has let the instruction pass (16 R370). -/
def Clause.watches (cl : Clause) (strand ea n : Nat) (read write : Bool) : Bool :=
  !cl.passed.contains 24 && watching ([0x10C, 0x10D, 0x10E, 0x10F].map (cl.readCreg strand)) ea n read write

/-- Brings back a spilled name by a load of its slot (R33, 08 R211), which the watchpoints see as the instruction's strand `lead`
reads them (16 R385). The spec names no fault for a slot that cannot be
read; the model raises the spill-area fault, as for one that cannot be written (DESIGN CHOICE, log 109). -/
def State.unspillOne (s : State) (uid lead : Nat) (e : Nat × Nat) : Except Attempt State :=
  let c := s.cable uid
  if s.acquiring uid [e.1] then .error (.stall s)
  else match s.slotAt uid (c.spillSlot e.1 e.2) .read with
    | (_, none) => .error (.fault { cause := 10, strand := some e.1, addr := c.spillSlot e.1 e.2, pages := [c.spillSlot e.1 e.2 / 4096] })
    | (s1, some p) =>
      if (s.clauseOf uid lead).watches lead (c.spillSlot e.1 e.2) 8 true false then
        .error (.fault { cause := 24, strand := some e.1, addr := c.spillSlot e.1 e.2 })
      else if s1.orderHolds c.coreD uid (e.1 / 32) (p.pa / 128) then .error (.stall s)
      else match s1.loadNow c.coreD uid (e.1 / 32) p.pa 8 (s1.leaseOf c.ctx p) with
      | none => .error (.park s)
      | some (s2, bs) =>
        let w := leNat (bs.map Prod.fst)
        .ok (s2.updCable uid fun c => c.putReg (.v e.1 e.2) ⟨BitVec.ofNat 32 w, w.testBit 32 || bs.any Prod.snd⟩)

/-- Brings back names, each given with its strand. -/
def State.unspill (s : State) (uid lead : Nat) (l : List (Nat × Nat)) : Except Attempt State :=
  l.foldlM (fun s e => s.unspillOne uid lead e) s

/-! ### Poison (04 R93, 06 R165, 16 R371) -/

/-- The strands at which a source is read. -/
def Issue.readers (x : Issue) (u : Use) : List Nat :=
  if x.scope == .strand || u.perStrand then x.contrib else x.contrib.take 1

/-- The first consumed poisoned source: that of the lowest strand, with the count of the strands that consume one. -/
def State.poisoned (s : State) (x : Issue) (r : Row) : Option Trouble :=
  let bad (j : Nat) : Option Use := r.srcs.find? fun u =>
    !u.carry && (x.readers u).contains j && ((s.readOp x.e j x.lay u.op u.ty).2 ||
      (List.range u.span).any fun i => (s.readOne x.e j x.lay u.op i).psn)
  match x.contrib.findSome? fun j => (bad j).map fun u => (j, u) with
  | none => none
  | some (j, u) => some { cause := 9, walk := 6, strand := some j, detail := u.code
                          count := (x.contrib.filter fun i => (bad i).isSome).length }

/-- R133: a write to a `k` register that the writer ply does not make. -/
def Cable.uniformOk (c : Cable) (sc : Scope) (lay p : Nat) (op : Operand) : Bool :=
  match op with
  | .k _ => (match sc with | .cable => true | .lay => c.inLay lay c.writer | _ => p == c.writer)
  | _ => true

/-! ### After the effect -/

/-- Releases the marked names of every member (01 R32, 06 R166); a name that the instruction wrote keeps what was
written. -/
def State.releaseMarks (s : State) (x : Issue) (r : Row) : State :=
  let written (j n : Nat) : Bool := x.contrib.contains j && (match r.dst with
    | some ⟨.v d, ty, _, _⟩ => n == d || (ty.wide && n == d + 1) | _ => false)
  r.srcs.foldl (fun s u =>
    match u.mark, u.op with
    | true, .v n => x.members.foldl (fun s j =>
        (List.range (max u.span (if u.ty.wide then 2 else 1))).foldl (fun s i =>
          if written j (n + i) then s else s.releaseName x.e.uid j (.v (n + i)) false) s) s
    | _, _ => s) s

/-- Drops the latches of strands from the scoreboard: a later result does not reach a latch written since. A walker's latch is
its own (14 R350). -/
def State.ownLatch (s : State) (e : Env) (strands : List Nat) : State :=
  if e.walker || (s.cable e.uid).board.isEmpty then s else
  s.updCable e.uid fun c => { c with board := c.board.filter fun b => match b.1 with | .lat j => !strands.contains j | _ => true }

/-- The latches of the members that did not contribute (R26): the destination's value after the instruction, so that a shared
destination that other strands have written gives the value written, and one whose result comes late the value before
(DESIGN CHOICE, log 110). -/
def State.latchRest (s : State) (x : Issue) (r : Row) : State :=
  match r.latch with
  | .own => s
  | .clear => x.members.foldl (fun s j => s.setLatch x.e j none) (s.ownLatch x.e x.members)
  | .value =>
    let rest := x.members.filter fun j => !x.contrib.contains j
    let s1 := s.ownLatch x.e rest
    match r.dst with
    | none => rest.foldl (fun s j => s.setLatch x.e j none) s1
    | some d => rest.foldl (fun s j => s.setLatch x.e j (some (s1.currentDst x.e j x.lay d.op d.ty.wide))) s1

/-! ### The walker's turn (14 R350) -/

/-- The walker has executed an instruction: its next one follows, or its clause ends. -/
def State.walkerNext (s : State) (e : Env) (goto : Option Nat) : State :=
  s.updWalker e.uid e.cmd e.w fun x =>
    match x.clause with
    | none => x
    | some cl =>
      if cl.words.length ≤ cl.pos + 1 then { x with clause := none, pc := goto.getD (cl.addr + 8 * (cl.words.length + 1)) }
      else { x with clause := some { cl with pos := cl.pos + 1 } }

/-- LIMIT of a walk: instructions per walker, 0 meaning 2³² (14 Table 14.4). -/
def Cmd.walkLimit (m : Cmd) : Nat :=
  let l := (m.b.getD 7 {}).val.toNat
  if l = 0 then 2 ^ 32 else l

/-! ### Issue -/

/-- The instruction could not execute at this turn; where it waits for physical registers, for those of some of its strands,
`reads` being the `v` names that it reads (01 R33). -/
def State.block (s : State) (e : Env) (allocs : List Nat × List Nat := ([], [])) : State :=
  s.updClause e.uid e.ply e.gid fun cl => { cl with blocked := some s.stepCount, allocs := allocs }
def State.awaitRegs (s : State) (e : Env) (strands reads : List Nat) : State := s.block e (strands, reads)
/-- The physical registers that it has been found at this turn to wait for. -/
def State.awaited (s : State) (e : Env) : List Nat × List Nat :=
  let cl := s.envClause e
  if cl.blocked = some s.stepCount then cl.allocs else ([], [])

/-- R133: the row's destination is no `k` register that another ply writes. -/
def State.mayWrite (s : State) (x : Issue) (r : Row) : Bool :=
  match r.dst with
  | some d => x.contrib.isEmpty || x.e.walker || (s.cable x.e.uid).uniformOk x.scope x.lay x.e.ply d.op
  | none => true

/-- The spilled names that it needs brought back (R26, R33). -/
def State.sourcesBack (s : State) (x : Issue) (r : Row) : Except Attempt State :=
  if x.e.walker then .ok s
  else s.unspill x.e.uid x.lead (x.members.flatMap fun j => (r.back x j ((s.cable x.e.uid).strand j)).map fun n => (j, n))

/-- A scratchpad instruction that full banks have kept from entering whole goes on (07 R184): its operands have been read. -/
def State.goesOn (s : State) (e : Env) : Bool := !e.walker && !(s.envClause e).pads.isEmpty

/-- Carries out an instruction for the members that issue it; nothing has taken place when it does not complete. -/
def State.attempt (s : State) (x : Issue) (r : Row) : Attempt :=
  if s.goesOn x.e then
    match r.act s x with
    | .done s2 goto => .done ((s2.latchRest x r).releaseMarks x r) goto
    | a => a
  else if !s.mayWrite x r then .fault { cause := 12 }
  else if !x.e.walker && !s.poolRoom x r then 
    .stall (s.awaitRegs x.e (x.members.filter fun j => (s.cable x.e.uid).regNeed x r j != 0) r.reads)
  else match s.sourcesBack x r with
    | .error a => a
    | .ok s1 =>
      match s1.poisoned x r with
      | some t => .fault t
      | none =>
        if !x.contrib.isEmpty && r.srcs.any fun u => !u.late u.op then .fault { cause := 2 }
        else match (if x.contrib.isEmpty && !r.always && r.latch != .own then Attempt.done s1 [] else r.act s1 x) with
        | .done s2 goto => .done ((s2.latchRest x r).releaseMarks x r) goto
        | a => a

/-- The groups that have signed the instruction at an address, beside the issuing one. -/
def Cable.signers (c : Cable) (plies : List Nat) (addr p gid : Nat) : List (Nat × Group) :=
  plies.flatMap fun q => ((c.ply q).groups.filter fun g =>
    g.hold == .rendezvous && g.next == addr && !(q == p && g.gid == gid)).map fun g => (q, g)

/-- The group of each ply that goes on, with those that merge into it (R136): the last to sign. -/
def mergePlan (e : Env) (signed : List (Nat × Group)) : List (Nat × Nat × List Nat) :=
  (distinct (e.ply :: signed.map Prod.fst)).map fun q =>
    let gs := (signed.filter fun g => g.1 == q).map Prod.snd
    if q = e.ply then (q, e.gid, gs.map Group.gid)
    else
      let lastOne := gs.foldl (fun (r : Option Group) g => match r with
        | some h => if h.since < g.since then some g else some h | none => some g) none
      match lastOne with
      | some g => (q, g.gid, (gs.filter fun h => h.gid != g.gid).map Group.gid)
      | none => (q, 0, [])

/-- The held groups merge ply by ply and stand ready at the instruction. -/
def State.mergeSigned (s : State) (e : Env) (plan : List (Nat × Nat × List Nat)) : State :=
  plan.foldl (fun s t => s.updPly e.uid t.1 fun y =>
    let y1 := y.mergeGroups t.2.1 t.2.2
    if t.1 = e.ply then y1 else y1.releaseGroup t.2.1) s

/-- What the issue of an instruction comes to for the state. `s` is the state before it. -/
def State.conclude (s : State) (x : Issue) (a : Attempt) : State :=
  let uid := x.e.uid
  match a with
  | .fault t => s.raise x t
  | .stall s' => s'
  | .park s' => if (s'.cable uid).stopping x.e.ply then s'.stopHere uid x.e.ply else s'
  | .over s' => s'
  | .hold s' h =>
    let s1 := x.groups.foldl (fun s g =>
      let s1 := s.updPly uid g.1 fun y => y.holdGroup g.2 h s.stepCount
      if g.1 = x.e.ply then s1.freeIssue (s.cable uid).coreD uid g.1 else s1) s'
    let s2 := (distinct x.plies).foldl (fun s q =>
      if (s.cable uid).stopping q && ((s.cable uid).ply q).running.isNone then s.stopHere uid q else s) s1
    (s2.stepped uid x.e.ply x.e.gid true).checkMismatch uid
  | .done s' goto =>
    if x.e.walker then s'.walkerNext x.e (goto.head?.map Prod.snd)
    else x.groups.foldl (fun s g => (s.advance uid goto g).stepped uid g.1 g.2 false) s'

/-- Retires a skipped instruction that its decoding makes defective: no effect, no value for the latch (16 R370). -/
def State.skipDefect (s : State) (x : Issue) : State :=
  let s1 := x.members.foldl (fun s j => s.setLatch x.e j none) (s.ownLatch x.e x.members)
  s1.conclude x (.done s1 [])

/-- The stop count of a ply that is to execute an instruction of a clause, `before` others coming first in the same cycle
(R386). -/
def Cable.stopTrouble (c : Cable) (p : Nat) (cl : Clause) (before : Nat := 0) : Option Trouble :=
  let stop := cl.groupCreg 0x10A
  if !cl.skip && !cl.passed.contains 25 && stop.getLsbD 63 && (stop.extractLsb' 58 5).toNat == p
      && (stop.extractLsb' 0 58).toNat == ((c.ply p).ic.toNat + before + 1) % 2 ^ 58 then some { cause := 25, detail := 1 }
  else none

/-- The debug checks at an instruction: a breakpoint (R384), the stop count (R386). -/
def Cable.debugTrouble (c : Cable) (p : Nat) (cl : Clause) : Option Trouble :=
  if cl.skip then none
  else if cl.hdr.bpmask.getLsbD cl.pos && !cl.passed.contains 23 then some { cause := 23 }
  else c.stopTrouble p cl

/-- While the last signer waits, the groups that signed stay held: their plies' groups are those of `c`. What the wait
has set going stays. -/
def State.restoreGroups (s : State) (uid : Nat) (c : Cable) (plies : List Nat) : State :=
  plies.foldl (fun s q => s.updPly uid q fun y => { y with groups := (c.ply q).groups, running := (c.ply q).running }) s

/-- An instruction at the turn of a group, before the groups that have signed it are counted. -/
def State.ownIssue (s : State) (e : Env) (g : Group) (cl : Clause) (cm : Common) : Issue :=
  { e := e, c := cm, addr := g.next, hdr := cl.addr, word := cl.word, members := (s.cable e.uid).groupStrands e.ply g
    contrib := [], groups := [(e.ply, e.gid)] }

/-- The other groups that have signed it, at a scope wider than the strand. -/
def State.signed (s : State) (e : Env) (g : Group) (cm : Common) : List (Nat × Group) :=
  let c := s.cable e.uid
  if cm.scope = .strand then [] else c.signers (c.memberPlies cm.scope cm.lay.toNat e.ply) g.next e.ply e.gid

/-- The stop count of another ply that would execute the instruction with its last signer: that ply, its held group, and
what it raises (R386). -/
def State.signerStop (s : State) (e : Env) (g : Group) (cm : Common) : Option (Nat × Group × Trouble) :=
  (s.signed e g cm).findSome? fun k => match k.2.clause with
    | some cl => if k.1 = e.ply then none else ((s.cable e.uid).stopTrouble k.1 cl).map fun t => (k.1, k.2, t)
    | none => none
/-- That ply raises its event once, and the instruction does not issue: its last signer waits at it. -/
def State.stopSigner (s : State) (x : Issue) (k : Nat × Group × Trouble) : State :=
  let s1 := if ((s.cable x.e.uid).ply k.1).stopped then s
    else s.raisePly { uid := x.e.uid, ply := k.1, gid := k.2.1.gid } k.2.1.next ((k.2.1.clause.map Clause.word).getD 0) k.2.2
  s1.conclude x (.park s1)

/-- Its members: the group's live strands, or those of its scope (05 R134). -/
def State.issueMembers (s : State) (e : Env) (g : Group) (cm : Common) : List Nat :=
  let c := s.cable e.uid
  if cm.scope = .strand then c.groupStrands e.ply g else c.membersOf cm.scope cm.lay.toNat e.ply

/-- The instruction as all its members issue it. -/
def State.fullIssue (s : State) (e : Env) (g : Group) (cl : Clause) (cm : Common) : Issue :=
  let members := s.issueMembers e g cm
  { s.ownIssue e g cl cm with
    members := members, groups := (mergePlan e (s.signed e g cm)).map fun t => (t.1, t.2.1)
    contrib := members.filter fun j => s.predicate e cm j }

/-- The state in which the groups that have signed it are merged. -/
def State.gathered (s : State) (e : Env) (g : Group) (cm : Common) : State :=
  if cm.scope = .strand then s else s.mergeSigned e (mergePlan e (s.signed e g cm))

/-- A member of an instruction of wider scope has signed it, and its signature stays where it faults (05 R139). -/
def State.keepSigned (s : State) (e : Env) (cm : Common) : State :=
  if cm.scope = .strand then s else s.updGroup e.uid e.ply e.gid fun g => { g with signed := true }

/-- The turn of a group at an instruction. -/
def State.groupTurn (s : State) (e : Env) (g : Group) (cl : Clause) (i : Instr) (cm : Common) (r : Row) : State :=
  let c := s.cable e.uid
  let x := s.ownIssue e g cl cm
  if (c.ply e.ply).stopped then s
  else match (if s.goesOn e then none else c.debugTrouble e.ply cl) with
    | some t => s.raise x t
    | none =>
      match (if s.goesOn e then none else s.decodeTrouble e i cm (laneSet g.lanes) (cl.pos + 1 == cl.words.length) r).filter
          fun t => !(cl.skip && t.cause == 4) with
      | some t => if cl.skip then s.skipDefect x else s.raise x t
      | none =>
        let waits (l : List Nat) : State :=
          (if s.awaitsStatus e x.lay l r then s.conclude x (.park s) else s).block e
        let signed := s.signed e g cm
        let members := s.issueMembers e g cm
        if s.waiting e x.lay x.members r then waits x.members
        else if !(c.allIn members ((e.ply, g) :: signed)) then s.conclude x (.hold s .rendezvous)
        else if s.waiting e x.lay members r then waits members
        else match s.signerStop e g cm with
        | some k => (s.stopSigner x k).block e
        | none =>
          let x1 := s.fullIssue e g cl cm
          match (s.gathered e g cm).attempt x1 r with
          | .fault t => (s.keepSigned e cm).raise x t
          | .stall s' =>
            (if signed.isEmpty then s' else s'.restoreGroups e.uid c ((mergePlan e signed).map fun t => t.1)).block e (s'.awaited e)
          | .park s' => (if signed.isEmpty then s.conclude x1 (.park s') else s.conclude x (.park s)).block e
          | a => s.conclude x1 a

/-- The turn of a walker at an instruction (14 R350 to R352). -/
def State.walkerTurn (s : State) (e : Env) (w : Walker) (m : Cmd) (cl : Clause) (i : Instr) (cm : Common) (r : Row) : State :=
  let x : Issue := { e := e, c := cm, addr := cl.addr + 8 * (cl.pos + 1), hdr := cl.addr, word := cl.word
                     members := [0], contrib := [], groups := [] }
  if w.state != .run then s
  else if m.walkLimit ≤ w.count then s.walkerFault e 7 x.addr
  else
    let counted (s : State) : State := s.updWalker e.uid e.cmd e.w fun x => { x with count := x.count + 1 }
    match s.decodeTrouble e i cm [] (cl.pos + 1 == cl.words.length) r with
    | some t => (counted s).raise x t
    | none =>
      let x1 := { x with contrib := if s.predicate e cm 0 then [0] else [] }
      match s.attempt x1 r with
      | .stall s' => s'
      | .fault t => (counted s).raise x t
      | a => counted (s.conclude x1 a)

/-- An instruction performed by the agent that has the turn. -/
def State.perform (s : State) (i : Instr) (cm : Common) (r : Row) : Host.Outcome State Fault Refusal :=
  match s.cur with
  | .group uid p gid =>
    match s.group? uid p gid with
    | some g =>
      match g.clause with
      | some cl => .next (s.groupTurn { uid := uid, ply := p, gid := gid } g cl i cm r)
      | none => .fault .noAgent
    | none => .fault .noAgent
  | .walker uid cmd w =>
    match (s.cable uid).cmd? cmd, s.walker? uid cmd w with
    | some m, some k =>
      match k.clause with
      | some cl => .next (s.walkerTurn { walker := true, uid := uid, cmd := cmd, w := w } k m cl i cm r)
      | none => .fault .noAgent
    | _, _ => .fault .noAgent
  | .none => .fault .noAgent
  | .firmware _ => .fault .noAgent

/-- A word that is no instruction (03 Table 3.19, ranks 3 and 4): it raises the illegal-instruction fault at the word,
or, skipped by its handler, has no effect. -/
def State.performIllegal (s : State) (why : Reject) : Host.Outcome State Fault Refusal :=
  match s.cur with
  | .group uid p gid =>
    match s.group? uid p gid with
    | some g =>
      match g.clause with
      | some cl =>
        let e : Env := { uid := uid, ply := p, gid := gid }
        let x : Issue := { e := e, c := Common.ofWord cl.word, addr := g.next, hdr := cl.addr, word := cl.word
                           members := (s.cable uid).groupStrands p g, contrib := [], groups := [(p, gid)] }
        .next (if ((s.cable uid).ply p).stopped then s
          else match (s.cable uid).debugTrouble p cl with
            | some t => s.raise x t
            | none => if cl.skip then s.skipDefect x else s.raise x { cause := 1 })
      | none => .fault .noAgent
    | none => .fault .noAgent
  | .walker uid cmd w =>
    match s.walker? uid cmd w with
    | some k =>
      match k.clause with
      | some cl =>
        let e : Env := { walker := true, uid := uid, cmd := cmd, w := w }
        let pc := cl.addr + 8 * (cl.pos + 1)
        let s1 := s.updWalker uid cmd w fun x => { x with count := x.count + 1 }
        .next (if k.state != .run then s
          else if (((s.cable uid).cmd? cmd).map fun m => decide (m.walkLimit ≤ k.count)).getD false then s.walkerFault e 7 pc
          else s1.walkerFault e (rejectWalk (some (cl.hdr.cls, (cl.word.extractLsb' 0 10).toNat)) why) pc)
      | none => .fault .noAgent
    | none => .fault .noAgent
  | .none => .fault .noAgent
  | .firmware _ => .fault .noAgent

end Sys2Proof.Machine
end

