-- ==== Sys2Proof/Machine/Counters.lean ====
section
/-! DEFINITION. Completion counters (11 R271 to R275). -/
namespace Sys2Proof.Machine

def Cable.counter (c : Cable) (n : Nat) : Counter := c.counters.getD n {}
def Cable.setCounter (c : Cable) (n : Nat) (k : Counter) : Cable := { c with counters := c.counters.insert n k }

/-- A counter has room for `k` more operations. -/
def Cable.counterRoom (c : Cable) (n k : Nat) : Bool := (c.counter n).val + k ≤ 65535

/-- An operation of a ply issues on a counter in a cycle: after those before it, but before those that higher plies have issued
there in the same cycle (R271, R272). -/
def Cable.countUp (c : Cable) (n op cycle ply : Nat) : Cable :=
  let k := c.counter n
  let before (o : CntOp) : Bool := !(o.cnt == n && o.cycle == cycle && decide (ply < o.ply))
  { c.setCounter n { k with val := k.val + 1 } with
    cntOps := c.cntOps.takeWhile before ++ { op := op, cnt := n, cycle := cycle, ply := ply } :: c.cntOps.dropWhile before }

/-- The operations on a counter that retire now: the completed ones, or under strict order those with none before them
that has not completed (R273). -/
def retiring (strict : Bool) (l : List CntOp) : List CntOp :=
  if strict then l.takeWhile fun o => o.done else l.filter fun o => o.done

/-- Retires what can retire on a counter. -/
def Cable.retire (c : Cable) (n : Nat) : Cable :=
  let k := c.counter n
  let out := retiring k.strict (c.cntOps.filter fun o => o.cnt == n)
  let left := c.cntOps.filter fun o => !out.contains o
  { c.setCounter n { k with val := k.val - out.length } with
    cntOps := left
    cmds := c.cmds.filter fun m => m.state != .done || left.any fun o => o.op == m.id }

/-- An operation completes: it is marked, and its counter retires what it can. -/
def Cable.countDone (c : Cable) (n op : Nat) : Cable :=
  Cable.retire { c with cntOps := c.cntOps.map fun o => if o.op = op ∧ o.cnt = n then { o with done := true } else o } n

def State.countUp (s : State) (uid n op ply : Nat) : State := s.updCable uid fun c => c.countUp n op s.cycle ply
def State.countDone (s : State) (uid n op : Nat) : State := s.updCable uid fun c => c.countDone n op

end Sys2Proof.Machine
end

