-- ==== Sys2Proof/Machine/Replay.lean ====
section
/-! DEFINITION. The replay log of a context (16 R387, R388). -/
namespace Sys2Proof.Machine

/-- What the log makes of an event: it goes on (with the logged value of a read), it waits, or it has diverged. -/
inductive Logged where
  | go (s : State) (val : Nat)
  | wait (s : State)
  | diverged

/-- The first wait of an instruction's event for a full ring posts a record of cause 28. -/
def State.logFull (s : State) (c : Cable) (e : LogEvent) : State :=
  s.logFullBy (fun s part key p => s.wakeKey part key (2 ^ 32 - 1) p) c e

/-- An event under the context's mode: appended (R387), or held to the log (R388). A synchronising access or a message that no
entry names waits for one. -/
def State.logEvent (s : State) (c : Cable) (e : LogEvent) : Logged :=
  let x := s.ctx e.ctx
  if x.rlogMode = 1 then
    if (x.rlogTail - x.rlogHead).toNat = 2 ^ x.rlogLog then .wait (s.logFull c e) else .go (s.logAppend e) e.word1
  else if x.rlogMode = 2 then
    let all := s.logPending e.ctx
    let mine (w : W32 × Nat × Nat) : Bool := w.2.1 == e.word0
    if e.kind = 1 then
      match all.find? mine with
      | some w => .go (s.logConsume e.ctx w.1) w.2.2
      | none => .diverged
    else
      let key := all.filter fun w => w.2.1 / 2 ^ 29 % 8 == e.kind && w.2.2 == e.word1
      match key with
      | [] => .wait s
      | w :: rest =>
        if mine w then .go (s.logConsume e.ctx w.1) e.word1
        else if rest.any mine then .wait s else .diverged
  else .go s e.word1

end Sys2Proof.Machine
end

