-- ==== Sys2Proof/Machine/Slices.lean ====
section
/-! DEFINITION. What home slices and Capstan dies do with the transactions of cores (07 R193 to R197, R203; 08 R232 to
R235; 09 R248 to R252; 16 R387, R388). -/
namespace Sys2Proof.Machine

/-! ### The scope checker (08 R234, R235) -/

/-- The record that a synchronising access of a cable's ply leaves. -/
def Cable.scopeRec (c : Cable) (p : Nat) (ssc : BitVec 3) : ScopeRec :=
  { ssc := ssc, cluster := c.coreD / 8, ply := p, part := c.part, cid := c.cid }

/-- A synchronising access meets the record of its line: none where it may not take effect. A line that carries no
record passes. The record of a line of node 0 or 1 stands in the node's metadata while the line is not in the LLC; that of
a line behind an expander link is held in the LLC only, which the line then enters (R234). -/
def State.scopeCheck (s : State) (uid p pa : Nat) (ssc : BitVec 3) : Option State :=
  if s.cacheable pa then
    let c := s.cable uid
    let s1 := if (nodeOf pa).any (2 ≤ ·) then s.enterLlc (pa / 128) else s
    let m := s1.lines.getD (pa / 128) {}
    match m.scope with
    | some r =>
      if r.admits ssc c.cid p (c.coreD / 8) then some (s1.setLine (pa / 128) { m with scope := some (c.scopeRec p ssc) }) else none
    | none => some (s1.setLine (pa / 128) { m with scope := some (c.scopeRec p ssc) })
  else some s

/-! ### Atomics (09 R248 to R250) -/

def isFloatOp : AtomOp → Bool | .addF32 => true | _ => false
/-- Bytes of an atomic's location. -/
def atomBytes (op : AtomOp) (ty : IntTy) : Nat := if isFloatOp op then 4 else ty.fmt.w / 8

/-- The new value and the flags of an atomic; `a` is its operand, `cmp` the comparand of `cas`. -/
def atomResult (op : AtomOp) (T : IntFmt) (old a cmp : Nat) : Nat × Flags :=
  match op with
  | .add => (T.wrap (T.decode old + T.decode a), 0)
  | .min => (if T.decode a < T.decode old then a else old, 0)
  | .max => (if T.decode old < T.decode a then a else old, 0)
  | .and => (old &&& a, 0)
  | .or => (old ||| a, 0)
  | .xor => (old ^^^ a, 0)
  | .xchg => (a, 0)
  | .cas => (if old = cmp then a else old, 0)
  | .addF32 =>
    let (x, f1) := (Fmt.f32.decode old).add (Fmt.f32.decode a) false
    let (y, f2) := Fmt.f32.round x .rn false
    (y, f1 ||| f2)

/-- Reads, combines and writes one location in one step; the old bytes with their granule's poison, the new bytes, W′,
the flags, and the update it became. A host-linked line has no timestamps (18 R419). -/
def State.atomHere (s : State) (part p pa : Nat) (op : AtomOp) (ty : IntTy) (val cmp : Nat) (psn esr : Bool) :
    State × List (Byte × Bool) × List (Byte × Bool) × Nat × Flags × Option (Nat × Nat) :=
  let n := atomBytes op ty
  let s := if s.cacheable pa then s.touchBlock (pa / 128) (pa % 128) n else s
  let old := s.fetchBytes pa n
  let m := 2 ^ (8 * n)
  let (v, fl) := atomResult op ty.fmt (leNat (old.map Prod.fst)) (val % m) (cmp % m)
  let new := (leBytes v n).map fun b => (b, psn)
  let cells := (List.range n).zipWith (fun i b => (pa + i, b)) new
  if s.cacheable pa then
    let (s1, w, u) := s.homeWrite part p cells esr
    (s1, old, new, w, fl, u)
  else
    let (s1, u) := (s.putBytes cells).publishRange pa cells
    (s1, old, new, 0, fl, u)

/-! ### Order at a slice (07 R197, 08 R214) -/

/-- The line a transaction of a core reaches at its home slice. -/
def TxnKind.line : TxnKind → Option Nat
  | .load l .. => some l
  | .write bytes _ _ => (bytes.head?).map fun b => b.1 / 128
  | .atom _ _ pa .. => some (pa / 128)
  | .nred _ pa .. => some (pa / 128)
  | .sub r .. => some (r * 32)
  | .unsub r .. => some (r * 32)
  | .wtq k .. => some (k / 128)
  | .wake k _ => some (k / 128)
  | _ => none

/-- LLC ways of the partition that owns a line are waking: what arrives waits in its slice's queue (07 R205). -/
def State.waking (s : State) (l : Nat) : Bool :=
  s.wayWake.any fun e => (s.waysOf (s.owner (l * 128))).contains e.1 && decide (s.cycle < e.2)

/-- A transaction may be performed: the loads before it have returned, its core issued none earlier to its line that is
still to be performed (07 R197), and its slice has no way waking. -/
def State.homeReady (s : State) (t : Txn) : Bool :=
  t.state.isAsked && s.loadsReturned t.core t.after &&
  match t.kind.line with
  | none => true
  | some l => !s.waking l && !((s.coreTxns t.core).any fun u => decide (u.id < t.id) && u.state.isAsked && u.kind.line == some l)

/-! ### What a slice performs -/

/-- A line request (07 R193): the lease and the bytes of the block. The time P is the core's when the slice performs the request
(DESIGN CHOICE, log 152). -/
def State.performLoad (s : State) (t : Txn) : State :=
  match t.kind with
  | .load line lo size lease _ _ _ _ =>
    if s.cacheable (line * 128) then
      let (s1, w, r) := s.homeLease (s.cable t.uid).part line lo size (s.core t.core).p lease
      s1.setTxn { t with state := .performed w r (s1.fetchBytes (line * 128 + lo) size) 0, ver := some (s1.line line).ver }
    else s.setTxn { t with state := .performed 0 0 (s.fetchBytes (line * 128 + lo) size) 0 }
  | _ => s

/-- A write of bytes of one line (07 R194), for which a slice that misses fetches the block of its request (R200): the reply
carries W′. -/
def State.performWrite (s : State) (t : Txn) : State :=
  match t.kind with
  | .write bytes _ _ =>
    let cells := bytes.map fun b => (b.1, b.2.val, b.2.psn)
    match bytes with
    | [] => s.setTxn { t with state := .performed 0 0 [] 0 }
    | (pa, _) :: _ =>
      if s.cacheable pa then
        let b := blockOf (pa % 128) ((bytes.getLastD (pa, ⟨0, false, []⟩)).1 % 128)
        let (s1, w, u) := (s.touchBlock (pa / 128) b.1 b.2).homeWrite (s.cable t.uid).part (s.core t.core).p cells t.esr
        s1.setTxn { t with state := .performed w 0 [] 0, upd := u, ver := some (s1.line (pa / 128)).ver }
      else
        let (s1, u) := (s.putBytes cells).publishRange pa cells
        s1.setTxn { t with state := .performed 0 0 [] 0, upd := u }
  | _ => s

/-- An atomic or a return-free reduction at its home slice: the reply carries the old bytes, then the new ones. An
`nred` is performed as a write from P = 0 (08 R232): its sum stands at the instant of its W′ (log 111), its slice drops
its sector of the granule, and the acknowledgement comes from the Capstan die; to a subscribed range it is performed at the
slice and not forwarded (09 R251). A byte in its reply says that the acknowledgement may return. -/
def State.performAtom (s : State) (t : Txn) : State :=
  let part := (s.cable t.uid).part
  match t.kind with
  | .atom op ty pa val cmp psn _ =>
    let (s1, old, new, w, fl, u) := s.atomHere part (s.core t.core).p pa op ty val.toNat cmp.toNat psn t.esr
    s1.setTxn { t with state := .performed w 0 (old ++ new) fl, upd := u
                       ver := if s.cacheable pa then some (s1.line (pa / 128)).ver else none }
  | .nred fl pa val psn _ =>
    let (s1, _, _, w, _, u) := s.atomHere part 0 pa (if fl then .addF32 else .add) .i32 val.toNat 0 psn t.esr
    if s.subscribed pa then s1.setTxn { t with state := .performed w 0 [(0, false)] 0, upd := u }
    else
      let m := s1.line (pa / 128)
      (s1.setLine (pa / 128) { m with sectors := setErase (pa % 128 / 16) m.sectors }).setTxn
        { t with state := .performed w 0 [] 0 }
  | _ => s

/-! ### The replay log at a slice -/

def Txn.logEvent (t : Txn) (c : Cable) : LogEvent :=
  { ctx := c.ctx, cid := c.cid, ply := t.ply, ic := t.ic, kind := 0, word1 := (t.kind.line.getD 0) * 128 }

/-- The divergence of a ply has a record that is not answered. -/
def State.divergedPly (s : State) (uid p : Nat) : Bool :=
  (s.ctx (s.cable uid).ctx).handles.any fun h => h.cause == 29 && h.agents.any fun a => match a with
    | .group u q _ => u == uid && q == p | _ => false

/-- A replayed event whose entry is another's, or a read without its entry, halts the cable (R388); it has not taken place. -/
def State.divergePly (s : State) (uid p pc : Nat) (word : W64) : State :=
  let y := (s.cable uid).ply p
  if s.divergedPly uid p then s else s.raisePly { uid := uid, ply := p, gid := (y.running.orElse fun _ => y.groups.head?.map Group.gid).getD 0 } pc word { cause := 29 }

/-- An access to a node that has gone offline (18 R420): a load completes poisoned, a write is dropped. -/
def Txn.failed (t : Txn) : Txn :=
  match t.kind with
  | .load line lo size lease ldk _ acq parts =>
    { t with kind := .load line lo size lease ldk false acq parts, state := .performed 0 0 (List.replicate size (0, true)) 0 }
  | .write .. => { t with state := .performed 0 0 [] 0 }
  | .atom op ty .. => { t with state := .performed 0 0 (List.replicate (2 * atomBytes op ty) (0, true)) 0 }
  | .nred .. => { t with state := .performed 0 0 [(0, false)] 0 }
  | _ => t

/-- The node that a transaction accesses is offline. -/
def State.unreachable (s : State) (t : Txn) : Bool :=
  match t.kind.line with
  | some l => (match nodeOf (l * 128) with | some n => s.offline n | none => false) && !t.failed.state.isAsked
  | none => false

/-- Performs a transaction's part at its home slice under the log. -/
def State.atHome (s : State) (t : Txn) (f : State → Txn → State) : State :=
  if !s.homeReady t then s
  else
  let t := { t with done := s.stepCount }
  if s.unreachable t then s.setTxn t.failed
  else if t.logged then
    let c := s.cable t.uid
    match s.logEvent c (t.logEvent c) with
    | .go s1 _ => f s1 t
    | .wait s1 => s1
    | .diverged => s.divergePly t.uid t.ply t.pc t.word
  else f s t

end Sys2Proof.Machine
end

