-- ==== Sys2Proof/Machine/Index.lean ====
section
/-! DEFINITION. The structure of a search index in memory: descriptors, shards, node records (14 R332 to R334). -/
namespace Sys2Proof.Machine

/-- A descriptor as read (Table 14.2). -/
structure Desc where
  at_ : Nat
  ver : Nat
  next : Nat
  dim : Nat
  efmt : Nat
  deg : Nat
  stackBits : Nat
  low : Nat
deriving DecidableEq, Repr, Inhabited

def State.descAt (s : State) (pa : Nat) : Desc :=
  let w0 := s.readNat pa 8
  let w1 := s.readNat (pa + 8) 8
  { at_ := pa, ver := w0 % 2 ^ 32, next := w0 / 2 ^ 32, dim := w1 % 2 ^ 12, efmt := w1 / 2 ^ 12 % 4
    deg := w1 / 2 ^ 16 % 64 + 1, stackBits := w1 / 2 ^ 32 % 2 ^ 16, low := s.readNat (pa + 16) 4 }

/-- Bytes of an element. -/
def Desc.width (d : Desc) : Nat := if d.efmt = 3 then 2 else 1
def Desc.format (d : Desc) : OTy :=
  match d.efmt with | 0 => .float .e4m3 | 1 => .float .e5m2 | 2 => .int ⟨8, true⟩ | _ => .float .bf16
/-- RECSZ (R334). -/
def Desc.recSize (d : Desc) : Nat := (16 + d.dim * d.width + 8 * d.deg + 15) / 16 * 16
/-- Offset of the edges in a record. -/
def Desc.edges (d : Desc) : Nat := 16 + d.dim * d.width
def Desc.hasStack (d : Desc) (st : Nat) : Bool := d.stackBits.testBit st

def State.shardBase (s : State) (d : Desc) (st : Nat) : Nat := s.readNat (d.at_ + 0x100 + 32 * st) 8 / 4096 % 2 ^ 36 * 4096
/-- NSLOT of a shard; 0 is out of its range (log 18). -/
def State.shardSlots (s : State) (d : Desc) (st : Nat) : Nat := s.readNat (d.at_ + 0x108 + 32 * st) 8 % 2 ^ 28
def State.shardCode (s : State) (d : Desc) (st : Nat) : Nat := s.readNat (d.at_ + 0x110 + 32 * st) 8 / 2 ^ 16 % 2 ^ 32 * 2 ^ 16

/-- An id is in range (R333). -/
def State.idOk (s : State) (d : Desc) (id : Nat) : Bool :=
  d.hasStack (id / 2 ^ 28) && id % 2 ^ 28 < s.shardSlots d (id / 2 ^ 28)
/-- The address of a node's record. -/
def State.nodeAt (s : State) (d : Desc) (id : Nat) : Nat := s.shardBase d (id / 2 ^ 28) + id % 2 ^ 28 * d.recSize
/-- A range of bytes lies in a stack's shard. -/
def State.inShard (s : State) (d : Desc) (st pa n : Nat) : Bool :=
  s.shardBase d st ≤ pa && pa + n ≤ s.shardBase d st + s.shardSlots d st * d.recSize

end Sys2Proof.Machine
end

