-- ==== Sys2Proof/Machine/Fetch.lean ====
section
/-! DEFINITION. Reading code (01 R17, R19, R22 to R24; 08 R233): granules through the L1, clauses, the target word of
a control transfer. -/
namespace Sys2Proof.Machine

/-- What keeps code from being read: a fault, or a full table of outstanding transactions (07 R186). -/
inductive FetchStop where
  | fault (t : Trouble)
  | full
deriving DecidableEq, Repr, Inhabited

/-- The part of one granule that a clause fetch reads, from `va` up to `n` bytes (R19). -/
def State.fetchGranule (s : State) (core uid p va n : Nat) : State × Except FetchStop (List Byte) :=
  let c := s.cable uid
  if 2 ^ 60 ≤ va ∨ va / 2 ^ 56 % 16 = 15 then
    (s, .error (.fault { cause := 5, addr := va, fetch := true, atHeader := true, walk := 4 }))
  else match s.translate core c.ctx va .fetch (c.priv == 0) with
    | (s1, .error f) =>
      (s1, .error (.fault { cause := f.cause, detail := f.detail, addr := va, fetch := true, atHeader := true, walk := 4
                            unpop := f.cause == 5, page := f.page va, pages := [va / 4096] }))
    | (s1, .ok ph) =>
      match s1.loadNow core uid p ph.pa n (s1.leaseOf c.ctx ph) with
      | none => (s1, .error .full)
      | some (s2, bs) =>
        if bs.any Prod.snd then
          (s2, .error (.fault { cause := 9, detail := 22, addr := va / 16 * 16, fetch := true, atHeader := true, walk := 4 }))
        else (s2, .ok (bs.map Prod.fst))

/-- Reads words of code from `va` on, granule by granule; the fault of the lowest granule stops it. -/
def State.fetchWords (s : State) (core uid p va : Nat) : Nat → State × Except FetchStop (List W64)
  | 0 => (s, .ok [])
  | n + 1 =>
    match s.fetchGranule core uid p va 8 with
    | (s1, .error t) => (s1, .error t)
    | (s1, .ok bs) =>
      match s1.fetchWords core uid p (va + 8) n with
      | (s2, .error t) => (s2, .error t)
      | (s2, .ok ws) => (s2, .ok (BitVec.ofNat 64 (leNat bs) :: ws))

/-- A word of the code image of a walker's stack at an offset, with its poison; none outside the image (14 R350). -/
def State.imageWord (s : State) (uid cmd w off : Nat) : Option (Nat × Bool) :=
  match (s.cable uid).cmd? cmd, s.walker? uid cmd w with
  | some m, some k =>
    if 65536 < off + 8 || off % 8 ≠ 0 then none
    else
      let pa := s.shardCode (s.descAt m.srch.desc) k.stack + off
      some (s.readNat pa 8, s.granPsn pa)
  | _, _ => none

/-- Whether the word at a target is no header; a word that cannot be read is no such case (R22), but a walker's target lies
in its image. None while the read has no table entry. -/
def State.badTarget (s : State) (x : Issue) (va : Nat) : State × Option Bool :=
  if x.e.walker then
    (s, some (match s.imageWord x.e.uid x.e.cmd x.e.w va with | some (v, _) => decide (2 ^ 63 ≤ v) | none => true))
  else match s.fetchGranule (s.cable x.e.uid).coreD x.e.uid x.e.ply va 8 with
  | (s1, .error (.fault _)) => (s1, some false)
  | (_, .error .full) => (s, none)
  | (s1, .ok bs) => (s1, some (decide (2 ^ 63 ≤ leNat bs)))

/-- A clause as fetched: its header word, and the header with the instruction words. -/
inductive Fetched where
  | clause (h : Header) (words : List W64)
  /-- a fault of the fetch, or a header defect, with the header word where it was read -/
  | bad (word : W64) (t : Trouble)
  /-- a line request of the fetch finds no free entry (07 R186) -/
  | full
deriving DecidableEq, Repr, Inhabited

/-- Fetches the clause at an address whole (R19); a defect of the header comes after the faults of the fetch. -/
def State.fetchClause (s : State) (core uid p va : Nat) : State × Fetched :=
  match s.fetchWords core uid p va 1 with
  | (s1, .error (.fault t)) => (s1, .bad 0 t)
  | (s1, .error .full) => (s1, .full)
  | (s1, .ok ws) =>
    let hw := ws.headD 0
    if hw.getLsbD 63 then (s1, .bad hw { cause := 1, atHeader := true, walk := 4 })
    else match s1.fetchWords core uid p (va + 8) ((hw.extractLsb' 56 4).toNat + 1) with
      | (s2, .error (.fault t)) => (s2, .bad hw t)
      | (s2, .error .full) => (s2, .full)
      | (s2, .ok ws) =>
        match Header.decode hw with
        | some h => (s2, .clause h ws)
        | none => (s2, .bad hw { cause := 1, atHeader := true, walk := 4 })

end Sys2Proof.Machine
end

