-- ==== Sys2Proof/Machine/Clauses.lean ====
section
/-! DEFINITION. How a scheduler begins a clause (01 R17, R19; 03 R63, R64; 05 R141, R143, R156; 08 R223), and how a
walker does (14 R350). -/
namespace Sys2Proof.Machine

/-- A wait condition holds: the counter is at or below the threshold (03 R63). -/
def Cable.waitHolds (c : Cable) (w : Wait) : Bool :=
  !w.en || (c.counters.getD w.cnt.toNat {}).val ≤ w.thr.toNat

/-- The scheduler of a ply (05 R155). -/
def Cable.schedulerOf (c : Cable) (p : Nat) : Nat := (c.order + p) % 4

/-- A ply may begin or go on with a clause: nothing halts it, saves it, or traps in its place (04 R120, 16 R367, R386). -/
def Cable.mayBegin (c : Cable) (p : Nat) : Bool :=
  let y := c.ply p
  c.isPlaced && !y.stopped && !c.stopping p && y.running.isNone && !c.terminated && !c.resuming &&
  (!(c.dbg.getLsbD 0) || (c.dbg.extractLsb' 1 5).toNat == p)

/-- The groups a ply may run next, in the order in which it tries them: the other slot's, then the same slot's (R141);
inside a trap, only the trapping strand's. -/
def Cable.nextGroups (c : Cable) (p : Nat) : List Group :=
  let y := c.ply p
  if c.trapActive then y.groups.filter fun g => g.hold == .none && g.lanes.getLsbD (c.trapStrand % 32)
  else
    let inSlot (n : Nat) := y.groups.filter fun g => g.hold == .none && g.place == .slot n
    inSlot y.nextSlot ++ inSlot (1 - y.nextSlot)

/-- The plies a scheduler may choose, best first (R156). -/
def State.candidates (s : State) (core sched : Nat) : List (Nat × Nat) :=
  let all := s.cables.flatMap fun e =>
    if e.2.core? = some core then
      (List.range e.2.plyCount).filterMap fun p =>
        if e.2.schedulerOf p = sched ∧ e.2.mayBegin p = true then some (e.1, p) else none
    else []
  let key (u : Nat × Nat) : Nat :=
    let c := s.cable u.1
    (((7 - c.prio) * 2 + (if (c.ply u.2).demoted then 1 else 0)) * 2 ^ 40 + c.order) * 32 + u.2
  let ins (l : List (Nat × Nat)) (u : Nat × Nat) : List (Nat × Nat) :=
    (l.takeWhile fun v => key v ≤ key u) ++ u :: l.dropWhile fun v => key v ≤ key u
  all.foldl ins []

/-- A ply takes an issue slot for a group; the choice ends the demotion of the scheduler's plies (03 R64). -/
def State.takeIssue (s : State) (core sched uid p gid : Nat) : State :=
  let s1 := { s with cables := s.cables.map fun (e : Nat × Cable) =>
    if e.2.core? = some core then
      (e.1, { e.2 with plies := e.2.plies.map fun (q : Nat × Ply) =>
        if e.2.schedulerOf q.1 = sched then (q.1, { q.2 with demoted := false }) else q })
    else e }
  (s1.updPly uid p fun y => { y with running := some gid }).updCore core fun k =>
    { k with slots := k.slots.set sched (some (uid, p)) }

/-- Tries to begin or go on with a group's clause; none where it waits for its conditions, for an
acquire, or for a table entry. -/
def State.tryBegin (s : State) (core sched uid p : Nat) (g : Group) : Option State :=
  let c := s.cable uid
  match g.clause with
  | some _ => some (s.takeIssue core sched uid p g.gid)
  | none =>
    if s.acquiring uid (c.groupStrands p g) then none
    else
      let e : Env := { uid := uid, ply := p, gid := g.gid }
      match s.fetchClause core uid p g.pc with
      | (s1, .bad w t) => some (s1.raisePly e g.pc w t)
      | (_, .full) => none
      | (s1, .clause h ws) =>
        if !(c.waitHolds h.wa && c.waitHolds h.wb) then none
        else
          let cl : Clause := { addr := g.pc, hdr := h, words := ws, born := s1.nextOp, view := (s1.cable uid).view p }
          some ((s1.takeIssue core sched uid p g.gid).updGroup uid p g.gid fun g => { g with clause := some cl })

/-- A scheduler with a free slot begins a clause of the first of its plies whose group can (R156). -/
def State.beginClause (s : State) (core sched : Nat) : State :=
  if Config.cores ≤ core ∨ 4 ≤ sched ∨ (s.core core).slots.getD sched none ≠ none then s else
    let tries := (s.candidates core sched).flatMap fun u => ((s.cable u.1).nextGroups u.2).map fun g => (u.1, u.2, g)
    match tries.findSome? fun t => s.tryBegin core sched t.1 t.2.1 t.2.2 with
    | some s1 => s1
    | none => s

end Sys2Proof.Machine
end

