-- ==== Sys2Proof/Machine/Flags.lean ====
section
/-! DEFINITION. Exception flags (02 R54, 04 R92): how an instruction raises them, and the generator of stochastic
rounding (02 R53). -/
namespace Sys2Proof.Machine

/-- ORs flags into `STRAND_FFLAGS` of strands; those of a walker gather in its command (14 R347). -/
def State.orFlags (s : State) (e : Env) (strands : List Nat) (fl : Flags) : State :=
  if fl = 0 then s
  else if e.walker then s.updCmd e.uid e.cmd fun m => { m with srch := { m.srch with flags := m.srch.flags ||| fl } }
  else strands.foldl (fun s j => s.updStrand e.uid j fun t => { t with fflags := t.fflags ||| fl }) s

/-- The state that a strand's generator would take at its next draw. -/
def State.nextDraw (s : State) (e : Env) (strand : Nat) : W32 := srNext ((s.cable e.uid).strand strand).sr

/-- Stores the state a draw left in a strand's generator. -/
def State.putDraw (s : State) (e : Env) (strand : Nat) : Option W32 → State
  | none => s
  | some x => s.updStrand e.uid strand fun t => { t with sr := srFix x }

end Sys2Proof.Machine
end

