-- ==== Sys2Proof/Machine/Values.lean ====
section
/-! DEFINITION. Instructions that compute a value from register sources (04 R90 to R93): their operands by format, the
reading of sources, the writing of results at every scope. -/
namespace Sys2Proof
open Machine

/-! ### Operands by format (03 Tables 3.3 to 3.7; the codes of 16 R371) -/

def FmtA.useA (f : FmtA) (ty : OTy) : Use :=
  { code := 1, op := .ofField f.sa, ty := ty, mark := f.lra, neg := f.nega, abs := f.absa }
def FmtA.useB (f : FmtA) (ty : OTy) : Use :=
  { code := 2, op := .ofField f.sb, ty := ty, mark := f.lrb, neg := f.negb, abs := f.absb }
def FmtA.dest (f : FmtA) (ty : OTy) : Dest := { op := .ofField f.dst, ty := ty }
def FmtB.useA (f : FmtB) (ty : OTy) : Use := { code := 1, op := .ofField f.sa, ty := ty, mark := f.lra }
def FmtB.useB (f : FmtB) (ty : OTy) : Use := { code := 2, op := .ofField f.sb, ty := ty, mark := f.lrb }
def FmtB.useC (f : FmtB) (ty : OTy) : Use := { code := 3, op := .ofField f.sc, ty := ty, mark := f.lrc }
def FmtB.dest (f : FmtB) (ty : OTy) : Dest := { op := .ofField f.dst, ty := ty }
def FmtI.useA (f : FmtI) (ty : OTy) : Use := { code := 1, op := .ofField f.sa, ty := ty }
def FmtI.dest (f : FmtI) (ty : OTy) : Dest := { op := .ofField f.dst, ty := ty }

end Sys2Proof

namespace Sys2Proof.Machine

/-- A mask field (R70). -/
def maskField (x : BitVec 10) : Nat := (x.extractLsb' 0 4).toNat

/-! ### Sources and results -/

/-- A source after its modifiers, as a pattern of its type. -/
def State.src (s : State) (x : Issue) (strand : Nat) (u : Use) : Nat :=
  applyMods u.neg u.abs u.ty (s.readOp x.e strand x.lay u.op u.ty).1

/-- A result: what the destination registers receive, the flags, the generator's new state where it drew, and the
poison of each register. -/
structure Val where
  val : W64
  flags : Flags := 0
  sr : Option W32 := none
  p0 : Bool := false
  p1 : Bool := false
deriving DecidableEq, Repr, Inhabited

/-- The latch of a value (01 R26). -/
def Val.latch (v : Val) (wide : Bool) : Latch := ⟨wide, if wide then v.val else W64.ofPair v.val.lo 0, v.p0 || (wide && v.p1)⟩

/-- One strand's result: its destination, its latch, its flags, its generator. -/
def State.deposit (s : State) (x : Issue) (d : Dest) (strand : Nat) (v : Val) : State :=
  let s1 := s.writeDst x.e strand x.lay d.op d.ty.wide v.val v.p0 v.p1
  let s2 := (s1.orFlags x.e [strand] v.flags).putDraw x.e strand v.sr
  s2.setLatch x.e strand (some (v.latch d.ty.wide))

/-- A shared register written once for a scope (05 R130 to R133): `s` in every ply that holds a contributor; `k` and `y`
by the lowest contributor, in the log of every member ply's group: the first of them to end its clause publishes it. -/
def State.putUniform (s : State) (x : Issue) (d : Dest) (v : Val) : State :=
  match d.op with
  | .s _ => (distinct (x.contrib.map (· / 32))).foldl (fun s q =>
      match x.contrib.find? fun j => j / 32 == q with
      | some j => s.writeDst x.e j x.lay d.op d.ty.wide v.val v.p0 v.p1
      | none => s) s
  | _ => x.plies.foldl (fun s q =>
      match x.members.find? fun j => j / 32 == q with
      | some j => s.writeDst x.e (if j / 32 = x.lead / 32 then x.lead else j) x.lay d.op d.ty.wide v.val v.p0 v.p1 x.lead
      | none => s) s

/-- The one result of an instruction of ply, lay or cable scope (04 R92): the shared register, every contributor's
latch and flags; the draw is that of the lowest contributor. -/
def State.depositUniform (s : State) (x : Issue) (d : Dest) (v : Val) : State :=
  let s1 := ((s.putUniform x d v).orFlags x.e x.contrib v.flags).putDraw x.e x.lead v.sr
  x.contrib.foldl (fun s j => s.setLatch x.e j (some (v.latch d.ty.wide))) s1

/-- Every strand's own result, all read before any is written (06 R163). -/
def State.depositEach (s : State) (x : Issue) (d : Dest) (f : Nat → Val) : State :=
  ((x.contrib.map fun j => (j, f j)).foldl (fun s jv => s.deposit x d jv.1 jv.2) s).ownLatch x.e x.contrib

/-- Computes at each contributor, or once at a wider scope (04 R90, R92). -/
def State.compute (s : State) (x : Issue) (d : Dest) (f : Nat → Val) : Attempt :=
  if x.scope = .strand then .done (s.depositEach x d f) []
  else .done ((s.depositUniform x d (f x.lead)).ownLatch x.e x.contrib) []

/-- A row that computes its destination from its sources' patterns. -/
def valueRow (srcs : List Use) (d : Dest) (legal : Bool) (f : List Nat → Val) : Row :=
  { srcs := srcs, dst := some d, legal := fun _ _ _ => legal
    act := fun s x => s.compute x d fun j => f (srcs.map fun u => s.src x j u) }

/-- The first, second and third of a row's source patterns. -/
def src1 (l : List Nat) : Nat := l.getD 0 0
def src2 (l : List Nat) : Nat := l.getD 1 0
def src3 (l : List Nat) : Nat := l.getD 2 0

/-! ### Mask bits (04 R103, R92; 05 R131) -/

/-- Writes lanes of a mask register in the log of a strand's group. -/
def State.writeMask (s : State) (uid strand n : Nat) (lanes val : W32) : State :=
  match ((s.cable uid).ply (strand / 32)).groups.find? fun g => g.lanes.getLsbD (strand % 32) with
  | some g => s.updClause uid (strand / 32) g.gid fun cl => { cl with log := cl.log ++ [.mask n lanes val (some s.stepCount)] }
  | none => s

/-- Writes a strand's bit of a mask register; a walker's mask registers are one bit each (14 R349). -/
def State.setMaskBit (s : State) (e : Env) (strand n : Nat) (b : Bool) : State :=
  if e.walker then s.updWalker e.uid e.cmd e.w fun x =>
    { x with m := if b then x.m ||| (1 <<< n) else x.m &&& ~~~((1 : W32) <<< n) }
  else
    let lane : W32 := 1 <<< (strand % 32)
    s.writeMask e.uid strand n lane (if b then lane else 0)

def State.maskBit (s : State) (e : Env) (strand n : Nat) : Bool := (s.readMask e strand n).getLsbD (strand % 32)

/-- A row that tests its sources and writes the outcome into mask bits. -/
def testRow (srcs : List Use) (m : Nat) (f : List Nat → Bool) : Row :=
  { srcs := srcs, latch := .own
    act := fun s x =>
      let at_ (j : Nat) : Bool := f (srcs.map fun u => s.src x j u)
      let wide := decide (x.scope ≠ .strand)
      let one := at_ x.lead
      let bits := x.members.map fun j =>
        (j, if x.contrib.contains j then (if wide then one else at_ j) else s.maskBit x.e j m)
      let s1 := (bits.filter fun b => x.contrib.contains b.1).foldl (fun s b => s.setMaskBit x.e b.1 m b.2) s
      .done (bits.foldl (fun s b => s.setLatch x.e b.1 (some ⟨false, if b.2 then 1 else 0, false⟩))
        (s1.ownLatch x.e x.members)) [] }

end Sys2Proof.Machine
end

