-- ==== Sys2Proof/Machine/Access.lean ====
section
/-! DEFINITION. Accesses of strands to memory (09 R240 to R247): effective addresses and their checks, loads, stores and
atomics as they leave the core. -/
namespace Sys2Proof
open Machine

def FmtM.useBase (f : FmtM) : Use := { code := 4, op := .ofField f.base, ty := .raw true, mark := f.lrbs }
def FmtM.useData (f : FmtM) (ty : OTy) : Use := { code := 5, op := .ofField f.data, ty := ty, mark := f.lrd }
def FmtM.dest (f : FmtM) (ty : OTy) : Dest := { op := .ofField f.data, ty := ty }
/-- ORD of an acquire, of a release (03 R68). -/
def FmtM.acquires (f : FmtM) : Bool := f.ord == 1 || f.ord == 3
def FmtM.releases (f : FmtM) : Bool := f.ord == 2 || f.ord == 3
/-- Bytes of a size code (03 R77). -/
def SizeZ.bytes : SizeZ → Nat | .n8 => 1 | .i8 => 1 | .n16 => 2 | .i16 => 2 | .b32 => 4 | .b64 => 8
def SizeZ.oty : SizeZ → OTy
  | .n8 => .int ⟨8, false⟩ | .i8 => .int ⟨8, true⟩ | .n16 => .int ⟨16, false⟩ | .i16 => .int ⟨16, true⟩
  | .b32 => .raw false | .b64 => .raw true

end Sys2Proof

namespace Sys2Proof.Machine

/-! ### Addresses (09 R240, Table 9.1; 18 R395; 16 R385) -/

/-- What an instruction's access is. -/
structure AccRule where
  size : Nat
  read : Bool := true
  write : Bool := false
  /-- the peer window is accepted -/
  peer : Bool := false
  /-- node 0 only -/
  near : Bool := false
  /-- the scope of a synchronising access -/
  sync : Option (BitVec 3) := none
  /-- compared with the watchpoints -/
  watched : Bool := true
deriving DecidableEq, Repr

/-- One strand's access: its effective address, and where that leads. -/
structure Acc where
  strand : Nat
  ea : Nat
  pa : Nat
  lease : Nat := 0
  esr : Bool := false
  peer : Bool := false
deriving DecidableEq, Repr, Inhabited

/-- The effective address of a format M instruction. -/
def State.ea (s : State) (x : Issue) (f : FmtM) (strand : Nat) : Nat :=
  (BitVec.ofNat 64 (s.readOp x.e strand x.lay f.useBase.op (.raw true)).1 + f.off.signExtend 64).toNat

/-- R385 at an access, except where its handler has let the instruction pass. -/
def State.watchTrouble (s : State) (x : Issue) (strand ea : Nat) (r : AccRule) : Option Trouble :=
  if r.watched && (s.clauseOf x.e.uid strand).watches strand ea r.size r.read r.write then
    some { cause := 24, strand := some strand, addr := ea, write := r.write }
  else none

/-- A peer access is accepted by the issuing core (18 R395). -/
def State.peerTrouble (s : State) (x : Issue) (ea : Nat) (r : AccRule) : Option Nat :=
  let c := s.cable x.e.uid
  if !r.peer then some 5
  else if c.priv == 0 && !(s.ctx c.ctx).peerEn then some 8
  else if ea / 2 ^ 44 % 2 ^ 12 = s.fabId then some 5
  else match r.sync with
    | some ssc => if ssc = 4 then none else some 13
    | none => none

/-- The first fault of one strand's address, or where it leads. -/
def State.resolveOne (s : State) (x : Issue) (r : AccRule) (strand ea : Nat) : State × Except Trouble Acc :=
  let c := s.cable x.e.uid
  let t : Trouble := { cause := 5, strand := some strand, addr := ea, write := r.write, count := 1 }
  if 2 ^ 60 ≤ ea then (s, .error t)
  else if ea % r.size ≠ 0 then (s, .error { t with cause := 6 })
  else if ea / 2 ^ 56 % 16 = 15 then
    match s.peerTrouble x ea r with
    | some k => (s, .error { t with cause := k })
    | none => (s, .ok { strand := strand, ea := ea, pa := ea, peer := true })
  else match s.translate c.coreD c.ctx ea (if r.write then .write else .read) (c.priv == 0) with
    | (s1, .error f) =>
      (s1, .error { t with cause := f.cause, detail := f.detail, unpop := f.cause == 5
                           page := f.page ea, pages := [ea / 4096] })
    | (s1, .ok p) =>
      if r.near && nodeOf p.pa ≠ some 0 then (s1, .error { t with pages := [ea / 4096] })
      else match s.watchTrouble x strand ea r with
        | some w => (s1, .error w)
        | none => (s1, .ok { strand := strand, ea := ea, pa := p.pa, lease := s1.leaseOf c.ctx p, esr := p.esr })

/-- The fault that an instruction reports of those of its strands: of pages that do not translate, the lowest address,
with the count of the strands on that page (16 R377); otherwise that of the lowest strand, with the count of the strands that
meet its cause (log 31). -/
def firstTrouble (l : List Trouble) : Option Trouble :=
  match l with
  | [] => none
  | t :: _ =>
    match t.page with
    | none => some { t with count := (l.filter fun u => u.cause == t.cause).length, pages := l.flatMap Trouble.pages }
    | some _ =>
      let low := l.foldl (fun (b : Trouble) u => if u.page.isSome && u.addr < b.addr then u else b) t
      let same := l.filter fun u => u.page == low.page
      some { low with count := same.length, strand := (same.headD low).strand, pages := l.flatMap Trouble.pages }

/-- The addresses of several strands, in ascending order: all of them, or the instruction's fault. -/
def State.resolve (s : State) (x : Issue) (r : AccRule) (l : List (Nat × Nat)) : State × Except Trouble (List Acc) :=
  let out := l.foldl (fun (b : State × List Trouble × List Acc) e =>
    match b.1.resolveOne x r e.1 e.2 with
    | (s1, .error t) => (s1, b.2.1 ++ [t], b.2.2)
    | (s1, .ok a) => (s1, b.2.1, b.2.2 ++ [a])) (s, [], [])
  match firstTrouble out.2.1 with
  | some t => (out.1, .error t)
  | none => (out.1, .ok out.2.2)

/-- The strands that access memory: every contributor, or one for the scope (R241). -/
def Issue.accessors (x : Issue) : List Nat := if x.scope = .strand then x.contrib else [x.lead]
/-- The strands that an ordering concerns. -/
def Issue.ordered (x : Issue) : List Nat := if x.scope = .strand then x.contrib else x.members
/-- Whose access that of strand `j` is: its own, or at a wider scope that of every contributor (R241; 07 R187). -/
def Issue.sharers (x : Issue) (j : Nat) : List Nat := if x.scope = .strand then [j] else x.contrib
/-- The plies whose access it is: it counts in the UNACK of each. -/
def Issue.accPlies (x : Issue) (j : Nat) : List Nat := distinct ((x.sharers j).map (· / 32))
def Issue.acks (x : Issue) (j : Nat) : List (Nat × Nat) := (x.accPlies j).map fun q => (x.e.uid, q)

/-! ### Late destinations (01 R20, R26; 05 R130, R144) -/

/-- The registers that strand `j`'s value goes to: of a shared register several strands write, the highest one's value
stands (R130). -/
def Issue.lateDests (x : Issue) (d : Dest) (j : Nat) : List (List RegKey) :=
  let n := if d.ty.wide then 2 else 1
  if x.scope = .strand then
    match d.op with
    | .lat => []
    | op => if op.perStrand || j == x.contrib.getLastD j then [op.keys j x.lay n] else []
  else match d.op with
    | .s _ => (distinct (x.contrib.map (· / 32))).map fun q => d.op.keys (32 * q) x.lay n
    | op => [op.keys j x.lay n]
/-- The strands whose latch takes the value. -/
def Issue.lateLats (x : Issue) (j : Nat) : List Nat := if x.scope = .strand then [j] else x.members

/-- Applies a function to the clause in which a strand stands. -/
def State.updStrandClause (s : State) (uid strand : Nat) (f : Clause → Clause) : State :=
  match ((s.cable uid).ply (strand / 32)).groups.find? fun g => g.lanes.getLsbD (strand % 32) with
  | some g => s.updClause uid (strand / 32) g.gid f
  | none => s

/-- A `v` name that a late result will be written to: it holds a register from the issue on (01 R20, R32), and what was
built from it is stale (12 R301, 13 R318). -/
def Cable.reserve (c : Cable) (k : RegKey) : Cable :=
  match k with
  | .v i n => (c.updStrand i fun t => if t.live then
      { t with v := if (t.v.find? n).isSome then t.v else t.v.insert n {}, spilled := setErase n t.spilled } else t).staleReg i n
  | _ => c

/-- Puts the destinations of an operation on the scoreboard; the clauses of the issuing groups remember an operation
that writes a shared register. The latches that take its value hold one of its width from the issue on, not yet known (01 R26). -/
def State.expect (s : State) (x : Issue) (op : Nat) (dests : List (List RegKey)) (lats : List Nat) (wide : Bool) : State :=
  let s1 := lats.foldl (fun s j => s.setLatch x.e j (some ⟨wide, 0, false⟩)) (s.ownLatch x.e lats)
  let s2 := s1.updCable x.e.uid fun c =>
    { dests.flatten.foldl Cable.reserve c with board := c.board ++ (dests.flatten.map fun k => (k, op)) ++ lats.map fun j => (.lat j, op) }
  if dests.flatten.any RegKey.shared then
    (if x.scope = .strand then [x.e.ply] else x.plies).foldl (fun s q =>
      match x.members.find? fun j => j / 32 == q with
      | some j => s.updStrandClause x.e.uid j fun cl => { cl with ops := cl.ops ++ [(op, true)] }
      | none => s) s2
  else s2

/-- The parts of a load: one for each accessing strand. -/
def Issue.part (x : Issue) (d : Dest) (z : SizeZ) (j pa : Nat) (own : List (Nat × Byte × Bool)) : LoadPart :=
  { strand := j, pa := pa, z := z, dests := x.lateDests d j, lats := x.lateLats j, own := own }

/-- Delivers one part's value, extended as 02 R40 states. -/
def State.deliverPart (s : State) (uid op : Nat) (p : LoadPart) (bytes : List (Byte × Bool)) : State :=
  let bs := overlay p.own bytes
  s.deliver uid op p.strand p.z.oty.wide p.dests p.lats (p.z.oty.extend (leNat (bs.map Prod.fst))) (bs.any Prod.snd)

/-! ### Transactions that are performed at once: synchronising accesses -/

/-- Performs transactions just sent at their home slices, in order; what keeps one of them from it is the outcome. -/
def State.performNow (s0 s : State) (ids : List Nat) (f : State → Txn → State) : Except Attempt State :=
  ids.foldl (fun (r : Except Attempt State) i =>
    match r with
    | .error a => .error a
    | .ok s =>
      match s.txns.find? i with
      | none => .ok s
      | some t =>
        if !s.homeReady t then .error (.stall s0)
        else
          let c := s.cable t.uid
          match s.logEvent c (t.logEvent c) with
          | .go s1 _ => .ok (f s1 { t with done := s.stepCount })
          | .wait _ => .error (.stall (s0.logFull c (t.logEvent c)))
          | .diverged => .error (.fault { cause := 29 })) (.ok s)

/-- The scope checks of a synchronising instruction, in ascending order of strands. -/
def State.scopeChecks (s : State) (x : Issue) (ssc : BitVec 3) (write : Bool) (accs : List Acc) : Except Trouble State :=
  accs.foldl (fun (r : Except Trouble State) a =>
    match r with
    | .error t => .error t
    | .ok s =>
      if a.peer then .ok s
      else match s.scopeCheck x.e.uid (a.strand / 32) a.pa ssc with
        | some s1 => .ok s1
        | none => .error { cause := 13, strand := some a.strand, addr := a.ea, write := write }) (.ok s)

/-- Every earlier load of the strands has returned; for R223 a `wtq` counts as one (09 R261). -/
def State.loadsBack (s : State) (uid : Nat) (strands : List Nat) : Bool :=
  (s.loadsOf uid strands).isEmpty &&
  !(s.waiters.any fun w => w.uid == uid && strands.contains w.strand) &&
  !(s.txns.vals.any fun t => t.uid == uid && (match t.kind with | .wtq .. => true | _ => false) && t.strands.any fun j => strands.contains j)

/-- Table 8.3 for plies of a cable, the loads being those of `strands`. -/
def State.releaseHolds (s : State) (uid : Nat) (plies strands : List Nat) (ssc : BitVec 3) : Bool :=
  (plies.all fun p => ((s.cable uid).ply p).unack == 0 && !s.bankStoring uid p) && (s.loadsOf uid strands).isEmpty &&
  (ssc != 4 || s.releasedSystem uid)

/-- Drains the entries of plies, as a release begins (07 R189); at system scope also the cable's entries for CXL nodes
(08 R222). -/
def State.drainPlies (s : State) (uid : Nat) (plies : List Nat) (ssc : BitVec 3 := 0) : State :=
  let core := (s.cable uid).coreD
  let s1 := plies.foldl (fun s p => s.drainPly core uid p) s
  if ssc = 4 then s1.drainPorts core uid else s1

/-- The transaction of an access of one strand. -/
def State.txnOf (s : State) (x : Issue) (f : FmtM) (a : Acc) (kind : TxnKind) : Txn :=
  let c := s.cable x.e.uid
  { id := 0, core := c.coreD, uid := x.e.uid, ply := a.strand / 32
    strands := if x.scope = .strand then [a.strand] else x.members
    sync := ⟨f.ord, f.ssc⟩, pc := x.addr, va := a.ea, word := x.word, ic := (c.ply (a.strand / 32)).ic.toNat, kind := kind, esr := a.esr }

/-- System-scope acquire: P rises to FT (18 R398). -/
def State.raiseFt (s : State) (uid : Nat) (ssc : BitVec 3) : State :=
  if ssc = 4 then s.raiseP (s.cable uid).coreD (s.part (s.cable uid).part).ft else s

/-! ### Loads (R245, 07 R193, R200) -/

/-- The accesses that lie in one 128-byte line. -/
def linesOf (accs : List Acc) : List (Nat × List Acc) :=
  (distinct (accs.map fun a => a.pa / 128)).map fun l => (l, accs.filter fun a => a.pa / 128 == l)

def lineBlock (n : Nat) (accs : List Acc) : Nat × Nat :=
  let offs := accs.map fun a => a.pa % 128
  blockOf (offs.foldl min 127) (offs.foldl max 0 + n - 1)

/-- How a load's lanes of one line are served: by the core's own copies, or by a request, which follows an atomic of its plies
that is on its way to the line (08 R214). -/
def State.lineHit (s : State) (x : Issue) (n : Nat) (ldk : Bool) (accs : List Acc) : Option (List (Acc × Nat × List (Byte × Bool))) :=
  let core := (s.cable x.e.uid).coreD
  if ldk then none
  else accs.foldr (fun a (r : Option (List (Acc × Nat × List (Byte × Bool)))) =>
    match r with
    | none => none
    | some l =>
      let own := s.ownBytes core x.e.uid (x.accPlies a.strand) a.pa n
      if s.atomInFlight core x.e.uid (x.accPlies a.strand) (a.pa / 128) then none
      else if own.length = n then some ((a, 0, own.map Prod.snd) :: l)
      else if s.loadInFlight core x.e.uid (x.sharers a.strand) (a.pa / 128) then none
      else match s.l1Hit core a.pa n with
        | some (w, bs) => some ((a, w, overlay own bs) :: l)
        | none => none) (some [])

/-- The load of one line: delivered from a copy at once, or requested under one name. The request's name is answered. -/
def State.loadLine (s : State) (x : Issue) (d : Dest) (z : SizeZ) (f : FmtM) (ldk : Bool) (line : Nat) (accs : List Acc) :
    State × Option Nat :=
  let uid := x.e.uid
  let core := (s.cable uid).coreD
  let n := z.bytes
  match s.lineHit x n ldk accs with
  | some hits =>
    (hits.foldl (fun s h =>
      let (s1, op) := (s.raiseP core h.2.1).newOp
      let part := x.part d z h.1.strand h.1.pa []
      (s1.expect x op part.dests part.lats d.ty.wide).deliverPart uid op part h.2.2) s, none)
  | none =>
    let parts := accs.map fun a => x.part d z a.strand a.pa (s.heldBytes core uid (x.accPlies a.strand) a.pa n)
    let b := lineBlock n accs
    let a := accs.headD default
    let t := s.txnOf x f a (.load line b.1 b.2 (if ldk then 0 else a.lease) ldk (!ldk && s.cacheable (line * 128))
      f.acquires parts)
    let (s1, id) := s.send { t with strands := if x.scope = .strand then accs.map Acc.strand else x.members }
    let s2 := parts.foldl (fun s p => s.expect x id p.dests p.lats d.ty.wide) s1
    let s3 := if f.split then parts.foldl (fun s p =>
        s.updStrandClause uid p.strand fun cl => { cl with splits := cl.splits ++ [(p.strand, id)] }) s2 else s2
    (s3, some id)

/-- The lines of an instruction's loads, in order; the names of their requests. -/
def State.loadLines (s : State) (x : Issue) (d : Dest) (z : SizeZ) (f : FmtM) (ldk : Bool) (mem : List Acc) : State × List Nat :=
  (linesOf mem).foldl (fun b l =>
    let (s', id) := b.1.loadLine x d z f ldk l.1 l.2
    (s', b.2 ++ id.toList)) (s, [])

/-- Entries of the transaction table that loads need. -/
def State.loadNeed (s : State) (x : Issue) (z : SizeZ) (ldk : Bool) (accs : List Acc) : Nat :=
  ((linesOf (accs.filter fun a => !a.peer)).filter fun l => (s.lineHit x z.bytes ldk l.2).isNone).length +
    (accs.filter fun a => a.peer).length

/-- Of a synchronising instruction's transactions, those performed at once: all to a line that caches may hold. -/
def State.homeNow (s : State) (sync : Bool) (ids : List Nat) : List Nat :=
  ids.filter fun i => sync && (match (s.txns.find? i).bind fun t => t.kind.line with
    | some l => s.cacheable (l * 128) | none => false)

/-- A peer load of one strand (18 R394). -/
def State.loadPeer (s : State) (x : Issue) (d : Dest) (z : SizeZ) (f : FmtM) (a : Acc) : State :=
  let part := x.part d z a.strand a.ea []
  let (s1, id) := s.send (s.txnOf x f a (.peerLoad (a.ea / 2 ^ 44 % 2 ^ 12) (a.ea % 2 ^ 44) f.acquires part))
  let s2 := s1.expect x id part.dests part.lats d.ty.wide
  if f.split then s2.updStrandClause x.e.uid a.strand fun cl => { cl with splits := cl.splits ++ [(a.strand, id)] } else s2

/-- The latch of the members where nothing was loaded. -/
def State.idleLatch (s : State) (x : Issue) (d : Dest) : State :=
  x.members.foldl (fun s j => s.setLatch x.e j (some (s.currentDst x.e j x.lay d.op d.ty.wide))) (s.ownLatch x.e x.members)

/-- `ld.g` in walker code: the value at the home slice, within the shard of the walker's stack (14 R351). -/
def State.walkerLoad (s : State) (x : Issue) (d : Dest) (z : SizeZ) (f : FmtM) : Attempt :=
  match (s.cable x.e.uid).cmd? x.e.cmd, s.walker? x.e.uid x.e.cmd x.e.w with
  | some m, some w =>
    let pa := s.ea x f 0
    if pa % z.bytes ≠ 0 || !s.inShard (s.descAt m.srch.desc) w.stack pa z.bytes then .fault { cause := 5, walk := 3 }
    else
      let s := s.touchSpan pa z.bytes
      let bs := s.fetchBytes pa z.bytes
      let s := if bs.any Prod.snd then s.updCmd x.e.uid x.e.cmd fun m => { m with srch := { m.srch with
        bad := some (m.srch.bad.getD (pa / 16 * 16)) } } else s
      .done (s.deposit x d 0 { val := z.oty.extend (leNat (bs.map Prod.fst)), p0 := bs.any Prod.snd }) []
  | _, _ => .fault { cause := 5, walk := 3 }

/-- `ld.g` and `ld.k` (R245, R246): the checks, then a line request for each line of the lanes; an acquire meets the
scope checker and is performed at its home slice at once (log 13). One that the core's own copies serve meets the checker
and leaves its record too, though nothing is sent home: the spec does not say how such an acquire passes it (DESIGN CHOICE,
log 134). -/
def State.loadGlobal (s : State) (x : Issue) (d : Dest) (z : SizeZ) (f : FmtM) (ldk : Bool) : Attempt :=
  let uid := x.e.uid
  let core := (s.cable uid).coreD
  let sync := f.ord != 0
  if x.contrib.isEmpty then .done (if x.scope = .strand then s else s.idleLatch x d) []
  else if s.acquiring uid x.ordered then .stall s
  else
    let rule : AccRule := { size := z.bytes, peer := !ldk, sync := if sync then some f.ssc else none }
    match s.resolve x rule (x.accessors.map fun j => (j, s.ea x f j)) with
    | (_, .error t) => .fault t
    | (s1, .ok accs) =>
      let mem := accs.filter fun a => !a.peer
      let peers := accs.filter fun a => a.peer
      if !s1.freeEntries core (s1.loadNeed x z ldk accs) then .park s
      else match (if sync then s1.scopeChecks x f.ssc false mem else .ok s1) with
        | .error t => .fault t
        | .ok s2 =>
          let (s3, ids) := s2.loadLines x d z f ldk mem
          match s.performNow s3 (s3.homeNow sync ids) State.performLoad with
          | .error a => a
          | .ok s4 =>
            let s5 := peers.foldl (fun s a => s.loadPeer x d z f a) s4
            .done (if f.acquires && ids.isEmpty && peers.isEmpty then s5.raiseFt uid f.ssc else s5) []

/-! ### Stores (R245, 07 R189) -/

/-- The bytes of a store's data with its poison. -/
def State.storeBytes (s : State) (x : Issue) (u : Use) (n strand : Nat) : List (Byte × Bool) :=
  let v := s.readOp x.e strand x.lay u.op u.ty
  (leBytes v.1 n).map fun b => (b, v.2)

/-- Stores of strands to one line, in ascending order of strands, that leave the core at once as one write (07 R200). -/
def State.sendWrite (s : State) (x : Issue) (f : FmtM) (l : List (Acc × List (Byte × Bool))) (seg : Option Nat) : State × Nat :=
  let acks := l.flatMap fun e => x.acks e.1.strand
  let cells := l.foldl (fun (m : SMap WcByte) e => ((List.range e.2.length).zip e.2).foldl
    (fun m b => m.insert (e.1.pa + b.1) (WcByte.over (m.find? (e.1.pa + b.1)) (x.acks e.1.strand) b.2)) m) []
  let t := s.txnOf x f (l.headD default).1 (.write cells f.releases seg)
  (s.addUnacks acks).send { t with
    strands := if x.scope = .strand then l.map fun e => e.1.strand else x.members
    acks := acks, after := s.loadsOf x.e.uid (l.flatMap fun e => x.sharers e.1.strand) }

def State.sendPeerWrite (s : State) (x : Issue) (f : FmtM) (a : Acc) (bytes : List (Byte × Bool)) : State :=
  let acks := x.acks a.strand
  let t := s.txnOf x f a (.peerWrite (a.ea / 2 ^ 44 % 2 ^ 12) (a.ea % 2 ^ 44) (bytes.map Prod.fst) (bytes.any Prod.snd))
  ((s.addUnacks acks).send { t with acks := acks, after := s.loadsOf x.e.uid (x.sharers a.strand) }).1

/-- A release's stores to memory, a request for each line; the names of their transactions. -/
def State.sendWrites (s : State) (x : Issue) (f : FmtM) (data : Acc → List (Byte × Bool)) (mem : List Acc) : State × List Nat :=
  (linesOf mem).foldl (fun b l =>
    let (s', id) := b.1.sendWrite x f (l.2.map fun a => (a, data a)) none
    (s', b.2 ++ [id])) (s, [])
/-- Stores to other modules' memory, likewise. -/
def State.sendPeerWrites (s : State) (x : Issue) (f : FmtM) (data : Acc → List (Byte × Bool)) (peers : List Acc) : State :=
  peers.foldl (fun s a => s.sendPeerWrite x f a (data a)) s

/-- UNACK has room for what the accesses add. -/
def State.unackRoom (s : State) (x : Issue) (accs : List Acc) : Bool :=
  let all := accs.flatMap fun a => x.accPlies a.strand
  (distinct all).all fun q => !s.unackFull x.e.uid q (all.filter (· == q)).length

/-- Relaxed stores enter the write-combining buffer in ascending order of strands. -/
def State.bufferAll (s : State) (core : Nat) (x : Issue) (l : List (Acc × List (Byte × Bool))) : Option State :=
  l.foldl (fun (r : Option State) e => r.bind fun s =>
    s.bufferStore core x.e.uid (x.accPlies e.1.strand) (s.loadsOf x.e.uid (x.sharers e.1.strand)) e.1.pa e.2 e.1.esr) (some s)

/-- `st.g` (R245): a release waits as Table 8.3 states and is performed at its home slice at once (log 13); a relaxed
store enters the write-combining buffer. -/
def State.storeGlobal (s : State) (x : Issue) (u : Use) (z : SizeZ) (f : FmtM) : Attempt :=
  let uid := x.e.uid
  let core := (s.cable uid).coreD
  let plies := distinct (x.ordered.map (· / 32))
  if x.contrib.isEmpty then .done s []
  else if s.acquiring uid x.ordered then .stall s
  else
    let rule : AccRule := { size := z.bytes, read := false, write := true, peer := true
                            sync := if f.ord != 0 then some f.ssc else none }
    match s.resolve x rule (x.accessors.map fun j => (j, s.ea x f j)) with
    | (_, .error t) => .fault t
    | (s1, .ok accs) =>
      let mem := accs.filter fun a => !a.peer
      let peers := accs.filter fun a => a.peer
      let data (a : Acc) := s.storeBytes x u z.bytes a.strand
      if !s1.unackRoom x accs then .stall s
      else if f.releases then
        let s2 := s1.drainPlies uid plies f.ssc
        if !s2.releaseHolds uid plies x.ordered f.ssc then .stall s2
        else if !s2.freeEntries core ((linesOf mem).length + peers.length) then .park s2
        else match s2.scopeChecks x f.ssc true mem with
          | .error t => .fault t
          | .ok s3 =>
            let (s4, ids) := s3.sendWrites x f data mem
            match s2.performNow s4 (s4.homeNow true ids) State.performWrite with
            | .error a => a
            | .ok s5 => .done (s5.sendPeerWrites x f data peers) []
      else if !s1.freeEntries core peers.length then .park s
      else match s1.bufferAll core x (mem.map fun a => (a, data a)) with
        | none => .park s
        | some s2 => .done (s2.sendPeerWrites x f data peers) []

/-! ### Atomics and reductions (R248 to R252) -/

/-- Drains the entries of each access's plies for its line (07 R190); whether all are gone. -/
def State.drainLines (s : State) (core : Nat) (x : Issue) (accs : List Acc) : State × Bool :=
  let each := accs.flatMap fun a => (x.accPlies a.strand).map fun q => (q, a.pa / 128)
  let s1 := each.foldl (fun s e => s.drainLine core x.e.uid e.1 e.2) s
  (s1, each.all fun e => s1.lineDrained core x.e.uid e.1 e.2)

/-- An access that adds in single precision: its flags come with its reply (R250). -/
def TxnKind.addsF32 : TxnKind → Bool
  | .atom .addF32 .. => true | .peerAtom _ _ .addF32 .. => true | _ => false

/-- One transaction for each access, counted in UNACK, after the loads of its strand: `kind` makes the transaction, `late`
its late destination. The names of the transactions. -/
def State.sendEach (s : State) (x : Issue) (f : FmtM) (kind : Acc → TxnKind) (late : Acc → Option LoadPart) (loads : Nat → List Nat)
    (accs : List Acc) : State × List Nat :=
  let uid := x.e.uid
  accs.foldl (fun b a =>
    let acks := x.acks a.strand
    let t := b.1.txnOf x f a (kind a)
    let (s', id) := (b.1.addUnacks acks).send { t with acks := acks, after := loads a.strand }
    (match late a with
      | some part => (s'.expect x id part.dests part.lats part.z.oty.wide).updCable uid fun c =>
          if (kind a).addsF32 then
            { c with board := c.board ++ (x.sharers a.strand).map fun j => (RegKey.fflags j, id) }
          else c
      | none => s', b.2 ++ [id])) (s, [])

/-- Sends one transaction for each access; synchronising ones are performed at once. -/
def State.writeAll (s : State) (x : Issue) (f : FmtM) (size : Nat) (near read : Bool) (kind : Acc → TxnKind)
    (late : Acc → Option LoadPart) : Attempt :=
  let uid := x.e.uid
  let core := (s.cable uid).coreD
  let plies := distinct (x.ordered.map (· / 32))
  if s.acquiring uid x.ordered then .stall s
  else
    let rule : AccRule := { size := size, read := read, write := true, peer := !near, near := near
                            sync := if f.ord != 0 then some f.ssc else none }
    match s.resolve x rule (x.accessors.map fun j => (j, s.ea x f j)) with
    | (_, .error t) => .fault t
    | (s1, .ok accs) =>
      let mem := accs.filter fun a => !a.peer
      let (s2, clear) := (if f.releases then s1.drainPlies uid plies f.ssc else s1).drainLines core x mem
      if !s2.unackRoom x accs then .stall s2
      else if f.releases && !s2.releaseHolds uid plies x.ordered f.ssc then .stall s2
      else if !clear || !s2.freeEntries core accs.length then .park s2
      else match (if f.ord != 0 then s2.scopeChecks x f.ssc true mem else .ok s2) with
        | .error t => .fault t
        | .ok s3 =>
          let (s4, ids) := s3.sendEach x f kind late (fun j => s2.loadsOf uid (x.sharers j)) accs
          match s2.performNow s4 (s4.homeNow (f.ord != 0) ids) State.performAtom with
          | .error a => a
          | .ok s5 => .done s5 []

end Sys2Proof.Machine
end

