-- ==== Sys2Proof/Machine/Scratch.lean ====
section
/-! DEFINITION. Scratchpad: what a bank applies, the bank queues, loads and stores of strands (07 R184, R185, R207;
09 R247; 12 R301, R307). -/
namespace Sys2Proof.Machine

/-! ### What a bank does -/

/-- Bytes of a cable's scratchpad with the poison of their granules. -/
def Cable.padRead (c : Cable) (off n : Nat) : List (Byte × Bool) :=
  (List.range n).map fun i => (c.spad.read (off + i), c.spadPsn.contains ((off + i) / 16))

/-- Bytes of an activation under a tag (12 R297). -/
def TableTag.width (t : TableTag) : Nat := if t.afmt = 3 then 2 else 1
/-- Positions that a register's tables cover: KT, or 4 × KT for G4 (13 R317). -/
def TableTag.positions (t : TableTag) : Nat := if t.g4 then 4 * t.kt else t.kt
/-- The end of a scratchpad source's span (12 R297). -/
def TableTag.spanEnd (t : TableTag) : Nat := t.lo + (t.m - 1) * t.rstr + t.positions * t.width

/-- Marks stale the tables whose source holds one of the written bytes (12 R301). -/
def Cable.stalePad (c : Cable) (offs : List Nat) : Cable :=
  if c.tables.isEmpty then c else
  { c with tables := c.tables.map fun (t, x) =>
      if x.tag.kind = 1 ∧ (offs.any fun o => x.tag.lo ≤ o && o < x.tag.spanEnd) = true
      then (t, { x with tag := { x.tag with stale := true } }) else (t, x) }

/-- Banks apply a write of bytes by offset: granules' poison (16 R372), one count for each 8-byte word written (12 R307),
staleness (12 R301). -/
def Cable.padWrite (c : Cable) (bytes : List (Nat × Byte × Bool)) : Cable :=
  let offs := bytes.map Prod.fst
  let words := distinct (offs.map (· / 8))
  let grans := distinct (offs.map (· / 16))
  let c1 : Cable :=
    { c with
      spad := bytes.foldl (fun (m : Memory) (e : Nat × Byte × Bool) => Memory.write e.1 e.2.1 m) c.spad
      spadPsn := grans.foldl (fun (l : List Nat) (g : Nat) =>
        let mine := bytes.filter fun (e : Nat × Byte × Bool) => e.1 / 16 == g
        if mine.any fun e => e.2.2 then setInsert g l
        else if (distinct (mine.map Prod.fst)).length = 16 then setErase g l
        else l) c.spadPsn
      unitCounts := words.foldl (fun (u : SMap Nat) (w : Nat) => u.insert (w / 512) ((u.getD (w / 512) 0 + 1) % 2 ^ 64)) c.unitCounts
      cmds := if c.cmds.isEmpty then c.cmds else c.cmds.map fun m =>
        match m.instr with
        | .tbfill _ => if m.progress = 0 then m else { m with touched := offs.foldl (fun l o => setInsert o l) m.touched }
        | _ => m }
  c1.stalePad offs

/-- Contiguous bytes from an offset. -/
def Cable.padWriteAt (c : Cable) (off : Nat) (bytes : List (Byte × Bool)) : Cable :=
  c.padWrite ((List.range bytes.length).zipWith (fun i b => (off + i, b)) bytes)

/-- The banks apply the engines' writes of chosen paths and 16-byte granules that wait for them, oldest first (08 R231). -/
def Cable.landWrites (c : Cable) (sel : LateWrite → Nat → Bool) : Cable :=
  c.late.foldl (fun (c : Cable) w =>
    let now := w.bytes.filter fun b => sel w (b.1 / 16)
    let rest := w.bytes.filter fun b => !sel w (b.1 / 16)
    let c1 := if now.isEmpty then c else c.padWrite now
    if rest.isEmpty then c1 else { c1 with late := c1.late ++ [{ w with bytes := rest }] }) { c with late := [] }

/-- Every write that the engines of a path have made of a cable's scratchpad takes effect (08 Table 8.4). -/
def State.landPath (s : State) (uid : Nat) (p : Path) : State :=
  if (s.cable uid).late.isEmpty then s else s.updCable uid fun c => c.landWrites fun w _ => w.path == p

/-- The scratchpad writes of copy commands that have completed take effect before a copy command that issues now: its ply may have
observed them (11 R281; of a completed command that it has not observed too, DESIGN CHOICE, log 147). -/
def Cable.landObserved (c : Cable) : Cable :=
  if c.late.isEmpty then c
  else c.landWrites fun w _ => w.path == .copy && !c.cmds.any fun m => m.id == w.op && m.state != .done

/-! ### Bank queues (R184) -/

def bankOfOff (off : Nat) : Nat := off / 8 % 32
def Core.bank (k : Core) (b : Nat) : List BankReq := k.banks.getD b []

/-- The queue of an offset's bank holds its 16 entries. -/
def State.bankFull (s : State) (core off : Nat) : Bool := decide (16 ≤ ((s.core core).bank (bankOfOff off)).length)
/-- An access enters the queue of its bank. -/
def State.bankPush (s : State) (core : Nat) (r : BankReq) : State :=
  s.updCore core fun k => { k with banks := k.banks.insert (bankOfOff r.off) (k.bank (bankOfOff r.off) ++ [r]) }

/-- The section of the pool that holds a cable's scratchpad offset (R183). -/
def Cable.sectionOf (c : Cable) (off : Nat) : Nat := c.units.getD (off / 4096) 0 / 32
/-- The access at the head of a bank's queue waits: its section is waking (R205), or, a store, it follows loads that have
not returned (08 R214). -/
def State.bankWaits (s : State) (core : Nat) (r : BankReq) : Bool :=
  (s.core core).waking.contains ((s.cable r.uid).sectionOf r.off) || (r.store.isSome && !s.loadsReturned core r.after)

/-- A bank without a queued access applies the engines' writes that wait for it: whole granules, each of two banks, of the
cables on its core, but for sections that are waking (log 35). -/
def State.landBank (s : State) (core b : Nat) : State :=
  { s with cables := s.cables.map fun (e : Nat × Cable) => (e.1,
      if e.2.late.isEmpty || e.2.coreD != core then e.2
      else e.2.landWrites fun _ g => g % 16 == b / 2 && !(s.core core).waking.contains (e.2.sectionOf (16 * g))) }

/-- A bank serves its oldest access: a store is applied, a load's value is delivered. -/
def State.bankServe (s : State) (core b : Nat) : State :=
  match (s.core core).bank b with
  | [] => s.landBank core b
  | r :: rest =>
    if s.bankWaits core r then s else
    let s1 := s.updCore core fun k =>
      { k with banks := if rest.isEmpty then k.banks.erase b else k.banks.insert b rest }
    match r.store with
    | some bytes => s1.updCable r.uid fun c => c.padWriteAt r.off bytes
    | none => r.parts.foldl (fun s p => s.deliverPart r.uid r.op p ((s.cable r.uid).padRead p.pa p.z.bytes)) s1

/-- A range of a cable's scratchpad that an engine is to reach waits for its banks: accesses that arrived before are still in
their queues, or a section is waking (R184, R205, 11 R282; log 35). -/
def State.padBusy (s : State) (uid off n : Nat) : Bool :=
  let c := s.cable uid
  ((s.bankReqs c.coreD).any fun b => b.uid == uid && decide (b.off / 8 ≤ (off + n - 1) / 8 ∧ off / 8 ≤ b.off / 8)) ||
  (!(s.core c.coreD).waking.isEmpty && (List.range ((off + n + 4095) / 4096 - off / 4096)).any fun i =>
    (s.core c.coreD).waking.contains (c.sectionOf (off / 4096 * 4096 + 4096 * i)))

/-! ### Loads and stores of strands (R245, R247) -/

/-- The checks on a strand's scratchpad address (Table 9.1, R185, R385). -/
def State.padTrouble (s : State) (x : Issue) (strand ea n : Nat) (write : Bool) : Option Trouble :=
  let c := s.cable x.e.uid
  let t : Trouble := { cause := 5, strand := some strand, addr := ea, write := write }
  if 2 ^ 20 ≤ ea then some t
  else if ea % n ≠ 0 then some { t with cause := 6 }
  else if c.spadBytes < ea + n then some t
  else s.watchTrouble x strand ea { size := n, read := !write, write := write }

def State.padTroubles (s : State) (x : Issue) (n : Nat) (write : Bool) (l : List (Nat × Nat)) : Option Trouble :=
  match l.findSome? fun e => s.padTrouble x e.1 e.2 n write with
  | none => none
  | some t => some { t with count := (l.filter fun e => ((s.padTrouble x e.1 e.2 n write).map Trouble.cause) == some t.cause).length }

/-- The segment that holds an offset. -/
def Cable.segAt (c : Cable) (off : Nat) : Option Seg := c.segs.find? (off / 4096)

/-- A store of a ply to an owned segment has not returned. -/
def State.segStoring (s : State) (uid p seg : Nat) : Bool :=
  s.txns.vals.any fun t => t.acks.contains (uid, p) && (match t.kind with | .write _ _ (some g) => g == seg | _ => false)

/-- A load of plies waits for its segment (Table 7.8). -/
def State.segWaits (s : State) (uid : Nat) (ps : List Nat) (off : Nat) : Bool :=
  match (s.cable uid).segAt off with
  | none => false
  | some g => g.state != .current || ps.any fun p => s.segStoring uid p (off / 4096)

/-- Lanes' loads enter the queues of their banks: lanes that read one 8-byte word share an access. The lanes that full
queues keep out. -/
def State.padLoads (s : State) (x : Issue) (d : Dest) (z : SizeZ) (f : FmtM) (l : List PadLane) : State × List PadLane :=
  let uid := x.e.uid
  let core := (s.cable uid).coreD
  (distinct (l.map fun e => e.off / 8)).foldl (fun b w =>
    let mine := l.filter fun e => e.off / 8 == w
    if b.1.bankFull core (w * 8) then (b.1, b.2 ++ mine) else
    let (s1, op) := b.1.newOp
    let parts := mine.map fun e => x.part d z e.strand e.off []
    let strands := if x.scope = .strand then mine.map PadLane.strand else x.members
    let s2 := parts.foldl (fun s p => s.expect x op p.dests p.lats p.z.oty.wide) s1
    let s3 := if f.split then mine.foldl (fun s e =>
        s.updStrandClause uid e.strand fun cl => { cl with splits := cl.splits ++ [(e.strand, op)] }) s2 else s2
    (s3.bankPush core { op := op, uid := uid, plies := distinct (mine.flatMap fun e => x.accPlies e.strand), off := w * 8, store := none
                        acq := f.acquires, strands := strands, parts := parts }, b.2)) (s, [])

/-- Lanes' stores likewise, in ascending order of strands, each after the loads of its strand. -/
def State.padStores (s : State) (x : Issue) (l : List PadLane) : State × List PadLane :=
  let uid := x.e.uid
  let core := (s.cable uid).coreD
  l.foldl (fun b e =>
    if b.1.bankFull core e.off then (b.1, b.2 ++ [e])
    else (b.1.bankPush core { op := 0, uid := uid, plies := x.accPlies e.strand, off := e.off, store := e.store, strands := [e.strand]
                              after := b.1.loadsOf uid (x.sharers e.strand) }, b.2)) (s, [])

/-- The instruction is complete when every lane has entered; until then it holds its issue slot (R184). -/
def State.padsLeft (s : State) (x : Issue) (rest : List PadLane) : Attempt :=
  if rest.isEmpty then .done s []
  else .stall (s.updClause x.e.uid x.e.ply x.e.gid fun cl => { cl with pads := rest })

/-- `ld.p`: each lane's access enters the queue of its bank. -/
def State.loadPad (s : State) (x : Issue) (d : Dest) (z : SizeZ) (f : FmtM) : Attempt :=
  let uid := x.e.uid
  let l := x.accessors.map fun j => (j, s.ea x f j)
  if s.goesOn x.e then
    let out := s.padLoads x d z f (s.envClause x.e).pads
    out.1.padsLeft x out.2
  else if x.contrib.isEmpty then .done (if x.scope = .strand then s else s.idleLatch x d) []
  else if s.acquiring uid x.ordered then .stall s
  else match s.padTroubles x z.bytes false l with
  | some t => .fault t
  | none =>
    if l.any fun e => s.segWaits uid (x.accPlies e.1) e.2 then .stall s
    else
      let out := s.padLoads x d z f (l.map fun e => ⟨e.1, e.2, none⟩)
      out.1.padsLeft x out.2

/-- The accesses of lanes' stores that fall in owned segments. -/
def Cable.ownedAccs (c : Cable) (l : List (Nat × Nat)) : List Acc :=
  l.filterMap fun e => (c.segAt e.2).map fun g => { strand := e.1, ea := g.va + e.2 % 4096, pa := g.range * 4096 + e.2 % 4096 }

/-- Stores into owned segments, as relaxed writes of the subscribed ranges. -/
def State.padWrites (s : State) (x : Issue) (u : Use) (z : SizeZ) (f : FmtM) (c : Cable) (l : List (Nat × Nat)) : State :=
  l.foldl (fun s e => match c.segAt e.2 with
    | none => s
    | some g =>
      (s.sendWrite x { f with ord := 0, ssc := 0 }
        [({ strand := e.1, ea := g.va + e.2 % 4096, pa := g.range * 4096 + e.2 % 4096, esr := g.esr }, s.storeBytes x u z.bytes e.1)]
        (some (e.2 / 4096))).1) s

/-- The scope at which a scratchpad access acts: the cable's where SSC names a wider one (08 R212). -/
def padSsc (ssc : BitVec 3) : BitVec 3 := if ssc.toNat ≤ 1 then ssc else 1

/-- `st.p`: into the queues of the banks; to an owned segment as a write of its range; a shared segment faults. -/
def State.storePad (s : State) (x : Issue) (u : Use) (z : SizeZ) (f : FmtM) : Attempt :=
  let uid := x.e.uid
  let c := s.cable uid
  let core := c.coreD
  let plies := distinct (x.ordered.map (· / 32))
  let l := x.accessors.map fun j => (j, s.ea x f j)
  if s.goesOn x.e then
    let out := s.padStores x (s.envClause x.e).pads
    out.1.padsLeft x out.2
  else if x.contrib.isEmpty then .done s []
  else if s.acquiring uid x.ordered then .stall s
  else match s.padTroubles x z.bytes true l with
  | some t => .fault t
  | none =>
    if l.any fun e => match c.segAt e.2 with | some g => g.state != .current | none => false then .stall s
    else match l.find? fun e => match c.segAt e.2 with | some g => !g.owned | none => false with
    | some e => .fault { cause := 14, strand := some e.1, addr := e.2, write := true
                         count := (l.filter fun e => match c.segAt e.2 with | some g => !g.owned | none => false).length }
    | none =>
      let s1 := if f.releases then s.drainPlies uid plies else s
      if f.releases && !s1.releaseHolds uid plies x.ordered (padSsc f.ssc) then .stall s1
      else
        let own := c.ownedAccs l
        let plain := l.filter fun e => (c.segAt e.2).isNone
        let (s2, clear) := s1.drainLines core x own
        if !s2.unackRoom x own then .stall s2
        else if !clear || !s2.freeEntries core own.length then .park s2
        else
          let out := (s2.padWrites x u z f c l).padStores x
            (plain.map fun e => ⟨e.1, e.2, some (s.storeBytes x u z.bytes e.1)⟩)
          out.1.padsLeft x out.2

end Sys2Proof.Machine
end

