-- ==== Sys2Proof/Machine/Engine.lean ====
section
/-! DEFINITION. What the rows of format E share (03 R69; 11 R271 to R274): their operands, their counter and their
token. -/
namespace Sys2Proof
open Machine

/-! The field codes of 16 R371 are those of DST, SA and SB, whose bits the operands of format E take (log 19). -/

def FmtE.useD (f : FmtE) (ty : OTy) (span : Nat := 0) : Use := { code := 0, op := .ofField f.opd, ty := ty, span := span }
def FmtE.useA (f : FmtE) (ty : OTy) (span : Nat := 0) : Use := { code := 1, op := .ofField f.opa, ty := ty, span := span }
def FmtE.useB (f : FmtE) (ty : OTy) (span : Nat := 0) : Use := { code := 2, op := .ofField f.opb, ty := ty, span := span }

end Sys2Proof

namespace Sys2Proof.Machine

/-- The token registers of a command issued for `strand` (R69). -/
def Issue.tokens (x : Issue) (f : FmtE) (strand : Nat) : List RegKey :=
  if !f.te then []
  else match x.scope with
    | .strand => [.s (strand / 32) f.tok.toNat]
    | .ply => [.s (strand / 32) f.tok.toNat]
    | _ => (distinct (x.contrib.map (· / 32))).map fun q => .s q f.tok.toNat
/-- The token register that a strand's issue waits for. -/
def FmtE.tokenKey (f : FmtE) (strand : Nat) : List RegKey := if f.te then [.s (strand / 32) f.tok.toNat] else []

/-- The counter of a command has room for `n` more operations (R271). -/
def State.roomFor (s : State) (uid : Nat) (f : FmtE) (n : Nat) : Bool := !f.ce || (s.cable uid).counterRoom f.cnt.toNat n

/-- A command issues under a name: its counter rises, its token register waits for the token. -/
def State.announce (s : State) (x : Issue) (f : FmtE) (strand op : Nat) : State :=
  let s1 := if f.ce then s.countUp x.e.uid f.cnt.toNat op (strand / 32) else s
  let ks := x.tokens f strand
  if ks.isEmpty then s1 else s1.expect x op [ks] [] false

/-- A command of a strand completes: its token is written, then its counter signals (R273). -/
def State.complete (s : State) (uid op who : Nat) (tok : List RegKey) (token : W32) (cnt : Option Nat) : State :=
  let s1 := if tok.isEmpty then s else s.deliver uid op who false (tok.map fun k => [k]) [] (token.setWidth 64) false
  match cnt with
  | some n => s1.countDone uid n op
  | none => s1

/-- The value of an operand read for a strand. -/
def State.valueOf (s : State) (x : Issue) (u : Use) (strand : Nat) : Nat := (s.readOp x.e strand x.lay u.op u.ty).1

end Sys2Proof.Machine
end

