-- ==== Sys2Proof/Machine/CopyPlan.lean ====
section
/-! DEFINITION. Engine commands from issue to unit: their operands, room, addresses; the moves of a copy command
(11 R279 to R284, R290; 16 R381). -/
namespace Sys2Proof.Machine

/-! ### Issue -/

/-- `n` consecutive registers of an operand read for a strand; a constant delivers its pattern. -/
def State.regsOf (s : State) (x : Issue) (u : Use) (strand n : Nat) : List PReg :=
  match u.op with
  | .c _ =>
    let v := (s.readOp x.e strand x.lay u.op u.ty).1
    (List.range n).map fun i => ⟨BitVec.ofNat 32 (v / 2 ^ (32 * i)), false⟩
  | _ => (List.range n).map fun i => s.readOne x.e strand x.lay u.op i

/-- A group operand of `k` registers (11, 13). -/
def groupOf (k : Nat) : Operand → Bool
  | .v n => n % k == 0
  | .s n => n % k == 0
  | .k n => n % k == 0
  | .y n => n % k == 0 && n + k ≤ 16
  | .o n => n % k == 0 && n + k ≤ 8
  | _ => false

/-- A command as it issues: the operands of format E for one strand. -/
def State.newCmd (s : State) (x : Issue) (f : FmtE) (i : Instr) (path : Path) (strand : Nat) (d a b : List PReg) : Cmd :=
  { id := 0, path := path, instr := i, word := x.word, pc := x.addr, ply := strand / 32, strand := strand, scope := x.scope
    d := d, a := a, b := b, ce := f.ce, cnt := f.cnt.toNat, te := f.te, tok := x.tokens f strand
    super := (s.cable x.e.uid).priv != 0 }

/-- A command enters its engine: a copy command after every write of those that its ply has observed (R281). -/
def State.enterCmd (s : State) (x : Issue) (f : FmtE) (m : Cmd) : State :=
  let (s1, id) := s.newOp
  (s1.updCable x.e.uid fun c =>
    let c := if m.path = .copy then c.landObserved else c
    { c with cmds := c.cmds ++ [{ m with id := id }] }).announce x f m.strand id

/-- Commands enter their engine in order. -/
def State.enterAll (s : State) (x : Issue) (f : FmtE) (l : List Cmd) : State := l.foldl (fun s m => s.enterCmd x f m) s

/-- Commands of a path on a core that have issued and not completed. -/
def State.engineLoad (s : State) (core : Nat) (path : Path) : Nat :=
  s.cables.foldl (fun n e =>
    if e.2.core? = some core then n + (e.2.cmds.filter fun m => m.path == path && m.state != .done).length else n) 0

/-- Issues commands on a path that holds at most `limit` on a core: at most 256 of a cable (R381), a counter with room,
and the engine not full, which is a stop point (16 R367). All commands of a strand-scope instruction issue in one step, once there
is room for all of them; R279 does not say whether some would issue first (DESIGN CHOICE, log 148). -/
def State.issueAll (s : State) (x : Issue) (f : FmtE) (path : Path) (limit : Nat) (l : List Cmd) : Attempt :=
  let c := s.cable x.e.uid
  if !s.roomFor x.e.uid f l.length || 256 < c.cmds.length + l.length then .stall s
  else if limit < s.engineLoad c.coreD path + l.length then .park s
  else .done (s.enterAll x f l) []

/-- The commands of the accessing strands. -/
def State.engineCmds (s : State) (x : Issue) (path : Path) (i : Instr) (f : FmtE) (uses : List (Use × Nat)) : List (Nat × Cmd) :=
  let regs (j : Nat) (k : Nat) : List PReg := match uses[k]? with | some u => s.regsOf x u.1 j u.2 | none => []
  x.accessors.map fun j => (j, s.newCmd x f i path j (regs j 0) (regs j 1) (regs j 2))

/-- A row that issues commands of a path whose operands are OPD, OPA and OPB, each with its count of registers: the checks
of `check` for each accessor, then all of them issue. -/
def engineRow (path : Path) (limit : Nat) (i : Instr) (f : FmtE) (uses : List (Use × Nat))
    (check : State → Cable → Cmd → Option Trouble) (priv : State → Env → Bool := fun _ _ => true) : Row :=
  { srcs := uses.map Prod.fst, latch := .clear, priv := priv, extra := FmtE.tokenKey f
    act := fun s x =>
      let cmds := s.engineCmds x path i f uses
      match cmds.findSome? fun e => (check s (s.cable x.e.uid) e.2).map fun t => { t with strand := some e.1 } with
      | some t => .fault t
      | none => s.issueAll x f path limit (cmds.map Prod.snd) }

/-! ### Addresses (R280) -/

def pairNat (l : List PReg) : Nat := (W64.ofPair (l.getD 0 {}).val (l.getD 1 {}).val).toNat
def regNat (l : List PReg) (i : Nat) : Nat := (l.getD i {}).val.toNat
def regInt (l : List PReg) (i : Nat) : Int := (l.getD i {}).val.toInt

/-- A place a command reaches: an offset in its cable's scratchpad, or a virtual address. -/
inductive Loc where
  | pad (off : Int)
  | va (a : Int)
deriving DecidableEq, Repr, Inhabited

/-- An address operand moved by a distance. -/
def locOf (base : Nat) (delta : Int) : Loc :=
  if 2 ^ 63 ≤ base then .pad (((base % 2 ^ 20 : Nat) : Int) + delta) else .va ((base : Int) + delta)

/-- The form of an address operand. -/
def formOk (base : Nat) : Bool := base < 2 ^ 63 || base / 2 ^ 20 % 2 ^ 43 == 0

/-- Bytes from a virtual address lie in the space and outside the peer window. -/
def vaOk (a : Int) (n : Nat) : Bool := 0 ≤ a && decide (a + n ≤ 0x0F00000000000000)

/-- A range lies where a command may reach. -/
def Loc.ok (c : Cable) (n : Nat) : Loc → Bool
  | .pad off => 0 ≤ off && decide (off + n ≤ c.spadBytes)
  | .va a => vaOk a n
def Loc.addr : Loc → Nat | .pad off => off.toNat | .va a => a.toNat

/-! ### Copy commands -/

/-- The shape of a moving copy command (Table 11.2): rows of `rowb` bytes, or elements chosen by an index vector. -/
structure CopyShape where
  dst : Nat
  src : Option Nat
  rowb : Nat := 0
  rows : Nat := 0
  sstr : Int := 0
  dstr : Int := 0
  /-- index vector, its length, bytes of an element; whether the indices place the destination -/
  ix : Option Nat := none
  count : Nat := 0
  es : Nat := 0
  scatter : Bool := false
deriving DecidableEq, Repr, Inhabited

/-- The shape of a command that moves bytes. -/
def Cmd.shape (m : Cmd) : Option CopyShape :=
  let d := pairNat m.d
  let a := pairNat m.a
  let line (src : Option Nat) : CopyShape := { dst := d, src := src, rowb := regNat m.b 0, rows := 1 }
  let byIndex (sc : Bool) : CopyShape :=
    { dst := d, src := some a, ix := some (pairNat m.b), count := regNat m.b 2, es := regNat m.b 3, scatter := sc }
  match m.instr with
  | .cp1d _ => some (line (some a))
  | .cpZero _ => some (line none)
  | .cp2d _ => some { dst := d, src := some a, rowb := regNat m.b 0, rows := regNat m.b 1, sstr := regInt m.b 2, dstr := regInt m.b 3 }
  | .cpGth _ => some (byIndex false)
  | .cpSct _ => some (byIndex true)
  | _ => none

/-- Units of Table 11.4 that the command has in all: bytes, or elements. -/
def CopyShape.total (p : CopyShape) : Nat := if p.ix.isSome then p.count else p.rowb * p.rows

/-- Where row `r` begins on a side. -/
def CopyShape.rowAt (base : Nat) (stride : Int) (r : Nat) : Loc := locOf base (stride * r)

/-- The base that an index vector counts from: a virtual one is an address outside the peer window (R280). -/
def baseOf (b : Nat) : Loc × Nat := (locOf b 0, if b < 2 ^ 63 then 1 else 0)

/-- The ranges that the command names on its destination and source sides, the outermost of the rows. -/
def CopyShape.ends (p : CopyShape) : List (Loc × Nat) :=
  match p.ix with
  | none =>
    ([0, p.rows - 1].flatMap fun r => (CopyShape.rowAt p.dst p.dstr r, p.rowb) ::
      (match p.src with | some a => [(CopyShape.rowAt a p.sstr r, p.rowb)] | none => []))
  | some v =>
    [(locOf v 0, 4 * p.count)] ++
    (if p.scatter then [baseOf p.dst, (locOf (p.src.getD 0) 0, p.count * p.es)]
     else [(locOf p.dst 0, p.count * p.es), baseOf (p.src.getD 0)])

/-- The scratchpad ranges that the command writes; a scatter may write anywhere from its base on. -/
def CopyShape.padDests (p : CopyShape) (c : Cable) : List (Nat × Nat) :=
  if p.dst < 2 ^ 63 then [] else
  match p.ix with
  | none => (List.range p.rows).map fun r => ((CopyShape.rowAt p.dst p.dstr r).addr, p.rowb)
  | some _ => let off := p.dst % 2 ^ 20; [(off, if p.scatter then c.spadBytes - off else p.count * p.es)]

/-- A copy in flight writes a segment (R284). -/
def Cable.copyWrites (c : Cable) (seg : Nat) : Bool :=
  c.cmds.any fun m => m.state != .done && match m.shape with
    | some p => (p.padDests c).any fun r => r.1 < (seg + 1) * 4096 && seg * 4096 < r.1 + r.2
    | none => false

/-- The destinations of the moves may meet: elements of a scatter, rows that lie closer than their length. -/
def CopyShape.inOrder (p : CopyShape) : Bool := p.scatter || (p.ix.isNone && 1 < p.rows && p.dstr.natAbs < p.rowb)

/-- The fields of the operands are within Table 11.2. -/
def CopyShape.fieldsOk (p : CopyShape) (i : Instr) : Bool :=
  match i with
  | .cp2d _ => 16 ≤ p.rowb && p.rowb ≤ 2 ^ 20 && p.rowb % 16 == 0 && 1 ≤ p.rows && p.rows ≤ 65536 && p.sstr % 16 == 0 && p.dstr % 16 == 0
  | .cpGth _ | .cpSct _ => 1 ≤ p.count && p.count ≤ 2 ^ 20 && [4, 8, 16, 32, 64, 128, 256, 512, 1024, 2048, 4096].contains p.es
  | _ => 16 ≤ p.rowb && p.rowb ≤ 2 ^ 30 && p.rowb % 16 == 0

/-- The alignment of the address operands. -/
def CopyShape.aligned (p : CopyShape) : Bool :=
  let k := if p.ix.isSome then p.es else 16
  p.dst % k == 0 && (match p.src with | some a => a % k == 0 | none => true) &&
  (match p.ix with | some v => v % 4 == 0 | none => true)

/-- The checks of a moving command at issue (R284). -/
def CopyShape.check (p : CopyShape) (c : Cable) (i : Instr) : Option Trouble :=
  let forms := formOk p.dst && (match p.src with | some a => formOk a | none => true) && (match p.ix with | some v => formOk v | none => true)
  if !p.fieldsOk i || !forms then some { cause := 2 }
  else if !p.aligned then some { cause := 6 }
  else match p.ends.find? fun e => !e.1.ok c e.2 with
    | some e => some { cause := 5, addr := e.1.addr }
    | none =>
      let taken (r : Nat × Nat) : Bool := c.segs.any fun e => r.1 < (e.1 + 1) * 4096 && e.1 * 4096 < r.1 + r.2
      if p.scatter then none
      else match (p.padDests c).find? taken with
        | some r => some { cause := 14, addr := r.1, write := true }
        | none => none

/-- Where a move takes its bytes from. -/
inductive MoveSrc where
  | zero
  | at_ (l : Loc)
  /-- its index, at a place, is poisoned -/
  | badIndex (l : Loc)
deriving DecidableEq, Repr, Inhabited

/-- One granule or element of a unit. -/
structure Move where
  src : MoveSrc
  dst : Loc
  n : Nat
deriving DecidableEq, Repr, Inhabited

/-- The moves of the unit at a progress in row-major order: granules of 16 bytes. -/
def CopyShape.granules (p : CopyShape) (progress : Nat) : List Move :=
  (List.range ((min 4096 (p.total - progress)) / 16)).map fun i =>
    let q := progress + 16 * i
    let r := q / p.rowb
    let col : Int := (q % p.rowb : Nat)
    { src := match p.src with | some a => .at_ (locOf a (p.sstr * r + col)) | none => .zero
      dst := locOf p.dst (p.dstr * r + col), n := 16 }

/-- Elements of the unit at a progress. -/
def CopyShape.unitCount (p : CopyShape) (progress : Nat) : Nat :=
  if p.ix.isSome then min (4096 / p.es) (p.count - progress) else min 4096 (p.total - progress)

/-- The moves of elements under indices, each with its poison; an element that a scatter leaves unwritten has no bytes. -/
def CopyShape.elements (p : CopyShape) (progress : Nat) (idx : List (Nat × Bool)) : List Move :=
  ((List.range idx.length).zip idx).map fun e =>
    let j := progress + e.1
    let near : Int := (j * p.es : Nat)
    let far : Int := (e.2.1 * p.es : Nat)
    if e.2.2 then { src := .badIndex (locOf (p.ix.getD 0) (4 * j : Nat)), dst := locOf p.dst near, n := if p.scatter then 0 else p.es }
    else { src := .at_ (locOf (p.src.getD 0) (if p.scatter then near else far))
           dst := locOf p.dst (if p.scatter then far else near), n := p.es }

end Sys2Proof.Machine
end

