-- ==== Sys2Proof/Machine/Commands.lean ====
section
/-! DEFINITION. Engine commands from unit to completion: what they reach in memory, how a fault suspends one, its
reports, its completion (11 R282, R285, R286; 16 R363, R364, R366, R369, R377; 08 R230). -/
namespace Sys2Proof.Machine

/-! ### Records -/

/-- Why a unit cannot be performed. -/
structure EngineFault where
  cause : Nat
  addr : Nat := 0
  detail : Nat := 0
  write : Bool := false
  page : Option Nat := none
  unpop : Bool := false
deriving DecidableEq, Repr, Inhabited

/-- The number of an engine path, which is also the kind of its issuer (Table 16.2), and in EPT one less. -/
def Path.code : Path → Nat | .mem => 0 | .copy => 1 | .la => 2 | .srch => 3 | .fab => 4

/-- What every record of a command says; no strand faults, so COUNT and STRAND are zero. -/
def Cmd.record (m : Cmd) (c : Cable) (issuer : Nat) : FRec :=
  { cause := 0, super := m.super, issuer := issuer, ce := m.ce, cnt := if m.ce then m.cnt else 0, part := c.part, ply := m.ply
    cid := c.cid, pc := m.pc, progress := m.progress, instr := m.word }

/-- Posts a record of class R: nothing stops. While its cable is being saved an event posts none (16 R383). -/
def State.reportCmd (s : State) (uid : Nat) (m : Cmd) (issuer : Nat) (f : FRec → FRec) : State :=
  let c := s.cable uid
  if c.saving.isSome then s
  else
    let (s1, n) := s.nextEngSeq issuer
    s1.postFor c (f { m.record c issuer with seq := n })

/-- A command waits for an answer (R285, R310): it posts a record, or joins the unanswered one of its page (R377); the
plies given are halted, `none` halting none and an empty list all. -/
def State.suspendCmd (s : State) (uid : Nat) (m : Cmd) (issuer : Nat) (halts : Option (List Nat)) (t : EngineFault) : State :=
  let c := s.cable uid
  let me := Stopped.cmd uid m.id
  let stop (s : State) (h : Nat) : State :=
    let s1 := s.updCmd uid m.id fun k => { k with state := .suspended, handle := h, checkStale := true }
    match halts with
    | some plies => s1.haltPlies uid h plies []
    | none => s1
  match t.page.bind (s.pageHandle c.ctx) with
  | some h => stop (s.joinHandle c.ctx h.h me) h.h
  | none =>
    let h := s.nextHandle
    let s1 := { s with nextHandle := h + 1 }.reportCmd uid m issuer fun r =>
      { r with cause := t.cause, restart := causeRestarts t.cause (t.cause == 20) t.unpop, coal := t.cause == 7 || t.cause == 8
               write := t.write, halt := halts.isSome, addr := t.addr, detail := t.detail, handle := h }
    stop (s1.updCtx c.ctx fun x => { x with handles := x.handles ++
      [{ h := h, cause := t.cause, engine := true, atHeader := false, detail := t.detail, page := t.page, agents := [me]
         toFirmware := c.superLaunch }] }) h

/-- A record of the issuer for the cable still waits for room (R366). -/
def State.recordsWait (s : State) (c : Cable) (issuer : Nat) : Bool :=
  ((s.ctx c.ctx).fqWaiting ++ (s.part c.part).fwWaiting).any fun r => r.issuer == issuer && r.cid == c.cid

/-! ### Memory as an engine reaches it (R231, R285) -/

/-- A page that a unit reads or writes. -/
structure Reach where
  va : Int
  write : Bool
deriving DecidableEq, Repr, Inhabited

/-- Translates the pages of a unit: the physical page and ESR bit of each, or the fault at the lowest address. -/
def State.reachPages (s : State) (ctx : Nat) (super : Bool) (l : List Reach) : State × Except EngineFault (SMap Phys) :=
  let lower (a : Except EngineFault (SMap Phys)) (t : EngineFault) : Except EngineFault (SMap Phys) :=
    match a with | .error u => if t.addr < u.addr then .error t else a | .ok _ => .error t
  l.foldl (fun (b : State × Except EngineFault (SMap Phys)) r =>
    if !vaOk r.va 1 then (b.1, lower b.2 { cause := 5, addr := r.va.toNat, write := r.write })
    else
      let va := r.va.toNat
      match b.1.translateEngine ctx va (if r.write then .write else .read) !super with
      | (s1, .error t) => (s1, lower b.2 { cause := t.cause, addr := va, detail := t.detail, write := r.write, unpop := t.cause == 5
                                           page := t.page va })
      | (s1, .ok p) => (s1, match b.2 with
        | .ok m => .ok (m.insert (va / 4096) { p with pa := p.pa / 4096 * 4096 })
        | e => e)) (s, .ok [])

/-- The pages of places of given sizes, each once for reading and once for writing; each at the lowest address the unit
reaches in it. -/
def pagesOf (l : List (Loc × Nat × Bool)) : List Reach :=
  let all := l.flatMap fun e => match e.1 with
    | .va a =>
      let first := a.fdiv 4096
      let last := (a + (max e.2.1 1 : Nat) - 1).fdiv 4096
      (List.range ((last - first).toNat + 1)).map fun (i : Nat) => ({ va := if i = 0 then a else (first + i) * 4096, write := e.2.2 } : Reach)
    | .pad _ => []
  all.foldl (fun (acc : List Reach) r =>
    match acc.find? fun q => q.va.fdiv 4096 == r.va.fdiv 4096 && q.write == r.write with
    | none => acc ++ [r]
    | some q => if r.va < q.va then acc.map fun k => if k = q then r else k else acc) []

/-- The physical address behind a virtual one. -/
def physOf (m : SMap Phys) (va : Nat) : Nat := (m.getD (va / 4096) default).pa + va % 4096

/-- The bytes that a unit reads come into the LLC. -/
def State.touchPlaces (s : State) (m : SMap Phys) (l : List (Loc × Nat × Bool)) : State :=
  l.foldl (fun (s : State) e => match e.1 with
    | .va a => if e.2.2 then s else
        let a := a.toNat
        (List.range ((a % 128 + e.2.1 + 127) / 128)).foldl (fun (s : State) i =>
          let lo := max a (a / 128 * 128 + 128 * i)
          let pa := physOf m lo
          if s.cacheable pa then s.touchBlock (pa / 128) (pa % 128) (min (a + e.2.1) (a / 128 * 128 + 128 * (i + 1)) - lo) else s) s
    | .pad _ => s) s

/-- Reads bytes of a place whose pages are translated. -/
def State.readLoc (s : State) (uid : Nat) (m : SMap Phys) (l : Loc) (n : Nat) : List (Byte × Bool) :=
  match l with
  | .pad off => (s.cable uid).padRead off.toNat n
  | .va a => (List.range n).flatMap fun i => s.fetchBytes (physOf m (a.toNat + i)) 1

/-- Engine writes of memory cells, each with the ESR bit of its page, are performed at their home slices: the largest W′ and
the updates stand in the command. -/
def State.writeCells (s : State) (uid cmd : Nat) (cells : List ((Nat × Byte × Bool) × Bool)) : State :=
  if cells.isEmpty then s else
    let esr (pa : Nat) : Bool := cells.any fun e => e.1.1 / 4096 == pa / 4096 && e.2
    let (s1, w, us) := s.engineCells (s.cable uid).part (cells.map Prod.fst) esr
    s1.updCmd uid cmd fun k => { k with wmax := max k.wmax w, upds := k.upds ++ us }

/-- A command's writes of memory: a home slice performs those of a granule at once, or they are held (R231, log 135); a granule
with a write that is held holds the later ones too. A page fill's blocks, `grain` bytes, go whole (11 R287). -/
def State.writeMem (s : State) (uid cmd : Nat) (cells : List ((Nat × Byte × Bool) × Bool)) (grain : Nat := 16) : State :=
  let before := match (s.cable uid).cmd? cmd with | some m => m.held | none => []
  let now (e : (Nat × Byte × Bool) × Bool) : Bool := Config.landsNow s.stepCount (e.1.1 / grain) &&
    !before.any fun l => l.any fun h => h.1.1 / grain == e.1.1 / grain
  let rest := cells.filter fun e => !now e
  (s.writeCells uid cmd (cells.filter now)).updCmd uid cmd fun k =>
    { k with held := if rest.isEmpty then k.held else k.held ++ [rest] }

/-- Tags of blocks on the Capstan die (07 R201). -/
def State.setTags (s : State) (l : List (Nat × Nat)) : State :=
  { s with esr := l.foldl (fun (e : SMap Nat) t => e.insert t.1 t.2) s.esr }

/-- What a command's home slices have still to perform is performed, in order; the blocks of an ESR unit keep their tags. -/
def State.landCmd (s : State) (uid : Nat) (m : Cmd) : State :=
  ((m.held.foldl (fun s l => s.writeCells uid m.id l) s).setTags m.tags).updCmd uid m.id fun k => { k with held := [], tags := [] }

/-- Every write that a cable's engines have made takes effect: of scratchpad and of memory. -/
def State.landCable (s : State) (uid : Nat) : State :=
  let s1 := (s.cable uid).cmds.foldl (fun s m => if m.held.isEmpty then s else s.landCmd uid m) s
  if (s.cable uid).late.isEmpty then s1 else s1.updCable uid fun c => c.landWrites fun _ _ => true

/-- The writes of a path that wait for the banks and meet scratchpad places of its next unit are applied. -/
def State.landFor (s : State) (uid : Nat) (p : Path) (l : List (Loc × Nat × Bool)) : State :=
  if (s.cable uid).late.isEmpty then s else s.updCable uid fun c => c.landWrites fun w g => w.path == p && l.any fun e =>
    match e.1 with | .pad off => off.toNat / 16 ≤ g && g ≤ (off.toNat + e.2.1 - 1) / 16 | .va _ => false

/-- Writes bytes at places whose pages are translated: those of scratchpad go to the banks, those of memory to their home
slices. -/
def State.writeLocs (s : State) (uid cmd : Nat) (m : SMap Phys) (l : List (Loc × List (Byte × Bool))) : State :=
  let path := match (s.cable uid).cmd? cmd with | some m => m.path | none => .copy
  let pads := l.filterMap fun e => match e.1 with | .pad off => some (off.toNat, e.2) | .va _ => none
  let cells := l.flatMap fun e => match e.1 with
    | .va a => (List.range e.2.length).zipWith (fun i b => (physOf m (a.toNat + i), b)) e.2
    | .pad _ => []
  let padCells := pads.flatMap fun e => (List.range e.2.length).zipWith (fun i b => (e.1 + i, b)) e.2
  let s1 := if padCells.isEmpty then s else s.updCable uid fun c => { c with late := c.late ++ [{ path := path, op := cmd, bytes := padCells }] }
  if cells.isEmpty then s1 else
    s1.writeMem uid cmd (cells.map fun e => (e, m.any fun q => q.2.pa == e.1 / 4096 * 4096 && q.2.esr))

/-- The scratchpad places of a unit wait for their banks. -/
def State.padsBusy (s : State) (uid : Nat) (l : List (Loc × Nat × Bool)) : Bool :=
  l.any fun e => match e.1 with | .pad off => s.padBusy uid off.toNat e.2.1 | .va _ => false

/-- A scratchpad place lies in a segment that is not current. -/
def Cable.padInTransit (c : Cable) (off n : Nat) : Bool :=
  c.segs.any fun e => e.2.state != .current && off < (e.1 + 1) * 4096 && e.1 * 4096 < off + n

/-! ### Completion (R273, R286) -/

/-- The cable and command whose engine has a turn for them: placed, or ended with the command still under way, and not being
saved. -/
def State.engineTurn (s : State) (uid cmd : Nat) (path : Path) : Option (Cable × Cmd) :=
  let c := s.cable uid
  if (c.isPlaced || c.state == .ended) && c.saving.isNone then
    match c.cmd? cmd with
    | some m => if m.path = path then some (c, m) else none
    | none => none
  else none

/-- Every write of a command is performed, and every update that they became has been applied (07 R208). -/
def State.updatesApplied (s : State) (m : Cmd) : Bool := m.held.isEmpty && m.upds.all fun u => s.applied (some u)

/-- What stays of a cable that has ended: its names; and while commands that signal no counter go on (06 R180), what they
read and write (log 44). -/
def Cable.ashes (c : Cable) : Cable :=
  let names : Cable := { uid := c.uid, cid := c.cid, part := c.part, ctx := c.ctx, coil := c.coil, lastCore := c.lastCore, state := .ended }
  if c.cmds.isEmpty then names else
    { names with lrec := c.lrec, priv := c.priv, cmds := c.cmds, ept := c.ept, spad := c.spad, spadPsn := c.spadPsn
                 late := c.late, unitCounts := c.unitCounts, tables := c.tables, tiles := c.tiles }

/-- A cable that has ended keeps only its names once its last command is over. -/
def Cable.settleEnded (c : Cable) : Cable := if c.state = .ended then c.ashes else c

/-- A command completes: EPT rises, its token is written, it retires where its counter allows. -/
def State.finishCmd (s : State) (uid : Nat) (m : Cmd) (token : W32) : State :=
  let s1 := s.updCable uid fun c => { c with
    ept := c.ept.modify (m.path.code - 1) (max m.wmax)
    cmds := if m.ce then c.cmds.map fun k => if k.id = m.id then { k with state := .done } else k
      else c.cmds.filter fun k => k.id != m.id }
  (s1.complete uid m.id m.strand m.tok token (if m.ce then some m.cnt else none)).updCable uid Cable.settleEnded

/-- Answers a suspended command's record as action 3 would where it is the command's own, or leaves it to the others that
have joined it (R289); `close` answers a record. -/
def State.leaveHandle (s : State) (uid : Nat) (m : Cmd) (close : State → Handle → State) : State :=
  let ctx := (s.cable uid).ctx
  match (s.ctx ctx).handles.find? fun h => h.h == m.handle with
  | none => s
  | some h =>
    if h.agents.head? = some (.cmd uid m.id) then close s h
    else s.updCtx ctx fun x => { x with handles := x.handles.map fun y =>
      if y.h = h.h then { y with agents := y.agents.filter fun a => a != .cmd uid m.id } else y }

/-- The first poisoned granule of what was read from places. -/
def poisonAt (l : List (Loc × List (Byte × Bool))) : Option Nat :=
  l.findSome? fun e => (e.2.findIdx? fun b => b.2).map fun i => (e.1.addr + i) / 16 * 16

end Sys2Proof.Machine
end

