-- ==== Sys2Proof/Machine/Memory.lean ====
section
/-! DEFINITION. The MEM class (09 R244 to R257): loads, stores, atomics, reductions, prefetches, subscriptions. -/
namespace Sys2Proof.Machine

/-! ### Loads and stores (R244 to R247) -/

/-- A load's latch: at strand scope that of its destination; at a wider scope every member's (R241). -/
def FmtM.latchRule (f : FmtM) : LatchRule := if f.c.scope = .strand then .value else .own

/-- Destinations that `ld.k` accepts (R246). -/
def uniformSK : Operand → Bool | .s _ => true | .k _ => true | _ => false

def loadRow (z : SizeZ) (f : FmtM) (only : Operand → Bool) (act : State → Issue → Dest → Attempt) : Row :=
  let d : Dest := { f.dest z.oty with only := only }
  { srcs := [f.useBase], dst := some d, latch := FmtM.latchRule f, act := fun s x => act s x d }

def execLdG (z : SizeZ) (f : FmtM) (s : State) : Host.Outcome State Fault Refusal :=
  s.perform (.ldG z f) f.c { loadRow z f (fun _ => true) fun s x d =>
      if x.e.walker then s.walkerLoad x d z f else s.loadGlobal x d z f false with
    legal := fun _ e _ => !e.walker || (f.ord == 0 && !f.split) }

def execLdP (z : SizeZ) (f : FmtM) (s : State) : Host.Outcome State Fault Refusal :=
  s.perform (.ldP z f) f.c (loadRow z f (fun _ => true) fun s x d => s.loadPad x d z f)

def execLdK (z : SizeZ) (f : FmtM) (s : State) : Host.Outcome State Fault Refusal :=
  s.perform (.ldK z f) f.c (loadRow z f uniformSK fun s x d => s.loadGlobal x d z f true)

/-- A store's row: its base and its data, whose poison it carries. -/
def storeRow (z : SizeZ) (f : FmtM) (act : State → Issue → Use → Attempt) : Row :=
  let u : Use := { f.useData z.oty with carry := true }
  { srcs := [f.useBase, u], latch := .clear, act := fun s x => act s x u }

def execStG (z : SizeZ) (f : FmtM) (s : State) : Host.Outcome State Fault Refusal :=
  s.perform (.stG z f) f.c (storeRow z f fun s x u => s.storeGlobal x u z f)

def execStP (z : SizeZ) (f : FmtM) (s : State) : Host.Outcome State Fault Refusal :=
  s.perform (.stP z f) f.c (storeRow z f fun s x u => s.storePad x u z f)

/-! ### Atomics and reductions (R248 to R252) -/

/-- The register a number of registers on. -/
def Operand.plus (op : Operand) (n : Nat) : Operand :=
  match op with
  | .v m => .v (m + n) | .o m => .o (m + n) | .s m => .s (m + n) | .k m => .k (m + n) | .y m => .y (m + n) | other => other
/-- A group of four or two registers starts at a multiple of its size; the latch holds none (R249). -/
def Operand.aligned (n : Nat) : Operand → Bool
  | .v m => m % n == 0 | .o m => m % n == 0 | .s m => m % n == 0 | .k m => m % n == 0 | .y m => m % n == 0 | _ => false
/-- The last register of a group is in range. -/
def State.groupOk (s : State) (e : Env) (op : Operand) (n : Nat) : Bool :=
  match op with | .v m => decide (m + n ≤ (s.cable e.uid).budget e.ply) | _ => true

/-- The late destination of an atomic's old value. -/
def lateOld (x : Issue) (d : Dest) (wide : Bool) (a : Acc) : LoadPart :=
  { strand := a.strand, pa := a.pa, z := if wide then .b64 else .b32, dests := x.lateDests d a.strand, lats := x.lateLats a.strand }

/-- The type of an atomic's operands. -/
def atomTy (op : AtomOp) (ty : IntTy) : OTy := if isFloatOp op then .float .f32 else ty.oty

/-- The transaction of an atomic of one strand, its operand in `u`: `cas` reads the compared value there, and the new one
in the registers after it (R249). `part` is the destination of the old value. -/
def State.atomKind (s : State) (x : Issue) (op : AtomOp) (ty : IntTy) (u : Use) (part : Acc → Option LoadPart) (a : Acc) : TxnKind :=
  let oty := atomTy op ty
  let v := s.readOp x.e a.strand x.lay u.op oty
  let nw := if op = .cas then s.readOp x.e a.strand x.lay (u.op.plus (if oty.wide then 2 else 1)) oty else v
  let cmp := if (part a).isSome then BitVec.ofNat 64 v.1 else 0
  if a.peer then .peerAtom (a.ea / 2 ^ 44 % 2 ^ 12) (a.ea % 2 ^ 44) op ty (BitVec.ofNat 64 nw.1) cmp (v.2 || nw.2) (part a)
  else .atom op ty a.pa (BitVec.ofNat 64 nw.1) cmp (v.2 || nw.2) (part a)

/-- An atomic's row. `cas` reads two values from DATA on (R249). -/
def atomRow (op : AtomOp) (ty : IntTy) (f : FmtM) : Row :=
  let oty := atomTy op ty
  let wide := oty.wide
  let n := if wide then 2 else 1
  let cas := decide (op = .cas)
  let u : Use := { f.useData oty with carry := true, span := if cas then 2 * n else n }
  let d := f.dest oty
  { srcs := [f.useBase, u], dst := some d, latch := FmtM.latchRule f
    legal := fun s e _ => !cas || (u.op.aligned (2 * n) && s.groupOk e u.op (2 * n))
    act := fun s x =>
      if x.contrib.isEmpty then .done (if x.scope = .strand then s else s.idleLatch x d) []
      else
        let late := fun a => some (lateOld x d wide a)
        s.writeAll x f (if wide then 8 else 4) false true (s.atomKind x op ty u late) late }

def execAtomAdd (t : IntTy) (f : FmtM) (s : State) : Host.Outcome State Fault Refusal :=
  s.perform (.atomAdd t f) f.c (atomRow .add t f)
def execAtomMin (t : IntTy) (f : FmtM) (s : State) : Host.Outcome State Fault Refusal :=
  s.perform (.atomMin t f) f.c (atomRow .min t f)
def execAtomMax (t : IntTy) (f : FmtM) (s : State) : Host.Outcome State Fault Refusal :=
  s.perform (.atomMax t f) f.c (atomRow .max t f)
def execAtomAnd (t : IntTy) (f : FmtM) (s : State) : Host.Outcome State Fault Refusal :=
  s.perform (.atomAnd t f) f.c (atomRow .and t f)
def execAtomOr (t : IntTy) (f : FmtM) (s : State) : Host.Outcome State Fault Refusal :=
  s.perform (.atomOr t f) f.c (atomRow .or t f)
def execAtomXor (t : IntTy) (f : FmtM) (s : State) : Host.Outcome State Fault Refusal :=
  s.perform (.atomXor t f) f.c (atomRow .xor t f)
def execAtomXchg (t : IntTy) (f : FmtM) (s : State) : Host.Outcome State Fault Refusal :=
  s.perform (.atomXchg t f) f.c (atomRow .xchg t f)
def execAtomCas (t : IntTy) (f : FmtM) (s : State) : Host.Outcome State Fault Refusal :=
  s.perform (.atomCas t f) f.c (atomRow .cas t f)
def execAtomAddF32 (f : FmtM) (s : State) : Host.Outcome State Fault Refusal :=
  s.perform (.atomAddF32 f) f.c (atomRow .addF32 .i32 f)

/-- A return-free reduction's row. -/
def aredRow (op : AtomOp) (ty : IntTy) (f : FmtM) : Row :=
  let oty := atomTy op ty
  let u : Use := { f.useData oty with carry := true }
  { srcs := [f.useBase, u], latch := .clear
    act := fun s x => s.writeAll x f (if oty.wide then 8 else 4) false true (s.atomKind x op ty u fun _ => none) (fun _ => none) }

def execAredAdd (t : IntTy) (f : FmtM) (s : State) : Host.Outcome State Fault Refusal :=
  s.perform (.aredAdd t f) f.c (aredRow .add t f)
def execAredMin (t : IntTy) (f : FmtM) (s : State) : Host.Outcome State Fault Refusal :=
  s.perform (.aredMin t f) f.c (aredRow .min t f)
def execAredMax (t : IntTy) (f : FmtM) (s : State) : Host.Outcome State Fault Refusal :=
  s.perform (.aredMax t f) f.c (aredRow .max t f)
def execAredAnd (t : IntTy) (f : FmtM) (s : State) : Host.Outcome State Fault Refusal :=
  s.perform (.aredAnd t f) f.c (aredRow .and t f)
def execAredOr (t : IntTy) (f : FmtM) (s : State) : Host.Outcome State Fault Refusal :=
  s.perform (.aredOr t f) f.c (aredRow .or t f)
def execAredXor (t : IntTy) (f : FmtM) (s : State) : Host.Outcome State Fault Refusal :=
  s.perform (.aredXor t f) f.c (aredRow .xor t f)
def execAredAddF32 (f : FmtM) (s : State) : Host.Outcome State Fault Refusal :=
  s.perform (.aredAddF32 f) f.c (aredRow .addF32 .i32 f)

/-- The counter that an `nred` of a strand signals (R252, Table 9.5). -/
def State.nredCounter (s : State) (uid strand : Nat) : Option Nat :=
  let v := (s.clauseOf uid strand).readCreg strand 0x105
  if v.getLsbD 4 then some (v.extractLsb' 0 4).toNat else none

/-- The near-memory reductions among transactions sent since name `from_` raise their counters. -/
def State.countNreds (s : State) (from_ : Nat) : State :=
  s.txns.foldl (fun (s : State) (e : Nat × Txn) =>
    match e.2.kind with
    | .nred _ _ _ _ (some n) => if from_ ≤ e.1 then s.countUp e.2.uid n e.1 e.2.ply else s
    | _ => s) s

/-- The type of a near-memory reduction. -/
def nredTy (float : Bool) : OTy := if float then .float .f32 else .int ⟨32, true⟩

/-- The transaction of a near-memory reduction of one strand. -/
def State.nredKind (s : State) (x : Issue) (float : Bool) (u : Use) (a : Acc) : TxnKind :=
  let v := s.readOp x.e a.strand x.lay u.op (nredTy float)
  .nred float a.pa (BitVec.ofNat 32 v.1) v.2 (s.nredCounter x.e.uid a.strand)

/-- A near-memory reduction's row (R248, R252). -/
def nredRow (float : Bool) (f : FmtM) : Row :=
  let oty := nredTy float
  let u : Use := { f.useData oty with carry := true }
  { srcs := [f.useBase, u], latch := .clear
    act := fun s x =>
      let used := x.accessors.filterMap fun j => s.nredCounter x.e.uid j
      if used.any fun n => !(s.cable x.e.uid).counterRoom n (used.filter fun m => m == n).length then .stall s
      else match s.writeAll x f 4 true true (s.nredKind x float u) (fun _ => none) with
        | .done s1 g => .done (s1.countNreds s.nextOp) g
        | a => a }

def execNredAddI32 (f : FmtM) (s : State) : Host.Outcome State Fault Refusal :=
  s.perform (.nredAddI32 f) f.c (nredRow false f)
def execNredAddF32 (f : FmtM) (s : State) : Host.Outcome State Fault Refusal :=
  s.perform (.nredAddF32 f) f.c (nredRow true f)

/-! ### Prefetch (R255, R256) -/

/-- Where a prefetch of a strand leads; none where it has no effect, with the page-table outcome. -/
def State.prefetchAt (s : State) (x : Issue) (f : FmtM) (strand : Nat) : State × Option (Nat × Except TFault Phys) :=
  let c := s.cable x.e.uid
  let ea := s.ea x f strand
  if (s.readOp x.e strand x.lay f.useBase.op (.raw true)).2 || decide (2 ^ 60 ≤ ea) || ea / 2 ^ 56 % 16 == 15 then (s, none)
  else match s.translate c.coreD c.ctx ea .read (c.priv == 0) with
    | (s1, .ok p) => (s1, some (ea, .ok p))
    | (s1, .error t) => (s1, some (ea, .error t))

/-- The whole line is asked for as by a relaxed load whose value is discarded; a full table drops the request. -/
def State.prefetchLine (s : State) (x : Issue) (f : FmtM) (strand : Nat) (p : Phys) : State :=
  let c := s.cable x.e.uid
  let core := c.coreD
  match s.l1Hit core (p.pa / 128 * 128) 128 with
  | some (w, _) => s.raiseP core w
  | none =>
    if !s.freeEntries core 1 then s
    else
      let a : Acc := { strand := strand, ea := 0, pa := p.pa }
      (s.send { s.txnOf x f a (.load (p.pa / 128) 0 128 (s.leaseOf c.ctx p) false (s.cacheable p.pa) false [])
        with strands := [] }).1

/-- The prefetch record of a page without a translation (R256, 16 Table 16.2); none while the cable is being saved (16 R383). -/
def State.prefetchRecord (s : State) (x : Issue) (strand ea : Nat) : State :=
  let c := s.cable x.e.uid
  if c.saving.isSome || ((s.ctx c.ctx).pfhPages.any fun e => e.1 == ea / 4096) ||
      ((s.part c.part).pfhPages.any fun e => e.1 == c.ctx && e.2.1 == ea / 4096) then s
  else
    let (s1, n) := s.nextEngSeq (issuerOf 5 c.coreD)
    let before := (s1.ctx c.ctx).fqTail
    let fwBefore := (s1.part c.part).fwTail
    let s2 := s1.postFor c
      { cause := 22, super := c.priv != 0, issuer := issuerOf 5 c.coreD, seq := n, count := 1, part := c.part
        strand := strand, ply := strand / 32, cid := c.cid, pc := x.addr, addr := ea, instr := x.word }
    if (s2.ctx c.ctx).fqTail = before then
      (if (s2.part c.part).fwTail = fwBefore then s2
       else s2.updPart c.part fun k => { k with pfhPages := k.pfhPages ++ [(c.ctx, ea / 4096, fwBefore.toNat)] })
    else s2.updCtx c.ctx fun k => { k with pfhPages := k.pfhPages ++ [(ea / 4096, before.toNat)] }

/-- What one prefetch does at a level. -/
def State.prefetchOne (s : State) (x : Issue) (f : FmtM) (level strand : Nat) : State :=
  match s.prefetchAt x f strand with
  | (s1, some (_, .ok p)) =>
    if level = 0 then s1.prefetchLine x f strand p
    else if s1.cacheable p.pa then s1.touchBlock (p.pa / 128) 0 128 else s1
  | (s1, some (ea, .error t)) => if level = 2 ∧ t.cause = 7 then s1.prefetchRecord x strand ea else s1
  | (s1, none) => s1

/-- The strands whose requests remain after coalescing: one for each line, or for each page, of those whose BASE is clean. -/
def State.prefetchers (s : State) (x : Issue) (f : FmtM) (unit : Nat) : List Nat :=
  ((x.accessors.filter fun j => !(s.readOp x.e j x.lay f.useBase.op (.raw true)).2).foldl (fun (b : List Nat × List Nat) j =>
    let u := s.ea x f j / unit
    if b.2.contains u then b else (b.1 ++ [j], b.2 ++ [u])) ([], [])).1

/-- A watchpoint matches a prefetch (R385): a read of the line that holds EA, where the page translates (DEDUCED, log 130). -/
def State.prefetchTrouble (s : State) (x : Issue) (f : FmtM) (strand : Nat) : Option Trouble :=
  match s.prefetchAt x f strand with
  | (s1, some (ea, .ok _)) => (s1.watchTrouble x strand (ea / 128 * 128) { size := 128 }).map fun t => { t with addr := ea }
  | _ => none

def pfhRow (level : Nat) (f : FmtM) : Row :=
  { srcs := [{ f.useBase with carry := true }], latch := .clear
    act := fun s x =>
      let l := s.prefetchers x f (if level = 2 then 4096 else 128)
      if s.acquiring x.e.uid x.ordered then .stall s
      else match firstTrouble (l.filterMap fun j => s.prefetchTrouble x f j) with
        | some t => .fault t
        | none => .done (l.foldl (fun s j => s.prefetchOne x f level j) s) [] }

def execPfhL1 (f : FmtM) (s : State) : Host.Outcome State Fault Refusal := s.perform (.pfhL1 f) f.c (pfhRow 0 f)
def execPfhLlc (f : FmtM) (s : State) : Host.Outcome State Fault Refusal := s.perform (.pfhLlc f) f.c (pfhRow 1 f)
def execPfhNode0 (f : FmtM) (s : State) : Host.Outcome State Fault Refusal := s.perform (.pfhNode0 f) f.c (pfhRow 2 f)

/-! ### Subscriptions (R257) -/

/-- The levels that DATA of a subscription may have. -/
def uniformSKY : Operand → Bool | .s _ => true | .k _ => true | .y _ => true | _ => false

/-- `sub` and `unsub`: the request to the home slice of the range. The spec names no permission for a `sub` with OWN = 1;
the model asks read permission as for any `sub`, and lets the owner's later `st.p` write the range without another check
(DESIGN CHOICE, log 112). -/
def subRow (unsub : Bool) (f : FmtM) : Row :=
  let u : Use := { f.useData (.raw false) with only := uniformSKY }
  let d : Dest := { f.dest (.raw false) with only := uniformSKY }
  { srcs := [f.useBase, u], dst := some d, latch := .own
    act := fun s x =>
      if x.contrib.isEmpty then .done (s.idleLatch x d) []
      else
        let uid := x.e.uid
        let c := s.cable uid
        let v := (s.readOp x.e x.lead x.lay u.op (.raw false)).1
        let seg := v / 4096 % 256
        let own := v % 2 == 1
        if v % 4096 / 2 ≠ 0 || 2 ^ 20 ≤ v || c.spadUnits ≤ seg || (unsub && own) then .fault { cause := 2 }
        else if s.acquiring uid x.ordered then .stall s
        else match s.resolve x { size := 4096, watched := false } [(x.lead, s.ea x f x.lead)] with
          | (_, .error t) => .fault t
          | (s1, .ok accs) =>
            match accs with
            | [] => .done s []
            | a :: _ =>
              let part := x.part d .b32 x.lead a.pa []
              let kind : TxnKind := if unsub then .unsub (a.pa / 4096) seg part else .sub (a.pa / 4096) a.ea seg own a.esr part
              let (s2, id) := s1.send { s1.txnOf x f a kind with entry := false }
              .done (s2.expect x id part.dests part.lats part.z.oty.wide) [] }

def execSub (f : FmtM) (s : State) : Host.Outcome State Fault Refusal := s.perform (.sub f) f.c (subRow false f)
def execUnsub (f : FmtM) (s : State) : Host.Outcome State Fault Refusal := s.perform (.unsub f) f.c (subRow true f)

end Sys2Proof.Machine
end

