-- ==== Sys2Proof/Machine/Sync.lean ====
section
/-! DEFINITION. The SYNC class but for its rendezvous (09 R253 to R266, 11 R276 to R278): fences, wait queues, messages,
counter instructions. -/
namespace Sys2Proof.Machine

/-! ### Fences (R253, R254) -/

/-- `fence`: its plies' buffered stores leave (07 R189); a release waits as Table 8.3 states; an acquire completes when the
loads before it have returned. -/
def fenceRow (f : FmtM) : Row :=
  { latch := .clear
    act := fun s x =>
      let uid := x.e.uid
      let plies := distinct (x.ordered.map (· / 32))
      let s1 := s.drainPlies uid plies (if f.releases then f.ssc else 0)
      if f.releases && !s1.releaseHolds uid plies x.ordered f.ssc then .stall s1
      else if f.acquires && !s1.loadsBack uid x.ordered then .stall s1
      else .done (if f.acquires then s1.raiseFt uid f.ssc else s1) [] }

def execFence (f : FmtM) (s : State) : Host.Outcome State Fault Refusal := s.perform (.fence f) f.c (fenceRow f)

/-- `xfence.`f`.`g by Table 8.4. Of an engine's completed commands the home slices have performed every write; what the banks have
still to apply, they apply (R230). -/
def xfenceRow (a b : Path) : Row :=
  { latch := .clear
    act := fun s x =>
      let uid := x.e.uid
      let c := s.cable uid
      let plies := if x.scope = .strand then [x.e.ply] else distinct (x.members.map (· / 32))
      match a with
      | .mem =>
        let s1 := s.drainPlies uid plies
        if s1.releaseHolds uid plies (plies.flatMap c.livePly) 0 then .done s1 [] else .stall s1
      | e =>
        let s1 := s.landPath uid e
        .done (if b = .mem then s1.raiseP c.coreD (c.ept.getD (e.code - 1) 0) else s1) [] }

def execXfence (from_ to_ : Path) (f : FmtA) (s : State) : Host.Outcome State Fault Refusal :=
  s.perform (.xfence from_ to_ f) f.c (xfenceRow from_ to_)

/-! ### Wait queues (R258, R259) -/

/-- `wtq`: the strand's record is asked for at the home slice of its key; until its status arrives the strand sleeps. -/
def wtqRow (f : FmtM) : Row :=
  let d : Dest := f.dest (.raw false)
  { srcs := [f.useBase], dst := some d
    act := fun s x =>
      if s.acquiring x.e.uid x.ordered then .stall s
      else match s.resolve x { size := 8, watched := false } (x.accessors.map fun j => (j, s.ea x f j)) with
        | (_, .error t) => .fault t
        | (s1, .ok accs) => .done (accs.foldl (fun s a =>
            let part := x.part d .b32 a.strand a.pa []
            let (s2, id) := s.send { s.txnOf x f a (.wtq a.pa a.ea part) with entry := false }
            (s2.expect x id part.dests part.lats part.z.oty.wide).updStrandClause x.e.uid a.strand fun cl =>
              { cl with sleeps := cl.sleeps ++ [(a.strand, id)] }) s1) [] }

def execWtq (f : FmtM) (s : State) : Host.Outcome State Fault Refusal := s.perform (.wtq f) f.c (wtqRow f)

/-- The transactions of a `wake` that has issued. -/
def State.wakesOf (s : State) (x : Issue) : List Txn :=
  s.txns.vals.filter fun t => t.uid == x.e.uid && t.pc == x.addr && t.ply == x.lead / 32 &&
    (match t.kind with | .wake .. => true | _ => false) && t.strands.any fun j => x.members.contains j

/-- `wake`: one request for each access; the instruction completes when its home slices have performed them. -/
def wakeRow (f : FmtM) : Row :=
  let u : Use := f.useData (.raw false)
  { srcs := [f.useBase, u], latch := .clear
    act := fun s x =>
      let out := s.wakesOf x
      if !out.isEmpty then
        (if out.any fun t => t.state.isAsked then .stall s
         else .done { s with txns := s.txns.filter fun e => !(out.any fun t => t.id == e.1) } [])
      else if s.acquiring x.e.uid x.ordered then .stall s
      else match s.resolve x { size := 8, watched := false } (x.accessors.map fun j => (j, s.ea x f j)) with
        | (_, .error t) => .fault t
        | (s1, .ok accs) =>
          if !s1.freeEntries (s1.cable x.e.uid).coreD accs.length then .park s1
          else .stall (accs.foldl (fun s a =>
            (s.send (s.txnOf x f a (.wake a.pa (s.readOp x.e a.strand x.lay u.op (.raw false)).1))).1) s1) }

def execWake (f : FmtM) (s : State) : Host.Outcome State Fault Refusal := s.perform (.wake f) f.c (wakeRow f)

/-! ### Messages (R263 to R265) -/

/-- The cluster of a core. -/
def clusterOf (core : Nat) : Nat := core / 8

/-- The cable of a cluster that an identity names within a partition: placed there, or saved from there. CIDs are numbered in
each partition (R234); R263 does not say whether a DCID could name another partition's cable of the cluster, and the model
looks within the sender's alone (DESIGN CHOICE, log 132). -/
def State.namedBy (s : State) (cluster part cid : Nat) : Option Cable :=
  (s.cables.vals.find? fun c => c.cid == cid && c.part == part && clusterOf c.lastCore == cluster && c.state != .ended)

/-- Header pair of a message: tag and identity; none when a reserved bit is set. -/
def msgHeader (v : Nat) : Option (Nat × Nat) :=
  if v / 2 ^ 40 ≠ 0 then none else some (v % 2 ^ 16, v / 2 ^ 16 % 2 ^ 24)

/-- A length or limit of a message. -/
def msgLenOk (n : Nat) : Bool := 16 ≤ n && n ≤ 256 && n % 16 == 0

/-- The event of a message in the replay log (16 Table 16.16). -/
def msgEvent (c : Cable) (ply ic peer tag : Nat) : LogEvent :=
  { ctx := c.ctx, cid := c.cid, ply := ply, ic := ic, kind := 2, word1 := peer + tag * 2 ^ 24 }

/-- The event of a posted receive's match. -/
def State.matchEvent (s : State) (r : Recv) : LogEvent := msgEvent (s.cable r.uid) r.ply r.ic r.scid r.tag

/-- What one `send` comes to at the message unit; `before` is the state in which its instruction began. A match that the
replay log keeps back, or that it shows to be another's, has not taken place, and the `send` waits. A `send` whose payload
lies in a subscribed segment reads the scratchpad as it stands, whatever the segment's state: 07 Table 7.8 speaks of `ld.p`
and of copies only (DESIGN CHOICE, log 131). -/
def State.sendOne (before s : State) (x : Issue) (f : FmtE) (strand : Nat) : Attempt :=
  let uid := x.e.uid
  let c := s.cable uid
  let cluster := clusterOf c.coreD
  let hdr := msgHeader (s.valueOf x (f.useD (.raw true)) strand)
  let buf := s.valueOf x (f.useA (.raw false)) strand
  let len := s.valueOf x (f.useB (.raw false)) strand
  let bad : Attempt := .fault { cause := 2, strand := some strand }
  match hdr with
  | none => bad
  | some (tag, dcid) =>
    if buf % 16 ≠ 0 || !msgLenOk len || c.spadBytes < buf + len then bad
    else match s.namedBy cluster c.part dcid with
      | none => bad
      | some to_ =>
      match s.watchTrouble x strand buf { size := len } with
      | some t => .fault t
      | none =>
        let p := strand / 32
        let e := msgEvent c p (c.ply p).ic.toNat dcid tag
        match s.logEvent c e with
        | .wait _ => .stall (before.logFull c e)
        | .diverged => .fault { cause := 29 }
        | .go s1 _ =>
          let (s2, id) := s1.newOp
          let msg : Msg := { id := id, scid := c.cid, dcid := dcid, tag := tag, sender := uid, to_ := to_.uid, bytes := c.padRead buf len
                             cntOp := if f.ce then some f.cnt.toNat else none }
          let s3 := if f.ce then s2.countUp uid f.cnt.toNat id p else s2
          let mine := s3.posted.getD cluster []
          match mine.find? fun r => r.uid == to_.uid && r.scid == c.cid && r.tag == tag with
          | some r =>
            (match s3.logEvent (s3.cable r.uid) (s3.matchEvent r) with
             | .wait _ => .stall (before.logFull (s3.cable r.uid) (s3.matchEvent r))
             | .diverged => .stall (before.divergePly r.uid r.ply r.pc r.word)
             | .go s4 _ => .done { s4 with
                 posted := s4.posted.insert cluster (mine.filter fun q => q.id != r.id)
                 deliveries := s4.deliveries ++ [{ msg with taken := some r }] } [])
          | none =>
            let queue := s3.overflow.getD cluster []
            if 256 ≤ queue.length then .fault { cause := 16, strand := some strand }
            else .done { s3 with overflow := s3.overflow.insert cluster (queue ++ [msg]) } []

def Attempt.cause? : Attempt → Option Nat | .fault t => some t.cause | _ => none

/-- `send` and `recv` act for each contributor, or once for the ply; what stops one of them stops all, with nothing of any
done. `f` is given the state in which the instruction began and the one so far. -/
def State.eachOf (s : State) (strands : List Nat) (f : State → State → Nat → Attempt) : Attempt :=
  strands.foldl (fun (a : Attempt) j =>
    match a with
    | .done s1 _ => (match f s s1 j with
      | .fault t => .fault { t with count := (strands.filter fun i => (f s s i).cause? == some t.cause).length }
      | b => b)
    | b => b) (.done s [])

/-- An earlier `st.p` of a ply has not been applied: it waits in a bank queue, or its update of an owned segment has not
returned (R265, 07 R207). -/
def State.padStoring (s : State) (uid p : Nat) : Bool :=
  s.bankStoring uid p || s.txns.vals.any fun t => t.acks.contains (uid, p) && (match t.kind with | .write _ _ (some _) => true | _ => false)

def sendRow (f : FmtE) : Row :=
  { srcs := [f.useD (.raw true), f.useA (.raw false), f.useB (.raw false)], latch := .clear
    act := fun s x =>
      if s.acquiring x.e.uid x.ordered || !s.roomFor x.e.uid f x.accessors.length then .stall s
      else if x.plies.any fun p => s.padStoring x.e.uid p then .stall s
      else s.eachOf x.accessors fun before s j => before.sendOne s x f j }

def execSend (f : FmtE) (s : State) : Host.Outcome State Fault Refusal := s.perform (.send f) f.c (sendRow f)

/-- What one `recv` comes to; `before` is the state in which its instruction began. -/
def State.recvOne (before s : State) (x : Issue) (f : FmtE) (strand : Nat) : Attempt :=
  let uid := x.e.uid
  let c := s.cable uid
  let cluster := clusterOf c.coreD
  let buf := s.valueOf x (f.useD (.raw false)) strand
  let hdr := msgHeader (s.valueOf x (f.useA (.raw true)) strand)
  let max := s.valueOf x (f.useB (.raw false)) strand
  let bad : Attempt := .fault { cause := 2, strand := some strand }
  match hdr with
  | none => bad
  | some (tag, scid) =>
    if buf % 16 ≠ 0 || !msgLenOk max || c.spadBytes < buf + max then bad
    else match s.watchTrouble x strand buf { size := max, read := false, write := true } with
    | some t => .fault t
    | none =>
      let (s1, id) := s.newOp
      let p := strand / 32
      let r : Recv := { id := id, uid := uid, scid := scid, tag := tag, buf := buf, max := max
                        cntOp := if f.ce then some f.cnt.toNat else none, tok := x.tokens f strand
                        strand := strand, ply := p, ic := (c.ply p).ic.toNat, pc := x.addr, word := x.word
                        after := s.loadsOf uid (x.sharers strand) }
      let queue := s1.overflow.getD cluster []
      match queue.find? fun m => m.to_ == uid && m.scid == scid && m.tag == tag with
      | some m =>
        let e := msgEvent c p r.ic scid tag
        (match s1.logEvent c e with
         | .wait _ => .stall (before.logFull c e)
         | .diverged => .fault { cause := 29 }
         | .go s2 _ =>
           .done { s2.announce x f strand id with
             overflow := s2.overflow.insert cluster (queue.filter fun n => n.id != m.id)
             deliveries := s2.deliveries ++ [{ m with taken := some r }] } [])
      | none =>
        let mine := s1.posted.getD cluster []
        if 64 ≤ (mine.filter fun q => q.uid == uid).length then .park before
        else .done { s1.announce x f strand id with posted := s1.posted.insert cluster (mine ++ [r]) } []

def recvRow (f : FmtE) : Row :=
  { srcs := [f.useD (.raw false), f.useA (.raw true), f.useB (.raw false)], latch := .clear
    extra := FmtE.tokenKey f
    act := fun s x =>
      if s.acquiring x.e.uid x.ordered || !s.roomFor x.e.uid f x.accessors.length then .stall s
      else s.eachOf x.accessors fun before s j => before.recvOne s x f j }

def execRecv (f : FmtE) (s : State) : Host.Outcome State Fault Refusal := s.perform (.recv f) f.c (recvRow f)

/-- The message unit has moved a message's bytes: the banks apply them, then the token and the counters (R264). A buffer in a
subscribed segment takes them as any scratchpad bytes, whatever the segment's state: 07 Table 7.8 speaks of `ld.p`, `st.p`
and copies only (DESIGN CHOICE, log 131). -/
def State.deliverMsg (s : State) (m : Msg) (r : Recv) : State :=
  let n := min m.bytes.length r.max
  let token : W32 := BitVec.ofNat 32 (m.bytes.length + (if r.max < m.bytes.length then 2 ^ 31 else 0))
  let s1 := { s with deliveries := s.deliveries.filter fun d => d.id != m.id }
  let s2 := s1.updCable r.uid fun c => c.padWriteAt r.buf (m.bytes.take n)
  let s3 := s2.complete r.uid r.id r.strand r.tok token r.cntOp
  match m.cntOp with
  | some k => s3.countDone m.sender k m.id
  | none => s3

/-! ### Counters (11 R276 to R278) -/

def immCnt (f : FmtI) : Nat := (f.imm.extractLsb' 16 4).toNat

/-- `cnt.wait` (R276): a wait that a stop interrupts has not executed. -/
def cntWaitRow (f : FmtI) : Row :=
  { latch := .clear
    act := fun s x =>
      if ((s.cable x.e.uid).counter (immCnt f)).val ≤ (f.imm.extractLsb' 0 16).toNat then .done s [] else .park s }

/-- `cnt.mode` (R277). -/
def cntModeRow (f : FmtI) : Row :=
  { latch := .clear
    act := fun s x =>
      let c := s.cable x.e.uid
      let k := c.counter (immCnt f)
      if k.val ≠ 0 then .stall s
      else .done (s.updCable x.e.uid fun c => c.setCounter (immCnt f) { k with strict := f.imm.getLsbD 0 }) [] }

/-- A read of Table 16.16 by an instruction for a strand, logged for its ply. -/
def State.readLogged (s : State) (x : Issue) (strand v : Nat) (f : State → Nat → Attempt) : Attempt :=
  let c := s.cable x.e.uid
  let p := strand / 32
  let e : LogEvent := { ctx := c.ctx, cid := c.cid, ply := p, ic := (c.ply p).ic.toNat, kind := 1, word1 := v }
  match s.logEvent c e with
  | .go s1 v1 => f s1 v1
  | .wait _ => .stall (s.logFull c e)
  | .diverged => .fault { cause := 29 }

/-- `cnt.rd` (R278). -/
def cntRdRow (f : FmtI) : Row :=
  let d := f.dest (.raw false)
  { dst := some d
    act := fun s x => s.readLogged x x.lead ((s.cable x.e.uid).counter (immCnt f)).val fun s1 v =>
      s1.compute x d fun _ => { val := BitVec.ofNat 64 (v % 2 ^ 32) } }

def execCntWait (f : FmtI) (s : State) : Host.Outcome State Fault Refusal := s.perform (.cntWait f) f.c (cntWaitRow f)
def execCntMode (f : FmtI) (s : State) : Host.Outcome State Fault Refusal := s.perform (.cntMode f) f.c (cntModeRow f)
def execCntRd (f : FmtI) (s : State) : Host.Outcome State Fault Refusal := s.perform (.cntRd f) f.c (cntRdRow f)

end Sys2Proof.Machine
end

