-- ==== Sys2Proof/Machine/Arrivals.lean ====
section
/-! DEFINITION. The steps of the core and of the memory system: ticks, home slices, replies and acknowledgements,
scratchpad banks, subscriptions, wait queues, messages, page walks (07; 08; 09). -/
namespace Sys2Proof.Machine

/-! ### Time (07 R191, R196, R198, R203) -/

/-- A core's logical time rises by 1, unless it would pass the largest value. -/
def State.tickCore (s : State) (core : Nat) : State :=
  s.updCore core fun k => { k with p := (if k.p = maxTime then k.p - rebaseBy else k.p) + 1 }

/-- The partitions that a tick makes rebase: those with a core at the largest time (R196). -/
def State.dueRebases (s : State) : List Nat :=
  distinct (((List.range Config.cores).filter fun k => (s.core k).p == maxTime).filterMap s.corePart)

/-- Every core's time rises by 1; a partition of which one would pass the largest value rebases first (R191, R196). -/
def execTick (s : State) : Host.Outcome State Fault Refusal :=
  .next (if s.cycle < s.nextTick then s
    else
      let s1 := { s with nextTick := s.nextTick + s.tickDiv }
      (List.range Config.cores).foldl State.tickCore (s1.dueRebases.foldl State.rebase s1))

/-- A refresh window is 32 ms of the 3.0 GHz clock (R203). -/
def refreshCycles : Nat := 96000000

/-- At the start of a refresh window every tracker is cleared. -/
def execRefreshWindow (s : State) : Host.Outcome State Fault Refusal :=
  .next (if s.cycle < s.refreshStart + refreshCycles then s
    else { s with trackers := [], refreshStart := s.cycle / refreshCycles * refreshCycles })

/-- The golden packet of the current epoch: router and slot (R198). -/
def execMeshEpoch (s : State) : Host.Outcome State Fault Refusal :=
  let e := s.cycle / 4096
  .next { s with epoch := e, golden := (e % 100, e / 100 % 8) }

/-! ### Home slices (07 R193 to R197) -/

/-- Lines of its partition that the set of a missing line holds leave, as the slice chooses (R195, R197). -/
def State.evictFor (s : State) (line : Nat) (evict : List Nat) : State :=
  if (s.lines.getD line {}).inLlc then s
  else (evict.filter fun l => s.owner (l * 128) == s.owner (line * 128) && (s.setLines line).any fun e => e.1 == l).foldl State.evict s

def execHomeRead (txn : Nat) (evict : List Nat) (s : State) : Host.Outcome State Fault Refusal :=
  .next (match s.txns.find? txn with
    | some t => (match t.kind with
      | .load line .. => s.atHome t fun s t => (if s.cacheable (line * 128) then s.evictFor line evict else s).performLoad t
      | _ => s)
    | none => s)

def execHomeWrite (txn : Nat) (s : State) : Host.Outcome State Fault Refusal :=
  .next (match s.txns.find? txn with
    | some t => (match t.kind with | .write .. => s.atHome t State.performWrite | _ => s)
    | none => s)

def execHomeAtomic (txn : Nat) (s : State) : Host.Outcome State Fault Refusal :=
  .next (match s.txns.find? txn with
    | some t => (match t.kind with | .atom .. => s.atHome t State.performAtom | .nred .. => s.atHome t State.performAtom | _ => s)
    | none => s)

/-- The Capstan die has performed a forwarded `nred` (08 R232): it activated the row, and its acknowledgement may return. -/
def execCapstanNred (txn : Nat) (s : State) : Host.Outcome State Fault Refusal :=
  .next (match s.txns.find? txn with
    | some t => (match t.kind, t.state with
      | .nred _ pa _ _ _, .performed w r [] f => (s.rowActivate pa).setTxn { t with state := .performed w r [(0, false)] f }
      | _, _ => s)
    | none => s)

/-! ### Replies and acknowledgements (07 R186, R187, R193, R194, R199, R208) -/

/-- A reply of the slice of its line, which goes out as soon as the slice has performed the transaction. -/
def Txn.plain (t : Txn) : Bool :=
  !t.state.isAsked && t.upd.isNone && t.kind.line.isSome && (match t.kind with | .nred .. => false | .wake .. => false | _ => true)
/-- A snapshot or an update of a subscribed range is on its way from a slice to a core since before a step: both travel on the
reply mesh (R199, Table 7.8), from the slice of the range's first line (R206). -/
def State.rangeTraffic (s : State) (core : Nat) (slice : Nat × Nat) (before : Nat) : Bool :=
  s.cables.vals.any fun c => c.core? == some core && c.segs.vals.any fun g => sliceOf (g.range * 4096) == slice &&
    ((g.snapshot.isSome && decide (g.sent < before)) || g.inbox.any fun u => decide (u.sent < before))
/-- What the slice of a range has sent to a core before a step has arrived. -/
def State.rangeNext (s : State) (core range sent : Nat) : Bool :=
  let slice := sliceOf (range * 4096)
  !((s.coreTxns core).any fun u => u.plain && (u.kind.line.map fun l => sliceOf (l * 128)) == some slice && decide (u.done < sent)) &&
  !s.rangeTraffic core slice sent

/-- The replies that a slice sends to a core arrive in the order in which it sent them (R199): none is on its way that it sent
before, and no snapshot or update. One that waits for an update of a subscribed range leaves when that has been applied, after
those. -/
def State.replyNext (s : State) (t : Txn) : Bool :=
  (match t.kind with | .nred .. => true | _ => false) ||
  (!((s.coreTxns t.core).any fun u => u.plain && u.id != t.id &&
      (u.kind.line.map fun l => sliceOf (l * 128)) == (t.kind.line.map fun l => sliceOf (l * 128)) &&
      (t.upd.isSome || decide (u.done < t.done ∨ (u.done = t.done ∧ u.id < t.id)))) &&
   !(match t.kind.line with
     | some l => s.rangeTraffic t.core (sliceOf (l * 128)) (if t.upd.isSome then s.stepCount else t.done)
     | none => false))

/-- A line request's reply: the copy is installed, P rises, the destinations are written. -/
def execLoadReply (txn : Nat) (s : State) : Host.Outcome State Fault Refusal :=
  .next (match s.txns.find? txn with
    | some t => (match t.kind, t.state with
      | .load line lo _ _ _ install _ parts, .performed w r bytes _ =>
        if !s.replyNext t then s else
        let s1 := s.dropTxn txn
        let s2 := if install then s1.l1Install t.core line w r (t.ver.getD 0) lo bytes else s1
        let s3 := s2.raiseP t.core w
        let s4 := if t.acquires && t.sync.ssc == 4 then s3.raiseP t.core (s3.part (s3.cable t.uid).part).ft else s3
        parts.foldl (fun s p => s.deliverPart t.uid txn p ((bytes.drop (p.pa - (line * 128 + lo))).take p.z.bytes)) s4
      | _, _ => s)
    | none => s)

/-- Flags of an atomic reach the strands that wait for them (09 R250). -/
def Cable.raiseFlags (c : Cable) (op : Nat) (fl : Flags) : Cable :=
  let mine := c.board.filterMap fun b => if b.2 = op then (match b.1 with | .fflags j => some j | _ => none) else none
  let c1 := mine.foldl (fun (c : Cable) j => c.updStrand j fun t => if t.live then { t with fflags := t.fflags ||| fl } else t) c
  { c1 with board := c1.board.filter fun b => !(b.2 == op && (match b.1 with | .fflags _ => true | _ => false)) }

/-- What an acknowledgement does at the core: P rises, UNACK falls, the entry is free. -/
def State.acknowledge (s : State) (t : Txn) (w : Nat) : State :=
  let s1 := ((s.dropTxn t.id).raiseP t.core w).dropUnack t.acks
  if t.acquires && t.sync.ssc == 4 then s1.raiseP t.core (s1.part (s1.cable t.uid).part).ft else s1

def execWriteAck (txn : Nat) (s : State) : Host.Outcome State Fault Refusal :=
  .next (match s.txns.find? txn with
    | some t =>
      if !s.applied t.upd || !s.replyNext t then s
      else match t.kind, t.state with
      | .write bytes _ _, .performed w _ _ _ =>
        (s.acknowledge t w).l1Written t.core w t.ver (bytes.map fun b => (b.1, b.2.val, b.2.psn))
      | .atom op ty pa _ _ _ part, .performed w _ bytes fl =>
        let n := atomBytes op ty
        let new := (List.range n).zipWith (fun i b => (pa + i, b)) (bytes.drop n)
        let s1 := (s.acknowledge t w).l1Written t.core w t.ver new
        (match part with
         | some p => (s1.deliverPart t.uid txn p (bytes.take n)).updCable t.uid fun c => (c.raiseFlags txn fl).awaken
         | none => s1)
      | .nred _ _ _ _ cnt, .performed w _ (_ :: _) _ =>
        let s1 := s.acknowledge t w
        (match cnt with | some n => s1.countDone t.uid n txn | none => s1)
      | _, _ => s
    | none => s)

/-! ### Scratchpad banks (07 R184) -/

/-- A bank whose section is waking holds its queue (R205). -/
def execBankAccess (core bank : Nat) (s : State) : Host.Outcome State Fault Refusal := .next (s.bankServe core bank)

/-! ### Subscriptions (07 R206 to R208, 09 R257) -/

/-- The answer of the home slice to a `sub` (Table 9.6). -/
def State.subscribe (s : State) (uid range va seg : Nat) (owned esr : Bool) : State × Nat :=
  let c := s.cable uid
  let d := s.dirs.find? range
  let full := decide (2 ≤ (s.dirs.filter fun e => sliceOf (e.1 * 4096) == sliceOf (range * 4096) && e.2.part == c.part).length)
  if (c.segs.find? seg).isSome then (s, 1)
  else if d.isNone && full then (s, 2)
  else
    let d0 : Dir := d.getD { part := c.part }
    if 16 ≤ d0.subs.length then (s, 3)
    else if owned && d0.subs.any fun b => b.owned then (s, 4)
    else
      let s := s.touchSpan (range * 4096) 4096
      let g : Seg := { state := .inTransit, owned := owned, range := range, va := va, esr := esr
                       snapshot := some (d0.seq, s.pageImage range), sent := s.stepCount }
      ({ s with dirs := s.dirs.insert range { d0 with subs := d0.subs ++ [({ uid := uid, seg := seg, owned := owned } : Subscriber)] } }.updCable uid fun c =>
        { c.landWrites (fun _ _ => true) with segs := c.segs.insert seg g }, 0)

/-- A subscriber leaves a range; the entry of the last one is freed. -/
def State.leaveRange (s : State) (uid range seg : Nat) : State :=
  match s.dirs.find? range with
  | none => s
  | some d =>
    let rest := d.subs.filter fun b => !(b.uid == uid && b.seg == seg)
    { s with dirs := if rest.isEmpty then s.dirs.erase range else s.dirs.insert range { d with subs := rest } }

/-- The answer to an `unsub`; none while it waits (R257): for an owned segment, for every `st.p` that the cable has sent to the
range. -/
def State.unsubscribe (s : State) (uid range seg : Nat) : Option (State × Nat) :=
  match (s.cable uid).segs.find? seg with
  | none => some (s, 1)
  | some g =>
    if g.range ≠ range then some (s, 5)
    else if g.state != .current then none
    else if g.owned && s.txns.vals.any fun t => t.uid == uid &&
        (match t.kind with | .write bytes _ (some _) => bytes.any fun b => b.1 / 4096 == range | _ => false) then none
    else some ((s.leaveRange uid range seg).updCable uid fun c => { c with segs := c.segs.erase seg }, 0)

/-- The status reaches DATA. -/
def State.answerSub (s : State) (t : Txn) (p : LoadPart) (status : Nat) : State :=
  (s.dropTxn t.id).deliver t.uid t.id p.strand false p.dests p.lats (BitVec.ofNat 64 status) false

def execHomeSubscribe (txn : Nat) (s : State) : Host.Outcome State Fault Refusal :=
  .next (match s.txns.find? txn with
    | some t => (match t.kind with
      | .sub range va seg owned esr p =>
        if (s.cable t.uid).copyWrites seg then s
        else
          let (s1, st) := s.subscribe t.uid range va seg owned esr
          s1.answerSub t p st
      | .unsub range seg p =>
        (match s.unsubscribe t.uid range seg with
         | some (s1, st) => s1.answerSub t p st
         | none => s)
      | _ => s)
    | none => s)

/-- A restored cable resumes once every one of its segments is current (R208). -/
def Cable.settle (c : Cable) : Cable :=
  if c.resuming && c.segs.vals.all fun g => g.state == .current then { c with resuming := false } else c

/-- The `cp.seg` that asked for a segment's snapshot counts the bytes that have been applied (11 R288). -/
def Cmd.snapApplied (seg : Nat) (m : Cmd) : Cmd :=
  match m.instr with
  | .cpSeg _ => if regNat m.d 0 / 4096 = seg ∧ m.progress = 1 ∧ m.progress2 = 1 then { m with written := 4096 } else m
  | _ => m

def execSegmentSnapshot (uid seg : Nat) (s : State) : Host.Outcome State Fault Refusal :=
  .next (match (s.cable uid).segs.find? seg with
    | some g => (match g.state, g.snapshot with
      | .inTransit, some (q, bytes, psn) => if !s.rangeNext (s.cable uid).coreD g.range g.sent then s else s.updCable uid fun c =>
        let cells := (List.range bytes.length).zipWith (fun i b => (b, psn.contains (i / 16))) bytes
        { c.padWriteAt (seg * 4096) cells with
          cmds := c.cmds.map (Cmd.snapApplied seg)
          segs := c.segs.insert seg { g with state := .current, synced := true, snapshot := none, last := q } }.settle
      | _, _ => s)
    | none => s)

/-- The oldest update that waits at a segment is applied; a segment that the home brings up to date by updates is
current once none is left. -/
def execSegmentUpdate (uid seg : Nat) (s : State) : Host.Outcome State Fault Refusal :=
  .next (match (s.cable uid).segs.find? seg with
    | some g => (match g.inbox with
      | u :: rest =>
        if g.snapshot.isSome || g.state == .saved || !(s.cable uid).isPlaced || !s.rangeNext (s.cable uid).coreD g.range u.sent then s
        else s.updCable uid fun c =>
          { c.padWrite (u.bytes.map fun (b : Nat × Byte × Bool) => (seg * 4096 + b.1, b.2)) with
            segs := c.segs.insert seg { g with inbox := rest, last := u.num
                                               state := if rest.isEmpty then .current else g.state } }.settle
      | [] => s)
    | none => s)

/-! ### Wait queues (09 R258 to R260) -/

/-- `CBL_WTQ_TMO` as a strand reads it now (R261). -/
def State.wtqTmoOf (s : State) (uid strand : Nat) : Nat :=
  match ((s.cable uid).ply (strand / 32)).laneGroup? (strand % 32) with
  | some { clause := some cl, .. } => (cl.readCreg strand 0x106).toNat
  | _ => (s.cable uid).wtqTmo.toNat

/-- The waiter record of a `wtq`. -/
def Txn.waiter (t : Txn) (s : State) (key tmo : Nat) (p : LoadPart) : Waiter :=
  let c := s.cable t.uid
  { id := t.id, part := c.part, key := key, uid := t.uid, strand := p.strand, t0 := s.clock, tmo := tmo
    ic := t.ic, dest := p.dests.flatten }

/-- A status that the replay log has kept back is tried again. -/
def State.statusAgain (s : State) (w : Waiter) (status : Nat) : State :=
  let c := s.cable w.uid
  let e := s.waiterEvent w status
  match s.logEvent c e with
  | .go s1 v => s1.giveStatus w v
  | .wait s1 => s1
  | .diverged => s.divergePly w.uid (w.strand / 32) ((((c.ply (w.strand / 32)).groups.head?).map Group.pc).getD 0) 0

def execWtqAppend (txn : Nat) (s : State) : Host.Outcome State Fault Refusal :=
  .next (match s.txns.find? txn with
    | some t => (match t.kind with
      | .wtq key _ p => s.atHome t fun s t =>
        let w := t.waiter s key (s.wtqTmoOf t.uid p.strand) p
        let s1 := { s.dropTxn t.id with waiters := s.waiters ++ [w] }
        if 65536 ≤ (s.waiters.filter fun x => x.part == w.part).length then s1.releaseWaiter w 3 none else s1
      | _ => s)
    | none => s)

def execWakeAtHome (txn : Nat) (s : State) : Host.Outcome State Fault Refusal :=
  .next (match s.txns.find? txn with
    | some t => (match t.kind with
      | .wake key n => s.atHome t fun s t =>
        (s.wakeKey (s.cable t.uid).part key n (s.core t.core).p).setTxn { t with state := .performed 0 0 [] 0, entry := false }
      | _ => s)
    | none => s)

/-- A waiter's timeout; or the status of a released waiter, kept back by the replay log, is tried again. -/
def execWtqTimeout (waiter : Nat) (s : State) : Host.Outcome State Fault Refusal :=
  .next (match s.waiters.find? fun w => w.id == waiter with
    | some w => (match w.status with
      | some st => s.statusAgain w st
      | none => if w.tmo ≠ 0 ∧ w.t0 + w.tmo * 1000 ≤ s.clock then s.releaseWaiter w 1 none else s)
    | none => s)

/-! ### Messages (09 R264) -/

/-- A matched message is moved while its receiver stands on a core and is not being saved, once the banks have served what
arrived before for its buffer and no section of it is waking (R265, 07 R184, R205), and the loads that precede the `recv` have
returned (08 R214). -/
def execMessageDelivery (msg : Nat) (s : State) : Host.Outcome State Fault Refusal :=
  .next (match s.deliveries.find? fun m => m.id == msg with
    | some m => (match m.taken with
      | some r => if (s.cable r.uid).isPlaced && (s.cable r.uid).saving.isNone &&
          s.loadsReturned (s.cable r.uid).coreD r.after && !s.padBusy r.uid r.buf (min m.bytes.length r.max) then s.deliverMsg m r else s
      | none => s)
    | none => s)

/-! ### Page walks (16 R374, R376) -/

/-- A page walker brings a translation into the TLBs ahead of an access. A leaf whose A is clear is left to the access, which sets
it (Table 16.6), and a fault is raised at the access that meets it. -/
def execPageWalk (core ctx : Nat) (va : W64) (write fetch : Bool) (s : State) : Host.Outcome State Fault Refusal :=
  .next (if !(s.ctx ctx).en || 2 ^ 60 ≤ va.toNat || va.toNat / 2 ^ 56 % 16 == 15 then s
    else match s.walk va.toNat ((s.ctx ctx).ptbr.toNat) 5 with
      | .ok lf =>
        let acc : Access := if write then .write else if fetch then .fetch else .read
        if leafAllows lf.pte acc false && pteBit lf.pte 5 && (s.checkPhys (ctx / 16) (lf.phys va.toNat)).isNone
        then s.fillTlb core ctx va.toNat lf else s
      | .error _ => s)

/-! ### A word that is no instruction (03 R73, R83) -/

def execIllegalInstruction (why : Reject) (s : State) : Host.Outcome State Fault Refusal := s.performIllegal why

end Sys2Proof.Machine
end

