-- ==== Sys2Proof/Machine/Launch.lean ====
section
/-! DEFINITION. Launch records, launches, queues and placement (05 R146 to R155; 06 R176, R177; 07 R183). -/
namespace Sys2Proof.Machine

/-! ### Launch records (R146, R148) -/

/-- The bits of each word that Table 5.5 assigns. -/
def recMasks : List Nat :=
  [ 0x0FFFFFFFFFFFFFF8, 0x0000FFFFFFFFFFFF, 0x000000FFFFFFFF3F, 0xFFFFFFFFFFFFFFFF, 0xFFFFFFFFFFFFFFFF, 0x00FF00FF00FF00FF,
    0x001FFFFF001FFFFF, 0x0000001FFFFFFFFF, 0x0FFFFFFFFFFFF000, 0x00000000FFFFFFFF, 0x0FFFFFFFFFFFFFF8, 0x0FFFFFFFFFFFFFC0,
    0, 0, 0, 0 ]

def recWord (r : List W64) (off : Nat) : Nat := (r.getD (off / 8) 0).toNat
def recEntry (r : List W64) : Nat := recWord r 0
def recDims (r : List W64) : Nat × Nat × Nat := (recField r 8 0 16, recField r 8 16 16, recField r 8 32 16)
/-- Cables of the coil. -/
def recCables (r : List W64) : Nat := let d := recDims r; d.1 * d.2.1 * d.2.2
def recPlies (r : List W64) : Nat := recField r 0x10 0 6
def recSpad (r : List W64) : Nat := recField r 0x10 8 8
def recTables (r : List W64) : Nat := recField r 0x10 16 4
def recTiles (r : List W64) : Nat := recField r 0x10 20 5
def recPriv (r : List W64) : Nat := recField r 0x10 28 1
def recWriter (r : List W64) : Nat := recField r 0x10 29 5
def recRegres (r : List W64) : Nat := recField r 0x10 34 6
/-- Physical registers that a cable of the record reserves. -/
def recRegs (r : List W64) : Nat := 32 * recPlies r * (8 * recRegres r)
def recKargs (r : List W64) : Nat := recWord r 0x58
/-- The completion counter of the launching cable. -/
def recDone (r : List W64) : Option Nat := if recField r 0x38 32 1 = 1 then some (recField r 0x38 33 4) else none
/-- A dependence: counter and threshold. -/
def recDep (r : List W64) (i : Nat) : Option (Nat × Nat) :=
  if recField r 0x30 (32 * i) 1 = 1 then some (recField r 0x30 (32 * i + 1) 4, recField r 0x30 (32 * i + 5) 16) else none

/-- A budget is 0 or 4 to 32 (Table 5.6). -/
def budgetOk (b : Nat) : Bool := b == 0 || (4 ≤ b && b ≤ 32)

/-- The roles of a ply's lays are at most one. -/
def rolesOk (r : List W64) (p : Nat) : Bool :=
  let roles := ((List.range 4).filter fun i => (recLay r i).testBit p && recLattr r i % 4 != 0).map fun i => recLattr r i % 4
  roles.all fun x => x == roles.headD 0

/-- The fields of a record obey R148; `user` is the launcher's level. -/
def recOk (r : List W64) (user : Bool) : Bool :=
  let d := recDims r
  ((List.range 16).all fun i => (r.getD i 0).toNat &&& (2 ^ 64 - 1 - recMasks.getD i 0) == 0) &&
  1 ≤ d.1 && 1 ≤ d.2.1 && 1 ≤ d.2.2 && decide (recCables r < 2 ^ 32) &&
  1 ≤ recPlies r && recPlies r ≤ 32 && recSpad r ≤ 192 && recTables r ≤ 8 && recTiles r ≤ 16 && recRegres r ≤ 32 &&
  ((List.range 4).all fun i =>
    recLay r i < 2 ^ recPlies r && budgetOk (recLattr r i / 4 % 64) && (recLay r i != 0 || recLattr r i == 0)) &&
  ((List.range (recPlies r)).all fun p => rolesOk r p) &&
  recWriter r < recPlies r && (!user || recPriv r == 0) && recRegs r ≤ 131072

/-- The device reads bytes at a virtual address that lie in one page; the failing address otherwise. -/
def State.readLaunch (s : State) (ctx va n : Nat) (user : Bool) : State × Except Nat (List Byte) :=
  if 2 ^ 60 ≤ va ∨ va / 2 ^ 56 % 16 = 15 then (s, .error va)
  else match s.translateEngine ctx va .read user with
    | (s1, .error _) => (s1, .error va)
    | (s1, .ok p) =>
      let bs := s1.fetchBytes p.pa n
      match (List.range n).find? fun i => (bs.getD i (0, false)).2 with
      | some i => (s1, .error (va + i))
      | none => (s1, .ok (bs.map Prod.fst))

/-- Reads 64-byte pieces from an address. -/
def State.readPieces (s : State) (ctx va : Nat) (user : Bool) : Nat → State × Except Nat (List Byte)
  | 0 => (s, .ok [])
  | k + 1 =>
    match s.readLaunch ctx va 64 user with
    | (s1, .error a) => (s1, .error a)
    | (s1, .ok bs) => match s1.readPieces ctx (va + 64) user k with
      | (s2, .error a) => (s2, .error a)
      | (s2, .ok rest) => (s2, .ok (bs ++ rest))

/-- Little-endian words of `n` bytes. -/
def wordsOf (n : Nat) (bs : List Byte) : List Nat := (List.range (bs.length / n)).map fun i => leNat ((bs.drop (n * i)).take n)

/-- A record and its argument words as the device reads and checks them; the address whose reading failed, or 0. -/
def State.readRecord (s : State) (ctx va : Nat) (user : Bool) : State × Except Nat (List W64 × List W32) :=
  if va % 128 ≠ 0 then (s, .error 0)
  else match s.readPieces ctx va user 2 with
    | (s1, .error a) => (s1, .error a)
    | (s1, .ok bs) =>
      let r := (wordsOf 8 bs).map fun w => BitVec.ofNat 64 w
      if !recOk r user then (s1, .error 0)
      else if recKargs r = 0 then (s1, .ok (r, []))
      else match s1.readPieces ctx (recKargs r) user 4 with
        | (s2, .error a) => (s2, .error a)
        | (s2, .ok ks) => (s2, .ok (r, (wordsOf 4 ks).map fun w => BitVec.ofNat 32 w))

/-! ### Launches (R150, R151, R177) -/

/-- Launches of a context that are queued or wait on dependences. -/
def State.launchesOf (s : State) (ctx : Nat) : Nat :=
  (s.coils.vals.filter fun c => c.ctx == ctx && c.placedCables < recCables c.lrec).length

/-- The dependences of a launch hold; a launching cable that has ended has drained its counters. -/
def State.depsHold (s : State) (c : Coil) : Bool :=
  [0, 1].all fun i => match recDep c.lrec i, c.launcher with
    | some (n, t), some uid => (match s.cables.find? uid with | some k => (k.counter n).val ≤ t | none => true)
    | _, _ => true

/-- The cables of a launch enter the tail of their queue. -/
def State.enqueueCoil (s : State) (id : Nat) : State :=
  match s.coils.find? id with
  | none => s
  | some c =>
    let s1 := { s with coils := s.coils.insert id { c with queued := true } }
    s1.updCtx c.ctx fun x => { x with queues := x.queues.modify (recPrio c.lrec) fun q => q ++ [.coil id] }

/-- A launch takes effect: its completion counter rises, and it waits to enter its queue. It carries its core's time: the
cables it launches begin no earlier (08 R221). `ply` is the launcher's. -/
def State.applyLaunch (s : State) (ctx : Nat) (launcher : Option Nat) (r : List W64) (kargs : List W32)
    (ply : Nat := 0) : State :=
  let (s1, id) := s.newOp
  let from_ : Option Cable := launcher.map s.cable
  let coil : Coil :=
    { id := id, ctx := ctx, part := ctx / 16, lrec := r, kargs := kargs, launcher := launcher, doneOp := id, cycle := s.cycle
      p := (from_.map fun c => (s.core c.coreD).p).getD 0, core := (from_.map Cable.coreD).getD 0
      order := (from_.map Cable.order).getD 0 }
  let s2 := match launcher, recDone r with
    | some uid, some n => s1.countUp uid n id ply
    | _, _ => s1
  { s2 with coils := s2.coils.insert id coil }

/-- The order of launches: by the cycle in which their instructions complete, in one cycle by `%core`, on one core by the
order of placement, then as they were issued (06 R177). -/
def Coil.before (d c : Coil) : Bool :=
  decide (d.cycle < c.cycle ∨ d.cycle = c.cycle ∧ (d.core < c.core ∨ d.core = c.core ∧ (d.order < c.order ∨
    d.order = c.order ∧ d.id < c.id)))

/-- A launch whose dependences hold enters its queue, once its cycle is over and none that comes before it in its context
and whose dependences hold is left (R150, 06 R177). -/
def State.enterLaunch (s : State) (id : Nat) : State :=
  match s.coils.find? id with
  | none => s
  | some c =>
    if c.queued || !s.depsHold c || decide (s.cycle ≤ c.cycle) ||
        s.coils.vals.any fun d => d.ctx == c.ctx && d.before c && !d.queued && s.depsHold d then s
    else s.enqueueCoil id

/-- The end of a coil: the launcher's counter falls (R150). -/
def State.endCoil (s : State) (id : Nat) : State :=
  match s.coils.find? id with
  | none => s
  | some c =>
    let s1 := { s with coils := s.coils.erase id }
    match c.launcher, recDone c.lrec with
    | some uid, some n => s1.countDone uid n c.doneOp
    | _, _ => s1

/-! ### Where a cable fits (R152, R153) -/

/-- Free units: those of sections that hold scratchpad first (07 R183); gated and waking sections give none. -/
def State.freeUnits (s : State) (core : Nat) : List Nat :=
  let used := s.unitsUsed core
  let k := s.core core
  let free := (List.range 192).filter fun u => !used.contains u && !k.gated.contains (u / 32) && !k.waking.contains (u / 32)
  let busy (u : Nat) : Bool := used.any fun v => v / 32 == u / 32
  (free.filter fun u => busy u) ++ free.filter fun u => !busy u

/-- Registers, table registers and tiles are free for a record. -/
def State.fitsBut (s : State) (core : Nat) (r : List W64) : Bool :=
  let there := s.placedOn core
  s.poolUse core + recRegs r ≤ Config.physRegs &&
  there.foldl (fun n c => n + c.tableCount) 0 + recTables r ≤ 8 &&
  there.foldl (fun n c => n + c.tileCount) 0 + recTiles r ≤ 16
def State.fits (s : State) (core : Nat) (r : List W64) : Bool := s.fitsBut core r && recSpad r ≤ (s.freeUnits core).length
/-- It would fit with the core's gated and waking sections awake. -/
def State.fitsAwake (s : State) (core : Nat) (r : List W64) : Bool :=
  s.fitsBut core r && recSpad r + (s.unitsUsed core).length ≤ 192

/-- A core is not within 5 °C of MIG (19 R434). -/
def State.cool (s : State) (core : Nat) : Bool := s.coreTemps.getD core 0 + 5 < s.thermMig

/-- The core with the fewest placed cables among those that pass a test, the lowest on a tie. -/
def State.bestCore (s : State) (part : Nat) (ok : Nat → Bool) : Option Nat :=
  ((List.range Config.cores).filter fun k => s.corePart k == some part && s.cool k && ok k).foldl
    (fun (b : Option Nat) k => match b with
      | none => some k
      | some j => if (s.placedOn k).length < (s.placedOn j).length then some k else some j) none

/-! ### Placement (R149, R155) -/

/-- The generator of a strand at launch (02 R53). -/
def launchSeed (r : List W64) (strand : Nat) : W32 := srFix (BitVec.ofNat 32 (recField r 0x38 0 32 + strand * 0x9E3779B9))

/-- A ply of a new cable: one group at the entry. -/
def newPly (entry : Nat) : Ply := { groups := [{ gid := 0, lanes := 0xFFFFFFFF, pc := entry }] }

/-- The next identity of a partition's cables (08 R234). -/
def State.takeCid (s : State) (part : Nat) : State × Nat :=
  let n := (s.part part).cidNext
  (s.updPart part fun p => { p with cidNext := if n = 0xFFFFFF then 1 else n + 1 }, n)

/-- A cable of a coil as it begins (R149). -/
def Coil.cable (c : Coil) (uid cid core lin order since : Nat) (units : List Nat) : Cable :=
  let d := recDims c.lrec
  { uid := uid, cid := cid, part := c.part, ctx := c.ctx, coil := c.id, lrec := c.lrec
    x := lin % d.1, y := lin / d.1 % d.2.1, z := lin / d.1 / d.2.1, lin := lin
    state := .placed core, lastCore := core, order := order, since := since, priv := BitVec.ofNat 2 (recPriv c.lrec)
    k := ((List.range c.kargs.length).zip c.kargs).filterMap fun e => if e.2 = 0 then none else some (e.1, ⟨e.2, false⟩)
    units := units
    tables := (List.range (recTables c.lrec)).map fun t => (t, {})
    tiles := (List.range (recTiles c.lrec)).map fun t => (t, {})
    spillBase := BitVec.ofNat 64 (recWord c.lrec 0x40), spillSize := BitVec.ofNat 32 (recWord c.lrec 0x48)
    trapVec := BitVec.ofNat 64 (recWord c.lrec 0x50)
    plies := (List.range (recPlies c.lrec)).map fun p => (p, newPly (recEntry c.lrec))
    strands := (List.range (32 * recPlies c.lrec)).map fun j => (j, { sr := launchSeed c.lrec j }) }

/-- A core receives a cable's units: of a section that becomes scratchpad it discards the L1 lines (07 R183); its gated
sections wake (19 R432). -/
def State.seat (s : State) (core : Nat) (units : List Nat) : State :=
  s.updCore core fun k =>
    { k with placedCount := k.placedCount + 1, l1 := k.l1.filter fun e => !(units.any fun u => u / 32 == e.2.way)
             waking := k.gated.foldl (fun l n => setInsert n l) k.waking }

/-- Places the next cable of a coil on a core, whose time the launch raises (08 R221). -/
def State.placeNew (s : State) (id core : Nat) : State :=
  match s.coils.find? id with
  | none => s
  | some c =>
    let (s1, cid) := s.takeCid c.part
    let units := (s1.freeUnits core).take (recSpad c.lrec)
    let uid := s1.nextUid
    let new := c.cable uid cid core c.placedCables (s1.core core).placedCount s1.clock units
    let s2 := (s1.seat core units).raiseP core c.p
    { s2 with
      nextUid := uid + 1
      cables := s2.cables.insert uid new
      coils := s2.coils.insert id { c with placedCables := c.placedCables + 1 } }

/-- Whether a cable holds posted receives or messages, which keep it in its cluster (09 R266). -/
def State.tied (s : State) (c : Cable) : Bool :=
  (s.posted.vals.any fun l => l.any fun r => r.uid == c.uid) || (s.overflow.vals.any fun l => l.any fun m => m.to_ == c.uid) ||
  s.deliveries.any fun m => match m.taken with | some r => r.uid == c.uid | none => false

/-! ### Instruction (06 R176) -/

/-- Reads and checks the records of several strands; the first that fails gives its strand and address. -/
def State.readRecords (s : State) (ctx : Nat) (user : Bool) (l : List (Nat × Nat)) :
    State × Except (Nat × Nat) (List (List W64 × List W32)) :=
  l.foldl (fun (b : State × Except (Nat × Nat) (List (List W64 × List W32))) e =>
    match b.2 with
    | .error x => (b.1, .error x)
    | .ok rs => match b.1.readRecord ctx e.2 user with
      | (s1, .error a) => (s1, .error (e.1, a))
      | (s1, .ok r) => (s1, .ok (rs ++ [r]))) (s, .ok [])

/-- Counters have room for the launches of records. -/
def Cable.launchRoom (c : Cable) (rs : List (List W64 × List W32)) : Bool :=
  (List.range 16).all fun n => c.counterRoom n (rs.filter fun r => recDone r.1 == some n).length

def launchRow (f : FmtA) : Row :=
  let u := f.useA (.raw true)
  { srcs := [u], latch := .clear
    act := fun s x =>
      let uid := x.e.uid
      let c := s.cable uid
      let plies := distinct (x.ordered.map (· / 32))
      let s0 := s.drainPlies uid plies
      if s.acquiring uid x.ordered || !s0.releaseHolds uid plies x.ordered 3 then .stall s0
      else match s0.readRecords c.ctx (c.priv == 0) (x.accessors.map fun j => (j, s.valueOf x u j)) with
        | (_, .error (j, a)) => .fault { cause := 15, strand := some j, addr := a }
        | (s1, .ok rs) =>
          if !c.launchRoom rs then .stall s0
          else if 4096 < s1.launchesOf c.ctx + rs.length then .park s0
          else .done (rs.foldl (fun s r => s.applyLaunch c.ctx (some uid) r.1 r.2 (x.lead / 32)) s1) [] }

def execLaunch (f : FmtA) (s : State) : Host.Outcome State Fault Refusal := s.perform (.launch f) f.c (launchRow f)

end Sys2Proof.Machine
end

