-- ==== Sys2Proof/Machine/Rendezvous.lean ====
section
/-! DEFINITION. Joins, and what an exit does to the groups that wait (05 R136 to R138; 06 R173, R180). -/
namespace Sys2Proof.Machine

/-! ### Join instances (06 R173) -/

def Ply.joinAt (y : Ply) (addr : Nat) : Option JoinInst := y.joins.find? fun i => i.addr == addr
/-- The lanes held at a join. -/
def Ply.heldAt (y : Ply) (addr : Nat) : W32 :=
  y.groups.foldl (fun l g => if g.hold = .join addr then l ||| g.lanes else l) 0
/-- The group that arrived last at a join, and the others. -/
def Ply.joiners (y : Ply) (addr : Nat) : Option (Nat × List Nat) :=
  let gs := y.groups.filter fun g => g.hold == .join addr
  let lastOne := gs.foldl (fun (r : Option Group) g => match r with
    | some h => if h.since < g.since then some g else some h | none => some g) none
  lastOne.map fun g => (g.gid, (gs.filter fun h => h.gid != g.gid).map Group.gid)

/-- The live lanes of a ply. -/
def Cable.liveLanes (c : Cable) (p : Nat) : W32 := lanesOf ((c.livePly p).map (· % 32))
def Ply.closeInst (y : Ply) (addr : Nat) : Ply := { y with joins := y.joins.filter fun i => i.addr != addr }

/-- A group that was held has executed its join: its latches are cleared, it goes on; a stepped ply halts after it (16 R386). -/
def State.passJoin (s : State) (uid q gid : Nat) : State :=
  match s.group? uid q gid with
  | none => s
  | some g =>
    let e : Env := { uid := uid, ply := q, gid := gid }
    ((((s.cable uid).groupStrands q g).foldl (fun s j => s.setLatch e j none) (s.ownLatch e ((s.cable uid).groupStrands q g))).advance
      uid [] (q, gid)).stepped uid q gid false

/-- The stop count that falls on the join of a held group, which another group's instruction, counted first, lets go on
(16 R386). -/
def State.joinStop (s : State) (uid q gid : Nat) : Option Trouble :=
  (((s.cable uid).ply q).group? gid).bind fun g => g.clause.bind fun cl => (s.cable uid).stopTrouble q cl 1

/-- The ply halts before that join: the group stands at it, and arrives there again when the ply resumes. -/
def State.stopAtJoin (s : State) (uid q gid : Nat) (t : Trouble) : State :=
  match ((s.cable uid).ply q).group? gid with
  | none => s
  | some g =>
    let s1 := s.updPly uid q fun y => y.releaseGroup gid
    if ((s.cable uid).ply q).stopped then s1
    else s1.raisePly { uid := uid, ply := q, gid := gid } g.next ((g.clause.map Clause.word).getD 0) t

/-- Closes an instance whose live strands are all held: their groups merge and go on, unless the ply halts before it. -/
def State.closeJoin (s : State) (uid q addr : Nat) : State :=
  match ((s.cable uid).ply q).joiners addr with
  | none => s.updPly uid q fun y => y.closeInst addr
  | some (keep, others) =>
    match s.joinStop uid q keep with
    | some t => s.stopAtJoin uid q keep t
    | none => (s.updPly uid q fun y => ((y.closeInst addr).mergeGroups keep others).releaseGroup keep).passJoin uid q keep

/-- A group arrives at a join; whether it goes on. The strands of J stay held apart where others go on. Where it is the last to
arrive, the held groups merge into the whole of it, its strands outside J included (DESIGN CHOICE, log 150). -/
def State.arriveJoin (s : State) (uid q gid addr m : Nat) : State × Bool :=
  let c := s.cable uid
  let y := c.ply q
  match y.group? gid with
  | none => (s, false)
  | some g =>
    let fresh := match g.clause with | some cl => cl.readMask m | none => 0
    let j := match y.joinAt addr with | some i => i.lanes | none => fresh
    let y1 := if (y.joinAt addr).isSome then y else { y with joins := y.joins ++ [⟨addr, j⟩] }
    let live := c.liveLanes q
    let inJ := g.lanes &&& live &&& j
    let out := g.lanes &&& live &&& ~~~j
    if live &&& j &&& ~~~(y.heldAt addr ||| inJ) = 0 then
      (if inJ = 0 then ((s.updPly uid q fun _ => y1).closeJoin uid q addr, true)
       else (s.updPly uid q fun _ => (y1.closeInst addr).mergeGroups gid
          ((y.groups.filter fun h => h.hold == .join addr).map Group.gid), true))
    else if inJ = 0 then (s.updPly uid q fun _ => y1, true)
    else if out = 0 then (s.updPly uid q fun _ => y1, false)
    else
      let held : Group := { g with gid := y1.nextGid, lanes := inJ, hold := .join addr, place := .out g.place.slotOr
                                   since := s.stepCount, signed := false }
      let y2 := y1.updGroup gid fun g => { g with lanes := g.lanes &&& ~~~inJ }
      (s.updPly uid q fun _ => { y2 with groups := y2.groups ++ [held] }, true)

/-- The group that has waited longest for an instance, of those whose address passes a test. -/
def Cable.oldestFull (c : Cable) (q : Nat) (ok : Nat → Bool) : Option (Group × Nat) :=
  (c.ply q).groups.foldl (fun (r : Option (Group × Nat)) g =>
    match g.hold, r with
    | .joinFull a, none => if ok a then some (g, a) else none
    | .joinFull a, some (h, b) =>
      if ok a && decide (g.since < h.since ∨ (g.since = h.since ∧ (c.groupStrands q g).headD 0 < (c.groupStrands q h).headD 0))
      then some (g, a) else some (h, b)
    | _, r => r) none

/-- The group that arrives next of those that wait: one whose join has an open instance, or else the oldest, where an
instance is free. -/
def Cable.nextFull (c : Cable) (q : Nat) : Option (Group × Nat) :=
  match c.oldestFull q fun a => ((c.ply q).joinAt a).isSome with
  | some e => some e
  | none => if 16 ≤ (c.ply q).joins.length then none else c.oldestFull q fun _ => true

/-- As instances come free, the groups that wait for one open theirs, oldest first; those that wait at the same join arrive
with them. -/
def State.openWaiting (s : State) (uid q : Nat) : Nat → State
  | 0 => s
  | n + 1 =>
    match (s.cable uid).nextFull q with
    | none => s
    | some (g, addr) =>
      let m := match g.clause with | some cl => maskField ((cl.word).extractLsb' 43 10) | none => 0
      let out := s.arriveJoin uid q g.gid addr m
      let s1 := if out.2 then
          (match s.joinStop uid q g.gid with
          | some t => s.stopAtJoin uid q g.gid t
          | none => (out.1.updPly uid q fun y => y.releaseGroup g.gid).passJoin uid q g.gid)
        else out.1.updPly uid q fun y => y.updGroup g.gid fun h => { h with hold := .join addr }
      s1.openWaiting uid q n

/-- Every group of a ply could open at most once. -/
def State.openAll (s : State) (uid q : Nat) : State := s.openWaiting uid q ((s.cable uid).ply q).groups.length

/-- `join` for the group that executes it (R173). -/
def State.joinHere (s : State) (x : Issue) (m : Nat) : Attempt :=
  let uid := x.e.uid
  let q := x.e.ply
  let y := (s.cable uid).ply q
  if (y.joinAt x.addr).isNone && 16 ≤ y.joins.length then .hold s (.joinFull x.addr)
  else
    let open_ := y.joins.length
    let out := s.arriveJoin uid q x.e.gid x.addr m
    if out.2 then
      let s1 := match out.1.group? uid q x.e.gid with
        | some g => ((out.1.cable uid).groupStrands q g).foldl (fun s j => s.setLatch x.e j none) out.1
        | none => out.1
      .done (if ((s1.cable uid).ply q).joins.length < open_ then s1.openAll uid q else s1) []
    else .hold out.1 (.join x.addr)

/-! ### Exits (R180, 05 R137) -/

/-- A strand stops being live: its names are released, everything of its own is discarded. -/
def State.endStrand (s : State) (uid strand : Nat) : State :=
  s.updCable uid fun c =>
    let t := c.strand strand
    let c1 := (t.v.keys ++ t.spilled).foldl (fun (c : Cable) n => c.staleReg strand n) c
    c1.updStrand strand fun _ => { live := false, sr := 0 }

/-- The last group to sign of each instruction that every live member has signed: it issues (R137). -/
def Cable.complete (c : Cable) : List (Nat × Nat) :=
  let signed := c.heldGroups.filter fun e => e.2.hold == .rendezvous
  let at_ (e : Nat × Group) : Option (Nat × (Scope × Nat)) := e.2.clause.map fun cl => (e.2.next, heldInstance e.1 cl)
  (signed.filter fun e =>
    match at_ e with
    | none => false
    | some k =>
      let same := signed.filter fun f => at_ f == some k
      let members := c.membersOf k.2.1 k.2.2 e.1
      c.allIn members same && same.all fun f => decide (f.2.since < e.2.since) || (f.1 == e.1 && f.2.gid == e.2.gid)).map
    fun e => (e.1, e.2.gid)

/-- What the exit of strands lets happen: joins close, instructions fall due, which the step executes at once (R137), waits that
cannot end are found. -/
def State.afterExit (s : State) (uid : Nat) : State :=
  let closing (c : Cable) : List (Nat × Nat) :=
    c.plies.flatMap fun e => (e.2.joins.filter fun i =>
      c.liveLanes e.1 &&& i.lanes &&& ~~~(e.2.heldAt i.addr) = 0).map fun i => (e.1, i.addr)
  let s1 := (closing (s.cable uid)).foldl (fun s j => (s.closeJoin uid j.1 j.2).openAll uid j.1) s
  let full := (s1.cable uid).complete
  let s2 := full.foldl (fun s e => s.updPly uid e.1 fun y => y.releaseGroup e.2) s1
  { s2 with due := s2.due ++ full.map fun e => (uid, e) }.checkMismatch uid

end Sys2Proof.Machine
end

