-- ==== Sys2Proof/Machine/Answers.lean ====
section
/-! DEFINITION. Answers to records, the termination and the end of a cable (16 R370, R377; 05 R154; 09 R257, R266). -/
namespace Sys2Proof.Machine

/-! ### Handles -/

def Stopped.uid : Stopped → Nat | .group u _ _ => u | .held u _ _ _ => u | .cmd u _ => u
def State.handle? (s : State) (ctx h : Nat) : Option Handle := (s.ctx ctx).handles.find? fun x => x.h == h
def State.dropHandle (s : State) (ctx h : Nat) : State :=
  s.updCtx ctx fun x => { x with handles := x.handles.filter fun y => y.h != h }
/-- The cables that a handle concerns. -/
def Handle.uids (h : Handle) : List Nat := distinct (h.agents.map Stopped.uid)

/-- Takes a cable out of every handle; a handle that stops nothing any more is gone. -/
def State.forgetAgents (s : State) (uid : Nat) : State :=
  s.updCtx (s.cable uid).ctx fun x => { x with
    handles := (x.handles.map fun h => { h with agents := h.agents.filter fun a => a.uid != uid }).filter
      fun h => !h.agents.isEmpty }

/-- Releases the plies that a handle halted. -/
def State.releaseHalts (s : State) (h : Nat) : State :=
  { s with cables := s.cables.map fun (u, c) => (u, if c.halts.any fun x => x.handle == h then c.release h else c) }

/-! ### Termination (R370, action 2) -/

/-- A cable's save, where one is under way, is given up and its slot is free. -/
def State.dropSave (s : State) (uid : Nat) : State :=
  let c := s.cable uid
  let free (s : State) (slot : Nat) (device : Bool) : State :=
    if device then s.updPart c.part fun p => { p with devSlots := p.devSlots.erase slot }
    else s.updCtx c.ctx fun x => { x with slots := x.slots.erase slot }
  let s1 := match c.saving with | some v => free s v.slot v.device | none => s
  match c.state with
  | .saved n d => free s1 n d
  | .requeued n d => free s1 n d
  | _ => s1

/-- Every live strand exits without waiting for loads; every engine command stops at its next unit boundary. -/
def State.terminate (s : State) (uid : Nat) : State :=
  let c := s.cable uid
  if !c.isPlaced then s else
    let s1 := (((s.dropSave uid).forgetAgents uid).drainCable c.coreD uid).landCable uid
    let s2 := c.live.foldl (fun s j => s.endStrand uid j) s1
    let s3 := (List.range c.plyCount).foldl (fun s p => s.freeIssue c.coreD uid p) s2
    s3.updCable uid fun c =>
      { c with
        terminated := true, halts := [], saving := none, trapping := none
        plies := c.plies.map fun (p, y) => (p, { y with groups := [], joins := [], running := none, stopped := false })
        cmds := c.cmds.map fun m => { m with cancel := true, handle := 0
                                             state := if m.state = .suspended then .running else m.state } }

/-! ### Answers (R370) -/

/-- Applies a function to the clause of a group, and to those of the groups that signed its instruction with it. -/
def State.updSigners (s : State) (uid p gid : Nat) (f : Clause → Clause) : State :=
  let c := s.cable uid
  match (c.ply p).group? gid with
  | some { clause := some cl, .. } =>
    let cm := Common.ofWord cl.word
    let next := cl.addr + 8 * (cl.pos + 1)
    let others := if cm.scope = .strand then [] else c.signers (c.memberPlies cm.scope cm.lay.toNat p) next p gid
    ((p, gid) :: others.map fun e => (e.1, e.2.gid)).foldl (fun s e => s.updClause uid e.1 e.2 f) s
  | _ => s

/-- Lets an agent execute or run again: at a breakpoint, a watchpoint or the stop count, once without that check. An access
for a wider scope is compared in the clause of its lead, whichever ply's that is. -/
def State.retryAgent (s : State) (h : Handle) : Stopped → State
  | .group uid p gid =>
    if [23, 24].contains h.cause || (h.cause == 25 && h.detail == 1) then
      s.updSigners uid p gid fun cl => { cl with passed := h.cause :: cl.passed }
    else s
  | .held .. => s
  | .cmd uid m => s.updCmd uid m fun c => if c.state = .suspended then { c with state := .running, handle := 0 } else c

/-- Lets an instruction complete as though its predicate were false for every strand: those that signed it with the
group too. -/
def State.skipAgent (s : State) (h : Handle) : Stopped → State
  | .group uid p gid => s.updSigners uid p gid fun cl => { cl with skip := true }
  | a => s.retryAgent h a

/-- Cancels a suspended command. -/
def State.cancelAgent (s : State) (h : Handle) : Stopped → State
  | .cmd uid m => s.updCmd uid m fun c => { c with cancel := true, handle := 0
                                                   state := if c.state = .suspended then .running else c.state }
  | a => s.retryAgent h a

/-- Applies an accepted action to a record's agents: skip and cancel act on the record's own, the first; those that joined it
are retried (log 84). -/
def State.answer (s : State) (ctx : Nat) (h : Handle) (action arg : Nat) : State :=
  let s0 := s.dropHandle ctx h.h
  if action = 2 then (h.uids.foldl State.terminate s0).releaseHalts h.h
  else
    let s1 := if action = 4 then h.uids.foldl (fun s u => s.updCable u fun c => 
      { c with spillSize := BitVec.ofNat 32 arg, spillNext := (c.spillNext.1, none) }) s0 else s0
    let own (s : State) (a : Stopped) : State :=
      if action = 1 then s.skipAgent h a else if action = 3 then s.cancelAgent h a else s.retryAgent h a
    let s2 := (h.agents.drop 1).foldl (fun s a => s.retryAgent h a) ((h.agents.take 1).foldl own s1)
    h.agents.foldl (fun s a => match a with | .held u _ _ _ => s.checkMismatch u | _ => s) (s2.releaseHalts h.h)

/-! ### What a resumed agent observes (17 R390) -/

/-- The fields of a value of `CTX_RESUME` that say what is done. -/
def resumeAction (v : W64) : Nat := (v.extractLsb' 32 4).toNat
/-- The action lets its agents execute again: 0 or 4. -/
def resumes (v : W64) : Bool := resumeAction v == 0 || resumeAction v == 4

/-- A cable that is resumed goes on at a logical time of at least `time`, translates anew the pages of its record, and reads what
its copy commands have written. -/
def State.resumeCable (s : State) (ctx time : Nat) (pages : List Nat) (uid : Nat) : State :=
  match (s.cable uid).core? with
  | none => s
  | some k => ((pages.foldl (fun s p => s.dropTlb k ctx (4096 * p)) s).raiseP k time).landPath uid .copy

/-- What a value written to `CTX_RESUME` resumes performs its later accesses as though issued after the write, an
`xfence.mem.`g and an `xfence.copy.`g between (R390): `time` is what the writer observes. -/
def State.resumeSees (s : State) (ctx : Nat) (v : W64) (time : Nat) : State :=
  if !resumes v then s
  else match s.handle? ctx (v.extractLsb' 0 32).toNat with
    | none => s
    | some h =>
      if (causeActions h.cause h.engine).contains (resumeAction v) then h.uids.foldl (fun s u => s.resumeCable ctx time (h.page.toList ++ h.pages) u) s
      else s

/-- What a cable observes: its core's time and what it has observed of the copy path (08 R231). -/
def State.observed (s : State) (uid : Nat) : Nat := max (s.core (s.cable uid).coreD).p ((s.cable uid).ept.getD 0 0)

/-- What the cables of a context observe together: an answer that no cable of it writes (log 122). -/
def State.observedIn (s : State) (ctx : Nat) : Nat :=
  (s.cables.vals.filter fun c => c.ctx == ctx && c.isPlaced).foldl (fun n c => max n (s.observed c.uid)) 0

/-- `CTX_RESUME` after a write: RESULT beside what was written. -/
def State.giveResult (s : State) (ctx : Nat) (v : W64) (result : Nat) : State :=
  s.updCtx ctx fun x => { x with resume := (v &&& 0xFFFFFF0FFFFFFFFF) ||| BitVec.ofNat 64 (result * 2 ^ 36) }

/-- A write of `CTX_RESUME` (Table 16.4). -/
def State.writeResume (s : State) (ctx : Nat) (v : W64) : State :=
  let action := resumeAction v
  let (s1, result) :=
    if 4 < action then (s, 2)
    else match s.handle? ctx (v.extractLsb' 0 32).toNat with
      | none => (s, 1)
      | some h =>
        if !(causeActions h.cause h.engine).contains action || (action == 1 && h.atHeader) then (s, 2)
        else (s.answer ctx h action (v.extractLsb' 40 24).toNat, 0)
  s1.giveResult ctx v result

/-- A value of `CTX_RESUME`. -/
def resumeValue (handle action arg : Nat) : W64 :=
  BitVec.ofNat 64 (handle % 2 ^ 32 + action % 16 * 2 ^ 32 + arg % 2 ^ 24 * 2 ^ 40)

/-- The answer of the host's request, or of a writer whose handle is no event page's: what resumes sees the logical time
`time`. -/
def State.answerAt (s : State) (ctx : Nat) (v : W64) (time : Nat) : State := (s.resumeSees ctx v time).writeResume ctx v

/-- A write whose writer observes the logical time `time`. A handle whose record has reached an event page is answered by an
answer request alone (19 R441): to any other writer it is as a handle that is not there (DESIGN CHOICE, log 146). -/
def State.writeResumeAt (s : State) (ctx : Nat) (v : W64) (time : Nat) : State :=
  let shut := match s.handle? ctx (v.extractLsb' 0 32).toNat with | some h => h.atEvent | none => false
  if shut && decide (resumeAction v ≤ 4) then s.giveResult ctx v 1 else s.answerAt ctx v time

def State.writeResumeOf (s : State) (ctx handle action arg : Nat) : State :=
  if (s.ctx ctx).en then s.writeResumeAt ctx (resumeValue handle action arg) (s.observedIn ctx) else s

def execResumeRetry (ctx handle : Nat) (s : State) : Host.Outcome State Fault Refusal :=
  .next (s.writeResumeOf ctx handle 0 0)
def execResumeSkip (ctx handle : Nat) (s : State) : Host.Outcome State Fault Refusal :=
  .next (s.writeResumeOf ctx handle 1 0)
def execResumeTerminate (ctx handle : Nat) (s : State) : Host.Outcome State Fault Refusal :=
  .next (s.writeResumeOf ctx handle 2 0)
def execResumeCancel (ctx handle : Nat) (s : State) : Host.Outcome State Fault Refusal :=
  .next (s.writeResumeOf ctx handle 3 0)
def execResumeRetrySpill (ctx handle size : Nat) (s : State) : Host.Outcome State Fault Refusal :=
  .next (s.writeResumeOf ctx handle 4 size)
/-- Actions 5 to 15 change nothing but RESULT; the others are the rows before. -/
def execResumeActionReserved (ctx handle action : Nat) (s : State) : Host.Outcome State Fault Refusal :=
  .next (if 5 ≤ action ∧ action ≤ 15 then s.writeResumeOf ctx handle action 0 else s)

/-! ### The end of a cable (05 R154; 09 R257, R266) -/

/-- What outside the core still names a cable that ends: its posted receives are cancelled, their counters drained; its
waiters, its queued messages and its subscriptions are removed. -/
def State.withdraw (s : State) (uid : Nat) : State :=
  let mine := s.posted.vals.flatMap fun l => l.filter fun r => r.uid == uid
  let s1 := { s with
    posted := s.posted.map fun (e : Nat × List Recv) => (e.1, e.2.filter fun r => r.uid != uid)
    overflow := s.overflow.map fun (e : Nat × List Msg) => (e.1, e.2.filter fun m => m.to_ != uid)
    waiters := s.waiters.filter fun w => w.uid != uid }
  let s2 := mine.foldl (fun s r => match r.cntOp with | some n => s.countDone uid n r.id | none => s) s1
  let s3 := (s2.cable uid).segs.foldl (fun (s : State) (e : Nat × Seg) => s.leaveRange uid e.2.range e.1) s2
  s3.updCable uid fun c => { c with segs := [] }

/-- A core that holds no cable is idle from now on (19 R432). -/
def State.markIdle (s : State) (core : Nat) : State :=
  if (s.placedOn core).isEmpty then s.updCore core fun k => { k with idleSince := s.clock } else s

/-- A cable of a coil has ended. -/
def State.countEnded (s : State) (coil : Nat) : State :=
  match s.coils.find? coil with
  | none => s
  | some k =>
    let s1 := { s with coils := s.coils.insert coil { k with endedCables := k.endedCables + 1 } }
    if k.endedCables + 1 = recCables k.lrec then s1.endCoil coil else s1

/-- Messages that move to a cable that ends are discarded with their receives; their senders' counters fall (09 R266). -/
def State.dropDeliveries (s : State) (uid : Nat) : State :=
  let mine (m : Msg) : Bool := match m.taken with | some r => r.uid == uid | none => false
  (s.deliveries.filter mine).foldl (fun s m => match m.cntOp with | some k => s.countDone m.sender k m.id | none => s)
    { s with deliveries := s.deliveries.filter fun m => !mine m }

/-- A cable without a live strand: what it has outside is withdrawn, and once its counters are zero its resources are
released (05 R154). -/
def State.endCable (s : State) (uid : Nat) : State :=
  let c := s.cable uid
  if !c.isPlaced || !c.live.isEmpty || c.saving.isSome then s
  else
    let s1 := s.withdraw uid
    let c1 := s1.cable uid
    if c1.counters.vals.all fun k => k.val == 0 then
      (({ (s1.dropDeliveries uid).forgetAgents uid with
          cables := (s1.dropDeliveries uid).cables.insert uid c1.ashes }).markIdle c.coreD).countEnded c1.coil
    else s1

def execCableEnd (uid : Nat) (s : State) : Host.Outcome State Fault Refusal := .next (s.endCable uid)

end Sys2Proof.Machine
end

