-- ==== Sys2Proof/Machine/Bits.lean ====
section
/-! DEFINITION. Bit operations, moves, immediates and selection (04 R98 to R102). -/
namespace Sys2Proof.Machine

/-- Bits of a width code. -/
def widthBits (w : Width) : Nat := match w with | .b32 => 32 | .b64 => 64

def rawVal (n : Nat) : Val := { val := BitVec.ofNat 64 n }

/-- A format A row on raw values: `dst` and `b` give the types of the destination and of the second source. -/
def bitRow (w : Width) (dst : OTy) (srcs : List Use) (f : FmtA) (g : List Nat → Nat) : Row :=
  valueRow srcs (f.dest dst) (scaleOk f.clamp f.scale (.raw (w == .b64))) fun l => rawVal (g l)

def bitTwo (w : Width) (f : FmtA) (g : Nat → Nat → Nat) : Row :=
  bitRow w w.oty [f.useA w.oty, f.useB w.oty] f fun l => g (src1 l) (src2 l)
def bitOne (w : Width) (f : FmtA) (g : Nat → Nat) : Row := bitRow w w.oty [f.useA w.oty] f fun l => g (src1 l)
/-- `popc`, `clz` and `ctz` write one register at both widths. -/
def bitCount (w : Width) (f : FmtA) (g : Nat → Nat) : Row := bitRow w (.raw false) [f.useA w.oty] f fun l => g (src1 l)

def onesBelow (w : Width) : Nat := 2 ^ widthBits w - 1
def countOnes (w a : Nat) : Nat := ((List.range w).filter fun i => a.testBit i).length
/-- Zeros above the highest one. -/
def zerosAbove (w a : Nat) : Nat := if a = 0 then w else w - 1 - Nat.log2 a
/-- Zeros below the lowest one. -/
def zerosBelow (w a : Nat) : Nat := ((List.range w).find? fun i => a.testBit i).getD w
def reverseBits (w a : Nat) : Nat := (List.range w).foldl (fun r i => if a.testBit i then r + 2 ^ (w - 1 - i) else r) 0
/-- The field of a at position b[7:0] with length b[15:8]. -/
def extractField (a b : Nat) : Nat := a / 2 ^ (b % 256) % 2 ^ (b / 256 % 256)
/-- c with that field replaced by the low bits of a. -/
def insertField (w a b c : Nat) : Nat :=
  (List.range w).foldl (fun r i =>
    if (if b % 256 ≤ i ∧ i < b % 256 + b / 256 % 256 then a.testBit (i - b % 256) else c.testBit i) then r + 2 ^ i else r) 0

def execAnd (w : Width) (f : FmtA) (s : State) : Host.Outcome State Fault Refusal :=
  s.perform (.and w f) f.c (bitTwo w f fun a b => a &&& b)
def execOr (w : Width) (f : FmtA) (s : State) : Host.Outcome State Fault Refusal :=
  s.perform (.or w f) f.c (bitTwo w f fun a b => a ||| b)
def execXor (w : Width) (f : FmtA) (s : State) : Host.Outcome State Fault Refusal :=
  s.perform (.xor w f) f.c (bitTwo w f fun a b => a ^^^ b)
def execAndn (w : Width) (f : FmtA) (s : State) : Host.Outcome State Fault Refusal :=
  s.perform (.andn w f) f.c (bitTwo w f fun a b => a &&& (onesBelow w ^^^ b))
def execNot (w : Width) (f : FmtA) (s : State) : Host.Outcome State Fault Refusal :=
  s.perform (.not w f) f.c (bitOne w f fun a => onesBelow w ^^^ a)
def execPopc (w : Width) (f : FmtA) (s : State) : Host.Outcome State Fault Refusal :=
  s.perform (.popc w f) f.c (bitCount w f (countOnes (widthBits w)))
def execClz (w : Width) (f : FmtA) (s : State) : Host.Outcome State Fault Refusal :=
  s.perform (.clz w f) f.c (bitCount w f (zerosAbove (widthBits w)))
def execCtz (w : Width) (f : FmtA) (s : State) : Host.Outcome State Fault Refusal :=
  s.perform (.ctz w f) f.c (bitCount w f (zerosBelow (widthBits w)))
def execBrev (w : Width) (f : FmtA) (s : State) : Host.Outcome State Fault Refusal :=
  s.perform (.brev w f) f.c (bitOne w f (reverseBits (widthBits w)))
/-- The field operand is one 32-bit register at both widths. -/
def execBfe (w : Width) (f : FmtA) (s : State) : Host.Outcome State Fault Refusal :=
  s.perform (.bfe w f) f.c (bitRow w w.oty [f.useA w.oty, f.useB (.raw false)] f fun l => extractField (src1 l) (src2 l))
def execBfi (w : Width) (f : FmtB) (s : State) : Host.Outcome State Fault Refusal :=
  s.perform (.bfi w f) f.c (valueRow [f.useA w.oty, f.useB (.raw false), f.useC w.oty] (f.dest w.oty) true fun l =>
    rawVal (insertField (widthBits w) (src1 l) (src2 l) (src3 l)))

/-- A raw source copied with the poison of each of its registers (04 Table 4.1). -/
def State.carried (s : State) (x : Issue) (strand : Nat) (u : Use) : Val :=
  let p := s.readPoison x.e strand x.lay u.op u.ty.wide
  { val := BitVec.ofNat 64 (s.readOp x.e strand x.lay u.op u.ty).1, p0 := p.1, p1 := p.2 }

/-- R99. -/
def execMov (w : Width) (f : FmtA) (s : State) : Host.Outcome State Fault Refusal :=
  let u := { f.useA w.oty with carry := true }
  let d := f.dest w.oty
  s.perform (.mov w f) f.c
    { srcs := [u], dst := some d, legal := fun _ _ _ => scaleOk f.clamp f.scale w.oty
      act := fun s x => s.compute x d fun j => s.carried x j u }

/-- R100. -/
def execNop (f : FmtA) (s : State) : Host.Outcome State Fault Refusal :=
  s.perform (.nop f) f.c { latch := .clear, act := fun s _ => .done s [] }

/-- R101: SignExtend(IMM). -/
def execLi (f : FmtI) (s : State) : Host.Outcome State Fault Refusal :=
  s.perform (.li f) f.c (valueRow [] (f.dest (.raw false)) true fun _ => rawVal (f.imm.signExtend 32).toNat)
/-- R101: IMM[15:0] above a[15:0]. -/
def execLih (f : FmtI) (s : State) : Host.Outcome State Fault Refusal :=
  s.perform (.lih f) f.c (valueRow [f.useA (.raw false)] (f.dest (.raw false)) true fun l =>
    rawVal (f.imm.toNat % 2 ^ 16 * 2 ^ 16 + src1 l % 2 ^ 16))

/-- R102: a where the strand's bit of the mask is 1, b where it is 0, with its poison; at wider scope the bit is that of
the lowest contributor (R92). -/
def execSel (w : Width) (f : FmtB) (s : State) : Host.Outcome State Fault Refusal :=
  let a := { f.useA w.oty with carry := true }
  let b := { f.useB w.oty with carry := true }
  let d := f.dest w.oty
  s.perform (.sel w f) f.c
    { srcs := [a, b], dst := some d
      act := fun s x => s.compute x d fun j => s.carried x j (if s.maskBit x.e j (maskField f.sc) then a else b) }

end Sys2Proof.Machine
end

