-- ==== Sys2Proof/Machine/LaWords.lean ====
section
/-! DEFINITION. The operand words of matrix instructions and what a command checks at issue (13 R313 to R328). -/
namespace Sys2Proof.Machine

/-! ### Operands (R313) -/

/-- Bits [lo + n − 1 : lo] of a word. -/
def bitsAt (w lo n : Nat) : Nat := w / 2 ^ lo % 2 ^ n

/-- Shared registers only, from a multiple of `k` within the class. -/
def laRegs (k : Nat) : Operand → Bool
  | .s n => n % k == 0
  | .k n => n % k == 0
  | .y n => n % k == 0 && n + k ≤ 16
  | _ => false
def laScalar : Operand → Bool | .c _ => true | op => laRegs 1 op

def word32 : OTy := .int ⟨32, false⟩
def scalarD (f : FmtE) : Use × Nat := ({ f.useD word32 with late := laScalar }, 1)
def scalarA (f : FmtE) : Use × Nat := ({ f.useA word32 with late := laScalar }, 1)
def scalarB (f : FmtE) : Use × Nat := ({ f.useB word32 with late := laScalar }, 1)
def laPairA (f : FmtE) : Use × Nat := ({ f.useA (.raw true) with late := laRegs 2 }, 2)
def laGroupA (f : FmtE) : Use × Nat := ({ f.useA (.raw false) 4 with late := laRegs 4 }, 4)
def laGroupB (f : FmtE) (k : Nat) : Use × Nat := ({ f.useB (.raw false) k with late := laRegs k }, k)

/-! ### Words -/

/-- Bytes of an element of a direct product. -/
def elemBytes (t : FloatTy) : Nat := t.fmt.bits / 8

/-- What a `tbld` builds: the tag of its tables (Tables 13.3, 13.4; 12 Table 12.4). -/
def Cmd.buildTag (m : Cmd) : TableTag :=
  let w := regNat m.d 0
  let lo := regNat m.a 0
  let hi := regNat m.a 1
  let t0 : TableTag := { kind := 1 + bitsAt w 3 1, m := bitsAt w 4 6 + 1, kt := bitsAt w 10 10 + 1 }
  let t := match m.instr with
    | .tbldT4 x a _ => { t0 with wfmt := x.code, afmt := a.code, valid := BitVec.ofNat 16 (2 ^ (bitsAt w 20 4 + 1) - 1) }
    | .tbldG4 a _ => { t0 with g4 := true, afmt := a.code, valid := BitVec.ofNat 16 (regNat m.b 0) }
    | _ => t0
  if t.kind = 1 then { t with lo := bitsAt lo 0 20, rstr := bitsAt hi 0 20 }
  else { t with ply := bitsAt lo 0 5, vlo := bitsAt lo 5 8, vcnt := (t.positions * t.width + 3) / 4 }

/-- A product: its shape word and groups (Tables 13.5 to 13.7). -/
structure Product where
  zd : Nat
  form : Nat
  m : Nat
  n : Nat
  tb : Nat
  nt : Nat
  kq : Nat
  w : Nat
  wstr : Nat
  a : Nat
  astr : Nat
deriving DecidableEq, Repr, Inhabited

def Cmd.product (m : Cmd) : Product :=
  let w := regNat m.d 0
  { zd := bitsAt w 0 4, form := bitsAt w 4 2, m := bitsAt w 6 6 + 1, n := bitsAt w 12 8 + 1, tb := bitsAt w 20 3
    nt := bitsAt w 23 3 + 1, kq := bitsAt (regNat m.a 3) 0 13, w := pairNat m.a, wstr := regNat m.a 2
    a := pairNat m.b, astr := regNat m.b 2 }

def Product.k (p : Product) : Nat := 16 * p.kq
/-- The block size of a block form; K as a whole in running form. -/
def Product.kb (p : Product) : Nat := if p.form = 1 then 32 else if p.form = 2 then 64 else p.k
/-- Tiles that the command writes. -/
def Product.tiles (p : Product) : Nat := if p.form = 0 then 1 else p.k / p.kb

/-- How a product finds its terms. -/
inductive Mode where
  | t8 (x a : Fmt8)
  | t4 (x : WFmt) (rb : Bool)
  | g4 (b : Nat) (rb : Bool)
  | direct (t : FloatTy)
deriving DecidableEq, Repr, Inhabited

def Cmd.mode (m : Cmd) : Option Mode :=
  match m.instr with
  | .lmmT8 x a _ => some (.t8 x a)
  | .lmmT4 x _ => some (.t4 x false)
  | .lmmT4Rb x _ => some (.t4 x true)
  | .lmmG4 b _ => some (.g4 (b.code + 1) false)
  | .lmmG4Rb b _ => some (.g4 (b.code + 1) true)
  | .dmm t _ => some (.direct t)
  | _ => none

/-- The product reads tables. -/
def Mode.tabled : Mode → Bool | .t4 .. => true | .g4 .. => true | _ => false
/-- Bytes of one weight row. -/
def Mode.rowBytes (o : Mode) (n : Nat) : Nat :=
  match o with | .t8 .. => n | .t4 .. => (n + 1) / 2 | .g4 .. => (n + 1) / 2 | .direct t => n * elemBytes t
/-- Weight rows of 16 positions. -/
def Mode.rowsPerStep : Mode → Nat | .g4 b _ => 4 * b | _ => 16
/-- Bytes of an activation. -/
def Mode.actBytes : Mode → Nat | .direct t => elemBytes t | _ => 1

/-- A scale step (Tables 13.8, 13.9). -/
structure ScaleStep where
  zr : Nat
  zp : Nat
  nb : Nat
  m : Nat
  n : Nat
  ws : Nat
  wsstr : Nat
  b0 : Nat
  /-- the activation scales, where they are named -/
  as_ : Option Nat
  asstr : Nat
  /-- the super-scales of `sacc.q16` -/
  gs : Option Nat
  gsstr : Nat
deriving DecidableEq, Repr, Inhabited

def Cmd.scaleStep (m : Cmd) : ScaleStep :=
  let w := regNat m.d 0
  let q16 := match m.instr with | .saccQ16 _ => true | _ => false
  let as_ := pairNat m.b
  { zr := bitsAt w 0 4, zp := bitsAt w 4 4, nb := bitsAt w 8 4 + 1, m := bitsAt w 12 6 + 1, n := bitsAt w 18 8 + 1
    ws := pairNat m.a, wsstr := regNat m.a 2, b0 := bitsAt (regNat m.a 3) 0 24
    as_ := if as_ = 0 then none else some as_, asstr := regNat m.b 2
    gs := if q16 then some (pairNat (m.b.drop 3)) else none, gsstr := regNat m.b 5 }

/-- A region of a tile (Table 13.10). -/
structure Region where
  z : Nat
  row0 : Nat
  m : Nat
  n : Nat
deriving DecidableEq, Repr, Inhabited

def Cmd.region (m : Cmd) : Region :=
  let w := regNat m.d 0
  { z := bitsAt w 0 4, row0 := bitsAt w 4 6, m := bitsAt w 10 6 + 1, n := bitsAt w 16 8 + 1 }
def Cmd.address (m : Cmd) : Nat := pairNat m.a
def Cmd.stride (m : Cmd) : Nat := regNat m.b 0
/-- The table register of `tbinv`, `tbspill` and `tbfill`, and of a build. -/
def Cmd.table (m : Cmd) : Nat := bitsAt (regNat m.d 0) 0 3
/-- Source tile and row of `zmov`. -/
def Cmd.moveFrom (m : Cmd) : Nat × Nat := (bitsAt (regNat m.a 0) 0 4, bitsAt (regNat m.a 0) 4 6)

/-- Bytes of a table register's image (12 R307). -/
def imageBytes : Nat := 65600

/-! ### Checks at issue (R314) -/

/-- What a command's words must meet: the fields, the alignments, the ranges reached, and the scratchpad ranges written. -/
structure LaChecks where
  fields : Bool := true
  aligned : Bool := true
  spans : List (Loc × Nat) := []
  writes : List (Loc × Nat) := []

/-- The first defect. -/
def LaChecks.trouble (k : LaChecks) (c : Cable) : Option Trouble :=
  if !k.fields then some { cause := 2 }
  else if !k.aligned then some { cause := 6 }
  else match k.spans.find? fun e => !e.1.ok c e.2 with
    | some e => some { cause := 5, addr := e.1.addr }
    | none =>
      let taken (e : Loc × Nat) : Bool := match e.1 with
        | .pad off => c.segs.any fun (g : Nat × Seg) => decide (off < (g.1 + 1) * 4096) && decide ((g.1 * 4096 : Int) < off + e.2)
        | .va _ => false
      (k.writes.find? taken).map fun e => { cause := 14, addr := e.1.addr, write := true }

/-- A table register that the cable holds. -/
def Cable.holdsTable (c : Cable) (t : Nat) : Bool := t < c.tableCount
def Cable.holdsTile (c : Cable) (z : Nat) : Bool := z < c.tileCount

def Cmd.buildChecks (m : Cmd) (c : Cable) : LaChecks :=
  let w := regNat m.d 0
  let lo := regNat m.a 0
  let hi := regNat m.a 1
  let t := m.buildTag
  let size := t.positions * t.width
  let regs := t.kind == 2
  let plies := match m.scope with
    | .strand | .ply => [m.ply]
    | sc => c.memberPlies sc (Common.ofWord m.word).lay.toNat m.ply
  { fields :=
      bitsAt w 24 8 == 0 && c.holdsTable m.table && t.m * t.kt ≤ 1024 &&
      (!t.g4 || (bitsAt w 20 4 == 0 && t.valid != 0 && regNat m.b 0 < 2 ^ 16)) && bitsAt lo 20 12 == 0 && bitsAt hi 20 12 == 0 &&
      (if regs then bitsAt lo 13 7 == 0 && hi == 0 && t.m ≤ 32 && 1 ≤ t.vcnt && t.vcnt ≤ 32 && plies.contains t.ply &&
          t.vlo + t.vcnt ≤ c.budget t.ply
        else size ≤ t.rstr)
    aligned := regs || (t.lo % t.width == 0 && t.rstr % t.width == 0)
    spans := if regs then [] else [(.pad t.lo, t.spanEnd - t.lo)] }

def Cmd.productChecks (m : Cmd) (c : Cable) (o : Mode) : LaChecks :=
  let p := m.product
  let w := regNat m.d 0
  let acts := !o.tabled
  let row := o.rowBytes p.n
  { fields :=
      bitsAt w 26 6 == 0 && p.form ≤ 2 && 1 ≤ p.kq && p.kq ≤ 4096 && bitsAt (regNat m.a 3) 13 19 == 0 &&
      (match o with | .direct t => p.form == 0 && (t != .f64 || p.n ≤ 128) | _ => true) &&
      p.k % p.kb == 0 && p.tiles ≤ 16 && p.zd + p.tiles ≤ 16 && c.holdsTile (p.zd + p.tiles - 1) &&
      (if acts then p.tb == 0 && p.nt == 1 && regNat m.b 3 == 0 && p.k * o.actBytes ≤ p.astr && formOk p.a
        else c.holdsTable (p.tb + p.nt - 1)) &&
      row ≤ p.wstr && formOk p.w
    aligned := p.w % 16 == 0 && p.wstr % 16 == 0 && (!acts || (p.a % 16 == 0 && p.astr % 16 == 0))
    spans := (locOf p.w 0, (p.kq * o.rowsPerStep - 1) * p.wstr + row) ::
      if acts then [(locOf p.a 0, (p.m - 1) * p.astr + p.k * o.actBytes)] else [] }

def Cmd.scaleChecks (m : Cmd) (c : Cable) : LaChecks :=
  let p := m.scaleStep
  let w := regNat m.d 0
  let q16 := p.gs.isSome
  let last := p.b0 + p.nb - 1
  { fields :=
      bitsAt w 26 6 == 0 && bitsAt (regNat m.a 3) 24 8 == 0 && 2 * p.n ≤ p.wsstr && p.zp + p.nb ≤ 16 &&
      (p.zr < p.zp || p.zp + p.nb ≤ p.zr) && c.holdsTile p.zr && c.holdsTile (p.zp + p.nb - 1) && last < 2 ^ 24 &&
      regNat m.b 6 == 0 && regNat m.b 7 == 0 && (p.as_.isSome || p.asstr == 0) &&
      (if q16 then 4 * p.n ≤ p.gsstr else regNat m.b 3 == 0 && regNat m.b 4 == 0 && regNat m.b 5 == 0) &&
      formOk p.ws && formOk (p.as_.getD 0) && formOk (p.gs.getD 0)
    aligned := p.ws % 16 == 0 && p.wsstr % 16 == 0 && p.as_.getD 0 % 16 == 0 && p.asstr % 16 == 0 && p.gs.getD 0 % 16 == 0 &&
      p.gsstr % 16 == 0
    spans := [(locOf p.ws 0, last * p.wsstr + 2 * p.n)] ++
      (match p.as_ with | some a => [(locOf a 0, (p.m - 1) * p.asstr + 2 * last + 2)] | none => []) ++
      (match p.gs with | some g => [(locOf g 0, last / 256 * p.gsstr + 4 * p.n)] | none => []) }

/-- The region lies in a tile of the cable. -/
def Region.ok (r : Region) (c : Cable) : Bool := c.holdsTile r.z && r.row0 + r.m ≤ 64

def Cmd.tileChecks (m : Cmd) (c : Cable) : LaChecks :=
  let r := m.region
  let fields := bitsAt (regNat m.d 0) 24 8 == 0 && r.ok c
  let moved (write : Bool) : LaChecks :=
    { fields := fields && 4 * r.n ≤ m.stride && formOk m.address
      aligned := m.address % 16 == 0 && m.stride % 16 == 0
      spans := [(locOf m.address 0, (r.m - 1) * m.stride + 4 * r.n)]
      writes := if write then (List.range r.m).map fun i => (locOf m.address (i * m.stride : Nat), 4 * r.n) else [] }
  match m.instr with
  | .zld _ => moved false
  | .zst _ => moved true
  | .zmov _ =>
    let (zs, row) := m.moveFrom
    { fields := fields && bitsAt (regNat m.a 0) 10 22 == 0 && c.holdsTile zs && row + r.m ≤ 64 &&
        (zs != r.z || row + r.m ≤ r.row0 || r.row0 + r.m ≤ row) }
  | _ => { fields := fields }

def Cmd.tableChecks (m : Cmd) (c : Cable) : LaChecks :=
  let fields := bitsAt (regNat m.d 0) 3 29 == 0 && c.holdsTable m.table
  let image : List (Loc × Nat) := [(locOf m.address 0, imageBytes)]
  match m.instr with
  | .tbspill _ => { fields := fields && formOk m.address, aligned := m.address % 16 == 0, spans := image, writes := image }
  | .tbfill _ => { fields := fields && formOk m.address, aligned := m.address % 16 == 0, spans := image }
  | _ => { fields := fields }

/-- The checks of an LA command at issue. -/
def laCheck (_ : State) (c : Cable) (m : Cmd) : Option Trouble :=
  (match m.instr with
   | .tbldT4 .. | .tbldG4 .. => m.buildChecks c
   | .saccMx _ | .saccQ16 _ => m.scaleChecks c
   | .zld _ | .zst _ | .zzero _ | .zmov _ => m.tileChecks c
   | .tbinv _ | .tbspill _ | .tbfill _ => m.tableChecks c
   | _ => match m.mode with | some o => m.productChecks c o | none => {}).trouble c

end Sys2Proof.Machine
end

