-- ==== Sys2Proof/Machine/Tables.lean ====
section
/-! DEFINITION. Table registers and tiles of the lookup array: entries, tags and images, the chain of a product
(12 R297 to R303, R307, R311; 13 R317, R321, R324). -/
namespace Sys2Proof.Machine

/-! ### Values -/

/-- The value of an activation or weight code of up to 16 bits: `e4m3`, `e5m2`, INT8, `bf16`. -/
def actValue (code bits : Nat) : XVal :=
  match code with
  | 0 => Fmt.e4m3.decode bits
  | 1 => Fmt.e5m2.decode bits
  | 2 => XVal.ofInt (IntFmt.decode ⟨8, true⟩ bits)
  | _ => Fmt.bf16.decode bits

/-- W_x(c) of a 4-bit weight code (R298). -/
def weightValue (x code : Nat) : XVal :=
  match x with
  | 0 => Fmt.e2m1.decode code
  | 1 => XVal.ofInt (IntFmt.decode ⟨4, true⟩ code)
  | _ => Fmt.f16.decode (q16Pattern code)

/-- A sum of exact values from its first term on. -/
def sumOf : List (XVal × Flags) → XVal × Flags
  | [] => (.zero false, 0)
  | t :: ts => ts.foldl (fun (a : XVal × Flags) b => let (x, fl) := a.1.add b.1 false; (x, a.2 ||| b.2 ||| fl)) t

/-! ### Tables -/

/-- An element of an activation block: its pattern and its poison. -/
abbrev Source := Nat → Nat → Nat × Bool

/-- Elements in scratchpad (R297). -/
def padSource (c : Cable) (t : TableTag) : Source := fun i k =>
  let b := c.padRead (t.lo + i * t.rstr + k * t.width) t.width
  (leNat (b.map Prod.fst), b.any Prod.snd)
/-- The place of an element in a scratchpad source. -/
def TableTag.placeOf (t : TableTag) (i k : Nat) : Nat := t.lo + i * t.rstr + k * t.width
/-- The granule of scratchpad that poisons a table: that of its first poisoned element (R311). -/
def padBadAt (c : Cable) (t : TableTag) (idx : Nat) : Nat :=
  let els := if t.g4 then (List.range 4).map fun j => (idx % t.m, 4 * (idx / t.m) + j) else [(idx % t.m, idx / t.m)]
  match els.find? fun e => (padSource c t e.1 e.2).2 with
  | some e => t.placeOf e.1 e.2 / 16 * 16
  | none => t.lo / 16 * 16
/-- Elements among the bytes of VCNT registers of each lane (R297). -/
def regSource (bytes : List (Byte × Bool)) (t : TableTag) : Source := fun i k =>
  let b := (bytes.drop (4 * t.vcnt * i + k * t.width)).take t.width
  (leNat (b.map Prod.fst), b.any Prod.snd)

/-- Entry c of the tables over given activations (R298, R299). -/
def TableTag.entry (t : TableTag) (acts : List XVal) (c : Nat) : Nat × Flags :=
  let (x, fl) := if t.g4
    then sumOf (((List.range acts.length).zip acts).map fun e => (if c.testBit e.1 then e.2 else e.2.neg, 0))
    else (acts.headD default).mul (weightValue t.wfmt c)
  let (pat, fl2) := Fmt.f32.round x .rn false
  (pat, fl ||| fl2)

def Table.get (x : Table) (t c : Nat) : Nat := (x.entries.getD (16 * t + c) 0).toNat
def Table.put (x : Table) (i v : Nat) : Table :=
  { x with entries := if v = 0 then x.entries.erase i else x.entries.insert i (BitVec.ofNat 32 v) }

/-- Builds one table. -/
def Table.build (x : Table) (src : Source) (idx : Nat) : Table × Flags :=
  let t := x.tag
  let k := idx / t.m
  let els := if t.g4 then (List.range 4).map fun j => src (idx % t.m) (4 * k + j) else [src (idx % t.m) k]
  let acts := els.map fun e => actValue t.afmt e.1
  let (x1, fl) := ((List.range 16).filter fun c => t.valid.getLsbD c).foldl (fun (a : Table × Flags) c =>
    let (v, fl) := t.entry acts c
    (a.1.put (16 * idx + c) v, a.2 ||| fl)) (x, 0)
  ({ x1 with psn := setPut (els.any Prod.snd) idx x1.psn }, fl)
/-- Builds tables `lo` to `lo + n − 1`. -/
def Table.buildRange (x : Table) (src : Source) (lo n : Nat) : Table × Flags :=
  (List.range n).foldl (fun (a : Table × Flags) i => let (x, fl) := a.1.build src (lo + i); (x, a.2 ||| fl)) (x, 0)

def Cable.tableReg (c : Cable) (t : Nat) : Table := c.tables.getD t {}
def Cable.setTable (c : Cable) (t : Nat) (x : Table) : Cable := { c with tables := c.tables.insert t x }

/-! ### Tags and images (Table 12.4, R307) -/

/-- GSUM: the write counts of the units that meet the span. -/
def Cable.gsum (c : Cable) (t : TableTag) : Nat :=
  if t.kind = 1 then
    ((List.range ((t.spanEnd - 1) / 4096 - t.lo / 4096 + 1)).foldl (fun n i => n + c.unitCounts.getD (t.lo / 4096 + i) 0) 0) % 2 ^ 64
  else 0

def TableTag.words (t : TableTag) (gsum : Nat) : List Nat :=
  [ t.kind * 2 ^ 62 + bit1 t.stale 61 + bit1 t.g4 60 + t.wfmt * 2 ^ 58 + t.afmt * 2 ^ 56 + t.valid.toNat * 2 ^ 40
      + t.m * 2 ^ 33 + t.kt * 2 ^ 22,
    if t.kind = 1 then t.lo + t.rstr * 2 ^ 20 else if t.kind = 2 then t.ply + t.vlo * 2 ^ 5 + t.vcnt * 2 ^ 13 else 0,
    gsum, 0, 0, 0, 0, 0 ]
def TableTag.bytes (t : TableTag) (gsum : Nat) : List Byte := (t.words gsum).flatMap fun w => leBytes w 8

/-- The tag and GSUM of 64 bytes; none where it breaks its format (13 R321). -/
def TableTag.ofBytes (b : List Byte) : Option (TableTag × Nat) :=
  let w (i : Nat) : Nat := leNat ((b.drop (8 * i)).take 8)
  let w0 := w 0
  let w1 := w 1
  let kind := bitsAt w0 62 2
  let g4 := bitsAt w0 60 1 == 1
  let t : TableTag :=
    { kind := kind, stale := bitsAt w0 61 1 == 1, g4 := g4, wfmt := bitsAt w0 58 2, afmt := bitsAt w0 56 2
      valid := BitVec.ofNat 16 (bitsAt w0 40 16), m := bitsAt w0 33 7, kt := bitsAt w0 22 11
      lo := if kind = 1 then bitsAt w1 0 20 else 0, rstr := if kind = 1 then bitsAt w1 20 20 else 0
      ply := if kind = 2 then bitsAt w1 0 5 else 0, vlo := if kind = 2 then bitsAt w1 5 8 else 0
      vcnt := if kind = 2 then bitsAt w1 13 6 else 0 }
  let used := if kind = 1 then 40 else if kind = 2 then 19 else 0
  let reserved := bitsAt w0 0 22 != 0 || w1 / 2 ^ used != 0 || (kind != 1 && w 2 != 0) || (g4 && t.wfmt != 0) ||
    (List.range 5).any fun i => w (3 + i) != 0
  let shape := kind == 0 || (1 ≤ t.m && t.m ≤ 64 && 1 ≤ t.kt && t.m * t.kt ≤ 1024 && t.valid != 0)
  if kind = 3 || reserved || !shape then none else some (t, w 2)

/-- The entry that an image shows at a word: zero where V is clear or the table is beyond M × KT. A register without a tag holds
entries only while a `tbfill` is taking them, and a save keeps those (R308). -/
def Table.shown (x : Table) (i : Nat) : Nat :=
  if x.tag.kind = 0 then (x.entries.getD i 0).toNat
  else if i / 16 < x.tag.m * x.tag.kt && x.tag.valid.getLsbD (i % 16) then (x.entries.getD i 0).toNat else 0
/-- The 4 KiB of an image from a multiple of 4,096 on, each byte with its granule's poison. -/
def Table.imageUnit (x : Table) (at_ : Nat) : List (Byte × Bool) :=
  (List.range 1024).flatMap fun j =>
    let i := at_ / 4 + j
    (leBytes (x.shown i) 4).map fun b => (b, x.psn.contains (i / 16))

/-- Takes the 4 KiB of an image at a place. -/
def Table.takeUnit (x : Table) (at_ : Nat) (bytes : List (Byte × Bool)) : Table :=
  (List.range 1024).foldl (fun (x : Table) j =>
    let i := at_ / 4 + j
    let b := (bytes.drop (4 * j)).take 4
    let x1 := x.put i (leNat (b.map Prod.fst))
    if b.any Prod.snd then { x1 with psn := setInsert (i / 16) x1.psn } else x1) x

/-! ### Tiles -/

def Cable.tile (c : Cable) (z : Nat) : Tile := c.tiles.getD z {}
def Cable.setTile (c : Cable) (z : Nat) (t : Tile) : Cable := { c with tiles := c.tiles.insert z t }
def Tile.get (t : Tile) (i n : Nat) : Nat := (t.elems.getD (256 * i + n) 0).toNat
def Tile.put (t : Tile) (i n v : Nat) : Tile :=
  { t with elems := if v % 2 ^ 32 = 0 then t.elems.erase (256 * i + n) else t.elems.insert (256 * i + n) (BitVec.ofNat 32 v) }
/-- An element of an accumulation format; an `f64` takes columns 2n and 2n + 1 (R295). -/
def Tile.getF (t : Tile) (F : Fmt) (i n : Nat) : Nat :=
  if F = .f64 then t.get i (2 * n) + t.get i (2 * n + 1) * 2 ^ 32 else t.get i n
def Tile.putF (t : Tile) (F : Fmt) (i n v : Nat) : Tile :=
  if F = .f64 then (t.put i (2 * n) v).put i (2 * n + 1) (v / 2 ^ 32) else t.put i n v

/-! ### Chains (13 R324) -/

/-- The tables that a product reads, with their register numbers. -/
def Cable.chain (c : Cable) (p : Product) : List (Nat × Table) := (List.range p.nt).map fun j => (p.tb + j, c.tableReg (p.tb + j))

/-- A table set suits a mode and M. -/
def Mode.fits (o : Mode) (m : Nat) (t : TableTag) : Bool :=
  t.m == m && match o with | .t4 x _ => !t.g4 && t.wfmt == x.code | .g4 .. => t.g4 | _ => false

/-- The register at which a chain fails to cover `left` positions as R324 asks. -/
def chainCover : List (Nat × Table) → Nat → Option Nat
  | [], _ => none
  | [(r, t)], left => if t.tag.positions < left then some r else none
  | (_, t) :: (r, u) :: rest, left =>
    if left ≤ t.tag.positions then some r else chainCover ((r, u) :: rest) (left - t.tag.positions)

/-- What is wrong with a chain before its staleness: the code of DETAIL and the register. -/
def chainDefect (o : Mode) (p : Product) (l : List (Nat × Table)) : Option (Nat × Nat) :=
  match l.findSome? fun e => if e.2.tag.kind = 0 then some (1, e.1) else if o.fits p.m e.2.tag then none else some (2, e.1) with
  | some d => some d
  | none => (chainCover l p.k).map fun r => (2, r)

/-- The table register that covers a position, and the position within it. -/
def chainAt : List (Nat × Table) → Nat → Table × Nat
  | [], k => ({}, k)
  | (_, t) :: rest, k => if k < t.tag.positions then (t, k) else chainAt rest (k - t.tag.positions)

end Sys2Proof.Machine
end

