-- ==== Sys2Proof/Machine/Ranking.lean ====
section
/-! DEFINITION. Distances, ranking and heaps (14 R340 to R342, R353). -/
namespace Sys2Proof.Machine

/-! ### Distances (R340) -/

/-- An ordered sum in `f32` from −0 on, its terms with the flags they raised. -/
def ordered (ts : List (XVal × Flags)) : XVal × Flags :=
  ts.foldl (fun (a : XVal × Flags) t => let (x, fl) := sumStep .f32 a t.1; (x, fl ||| t.2)) (.zero true, 0)

def products (p q : List XVal) : List (XVal × Flags) := p.zipWith XVal.mul q

/-- a / √v, exactly, or as a value that every rounding to `f32` of 1 − a / √v treats alike. -/
def overRoot (a v : XVal) : XVal × Flags :=
  match a, v with
  | .fin s n d, .fin _ p q => ((sqrtSurrogate Fmt.f32.grid (n * n * q) (d * d * p)).withSign s, 0)
  | _, .fin .. => (a, 0)
  | _, _ => a.div v

/-- The distance of a query and a vector under a metric: `l2`, `ip`, `cos`. -/
def distance (metric : Nat) (q x : List XVal) : Nat × Flags :=
  if metric = 0 then
    let ts := q.zipWith (fun a b =>
      let (y, f1) := a.add b.neg false
      let (z, f2) := y.mul y
      (z, f1 ||| f2)) x
    let (y, fl) := ordered ts
    (Fmt.f32.encode y, fl)
  else if metric = 1 then
    let (y, fl) := ordered (products q x)
    (Fmt.f32.encode y.neg, fl)
  else
    let (a, f1) := ordered (products q x)
    let (b, f2) := ordered (products q q)
    let (c, f3) := ordered (products x x)
    if b.isZero || c.isZero then (0x3F800000, f1 ||| f2 ||| f3)
    else
      let (v, f4) := b.mul c
      let (y, f5) := overRoot a v
      let (z, f6) := (XVal.ofInt 1).add y.neg false
      let (pat, f7) := Fmt.f32.round z .rn false
      (pat, f1 ||| f2 ||| f3 ||| f4 ||| f5 ||| f6 ||| f7)

/-- The elements of a vector. -/
def Desc.vector (d : Desc) (bytes : List Byte) : List XVal :=
  (List.range d.dim).map fun i => actValue d.efmt (leNat ((bytes.drop (i * d.width)).take d.width))

/-- A node is visible under a snapshot (R336), by word 0 of its record. -/
def nodeVisible (w0 snap : Nat) : Bool :=
  let born := w0 % 2 ^ 32
  let tomb := w0 / 2 ^ 32
  born != 0 && born ≤ snap && (tomb == 0 || snap < tomb)

/-- What is found of a node: its distance where it is visible, the poison of its record, where that lies. -/
structure Found where
  d : Nat := 0x7F800000
  visible : Bool := false
  flags : Flags := 0
  psn : Bool := false
  bad : Option Nat := none
deriving DecidableEq, Repr, Inhabited

/-- Reads a node of an id in range and forms its distance from a query. -/
def State.findNode (s : State) (d : Desc) (m : Search) (metric id : Nat) : State × Found :=
  let pa := s.nodeAt d id
  let s1 := s.touchSpan pa d.edges
  let bytes := s1.fetchBytes pa d.edges
  let w0 := leNat ((bytes.take 8).map Prod.fst)
  let bad := (bytes.findIdx? fun b => b.2).map fun i => (pa + i) / 16 * 16
  if !nodeVisible w0 m.snap then (s1, { psn := bad.isSome, bad := bad })
  else
    let (v, fl) := distance metric (d.vector m.query) (d.vector ((bytes.drop 16).map Prod.fst))
    (s1, { d := v, visible := true, flags := fl, psn := bad.isSome || m.queryPsn, bad := bad })

/-! ### Heaps (R341, R342) -/

/-- A key ranks better than another. -/
def keyLess (d1 id1 d2 id2 : Nat) : Bool :=
  let a := Fmt.f32.decode d1
  let b := Fmt.f32.decode d2
  if a.isNaN then b.isNaN && id1 < id2
  else if b.isNaN then true
  else if a.ltNum b then true
  else if b.ltNum a then false
  else id1 < id2

/-- A heap of capacity `k` is offered an entry; entries stand best first. Of entries with one id and numerically equal D of other
bits the earlier stands first (DESIGN CHOICE, log 157). -/
def heapPush (k : Nat) (h : List HeapEntry) (e : HeapEntry) : List HeapEntry :=
  if h.any fun x => x.d == e.d && x.id == e.id then h
  else
    let before (x : HeapEntry) : Bool := !keyLess e.d.toNat e.id.toNat x.d.toNat x.id.toNat
    (h.takeWhile before ++ e :: h.dropWhile before).take k

def noEntry : HeapEntry := { d := 0x7F800000, id := 0xFFFFFFFF }
def heapTop (k : Nat) (h : List HeapEntry) : HeapEntry := if k ≤ h.length then h.getLastD noEntry else noEntry
/-- The best entry that has not been expanded, and the heap in which it has. -/
def heapPop (h : List HeapEntry) : List HeapEntry × HeapEntry :=
  match h.findIdx? fun e => !e.expanded with
  | none => (h, noEntry)
  | some i => (h.modify i fun e => { e with expanded := true }, h.getD i noEntry)

/-- Both halves of an entry in one 64-bit value. -/
def HeapEntry.word (e : HeapEntry) : W64 := W64.ofPair e.d e.id

end Sys2Proof.Machine
end

