-- ==== Sys2Proof/Machine/Search.lean ====
section
/-! DEFINITION. Search commands from their instruction to the Capstan dies (14 R343, R344): operands, checks,
translation at issue. -/
namespace Sys2Proof.Machine

/-! ### The search group (Tables 14.4, 14.6) -/

/-- The search commands. -/
inductive SrchOp where | dist | knn | walk | ins | del | snap | rel | heap | reclaim
deriving DecidableEq, Repr, Inhabited

def Cmd.srchOp (m : Cmd) : SrchOp :=
  match m.instr with
  | .srchDist _ => .dist | .srchKnn _ => .knn | .srchWalk _ => .walk | .srchIns _ => .ins | .srchDel _ => .del
  | .srchSnap _ => .snap | .srchRel _ => .rel | .srchHeap _ => .heap | _ => .reclaim

/-- VAR of a search command: its metric. -/
def Cmd.metric (m : Cmd) : Nat :=
  match m.instr with | .srchDist f | .srchKnn f | .srchWalk f => f.var.toNat | _ => 0

def Cmd.gDesc (m : Cmd) : Nat := pairNat m.b
def Cmd.gSnap (m : Cmd) : Nat := regNat m.b 2
def Cmd.gCtrl (m : Cmd) : Nat := regNat m.b 3
def Cmd.gAux (m : Cmd) : Nat := pairNat (m.b.drop 4)
def Cmd.gAux2 (m : Cmd) : Nat := regNat m.b 6
/-- K, the stack mask and ENTRY × 8 of CTRL. -/
def Cmd.k (m : Cmd) : Nat := bitsAt m.gCtrl 0 10 + 1
def Cmd.stackMask (m : Cmd) : Nat := bitsAt m.gCtrl 16 16
def Cmd.entryAt (m : Cmd) : Nat := bitsAt m.gCtrl 10 13 * 8

/-- OPA names the query, or the vector to insert. -/
def SrchOp.hasQuery : SrchOp → Bool | .dist => true | .knn => true | .walk => true | .ins => true | _ => false
/-- AUX names a list, of entries of this many bytes. -/
def SrchOp.listEntry : SrchOp → Nat | .dist => 4 | .walk => 4 | .ins => 4 | .heap => 8 | _ => 0
/-- The command reads the index under a snapshot that it holds (R337). -/
def SrchOp.searches : SrchOp → Bool | .dist => true | .knn => true | .walk => true | _ => false
/-- The command completes before a save does (R354). -/
def SrchOp.mustComplete : SrchOp → Bool | .ins => true | .del => true | .snap => true | .rel => true | _ => false

/-- The fields of the search group are as Table 14.6 states. -/
def Cmd.groupFieldsOk (m : Cmd) : Bool :=
  let c := m.gCtrl
  let n := m.gAux2
  let none_ := c == 0 && m.gAux == 0 && n == 0
  let desc := m.gDesc % 4096 == 0
  let snap0 := m.gSnap == 0
  let limit0 := regNat m.b 7 == 0
  match m.srchOp with
  | .dist => desc && limit0 && c == 0 && 1 ≤ n && n ≤ 1024
  | .knn => desc && limit0 && bitsAt c 10 6 == 0 && m.stackMask != 0 && m.gAux == 0 && n == 0
  | .walk => desc && bitsAt c 23 9 == 0 && 1 ≤ n && n ≤ 64
  | .ins => desc && limit0 && snap0 && c == 0
  | .del => desc && limit0 && snap0 && c == 0 && m.gAux == 0
  | .snap => desc && limit0 && snap0 && none_
  | .rel => desc && limit0 && none_
  | .heap => m.gDesc == 0 && limit0 && snap0 && c < 2 ^ 10 && 1 ≤ n && n ≤ 65536
  | .reclaim => desc && limit0 && snap0 && none_

/-- Entries of the result record. -/
def Cmd.recordEntries (m : Cmd) : Nat :=
  match m.srchOp with | .dist => m.gAux2 | .knn => m.k | .walk => m.k | .heap => m.k | _ => 0

/-- DIM and EFMT are in range (Table 14.2). -/
def Desc.shapeOk (d : Desc) : Bool := 16 ≤ d.dim && d.dim ≤ 2048 && d.dim % 16 == 0 && d.dim * d.width ≤ 4096
/-- Bytes of the query as the issuing core checks it. -/
def Desc.queryBytes (d : Desc) : Nat := if d.shapeOk then d.dim * d.width else 4096
/-- Bytes of the command's list. -/
def Cmd.listBytes (m : Cmd) (d : Desc) : Nat := m.srchOp.listEntry * (if m.srchOp = .ins then d.deg else m.gAux2)

/-! ### Checks and translation at issue (R344) -/

/-- The places that a command names, under a descriptor: query, list, result record. -/
def Cmd.srchPlaces (m : Cmd) (d : Desc) : List (Loc × Nat × Bool) :=
  (if m.srchOp.hasQuery then [(locOf (pairNat m.a) 0, d.queryBytes, false)] else []) ++
  (if m.srchOp.listEntry = 0 then [] else [(locOf m.gAux 0, m.listBytes d, false)]) ++
  [(locOf (pairNat m.d) 0, 16 + 8 * m.recordEntries, true)]

/-- The checks on the operands alone. -/
def Cmd.srchFields (m : Cmd) : Option Trouble :=
  let op := m.srchOp
  if !m.groupFieldsOk || !formOk (pairNat m.d) || (op.hasQuery && !formOk (pairNat m.a)) || (op.listEntry != 0 && !formOk m.gAux) then
    some { cause := 2 }
  else if pairNat m.d % 16 ≠ 0 || (op.hasQuery && pairNat m.a % 16 != 0) ||
      (op.listEntry != 0 && m.gAux % (if op = .heap then 8 else 4) != 0) then some { cause := 6 }
  else none

/-- Scratchpad bounds, the virtual address space, the peer window, and subscribed segments under the record. -/
def placesTrouble (c : Cable) (l : List (Loc × Nat × Bool)) : Option Trouble :=
  match l.find? fun e => !e.1.ok c e.2.1 with
  | some e => some { cause := 5, addr := e.1.addr, write := e.2.2 }
  | none => (l.find? fun e => e.2.2 && match e.1 with
      | .pad off => c.segs.any fun (g : Nat × Seg) => decide (off < (g.1 + 1) * 4096) && decide ((g.1 * 4096 : Int) < off + e.2.1)
      | .va _ => false).map fun e => { cause := 14, addr := e.1.addr, write := true }

/-- The trouble of an address that does not translate for the issuing core. -/
def troubleAt (t : TFault) (va : Nat) (write : Bool) : Trouble :=
  { cause := t.cause, detail := t.detail, addr := va, write := write, unpop := t.cause == 5, count := 1
    page := t.page va, pages := [va / 4096] }

/-- The issuing core translates pages. -/
def State.translatePages (s : State) (c : Cable) (l : List Reach) : State × List Trouble × SMap Nat :=
  l.foldl (fun (b : State × List Trouble × SMap Nat) r =>
    let va := r.va.toNat
    match b.1.translate c.coreD c.ctx va (if r.write then .write else .read) (c.priv == 0) with
    | (s1, .error t) => (s1, b.2.1 ++ [troubleAt t va r.write], b.2.2)
    | (s1, .ok p) => (s1, b.2.1, b.2.2.insert (va / 4096) (2 * (p.pa / 4096) + if p.esr then 1 else 0))) (s, [], [])

/-- The descriptor's page: a supervisor page of node 0 (R332), for which every command asks read permission (DESIGN CHOICE, log
158). -/
def State.descPage (s : State) (c : Cable) (va : Nat) : State × Except Trouble Phys :=
  if !vaOk va 4096 then (s, .error { cause := 5, addr := va })
  else match s.translate c.coreD c.ctx va .read false with
    | (s1, .error t) => (s1, .error (troubleAt t va false))
    | (s1, .ok p) =>
      if p.user then (s1, .error (troubleAt { cause := 8, detail := 0 } va false))
      else if nodeOf p.pa ≠ some 0 then (s1, .error { cause := 5, addr := va })
      else (s1.touchSpan p.pa 16, .ok p)

/-- One command at issue: its faults, or the command with what the core has found. A fault of DESC's page comes after those of the
fields and before those of the places, which need DIM and EFMT (DESIGN CHOICE, log 156). -/
def State.srchPlan (s : State) (c : Cable) (m : Cmd) : State × Except (List Trouble) Cmd :=
  match m.srchFields with
  | some t => (s, .error [t])
  | none =>
    let go (s : State) (desc : Nat) (own : SMap Nat) (d : Desc) : State × Except (List Trouble) Cmd :=
      let places := m.srchPlaces d
      match placesTrouble c places with
      | some t => (s, .error [t])
      | none =>
        match s.translatePages c (pagesOf places) with
        | (s1, [], pages) => (s1, .ok { m with srch := { desc := desc, pages := own ++ pages } })
        | (s1, ts, _) => (s1, .error ts)
    if m.srchOp = .heap then go s 0 [] default
    else match s.descPage c m.gDesc with
      | (s1, .error t) => (s1, .error [t])
      | (s1, .ok p) => go s1 p.pa [(2 ^ 60 / 4096, 2 * (p.pa / 4096) + if p.esr then 1 else 0)] (s1.descAt p.pa)

/-! ### Instructions -/

/-- Registers that a pair of a search command may name. -/
def srchPair : Operand → Bool | .v _ => true | .o _ => true | .s _ => true | .k _ => true | .y _ => true | _ => false

/-- The operands of a search command: its result pair, its query pair, its group of eight. -/
def srchD (f : FmtE) : Use := { f.useD (.raw true) with late := srchPair }
def srchA (f : FmtE) : Use := { f.useA (.raw true) with late := srchPair }
def srchG (f : FmtE) : Use := { f.useB (.raw false) 8 with late := groupOf 8 }

/-- The commands of the accessing strands, checked in ascending order; what stands in the way of some of them. -/
def State.srchPlans (s : State) (x : Issue) (i : Instr) (f : FmtE) (query : Bool) : State × List Trouble × List Cmd :=
  x.accessors.foldl (fun b j =>
    let m := s.newCmd x f i .srch j (s.regsOf x (srchD f) j 2) (if query then s.regsOf x (srchA f) j 2 else [])
      (s.regsOf x (srchG f) j 8)
    match b.1.srchPlan (s.cable x.e.uid) m with
    | (s1, .error ts) => (s1, b.2.1 ++ ts.map fun t => { t with strand := some j }, b.2.2)
    | (s1, .ok m1) => (s1, b.2.1, b.2.2 ++ [m1])) (s, [], [])

/-- A row of class SRCH: every contributor's command is checked before any issues. -/
def srchRow (i : Instr) (f : FmtE) (query : Bool) : Row :=
  { srcs := if query then [srchD f, srchA f, srchG f] else [srchD f, srchG f], latch := .clear, extra := FmtE.tokenKey f
    act := fun s x =>
      let plan := s.srchPlans x i f query
      match firstTrouble plan.2.1 with
      | some t => .fault t
      | none => plan.1.issueAll x f .srch (2 ^ 32) plan.2.2 }

def execSrchDist (f : FmtE) (s : State) : Host.Outcome State Fault Refusal :=
  s.perform (.srchDist f) f.c (srchRow (.srchDist f) f true)
def execSrchKnn (f : FmtE) (s : State) : Host.Outcome State Fault Refusal :=
  s.perform (.srchKnn f) f.c (srchRow (.srchKnn f) f true)
def execSrchWalk (f : FmtE) (s : State) : Host.Outcome State Fault Refusal :=
  s.perform (.srchWalk f) f.c (srchRow (.srchWalk f) f true)
def execSrchIns (f : FmtE) (s : State) : Host.Outcome State Fault Refusal :=
  s.perform (.srchIns f) f.c (srchRow (.srchIns f) f true)
def execSrchDel (f : FmtE) (s : State) : Host.Outcome State Fault Refusal :=
  s.perform (.srchDel f) f.c (srchRow (.srchDel f) f false)
def execSrchSnap (f : FmtE) (s : State) : Host.Outcome State Fault Refusal :=
  s.perform (.srchSnap f) f.c (srchRow (.srchSnap f) f false)
def execSrchRel (f : FmtE) (s : State) : Host.Outcome State Fault Refusal :=
  s.perform (.srchRel f) f.c (srchRow (.srchRel f) f false)
def execSrchHeap (f : FmtE) (s : State) : Host.Outcome State Fault Refusal :=
  s.perform (.srchHeap f) f.c (srchRow (.srchHeap f) f false)
def execSrchReclaim (f : FmtE) (s : State) : Host.Outcome State Fault Refusal :=
  s.perform (.srchReclaim f) f.c (srchRow (.srchReclaim f) f false)

end Sys2Proof.Machine
end

