-- ==== Sys2Proof/Machine/Capstan.lean ====
section
/-! DEFINITION. The Capstan dies at work on a search command (14 R335 to R339, R345 to R349, R353 to R355): its start,
its version, its record. -/
namespace Sys2Proof.Machine

/-! ### Which command moves -/

/-- The search command whose turn it is: its cable is placed, or has ended with the command under way (06 R180), and is not being
saved unless the command completes first (R354). -/
def State.srchTurn (s : State) (uid cmd : Nat) : Option (Cable × Cmd) :=
  let c := s.cable uid
  match c.cmd? cmd with
  | some m =>
    if m.path == .srch && (c.isPlaced || c.state == .ended) && m.state != .done && (c.saving.isNone || m.srchOp.mustComplete) then some (c, m) else none
  | none => none

/-- The control die of a command; for `srch.heap` the stack of its core (R345). -/
def Cmd.controlDie (m : Cmd) (c : Cable) : Nat := if m.srchOp = .heap then c.coreD / 44 else m.srch.desc / 2 ^ 36
/-- The stacks of a mask, ascending. -/
def stacksOf (mask : Nat) : List Nat := (List.range 16).filter fun st => mask.testBit st
/-- The stack set of a command (R345). -/
def Cmd.stackSet (m : Cmd) (d : Desc) : List Nat :=
  match m.srchOp with | .heap => [] | .knn => stacksOf m.stackMask | _ => stacksOf d.stackBits

def State.updSrch (s : State) (uid cmd : Nat) (f : Search → Search) : State :=
  s.updCmd uid cmd fun m => { m with srch := f m.srch }

/-- Search commands of cables that are placed, or have ended with commands under way. -/
def State.allSrch (s : State) : List (Cable × Cmd) :=
  s.cables.flatMap fun (e : Nat × Cable) =>
    if e.2.isPlaced || e.2.state == .ended then (e.2.cmds.filter fun m => m.path == .srch && m.state != .done).map fun m => (e.2, m) else []

/-- Commands that hold query slots and a heap: started, and not finished. -/
def State.srchHolders (s : State) : List (Cable × Cmd) := s.allSrch.filter fun e => e.2.srch.started && !e.2.srch.finished

/-- A stack's heap is free for another command (Table 14.1). -/
def State.heapFree (s : State) (st : Nat) : Bool := (s.srchHolders.filter fun e => e.2.srch.home == st).length < 64
/-- Every die of a set has a query slot free. -/
def State.slotsFree (s : State) (sts : List Nat) : Bool :=
  sts.all fun st => (s.srchHolders.filter fun e => (e.2.stackSet (s.descAt e.2.srch.desc)).contains st).length < 64

/-- A command that came earlier waits at the same control die. -/
def State.srchBehind (s : State) (c : Cable) (m : Cmd) : Bool :=
  s.allSrch.any fun e => !e.2.srch.started && !e.2.srch.finished && !e.2.cancel && e.2.srch.arrived != 0 &&
    decide (e.2.srch.arrived < m.srch.arrived) && (e.1.saving.isNone || e.2.srchOp.mustComplete) && e.2.controlDie e.1 == m.controlDie c

/-! ### Descriptors (Table 14.2, Table 14.7) -/

/-- Bits that word `j` of a descriptor may hold. -/
def descBits (j : Nat) : Nat :=
  if j = 0 then 2 ^ 64 - 1
  else if j = 1 then 0xFFFF003F3FFF
  else if j = 2 then 2 ^ 32 - 1
  else if 32 ≤ j ∧ j < 96 then (match j % 4 with | 0 => 0xFFFFFFFFF000 | 1 => 0xFFFFFFF | 2 => 0xFFFFFFFF0000 | _ => 0)
  else if 96 ≤ j ∧ j < 224 ∧ j % 2 = 0 then 2 ^ 64 - 1
  else 0

/-- A range lies on a stack. -/
def onStack (st pa n : Nat) : Bool := pa / 2 ^ 36 == st && (pa + max n 1 - 1) / 2 ^ 36 == st

/-- A descriptor defect (status 8): a reserved bit, a field out of range, a walk without code. Table 14.2 gives STACKS no range; the
model takes an empty one for a defect (DESIGN CHOICE, log 137). -/
def State.descDefect (s : State) (d : Desc) (walk : Bool) : Bool :=
  ((List.range 512).any fun j => (s.readNat (d.at_ + 8 * j) 8) &&& (descBits j) != s.readNat (d.at_ + 8 * j) 8) ||
  !d.shapeOk || d.stackBits == 0 ||
  (stacksOf d.stackBits).any fun st => s.shardSlots d st == 0 || (walk && s.shardCode d st == 0)

/-- Every page of a range belongs to a partition and is no reserved page. -/
def State.rangeOwned (s : State) (part pa n : Nat) : Bool :=
  let first := pa / 4096
  let pages := (pa + max n 1 - 1) / 4096 - first + 1
  let inside := s.pageOwner.filter fun (e : Nat × Nat) => first ≤ e.1 && e.1 < first + pages
  (if part = 0 then inside.all fun (e : Nat × Nat) => e.2 == 0
    else (inside.filter fun (e : Nat × Nat) => e.2 == part).length == pages) &&
  !isReserved pa && !isReserved (pa + max n 1 - 1)

/-- A shard, or a walk's code, lies off its stack or outside the partition (status 6). When it is found is not stated: the model tests
every stack of STACKS as the command starts, also those that the command does not reach (DESIGN CHOICE, log 137). -/
def State.shardOutside (s : State) (part : Nat) (d : Desc) (walk : Bool) : Bool :=
  (stacksOf d.stackBits).any fun st =>
    let n := s.shardSlots d st * d.recSize
    !onStack st (s.shardBase d st) n || !s.rangeOwned part (s.shardBase d st) n ||
    (walk && (!onStack st (s.shardCode d st) 65536 || !s.rangeOwned part (s.shardCode d st) 65536))

/-! ### Versions and the snapshot table (R335 to R338) -/

/-- A write of the control die at its home slice. -/
def State.descWrite (s : State) (uid cmd pa v n : Nat) : State :=
  let esr := s.esrPage pa || (match (s.cable uid).cmd? cmd with
    | some m => m.srch.pages.any fun e => e.2 == 2 * (pa / 4096) + 1 | none => false)
  let (s1, w) := s.engineWriteNat (s.cable uid).part pa v n esr
  s1.updCmd uid cmd fun m => { m with wmax := max m.wmax w }

/-- Entries of the snapshot table: index, SVER, SCNT. -/
def State.snapTable (s : State) (desc : Nat) : List (Nat × Nat × Nat) :=
  (List.range 64).map fun j => let w := s.readNat (desc + 0x300 + 16 * j) 8; (j, w % 2 ^ 32, w / 2 ^ 32)

/-- LOW follows the table and VER. -/
def State.setLow (s : State) (uid cmd desc : Nat) : State :=
  let held := ((s.snapTable desc).filter fun e => e.2.2 != 0).map fun e => e.2.1
  let low := match held with | [] => ((s.descAt desc).ver + 1) % 2 ^ 32 | v :: rest => rest.foldl min v
  s.descWrite uid cmd (desc + 0x10) low 8

/-- Sets one entry of the table. -/
def State.setSnap (s : State) (uid cmd desc j ver cnt : Nat) : State :=
  (s.descWrite uid cmd (desc + 0x300 + 16 * j) (ver + cnt * 2 ^ 32) 8).setLow uid cmd desc

/-- Adds a reference; none where the table is full. Which entry with SCNT = 0 a new version claims is not stated: the model takes the
lowest (DESIGN CHOICE, log 137). -/
def State.addRef (s : State) (uid cmd desc ver : Nat) : Option State :=
  let t := s.snapTable desc
  match t.find? fun e => e.2.1 == ver && e.2.2 != 0 with
  | some e => some (s.setSnap uid cmd desc e.1 ver (e.2.2 + 1))
  | none => (t.find? fun e => e.2.2 == 0).map fun e => s.setSnap uid cmd desc e.1 ver 1

/-- Drops a reference; none where it is not held. -/
def State.dropRef (s : State) (uid cmd desc ver : Nat) : Option State :=
  ((s.snapTable desc).find? fun e => e.2.1 == ver && e.2.2 != 0).map fun e => s.setSnap uid cmd desc e.1 ver (e.2.2 - 1)

/-! ### What a command reads and writes -/

/-- The pages found at issue, as engines use them. -/
def Cmd.srchMap (m : Cmd) : SMap Phys :=
  m.srch.pages.map fun (e : Nat × Nat) => (e.1, { pa := e.2 / 2 * 4096, lease := 0, esr := e.2 % 2 == 1, user := false })

/-- Reads a place of the command; nothing while its segment is in transit or its banks are busy (R348). -/
def State.srchRead (s : State) (uid : Nat) (m : Cmd) (l : Loc) (n : Nat) : Option (State × List (Byte × Bool)) :=
  let c := s.cable uid
  let busy := match l with | .pad off => c.padInTransit off.toNat n | .va _ => false
  if busy || s.padsBusy uid [(l, n, false)] then none else
    let s1 := (s.landFor uid .srch [(l, n, false)]).touchPlaces m.srchMap [(l, n, false)]
    some (s1, s1.readLoc uid m.srchMap l n)

/-- Remembers the first poisoned granule that the command met. -/
def Search.met (k : Search) (bad : Option Nat) : Search := { k with bad := match k.bad with | some a => some a | none => bad }

/-- The numbers of a list with the poison of each. -/
def listOf (n : Nat) (bytes : List (Byte × Bool)) : List (Nat × Bool) :=
  (List.range (bytes.length / n)).map fun i =>
    let b := (bytes.drop (n * i)).take n
    (leNat (b.map Prod.fst), b.any Prod.snd)

/-- A node is live (R346), by word 0 of its record. -/
def nodeLive (w0 : Nat) : Bool := w0 % 2 ^ 32 != 0 && w0 / 2 ^ 32 == 0

/-- A write of bytes to a record. A shard is named by physical addresses: its page has the ESR bit under which its blocks were
stored (DEDUCED, log 133). -/
def State.recordWrite (s : State) (uid cmd pa : Nat) (bytes : List (Byte × Bool)) : State :=
  let (s1, w) := s.engineWrite (s.cable uid).part pa bytes (s.esrPage pa)
  s1.updCmd uid cmd fun m => { m with wmax := max m.wmax w }
def emptyEdge : Nat := 0xFFFFFFFF

/-- `srch.ins` at version `v` (R346): its status, and the reverse edges added. -/
def State.insertNode (s : State) (uid : Nat) (m : Cmd) (d : Desc) (v : Nat) (vec : List (Byte × Bool)) (edges : List (Nat × Bool)) :
    State × Nat × Nat :=
  let id := m.gAux2
  if !s.idOk d id then (s, 7, 0)
  else if s.readNat (s.nodeAt d id) 4 ≠ 0 then (s, 3, 0)
  else
    let pa := s.nodeAt d id
    let live := edges.map fun e => (e.1, s.idOk d e.1 && nodeLive (s.readNat (s.nodeAt d e.1) 8), e.2)
    let s1 := s.recordWrite uid m.id (pa + 16) vec
    let s2 := s1.recordWrite uid m.id (pa + d.edges) (live.flatMap fun e =>
      (leBytes (if e.2.1 then e.1 + v * 2 ^ 32 else emptyEdge) 8).map fun b => (b, e.2.2))
    let s3 := s2.recordWrite uid m.id pa ((leBytes v 8).map fun b => (b, false))
    let (s4, n) := (live.filter fun e => e.2.1).foldl (fun (a : State × Nat) e =>
      let at_ := a.1.nodeAt d e.1 + d.edges
      match (List.range d.deg).find? fun j => a.1.readNat (at_ + 8 * j) 4 == 0xFFFFFFFF with
      | some j => (a.1.recordWrite uid m.id (at_ + 8 * j) ((leBytes (id + v * 2 ^ 32) 8).map fun b => (b, false)), a.2 + 1)
      | none => a) (s3, 0)
    (s4, 0, n)

/-- `srch.del` at version `v`. -/
def State.deleteNode (s : State) (uid : Nat) (m : Cmd) (d : Desc) (v : Nat) : State × Nat :=
  let id := m.gAux2
  if !s.idOk d id then (s, 7)
  else
    let w0 := s.readNat (s.nodeAt d id) 8
    if !nodeLive w0 then (s, 3)
    else (s.recordWrite uid m.id (s.nodeAt d id) ((leBytes (w0 % 2 ^ 32 + v * 2 ^ 32) 8).map fun b => (b, false)), 0)

/-! ### SRCH_START (R345, R349) -/

/-- Ends a command at its start with a status: it holds nothing. -/
def State.endAtStart (s : State) (uid cmd status : Nat) : State :=
  s.updSrch uid cmd fun k => { k with started := true, finished := true, status := status }

/-- The snapshot of a search that starts, its reference held; or the status that ends it. -/
def State.takeSnapshot (s : State) (uid : Nat) (m : Cmd) (d : Desc) : State × Except Nat Nat :=
  if m.srch.referenced then (s, .ok m.srch.snap)
  else if m.gSnap ≠ 0 then
    (if (s.snapTable d.at_).any fun e => e.2.1 == m.gSnap && e.2.2 != 0 then
      match s.addRef uid m.id d.at_ m.gSnap with | some s1 => (s1, .ok m.gSnap) | none => (s, .error 1)
     else (s, .error 1))
  else match s.addRef uid m.id d.at_ d.ver with
    | some s1 => (s1, .ok d.ver)
    | none => (s, .error 2)

/-- The walkers of a walk as they start (R349). -/
def State.makeWalkers (s : State) (m : Cmd) (d : Desc) (snap : Nat) (ids : List (Nat × Bool)) : List Walker :=
  ((List.range ids.length).zip ids).map fun e =>
    let st := e.2.1 / 2 ^ 28
    let reg (v : Nat) (p : Bool := false) : WReg := ⟨BitVec.ofNat 64 v, p⟩
    { stack := st, pc := m.entryAt
      s := [(0, reg e.2.1 e.2.2), (1, reg snap), (2, reg e.1), (3, reg m.k), (30, reg d.recSize), (31, reg (s.shardBase d st))] }

/-- A search begins: its snapshot is held, its query is in its slots; a walk's walkers stand at their entry. -/
def State.startSearch (s : State) (uid : Nat) (m : Cmd) (d : Desc) (home : Nat) : State :=
  let isWalk := decide (m.srchOp = .walk)
  match s.srchRead uid m (locOf (pairNat m.a) 0) (d.dim * d.width) with
  | none => s
  | some (s0, q) =>
    match (if isWalk then s0.srchRead uid m (locOf m.gAux 0) (m.listBytes d) else some (s0, [])) with
    | none => s
    | some (s1, l) =>
      let ids := listOf 4 l
      match s1.takeSnapshot uid m d with
      | (s2, .error e) => s2.endAtStart uid m.id e
      | (s2, .ok snap) =>
        let badIds := isWalk && ids.any fun e => !s2.idOk d e.1
        s2.updSrch uid m.id fun k =>
          { k.met (poisonAt [(locOf (pairNat m.a) 0, q), (locOf m.gAux 0, l)]) with
            started := true, home := home, snap := snap, referenced := true, version := snap
            query := q.map Prod.fst, queryPsn := q.any Prod.snd, status := if badIds then 7 else 0
            walkers := if isWalk && !badIds then s2.makeWalkers m d snap ids else [] }

/-- `srch.ins` or `srch.del` takes its version and writes its records (R335, R346). -/
def State.startUpdate (s : State) (uid : Nat) (m : Cmd) (d : Desc) (home : Nat) : State :=
  let ins := decide (m.srchOp = .ins)
  let reads := if ins then
      (s.srchRead uid m (locOf (pairNat m.a) 0) (d.dim * d.width)).bind fun a =>
        (a.1.srchRead uid m (locOf m.gAux 0) (m.listBytes d)).map fun b => (b.1, a.2, listOf 4 b.2)
    else some (s, [], [])
  match reads with
  | none => s
  | some (s1, vec, edges) =>
    let v := d.next
    if v = 0xFFFFFFFF then s1.endAtStart uid m.id 9
    else
      let s2 := s1.descWrite uid m.id d.at_ (d.ver + (v + 1) * 2 ^ 32) 8
      let (s3, status, added) := if ins then s2.insertNode uid m d v vec edges else
        let (s3, st) := s2.deleteNode uid m d v; (s3, st, 0)
      s3.updSrch uid m.id fun k => { k with started := true, home := home, version := v, status := status, aux := added }

/-- Nodes that a reclaim marks: deleted before every snapshot held (R339, R347). -/
def State.reclaimable (s : State) (d : Desc) : List Nat :=
  (stacksOf d.stackBits).flatMap fun st => ((List.range (s.shardSlots d st)).map (st * 2 ^ 28 + ·)).filter fun id =>
    let tomb := s.readNat (s.nodeAt d id + 4) 4
    tomb != 0 && tomb < d.low

/-- The control die starts a command. -/
def State.startSrch (s : State) (uid : Nat) (c : Cable) (m : Cmd) : State :=
  let op := m.srchOp
  let d := s.descAt m.srch.desc
  if s.srchBehind c m then s
  else if op = .heap then
    (if s.heapFree (c.coreD / 44) then s.updSrch uid m.id fun k => { k with started := true, home := c.coreD / 44 } else s)
  else if s.descDefect d (op == .walk) then s.endAtStart uid m.id 8
  else if op = .knn && m.stackMask &&& d.stackBits != m.stackMask then s.endAtStart uid m.id 5
  else if s.shardOutside c.part d (op == .walk) then s.endAtStart uid m.id 6
  else
    let sts := m.stackSet d
    match sts.find? fun st => s.heapFree st with
    | none => s
    | some home =>
      if !s.slotsFree sts then s
      else
        let done (s : State) (status version : Nat) : State :=
          (s.endAtStart uid m.id status).updSrch uid m.id fun k => { k with version := version, home := home }
        match op with
        | .ins | .del => s.startUpdate uid m d home
        | .snap => (match s.addRef uid m.id d.at_ d.ver with
            | some s1 => done s1 0 d.ver
            | none => done s 2 0)
        | .rel => (match s.dropRef uid m.id d.at_ m.gSnap with
            | some s1 => done s1 0 m.gSnap
            | none => done s 1 0)
        | .reclaim =>
          if s.srchHolders.any fun e => e.2.srchOp == .reclaim && e.2.srch.desc == d.at_ then s
          else s.updSrch uid m.id fun k =>
            { k with started := true, home := home, filter := (s.reclaimable d).map fun id => BitVec.ofNat 32 id }
        | _ => s.startSearch uid m d home

/-- A command comes to its control die, in any order (R348); once there it starts in its turn (R345). -/
def execSrchStart (uid cmd : Nat) (s : State) : Host.Outcome State Fault Refusal :=
  .next (match s.srchTurn uid cmd with
    | some (c, m) =>
      if m.srch.started || m.srch.finished || m.cancel then s
      else if m.srch.arrived = 0 then s.updSrch uid cmd fun k => { k with arrived := s.stepCount + 1 }
      else s.startSrch uid c m
    | none => s)

/-! ### VERSION_COMMIT (R335) -/

/-- Commits the version of an insert or a deletion once it is the next. -/
def State.commitVersion (s : State) (uid : Nat) (m : Cmd) : State :=
  let d := s.descAt m.srch.desc
  if d.ver + 1 = m.srch.version then
    ((s.descWrite uid m.id d.at_ (m.srch.version + d.next * 2 ^ 32) 8).setLow uid m.id d.at_).updSrch uid m.id
      fun k => { k with finished := true }
  else s

def execVersionCommit (uid cmd : Nat) (s : State) : Host.Outcome State Fault Refusal :=
  .next (match s.srchTurn uid cmd with
    | some (_, m) =>
      if (m.srchOp = .ins ∨ m.srchOp = .del) ∧ m.srch.started = true ∧ m.srch.finished = false then s.commitVersion uid m else s
    | none => s)

/-! ### SRCH_FINISH (R345, R347, R353) -/

/-- Entries of a heap given by a list of (D, id). -/
def State.heapResults (s : State) (uid : Nat) (m : Cmd) : Option (State × List HeapEntry × Search) :=
  (s.srchRead uid m (locOf m.gAux 0) (m.listBytes default)).map fun r =>
    let es := listOf 8 r.2
    (r.1, es.foldl (fun h e => heapPush m.k h { d := BitVec.ofNat 32 e.1, id := BitVec.ofNat 32 (e.1 / 2 ^ 32), psn := e.2 }) [],
      m.srch.met (poisonAt [(locOf m.gAux 0, r.2)]))

/-- The entries of `srch.dist`, in list order. -/
def State.distResults (s : State) (uid : Nat) (m : Cmd) (d : Desc) : Option (State × List HeapEntry × Search) :=
  (s.srchRead uid m (locOf m.gAux 0) (m.listBytes d)).map fun r =>
    (listOf 4 r.2).foldl (fun (a : State × List HeapEntry × Search) e =>
      if !a.1.idOk d e.1 then (a.1, a.2.1 ++ [{ noEntry with psn := e.2 }], a.2.2)
      else
        let (s1, f) := a.1.findNode d m.srch m.metric e.1
        if !f.visible then (s1, a.2.1 ++ [{ noEntry with psn := f.psn || e.2 }], a.2.2.met f.bad)
        else (s1, a.2.1 ++ [{ d := BitVec.ofNat 32 f.d, id := BitVec.ofNat 32 e.1, psn := f.psn || e.2 }],
              { a.2.2.met f.bad with flags := a.2.2.flags ||| f.flags }))
      (r.1, [], m.srch.met (poisonAt [(locOf m.gAux 0, r.2)]))

/-- The K nearest visible nodes of the set. -/
def State.knnResults (s : State) (m : Cmd) (d : Desc) : State × List HeapEntry × Search :=
  (m.stackSet d).foldl (fun (a : State × List HeapEntry × Search) st =>
    (List.range (s.shardSlots d st)).foldl (fun (a : State × List HeapEntry × Search) slot =>
      let id := st * 2 ^ 28 + slot
      let (s1, f) := a.1.findNode d m.srch m.metric id
      if !f.visible then (s1, a.2)
      else (s1, heapPush m.k a.2.1 { d := BitVec.ofNat 32 f.d, id := BitVec.ofNat 32 id, psn := f.psn },
            { a.2.2.met f.bad with flags := a.2.2.flags ||| f.flags })) a) (s, [], m.srch)

/-- A reclaim clears the edges to its marked nodes, then frees the nodes. -/
def State.clearEdges (s : State) (uid : Nat) (m : Cmd) (d : Desc) : State :=
  (stacksOf d.stackBits).foldl (fun (s : State) st => (List.range (s.shardSlots d st)).foldl (fun (s : State) slot =>
    let at_ := s.nodeAt d (st * 2 ^ 28 + slot) + d.edges
    (List.range d.deg).foldl (fun (s : State) j =>
      if m.srch.filter.contains (BitVec.ofNat 32 (s.readNat (at_ + 8 * j) 4)) then
        s.recordWrite uid m.id (at_ + 8 * j) ((leBytes emptyEdge 8).map fun b => (b, false)) else s) s) s) s
def State.freeNodes (s : State) (uid : Nat) (m : Cmd) (d : Desc) : State :=
  m.srch.filter.foldl (fun (s : State) id =>
    s.recordWrite uid m.id (s.nodeAt d id.toNat) ((leBytes 0 8).map fun b => (b, false))) s

/-- A walker's end: none while it runs; a cause and PC where it broke a rule. -/
def WalkState.over : WalkState → Bool | .ended => true | .faulted .. => true | _ => false

/-- What a walk's walkers leave: status and AUXOUT with the cause in [31:24], of the lowest that faulted (R352). -/
def walkFault (ws : List Walker) : Option (Nat × Nat × Nat) :=
  ((List.range ws.length).zip ws).findSome? fun e => match e.2.state with | .faulted c pc => some (e.1, c, pc) | _ => none

/-- The command has found what it writes: its entries stand, its poison is reported. -/
def State.settle (s : State) (uid : Nat) (m : Cmd) (es : List HeapEntry) (k : Search) : State :=
  let psn := es.any fun e => e.psn
  let s1 := if psn then s.reportCmd uid m (issuerStack m.srch.home) fun r => { r with cause := 21, addr := k.bad.getD 0 } else s
  s1.updSrch uid m.id fun q => { q with finished := true, results := es, psn := psn, flags := k.flags, bad := k.bad
                                        status := k.status, aux := k.aux, vfull := k.vfull }
where
  /-- ISSUER of the Capstan die of a stack (16 Table 16.2). -/
  issuerStack (st : Nat) : Nat := st / 4 * 2 ^ 14 + 3 * 2 ^ 10 + st

/-- Works a started command to its results, where it can. -/
def State.workSrch (s : State) (uid : Nat) (m : Cmd) : State :=
  let d := s.descAt m.srch.desc
  let op := m.srchOp
  if m.srch.status ≠ 0 && op != .ins && op != .del then s.settle uid m [] m.srch
  else match op with
    | .heap => (match s.heapResults uid m with | some (s1, es, k) => s1.settle uid m es k | none => s)
    | .dist => (match s.distResults uid m d with | some (s1, es, k) => s1.settle uid m es k | none => s)
    | .knn => let (s1, es, k) := s.knnResults m d; s1.settle uid m es k
    | .walk =>
      if m.srch.walkers.all fun w => w.state.over then
        (match walkFault m.srch.walkers with
         | some (n, _, pc) => s.settle uid m m.srch.heap { m.srch with status := 4, aux := n * 2 ^ 16 + pc / 8 % 2 ^ 13 }
         | none => s.settle uid m m.srch.heap m.srch)
      else s
    | .reclaim =>
      if m.progress = 0 then (s.clearEdges uid m d).updCmd uid m.id fun q => { q with progress := 1 }
      else (s.freeNodes uid m d).settle uid m [] { m.srch with aux := m.srch.filter.length }
    | _ => s

/-- CAUSE of the record. -/
def Search.cause (k : Search) : Nat :=
  if k.status = 4 then (match walkFault k.walkers with | some (_, c, _) => c | none => 0) else 0

/-- COUNT (Table 14.5): the list's for `srch.dist`, else the entries other than filler. A pair of a `srch.heap`'s own list that has
the value of filler counts as an entry that was pushed (DESIGN CHOICE, log 137). -/
def Cmd.srchCount (m : Cmd) : Nat := match m.srchOp with | .dist => m.gAux2 | _ => m.srch.results.length
/-- The entries written: K of them for a heap's commands, filler after the real ones, and none for a mask outside STACKS; one for
each listed id of a `srch.dist`, filler where it found no distance (R345, log 59). -/
def Cmd.srchEntries (m : Cmd) : List HeapEntry :=
  match m.srchOp with
  | .knn | .walk | .heap =>
    if m.srch.status = 5 then [] else (m.srch.results ++ List.replicate m.k noEntry).take m.k
  | .dist => (m.srch.results ++ List.replicate m.gAux2 noEntry).take m.gAux2
  | _ => m.srch.results

/-- The result record (Table 14.5). -/
def Cmd.srchRecord (m : Cmd) : List (Byte × Bool) :=
  let k := m.srch
  let w0 := m.srchCount + k.status * 2 ^ 32 + k.cause * 2 ^ 40 + k.flags.toNat * 2 ^ 48 + bit1 k.psn 53 + bit1 k.vfull 54
  let w1 := k.version + k.aux * 2 ^ 32
  ((leBytes w0 8 ++ leBytes w1 8).map fun b => (b, false)) ++
  m.srchEntries.flatMap fun e => (leBytes e.word.toNat 8).map fun b => (b, e.psn)

/-- The token (Table 14.7a). -/
def Cmd.srchToken (m : Cmd) : W32 :=
  let k := m.srch
  BitVec.ofNat 32 (if m.srchOp.mustComplete then (if k.status = 0 then k.version else 0)
    else m.srchCount % 2 ^ 16 + bit1 (k.status != 0) 31)

/-- Drops the reference that a search holds. -/
def State.letGo (s : State) (uid : Nat) (m : Cmd) : State :=
  if m.srch.referenced then
    ((s.dropRef uid m.id m.srch.desc m.srch.snap).getD s).updSrch uid m.id fun k => { k with referenced := false }
  else s

/-- A finished command writes its record and, its writes applied and its poison record posted, drops its reference and
completes (R337). A cancelled one writes nothing. -/
def State.closeSrch (s : State) (uid : Nat) (m : Cmd) : State :=
  let rec_ := [(locOf (pairNat m.d) 0, m.srchRecord)]
  if !m.held.isEmpty then s.landCmd uid m
  else if !m.srch.written && !m.cancel && s.padsBusy uid (rec_.map fun e => (e.1, e.2.length, true)) then s
  else
  let s1 := if m.srch.written || m.cancel then s else
    (s.writeLocs uid m.id m.srchMap rec_).updSrch uid m.id fun k => { k with written := true }
  let m1 := ((s1.cable uid).cmd? m.id).getD m
  let issuer := State.settle.issuerStack m1.srch.home
  if s1.recordsWait (s1.cable uid) issuer || !s1.updatesApplied m1 then s1
  else
    let s2 := s1.letGo uid m1
    s2.finishCmd uid (((s2.cable uid).cmd? m.id).getD m1) m1.srchToken

/-- A command that its cable's end has cancelled is over where it stands; an assigned version is committed first. -/
def Cmd.srchDropped (m : Cmd) : Bool :=
  m.cancel && !((m.srchOp == .ins || m.srchOp == .del) && m.srch.started && !m.srch.finished)

def execSrchFinish (uid cmd : Nat) (s : State) : Host.Outcome State Fault Refusal :=
  .next (match s.srchTurn uid cmd with
    | some (_, m) =>
      if m.srch.finished || m.srchDropped then s.closeSrch uid m
      else if !m.srch.started then s
      else
        let s1 := s.workSrch uid m
        match (s1.cable uid).cmd? cmd with
        | some m1 => if m1.srch.finished then s1.closeSrch uid m1 else s1
        | none => s1
    | none => s)

end Sys2Proof.Machine
end

