-- ==== Sys2Proof/Machine/Compare.lean ====
section
/-! DEFINITION. Comparisons into mask bits (04 R103, Table 4.4). -/
namespace Sys2Proof.Machine

/-- `cmp.c.t m, a, b` on integers. -/
def cmpInt (t : IntTy) (f : FmtA) (g : Int → Int → Bool) : Row :=
  testRow [f.useA t.oty, f.useB t.oty] (maskField f.dst) fun l => g (t.fmt.decode (src1 l)) (t.fmt.decode (src2 l))
/-- The same on floating values. -/
def cmpFloat (t : FloatTy) (f : FmtA) (g : XVal → XVal → Bool) : Row :=
  testRow [f.useA t.oty, f.useB t.oty] (maskField f.dst) fun l => g (t.fmt.decode (src1 l)) (t.fmt.decode (src2 l))

def execCmpEqInt (t : IntTy) (f : FmtA) (s : State) : Host.Outcome State Fault Refusal :=
  s.perform (.cmpEqInt t f) f.c (cmpInt t f fun a b => decide (a = b))
def execCmpNeInt (t : IntTy) (f : FmtA) (s : State) : Host.Outcome State Fault Refusal :=
  s.perform (.cmpNeInt t f) f.c (cmpInt t f fun a b => decide (a ≠ b))
def execCmpLtInt (t : IntTy) (f : FmtA) (s : State) : Host.Outcome State Fault Refusal :=
  s.perform (.cmpLtInt t f) f.c (cmpInt t f fun a b => decide (a < b))
def execCmpLeInt (t : IntTy) (f : FmtA) (s : State) : Host.Outcome State Fault Refusal :=
  s.perform (.cmpLeInt t f) f.c (cmpInt t f fun a b => decide (a ≤ b))
def execCmpGtInt (t : IntTy) (f : FmtA) (s : State) : Host.Outcome State Fault Refusal :=
  s.perform (.cmpGtInt t f) f.c (cmpInt t f fun a b => decide (b < a))
def execCmpGeInt (t : IntTy) (f : FmtA) (s : State) : Host.Outcome State Fault Refusal :=
  s.perform (.cmpGeInt t f) f.c (cmpInt t f fun a b => decide (b ≤ a))

def execCmpEqFloat (t : FloatTy) (f : FmtA) (s : State) : Host.Outcome State Fault Refusal :=
  s.perform (.cmpEqFloat t f) f.c (cmpFloat t f fun a b => a.eqNum b)
def execCmpNeFloat (t : FloatTy) (f : FmtA) (s : State) : Host.Outcome State Fault Refusal :=
  s.perform (.cmpNeFloat t f) f.c (cmpFloat t f fun a b => !a.eqNum b)
def execCmpLtFloat (t : FloatTy) (f : FmtA) (s : State) : Host.Outcome State Fault Refusal :=
  s.perform (.cmpLtFloat t f) f.c (cmpFloat t f fun a b => a.ltNum b)
def execCmpLeFloat (t : FloatTy) (f : FmtA) (s : State) : Host.Outcome State Fault Refusal :=
  s.perform (.cmpLeFloat t f) f.c (cmpFloat t f fun a b => a.ltNum b || a.eqNum b)
def execCmpGtFloat (t : FloatTy) (f : FmtA) (s : State) : Host.Outcome State Fault Refusal :=
  s.perform (.cmpGtFloat t f) f.c (cmpFloat t f fun a b => b.ltNum a)
def execCmpGeFloat (t : FloatTy) (f : FmtA) (s : State) : Host.Outcome State Fault Refusal :=
  s.perform (.cmpGeFloat t f) f.c (cmpFloat t f fun a b => b.ltNum a || a.eqNum b)
def execCmpNum (t : FloatTy) (f : FmtA) (s : State) : Host.Outcome State Fault Refusal :=
  s.perform (.cmpNum t f) f.c (cmpFloat t f fun a b => !a.isNaN && !b.isNaN)
def execCmpNan (t : FloatTy) (f : FmtA) (s : State) : Host.Outcome State Fault Refusal :=
  s.perform (.cmpNan t f) f.c (cmpFloat t f fun a b => a.isNaN || b.isNaN)

end Sys2Proof.Machine
end

