-- ==== Sys2Proof/Machine/Control.lean ====
section
/-! DEFINITION. Control transfer (01 R21, R22; 04 R108 to R111, R117 to R121; 06 R179, R180). -/
namespace Sys2Proof.Machine

/-! ### Targets (R22, R109) -/

/-- The target of a transfer is no clause header. Where the target comes from a register or from memory (`strict`), an
address that no clause can have is none either (R109, R111); one that R108 computes meets its address fault at the header
(R22). None while the target word cannot be read. -/
def State.targetBad (s : State) (x : Issue) (strict : Bool) (a : Nat) : State × Option Bool :=
  if strict && (decide (2 ^ 60 ≤ a) || a % 8 != 0) then (s, some true) else s.badTarget x a

/-- The targets of strands: what keeps the transfer from them, if anything does. -/
def State.targets (s : State) (x : Issue) (strict : Bool) (l : List (Nat × Nat)) : State × Option Attempt :=
  l.foldl (fun (b : State × Option Attempt) e =>
    match b.2 with
    | some a => (b.1, some a)
    | none => match b.1.targetBad x strict e.2 with
      | (s1, none) => (s1, some (.park s))
      | (s1, some true) => (s1, some (.fault { cause := 3, walk := 4, strand := some e.1
                                               count := (l.filter fun d => (b.1.targetBad x strict d.2).2 == some true).length }))
      | (s1, some false) => (s1, none)) (s, none)

/-- A transfer of strands, each to its own target: an access of the strand, after its acquires (08 R223). -/
def State.transfer (s : State) (x : Issue) (strict : Bool) (l : List (Nat × Nat)) (f : State → Attempt) : Attempt :=
  if s.acquiring x.e.uid x.contrib then .stall s
  else match s.targets x strict l with
    | (_, some a) => a
    | (s1, none) => f s1

/-- H + SignExtend(IMM) × 8 (R108). -/
def FmtI.target (f : FmtI) (hdr : Nat) : Nat := (BitVec.ofNat 64 hdr + f.imm.signExtend 64 * 8).toNat

/-! ### Branches (R108, R109) -/

def brRow (f : FmtI) : Row :=
  { latch := .clear, transfer := true
    act := fun s x =>
      let l := x.contrib.map fun j => (j, FmtI.target f x.hdr)
      s.transfer x false (l.take 1) fun s1 => .done s1 l }

def brxRow (f : FmtA) : Row :=
  let u := f.useA (.raw true)
  { srcs := [u], latch := .clear, transfer := true
    act := fun s x =>
      let at_ (j : Nat) : Nat := (s.readOp x.e (if x.scope = .strand then j else x.lead) x.lay u.op (.raw true)).1
      let l := x.contrib.map fun j => (j, at_ j)
      s.transfer x true l fun s1 => .done s1 l }

def execBr (f : FmtI) (s : State) : Host.Outcome State Fault Refusal := s.perform (.br f) f.c (brRow f)
def execBrx (f : FmtA) (s : State) : Host.Outcome State Fault Refusal := s.perform (.brx f) f.c (brxRow f)

/-! ### Calls through the stack (R110, R111) -/

/-- `call`: each strand stores the address of the word after it below its stack pointer. -/
def callRow (f : FmtI) : Row :=
  let u := f.useA (.raw true)
  let d := f.dest (.raw true)
  { srcs := [u], dst := some d, transfer := true
    act := fun s x =>
      let uid := x.e.uid
      let core := (s.cable uid).coreD
      let sp (j : Nat) : W64 := BitVec.ofNat 64 (s.readOp x.e j x.lay u.op (.raw true)).1 - 8
      if s.acquiring uid x.contrib then .stall s
      else match s.resolve x { size := 8, read := false, write := true } (x.contrib.map fun j => (j, (sp j).toNat)) with
        | (_, .error t) => .fault t
        | (s1, .ok accs) =>
          let l := x.contrib.map fun j => (j, FmtI.target f x.hdr)
          s1.transfer x false (l.take 1) fun s2 =>
            if !s2.unackRoom x accs then .stall s2
            else match s2.bufferAll core x (accs.map fun a => (a, (leBytes x.after 8).map fun b => (b, false))) with
              | none => .park s2
              | some s3 => .done (s3.depositEach x d fun j => { val := sp j }) l }

/-- Loads of several strands that take place at once; what keeps one of them from it: an atomic of its ply to the line, or a load
from it, that has still to be performed (08 R214, R218), a full table (07 R186). -/
def State.loadStacks (s : State) (x : Issue) (accs : List Acc) : Except Attempt (State × List (Acc × List (Byte × Bool))) :=
  let core := (s.cable x.e.uid).coreD
  accs.foldlM (fun b a =>
    if b.1.orderHolds core x.e.uid x.e.ply (a.pa / 128) then .error (.stall s)
    else match b.1.loadNow core x.e.uid x.e.ply a.pa 8 a.lease with
      | none => .error (.park s)
      | some v => .ok (v.1, b.2 ++ [(a, v.2)])) (s, [])

/-- `ret`: each strand takes its return address from the top of its stack. -/
def retRow (f : FmtI) : Row :=
  let u := f.useA (.raw true)
  let d := f.dest (.raw true)
  { srcs := [u], dst := some d, transfer := true
    act := fun s x =>
      let uid := x.e.uid
      let sp (j : Nat) : W64 := BitVec.ofNat 64 (s.readOp x.e j x.lay u.op (.raw true)).1
      if s.acquiring uid x.contrib then .stall s
      else match s.resolve x { size := 8 } (x.contrib.map fun j => (j, (sp j).toNat)) with
        | (_, .error t) => .fault t
        | (s1, .ok accs) =>
          match s1.loadStacks x accs with
          | .error a => a
          | .ok (s2, vs) =>
            match vs.find? fun v => v.2.any Prod.snd with
            | some v => .fault { cause := 9, strand := some v.1.strand, count := (vs.filter fun v => v.2.any Prod.snd).length
                                 detail := 17, addr := v.1.ea / 16 * 16 }
            | none =>
              let l := vs.map fun v => (v.1.strand, leNat (v.2.map Prod.fst))
              s2.transfer x true l fun s3 => .done (s3.depositEach x d fun j => { val := sp j + 8 }) l }

def execCall (f : FmtI) (s : State) : Host.Outcome State Fault Refusal := s.perform (.call f) f.c (callRow f)
def execRet (f : FmtI) (s : State) : Host.Outcome State Fault Refusal := s.perform (.ret f) f.c (retRow f)

/-! ### Traps (R118 to R121) -/

/-- The lowest strand of a ply that stands at a `trap` which it is to execute, of groups that hold a path slot. -/
def State.trapAt (s : State) (uid p : Nat) : Option Nat :=
  let c := s.cable uid
  (c.ply p).groups.findSome? fun g =>
    match g.clause, g.place, g.hold with
    | some cl, .slot _, .none =>
      (match decodeWord cl.hdr.cls cl.word with
       | .ok (.trap f) => (c.groupStrands p g).find? fun j => s.predicate { uid := uid, ply := p, gid := g.gid } f.c j
       | _ => none)
    | _, _, _ => none

/-- Another ply that nothing stops stands at a `trap` of a lower strand: that one is served first (R119), unless this one was
reached in an earlier cycle and is stopping it (R118). -/
def State.lowerTrap (s : State) (x : Issue) : Bool :=
  let c := s.cable x.e.uid
  !(match c.trapping with | some (j, t) => j == x.lead && t != s.cycle | none => false) &&
  (List.range c.plyCount).any fun p => p != x.e.ply && !c.haltedPly p && ((c.ply p).running.isSome || c.mayBegin p) &&
    (match s.trapAt x.e.uid p with | some j => decide (j < x.lead) | none => false)

/-- What stops a ply before a `trap`: a halt, a save, a `trap` that is active, and one that is stopping the other plies, but
for that of a higher strand in the same cycle (R118, R119). -/
def Cable.trapStopped (c : Cable) (x : Issue) (cycle : Nat) : Bool :=
  c.haltedPly x.e.ply || c.saving.isSome || (c.trapActive && c.trapStrand / 32 != x.e.ply) ||
  (match c.trapping with | some (j, t) => j / 32 != x.e.ply && (decide (j < x.lead) || t != cycle) | none => false)

/-- `trap`: the lowest strand traps, once every other ply has stopped. The word at the vector is read, like that of any
transfer, at the level before it (DESIGN CHOICE, log 100). -/
def trapRow (f : FmtI) : Row :=
  { latch := .clear, transfer := true
    act := fun s x =>
      let uid := x.e.uid
      let c := s.cable uid
      if c.trapStopped x s.cycle then .park (s.dropTrap uid x.e.ply)
      else if s.acquiring uid x.contrib then .stall s
      else if c.priv != 0 then .fault { cause := 1, strand := some x.lead, count := x.contrib.length }
      else
        let vec := (s.clauseOf uid x.lead).readCreg x.lead 0x102
        if vec = 0 then .fault { cause := 17, strand := some x.lead }
        else match s.badTarget x vec.toNat with
          | (_, none) => .park s
          | (_, some true) => .fault { cause := 3, strand := some x.lead }
          | (s1, some false) =>
            if s1.lowerTrap x then .over ((s.dropTrap uid x.e.ply).stopRunning uid x.e.ply)
            else if c.plies.any fun e => e.1 != x.e.ply && e.2.running.isSome then .stall (s1.beginTrap uid x.e.ply x.lead)
            else
              let done := x.members.filter fun j => j == x.lead || !x.contrib.contains j
              let s2 := done.foldl (fun s j => s.setLatch x.e j none) ((s1.beginTrap uid x.e.ply x.lead).ownLatch x.e done)
              .over ((s2.takeTrap x x.lead (f.imm.extractLsb' 0 16).toNat vec).stepped uid x.e.ply x.e.gid false) }

/-- `rft`: the trapping strand goes to `CBL_TRAP_PC` at user level, and the others are released. The word there is read, like
that of any transfer, at the level before it (DESIGN CHOICE, log 101). -/
def rftRow : Row :=
  { latch := .clear, transfer := true, priv := fun s e => (s.cable e.uid).priv != 0
    act := fun s x =>
      let c := s.cable x.e.uid
      if s.acquiring x.e.uid x.contrib then .stall s
      else if !c.trapActive then .fault { cause := 1, strand := some x.lead, count := x.contrib.length }
      else
        let pc := ((s.clauseOf x.e.uid x.lead).readCreg x.lead 0x103).toNat
        match s.badTarget x pc with
        | (_, none) => .park s
        | (_, some true) => .fault { cause := 3, strand := some x.lead }
        | (s1, some false) => .done (s1.returnTrap x.e.uid) (x.contrib.map fun j => (j, pc)) }

def execTrap (f : FmtI) (s : State) : Host.Outcome State Fault Refusal := s.perform (.trap f) f.c (trapRow f)
def execRft (f : FmtI) (s : State) : Host.Outcome State Fault Refusal := s.perform (.rft f) f.c rftRow

/-! ### Exit (06 R179, R180) -/

/-- The strands that exit are all that live in the cable. -/
def Cable.lastOut (c : Cable) (l : List Nat) : Bool := c.live.all fun j => l.contains j

/-- `exit`: every contributor ends, once the loads it has issued have returned. With the cable's last strands the stores that
its plies have in the write-combining buffer leave, so that they complete (R180; log 113). -/
def exitRow : Row :=
  { latch := .clear, transfer := true
    act := fun s x =>
      let uid := x.e.uid
      let c := s.cable uid
      let s1 := if c.lastOut x.contrib then s.drainCable c.coreD uid else s
      if c.trapActive then .fault { cause := 1, strand := some x.lead, count := x.contrib.length }
      else if !(s.loadsOf uid x.contrib).isEmpty then .stall s
      else if c.lastOut x.contrib && (s1.core c.coreD).wc.any fun e => e.stores.any fun a => a.1 == uid then .park s1
      else .done ((x.contrib.foldl (fun s j => s.endStrand uid j) s1).afterExit uid) [] }

def execExit (f : FmtA) (s : State) : Host.Outcome State Fault Refusal := s.perform (.exit f) f.c exitRow

end Sys2Proof.Machine
end

