-- ==== Sys2Proof/Machine/CopyEngine.lean ====
section
/-! DEFINITION. The copy engine (11 R279 to R291): its instructions, its units, its completion. -/
namespace Sys2Proof.Machine

/-! ### Instructions -/

/-- The core's copy engine holds 64 commands (R279). -/
def copyLimit : Nat := 64

/-- A row of class COPY that issues commands. -/
def copyRow (i : Instr) (f : FmtE) (d : Use × Nat) (rest : List (Use × Nat)) (check : State → Cable → Cmd → Option Trouble)
    (priv : State → Env → Bool := fun _ _ => true) : Row := engineRow .copy copyLimit i f (d :: rest) check priv

/-- The check of a command that moves bytes (R284). -/
def moveCheck (_ : State) (c : Cable) (m : Cmd) : Option Trouble := m.shape.bind fun p => p.check c m.instr

def pairD (f : FmtE) : Use × Nat := (f.useD (.raw true), 2)
def pairA (f : FmtE) : Use × Nat := (f.useA (.raw true), 2)
def wordB (f : FmtE) : Use × Nat := (f.useB (.raw false), 1)
def groupB (f : FmtE) : Use × Nat := ({ f.useB (.raw false) 4 with only := groupOf 4 }, 4)
/-- Operand OPA of `cp.zero` is absent: its length stands as the third operand. -/
def noneA (f : FmtE) : Use × Nat := ({ f.useB (.raw false) with op := .c 0 }, 0)

def execCp1d (f : FmtE) (s : State) : Host.Outcome State Fault Refusal :=
  s.perform (.cp1d f) f.c (copyRow (.cp1d f) f (pairD f) [pairA f, wordB f] moveCheck)
def execCp2d (f : FmtE) (s : State) : Host.Outcome State Fault Refusal :=
  s.perform (.cp2d f) f.c (copyRow (.cp2d f) f (pairD f) [pairA f, groupB f] moveCheck)
def execCpGth (f : FmtE) (s : State) : Host.Outcome State Fault Refusal :=
  s.perform (.cpGth f) f.c (copyRow (.cpGth f) f (pairD f) [pairA f, groupB f] moveCheck)
def execCpSct (f : FmtE) (s : State) : Host.Outcome State Fault Refusal :=
  s.perform (.cpSct f) f.c (copyRow (.cpSct f) f (pairD f) [pairA f, groupB f] moveCheck)
def execCpZero (f : FmtE) (s : State) : Host.Outcome State Fault Refusal :=
  s.perform (.cpZero f) f.c (copyRow (.cpZero f) f (pairD f) [noneA f, wordB f] moveCheck)

/-! ### Page fills (R287) -/

/-- Physical bytes lie in populated memory of a partition, outside what firmware reserves. -/
def State.fillOk (s : State) (part pa n : Nat) : Bool :=
  (List.range ((pa + max n 1 - 1) / 4096 - pa / 4096 + 1)).all fun i =>
    let q := (pa / 4096 + i) * 4096
    (nodeOf q).isSome && !isReserved q && s.owner q == part

/-- The operand checks of a page fill. -/
def fillCheck (s : State) (c : Cable) (m : Cmd) : Option Trouble :=
  let d := pairNat m.d
  let a := pairNat m.a
  let u := regNat m.b 0
  let raw := match m.instr with | .cpFillRaw _ => true | _ => false
  if u < 1 || 262144 < u then some { cause := 2 }
  else if 2 ^ 48 ≤ d || d % 4096 ≠ 0 || !s.fillOk c.part d (u * 4096) then some { cause := 5, addr := d, write := true }
  else if 2 ^ 48 ≤ a || a % (if raw then 4096 else 16) ≠ 0 || !s.fillOk c.part a (if raw then u * 4096 else 16) then
    some { cause := 5, addr := a }
  else none

def supervised (s : State) (e : Env) : Bool := (s.cable e.uid).priv != 0

def execCpFillRaw (f : FmtE) (s : State) : Host.Outcome State Fault Refusal :=
  s.perform (.cpFillRaw f) f.c (copyRow (.cpFillRaw f) f (pairD f) [pairA f, wordB f] fillCheck supervised)
def execCpFillEsr (f : FmtE) (s : State) : Host.Outcome State Fault Refusal :=
  s.perform (.cpFillEsr f) f.c (copyRow (.cpFillEsr f) f (pairD f) [pairA f, wordB f] fillCheck supervised)
def execCpFillN4e (f : FmtE) (s : State) : Host.Outcome State Fault Refusal :=
  s.perform (.cpFillN4e f) f.c (copyRow (.cpFillN4e f) f (pairD f) [pairA f, wordB f] fillCheck supervised)

/-! ### Segments and cancellation (R288, R289) -/

def segCheck (_ : State) (c : Cable) (m : Cmd) : Option Trouble :=
  let d := regNat m.d 0
  if d % 4096 ≠ 0 || 2 ^ 20 ≤ d then some { cause := 2 }
  else if c.spadBytes ≤ d then some { cause := 5, addr := d }
  else match c.segs.find? (d / 4096) with
    | some g => if g.state = .current then none else some { cause := 14, addr := d }
    | none => some { cause := 14, addr := d }

def execCpSeg (f : FmtE) (s : State) : Host.Outcome State Fault Refusal :=
  s.perform (.cpSeg f) f.c (copyRow (.cpSeg f) f (f.useD (.raw false), 1) [] segCheck)

/-- Cancels the copy commands of a cable on a counter that have not completed; the record of a suspended one is answered for
it, and the agents that had joined it are retried. -/
def State.cancelCopies (s : State) (uid cnt : Nat) : State :=
  ((s.cable uid).cmds.filter fun m => m.path == .copy && m.ce && m.cnt == cnt && m.state != .done).foldl (fun s m =>
    let s1 := if m.state = .suspended then s.leaveHandle uid m fun s h =>
      s.answer (s.cable uid).ctx { h with agents := h.agents.drop 1 } 0 0 else s
    s1.updCmd uid m.id fun k => { k with cancel := true, handle := 0, state := if k.state = .suspended then .running else k.state }) s

def cpCancelRow (f : FmtE) : Row :=
  let u := f.useA (.raw false)
  { srcs := [u], latch := .clear
    act := fun s x =>
      let l := x.accessors.map fun j => (j, s.valueOf x u j)
      match l.find? fun e => 15 < e.2 with
      | some e => .fault { cause := 2, strand := some e.1, count := (l.filter fun e => decide (15 < e.2)).length }
      | none => .done (l.foldl (fun s e => s.cancelCopies x.e.uid e.2) s) [] }

def execCpCancel (f : FmtE) (s : State) : Host.Outcome State Fault Refusal :=
  s.perform (.cpCancel f) f.c (cpCancelRow f)

/-! ### Units that move bytes (R281 to R283, R285) -/

def copyIssuer (c : Cable) : Nat := issuerOf 1 c.coreD

/-- The places of a unit's moves: reads, then writes. -/
def movePlaces (l : List Move) : List (Loc × Nat × Bool) :=
  (l.filterMap fun m => match m.src with | .at_ a => some (a, m.n, false) | _ => none) ++
  (l.filterMap fun m => if m.n = 0 then none else some (m.dst, m.n, true))

/-- The lowest place of a unit that lies outside the scratchpad, or writes a segment that is subscribed. -/
def padFault (c : Cable) (l : List (Loc × Nat × Bool)) : Option EngineFault :=
  l.foldl (fun (r : Option EngineFault) e =>
    match e.1 with
    | .va _ => r
    | .pad off =>
      let bad := !e.1.ok c e.2.1 || (e.2.2 && (c.segs.find? (off.toNat / 4096)).isSome)
      let t : EngineFault := { cause := 5, addr := off.toNat, write := e.2.2 }
      match r with
      | none => if bad then some t else none
      | some u => if bad && t.addr < u.addr then some t else r) none

/-- What a move writes. -/
def State.moveBytes (s : State) (uid : Nat) (map : SMap Phys) (at_ : Nat) (m : Move) : List (Byte × Bool) :=
  match m.src with
  | .zero => List.replicate m.n (0, false)
  | .at_ l => s.readLoc uid map l m.n
  | .badIndex _ => (List.range m.n).map fun i => (Config.poisonByte s.stepCount (at_ + i), true)

/-- The address that a poison report gives for a move: of the source granule that carried the poison, or of the index. -/
def Move.poisonAddr (m : Move) (bytes : List (Byte × Bool)) : Option Nat :=
  match m.src with
  | .zero => none
  | .badIndex l => some l.addr
  | .at_ l => (bytes.findIdx? fun b => b.2).map fun i => (l.addr + i) / 16 * 16

/-- Performs the moves of a unit of `k` units of progress, once every page of them translates. Where rows of one `cp.2d` overlap
in the destination R283 gives no order; the later row's bytes stand (DESIGN CHOICE, log 136). -/
def State.copyMoves (s : State) (uid : Nat) (c : Cable) (m : Cmd) (moves : List Move) (k : Nat) : State :=
  let places := movePlaces moves
  let waits := moves.any fun v => match v.src with | .at_ (.pad off) => c.padInTransit off.toNat v.n | _ => false
  match s.reachPages c.ctx m.super (pagesOf places) with
  | (s1, .error t) =>
    let t1 := match padFault c places with | some u => if u.addr < t.addr then u else t | none => t
    s1.suspendCmd uid m (copyIssuer c) none t1
  | (s1, .ok map) =>
    match padFault c places with
    | some t => s1.suspendCmd uid m (copyIssuer c) none t
    | none =>
      if waits || s1.padsBusy uid places then s1 else
        let s1 := (s1.landFor uid .copy places).touchPlaces map places
        let made := ((List.range moves.length).zip moves).map fun e => (e.2, s1.moveBytes uid map (4096 * e.1) e.2)
        let out := made.filterMap fun e => if e.1.n = 0 then none else some (e.1.dst, e.2)
        -- a scatter's elements are written one after another, in ascending j (R283); rows that overlap too (log 136)
        let s2 := if (m.shape.map CopyShape.inOrder).getD false then out.foldl (fun s e => s.writeLocs uid m.id map [e]) s1
          else s1.writeLocs uid m.id map out
        let bad := made.findSome? fun e => e.1.poisonAddr e.2
        let s3 := match bad with
          | some a => if m.reported then s2 else s2.reportCmd uid m (copyIssuer c) fun r => { r with cause := 21, addr := a }
          | none => s2
        s3.updCmd uid m.id fun q => { q with
          state := .running, progress := m.progress + k, reported := m.reported || bad.isSome
          psn := m.psn || made.any fun e => e.2.any Prod.snd
          written := m.written + made.foldl (fun n e => n + e.1.n) 0 }

/-- The indices of a unit, with their poison; none while they cannot be read. -/
def State.readIndices (s : State) (uid : Nat) (c : Cable) (m : Cmd) (v k : Nat) : State × Option (List (Nat × Bool)) :=
  let l := locOf v (4 * m.progress : Nat)
  match s.reachPages c.ctx m.super (pagesOf [(l, 4 * k, false)]) with
  | (s1, .error t) => (s1.suspendCmd uid m (copyIssuer c) none t, none)
  | (s1, .ok map) =>
    let busy := match l with | .pad off => c.padInTransit off.toNat (4 * k) | .va _ => false
    if busy || s1.padsBusy uid [(l, 4 * k, false)] then (s1, none) else
      let s1 := (s1.landFor uid .copy [(l, 4 * k, false)]).touchPlaces map [(l, 4 * k, false)]
      let bytes := s1.readLoc uid map l (4 * k)
      (s1, some ((List.range k).map fun i =>
        let b := (bytes.drop (4 * i)).take 4
        (leNat (b.map Prod.fst), b.any Prod.snd)))

def State.copyShapeUnit (s : State) (uid : Nat) (c : Cable) (m : Cmd) (p : CopyShape) : State :=
  let k := p.unitCount m.progress
  if k = 0 then s else
    match p.ix with
    | none => s.copyMoves uid c m (p.granules m.progress) k
    | some v =>
      match s.readIndices uid c m v k with
      | (s1, none) => s1
      | (s1, some idx) => s1.copyMoves uid c m (p.elements m.progress idx) k

/-! ### N4E (R291) -/

/-- The present symbols with their lengths, in ascending (length, symbol). -/
def n4eOrder (len : Nat) : List (Nat × Nat) :=
  (List.range 16).flatMap fun l => if l = 0 then [] else
    ((List.range 16).filter fun s => len / 2 ^ (4 * s) % 16 == l).map fun s => (l, s)

/-- Canonical codes: (length, code, symbol). -/
def n4eCodes (len : Nat) : List (Nat × Nat × Nat) :=
  ((n4eOrder len).foldl (fun (b : List (Nat × Nat × Nat) × Option (Nat × Nat)) e =>
    let code := match b.2 with | none => 0 | some (l, c) => (c + 1) * 2 ^ (e.1 - l)
    (b.1 ++ [(e.1, code, e.2)], some (e.1, code))) ([], none)).1

/-- Reads `left` codes from bits; `l` and `c` are the length and value of the code begun. The values in reverse. -/
def n4eRead (codes : List (Nat × Nat × Nat)) : List Bool → Nat → Nat → Nat → List Nat → Option (List Nat)
  | bits, l, c, left, out =>
    if left = 0 then some out else
      match bits with
      | [] => none
      | b :: rest =>
        let c' := 2 * c + (if b then 1 else 0)
        match codes.find? fun e => e.1 == l + 1 && e.2.1 == c' with
        | some e => n4eRead codes rest 0 0 (left - 1) (e.2.2 :: out)
        | none => n4eRead codes rest (l + 1) c' left out

/-- Two values to a byte, the earlier in the low half; the list in reverse order of value. -/
def packNibbles : List Nat → List Byte → List Byte
  | hi :: lo :: rest, acc => packNibbles rest (BitVec.ofNat 8 (lo + 16 * hi) :: acc)
  | _, acc => acc

/-- Length of a unit in bytes, by its header (R287). -/
def n4eLength (head : Nat) : Nat :=
  let n := head / 2 ^ 64 % 2 ^ 16
  if 1 ≤ n ∧ n ≤ 257 then 16 * n else 16

/-- The 4,096 bytes that a unit codes; none where it breaks its format. A LEN outside MODE 0, or a CSYM outside MODE 2 or above
15, that Table 11.5 has zero is such a break, as a reserved bit is (DESIGN CHOICE, log 143). -/
def n4eDecode (unit : List Byte) : Option (List Byte) :=
  let head := leNat (unit.take 16)
  let n := head / 2 ^ 64 % 2 ^ 16
  let mode := head / 2 ^ 88 % 256
  let sym := head / 2 ^ 96 % 256
  let len := head % 2 ^ 64
  let codes := n4eCodes len
  if head / 2 ^ 104 ≠ 0 || head / 2 ^ 80 % 256 ≠ 0 || n < 1 || 257 < n then none
  else match mode with
    | 0 =>
      if sym ≠ 0 || codes.length < 2 || codes.foldl (fun k e => k + 2 ^ (15 - e.1)) 0 ≠ 2 ^ 15 then none
      else
        let bits := (unit.drop 16).flatMap fun b => (List.range 8).map fun i => b.getLsbD i
        (n4eRead codes bits 0 0 8192 []).map fun vs => packNibbles vs []
    | 1 => if n ≠ 257 || len ≠ 0 || sym ≠ 0 then none else some (unit.drop 16)
    | 2 => if n ≠ 1 || len ≠ 0 || 15 < sym then none else some (List.replicate 4096 (BitVec.ofNat 8 (17 * sym)))
    | _ => none

/-! ### ESR units (R287, 07 R201) -/

def esrBytes (tag : Nat) : Nat := if tag = 1 ∨ tag = 2 then 48 else 64
def esrTags (head : Nat) : List Nat := (List.range 64).map fun b => head / 2 ^ (2 * b) % 4
def esrLength (head : Nat) : Nat := 16 + (esrTags head).foldl (fun n t => n + esrBytes t) 0

/-- The 64 bytes of a block in its container; none where the container is none of Table 7.6. -/
def esrBlock (tag : Nat) (bytes : List Byte) : Option (List Byte) :=
  let w := leNat bytes
  if tag = 0 then some bytes
  else if tag = 1 then
    let top := w % 256
    let d (i : Nat) : Nat := w / 2 ^ (8 + 3 * i) % 8
    if w / 2 ^ 360 ≠ 0 || (List.range 32).any fun i => d i ≠ 7 && top < d i then none
    else some ((List.range 32).flatMap fun i =>
      let r := w / 2 ^ (104 + 8 * i) % 256
      leBytes (r / 128 * 2 ^ 15 + (if d i = 7 then 0 else top - d i) * 128 + r % 128) 2)
  else if tag = 2 then
    if w / 2 ^ 5 % 2 ^ 27 ≠ 0 then none
    else some ((List.range 32).flatMap fun i =>
      let r := w / 2 ^ (32 + 11 * i) % 2 ^ 11
      leBytes (r / 2 ^ 10 * 2 ^ 15 + w % 32 * 2 ^ 10 + r % 2 ^ 10) 2)
  else none

/-- The bytes that an ESR unit codes. -/
def esrDecode (unit : List Byte) : Option (List Byte) :=
  ((esrTags (leNat (unit.take 16))).foldl (fun (b : Option (List Byte) × List Byte) t =>
    let n := esrBytes t
    (match b.1, esrBlock t (b.2.take n) with | some l, some k => some (l ++ k) | _, _ => none, b.2.drop n))
    (some [], unit.drop 16)).1

/-! ### Units of page fills -/

/-- The length of the unit at a physical address: 4 KiB, or as its header gives it. -/
def State.fillLength (s : State) (i : Instr) (pa : Nat) : Nat :=
  match i with | .cpFillEsr _ => esrLength (s.readNat pa 16) | .cpFillN4e _ => n4eLength (s.readNat pa 16) | _ => 4096

/-- A fill reads its unit at the home slices: the bytes come into the LLC (R282). -/
def State.touchUnit (s : State) (part : Nat) (i : Instr) (pa : Nat) : State :=
  if s.fillOk part pa 16 && s.fillOk part pa (s.fillLength i pa) then s.touchSpan pa (s.fillLength i pa) else s

/-- The length of the unit at a physical address, and the bytes it codes; the length is that of its header where the
unit is read at all. -/
def State.fillUnit (s : State) (part : Nat) (i : Instr) (pa : Nat) : Option (Nat × Option (List Byte)) :=
  let n := s.fillLength i pa
  if !s.fillOk part pa 16 || !s.fillOk part pa n then none
  else
    let unit := s.fetchBytes pa n
    let bytes := unit.map Prod.fst
    some (n, if unit.any Prod.snd then none else match i with
      | .cpFillEsr _ => esrDecode bytes | .cpFillN4e _ => n4eDecode bytes | _ => some bytes)

/-- A page of physical bytes on a node that is offline (18 R420, R423). -/
def State.offlinePage (s : State) (pa n : Nat) : Option Nat :=
  ((List.range ((pa + max n 1 - 1) / 4096 - pa / 4096 + 1)).map fun i => (pa / 4096 + i) * 4096).find? fun q =>
    match nodeOf q with | some k => s.offline k | none => false

/-- One unit of a page fill: an unreadable or broken one is written poisoned and reported; once the source has left the
partition's memory (`fail`), every later unit is poisoned too. On node 0 the blocks of an ESR unit keep their tags. -/
def State.fillStep (s : State) (uid : Nat) (c : Cable) (m : Cmd) : State :=
  let src := pairNat m.a + m.progress2
  let dst := pairNat m.d + 4096 * m.progress
  let off := match s.offlinePage dst 1 with
    | some a => some a
    | none => if m.fail then none else
      s.offlinePage src (s.fillLength m.instr src)
  match off with
  | some a => s.suspendCmd uid m (copyIssuer c) none { cause := 37, addr := a }
  | none =>
    let s := if m.fail then s else s.touchUnit c.part m.instr src
    let unit := if m.fail then none else s.fillUnit c.part m.instr src
    let left := m.fail || unit.isNone
    let good := unit.bind Prod.snd
    let bytes : List (Byte × Bool) := match good with
      | some l => l.map fun b => (b, false)
      | none => (List.range 4096).map fun i => (Config.poisonByte s.stepCount i, true)
    let s1 := if m.fail || good.isSome then s
      else s.reportCmd uid m (copyIssuer c) fun r => { r with cause := 20, addr := src }
    let cells := (List.range bytes.length).zipWith (fun i b => (dst + i, b)) bytes
    let s2 := s1.writeMem uid m.id (cells.map fun e => (e, false)) 64
    let tags := match m.instr, good with
      | .cpFillEsr _, some _ => if nodeOf dst = some 0 then esrTags (s.readNat src 16) else []
      | _, _ => []
    let blocks := ((List.range tags.length).zip tags).map fun e => (dst / 64 + e.1, e.2)
    let waits (t : Nat × Nat) : Bool := match (s2.cable uid).cmd? m.id with
      | some q => q.held.any fun l => l.any fun h => h.1.1 / 64 == t.1 | none => false
    (s2.setTags (blocks.filter fun t => !waits t)).updCmd uid m.id fun q => { q with
      tags := q.tags ++ blocks.filter waits
      state := .running, progress := m.progress + 1, progress2 := m.progress2 + (match unit with | some u => u.1 | none => 0)
      written := m.written + 4096, psn := m.psn || good.isNone, fail := left }

/-! ### Snapshots (R288) -/

/-- `cp.seg` begins: a current segment passes to In transit, its home sends a snapshot. Progress 1 waits for the segment
(`progress2` is 1 where the command requested the snapshot), progress 2 has completed without effect. -/
def State.segUnit (s : State) (uid : Nat) (c : Cable) (m : Cmd) : State :=
  let seg := regNat m.d 0 / 4096
  let step (s : State) (p asked : Nat) : State := s.updCmd uid m.id fun q => { q with state := .running, progress := p, progress2 := asked }
  if m.progress ≠ 0 then s
  else match c.segs.find? seg with
    | none => step s 2 0
    | some g =>
      if g.state ≠ .current then step s 1 0
      else
        let s := s.touchSpan (g.range * 4096) 4096
        let num := match s.dirs.find? g.range with | some d => d.seq | none => g.last
        let g' : Seg := { g with state := .inTransit, synced := false, snapshot := some (num, s.pageImage g.range), sent := s.stepCount, inbox := [] }
        step (s.updCable uid fun c => { c with segs := c.segs.insert seg g' }) 1 1

/-! ### The engine's turn and completion -/

def State.copyTurn (s : State) (uid : Nat) (c : Cable) (m : Cmd) : State :=
  match m.instr with
  | .cpSeg _ => s.segUnit uid c m
  | .cpFillRaw _ | .cpFillEsr _ | .cpFillN4e _ => if m.progress < regNat m.b 0 then s.fillStep uid c m else s
  | _ => match m.shape with
    | some p => if m.progress < p.total then s.copyShapeUnit uid c m p else s
    | none => s

/-- Every unit of a command has been performed. -/
def Cmd.copyOver (m : Cmd) (c : Cable) : Bool :=
  match m.instr with
  | .cpSeg _ => m.progress == 2 || (m.progress == 1 && match c.segs.find? (regNat m.d 0 / 4096) with
    | some g => g.state == .current | none => true)
  | .cpFillRaw _ | .cpFillEsr _ | .cpFillN4e _ => regNat m.b 0 ≤ m.progress
  | _ => match m.shape with | some p => p.total ≤ m.progress | none => true
/-- A snapshot that `cp.seg` has asked for is a unit begun: a cancellation waits for it (R290). -/
def Cmd.copyBegun (m : Cmd) : Bool := match m.instr with | .cpSeg _ => m.progress == 1 | _ => false

/-- A cable has a copy command with a unit to perform. -/
def Cable.copies (c : Cable) : Bool :=
  (c.isPlaced || c.state == .ended) && c.saving.isNone && c.cmds.any fun m =>
    m.path == .copy && m.state != .suspended && m.state != .done && !m.cancel && !m.copyOver c
/-- The cable whose turn it is on a core's copy engine: the next in rotation of those with a unit to perform (R279). -/
def State.copyNext (s : State) (core : Nat) : Option Nat :=
  let l := ((s.cables.vals.filter fun c => c.coreD == core && c.copies)).map Cable.uid
  match l.filter fun u => (s.core core).copyLast < u with
  | u :: us => some (us.foldl min u)
  | [] => match l with | u :: us => some (us.foldl min u) | [] => none

/-- The copy engine performs one unit of a command or suspends it; the cables take turns, a unit each (R279). -/
def execCopyUnit (uid cmd : Nat) (s : State) : Host.Outcome State Fault Refusal :=
  .next (match s.engineTurn uid cmd .copy with
    | some (c, m) =>
      if m.state = .suspended ∨ m.state = .done ∨ m.cancel = true ∨ s.copyNext c.coreD ≠ some uid then s
      else if !m.held.isEmpty then s.landCmd uid m
      else (s.copyTurn uid c m).updCore c.coreD fun k => { k with copyLast := uid }
    | none => s)

/-- The token of a copy command (Table 11.3). -/
def Cmd.copyToken (m : Cmd) : W32 :=
  BitVec.ofNat 32 (m.written / 4 % 2 ^ 30 + bit1 m.psn 30 + bit1 m.cancel 31)

/-- A copy command that is over or cancelled completes, its records posted and its updates applied. -/
def execCopyComplete (uid cmd : Nat) (s : State) : Host.Outcome State Fault Refusal :=
  .next (match s.engineTurn uid cmd .copy with
    | some (c, m) =>
      if m.state = .suspended ∨ m.state = .done then s
      else if !m.held.isEmpty then s.landCmd uid m
      else if !((m.cancel && !m.copyBegun) || m.copyOver c) || s.recordsWait c (copyIssuer c) || !s.updatesApplied m then s
      else s.finishCmd uid m m.copyToken
    | none => s)

end Sys2Proof.Machine
end

