-- ==== Sys2Proof/Machine/Parallel.lean ====
section
/-! DEFINITION. Parallel instructions (06 R163 to R172, R174, R178): musters, cross-lane moves, reductions, scans, mask
operations, barriers, yields. -/
namespace Sys2Proof.Machine

/-! ### One result for every contributor (Table 6.1) -/

/-- A uniform result: every contributor's own register, or a shared register once. -/
def State.uniformResult (s : State) (x : Issue) (d : Dest) (v : Val) : Attempt :=
  if d.op.perStrand then .done (s.depositEach x d fun _ => v) []
  else .done ((s.depositUniform x d v).ownLatch x.e x.contrib) []

/-- A row that combines one source of every contributor. -/
def combineRow (u : Use) (d : Dest) (g : Issue → List (Nat × Nat) → Val) : Row :=
  let u := { u with perStrand := true }
  let d := { d with perStrand := true }
  { srcs := [u], dst := some d
    act := fun s x => s.uniformResult x d (g x (x.contrib.map fun j => (j, s.src x j u))) }

/-! ### Musters (R167) -/

def musterRow (f : FmtA) (g : List (Nat × Nat) → Nat) : Row :=
  combineRow (f.useA (.raw false)) (f.dest (.raw false)) fun _ l => rawVal (g l)

/-- The contributors whose value is true. -/
def trueOnes (l : List (Nat × Nat)) : List (Nat × Nat) := l.filter fun e => e.2 != 0

def execMusterCnt (f : FmtA) (s : State) : Host.Outcome State Fault Refusal :=
  s.perform (.musterCnt f) f.c (musterRow f fun l => (trueOnes l).length + 2 ^ 16 * l.length)
def execMusterFirst (f : FmtA) (s : State) : Host.Outcome State Fault Refusal :=
  s.perform (.musterFirst f) f.c (musterRow f fun l => match trueOnes l with | e :: _ => e.1 | [] => 0xFFFFFFFF)
def execMusterSame (f : FmtA) (s : State) : Host.Outcome State Fault Refusal :=
  s.perform (.musterSame f) f.c (musterRow f fun l => if l.all fun e => e.2 == (l.headD (0, 0)).2 then 1 else 0)
def execMusterLanes (f : FmtA) (s : State) : Host.Outcome State Fault Refusal :=
  s.perform (.musterLanes f) f.c (musterRow f fun l => (trueOnes l).foldl (fun m e => m + 2 ^ (e.1 % 32)) 0)

/-! ### Cross-lane moves (R168) -/

/-- The lanes of a ply in segments: the width g, the segment's base and the position in it of lane j. -/
def segWidth (b : Nat) : Nat := 2 ^ min (b / 256 % 8) 5

/-- The source lane of Table 6.4 for lane j with b. -/
inductive LaneMode where | at_ | below | above | flip
deriving DecidableEq, Repr

def LaneMode.lane (m : LaneMode) (j b : Nat) : Option Nat :=
  let d := b % 32
  let g := segWidth b
  let p := j % g
  match m with
  | .at_ => some (j - p + d % g)
  | .below => if d ≤ p then some (j - d) else none
  | .above => if p + d ≤ g - 1 then some (j + d) else none
  | .flip => some (j - p + Nat.xor p (d % g))

/-- Each contributor takes the value of its source lane where that lane contributes, else its own. -/
def xlaneRow (m : LaneMode) (f : FmtA) : Row :=
  let a : Use := { f.useA (.raw false) with perStrand := true, carry := true }
  let b : Use := { f.useB (.raw false) with perStrand := true }
  let d : Dest := { f.dest (.raw false) with perStrand := true, only := Operand.perStrand }
  { srcs := [a, b], dst := some d
    act := fun s x => .done (s.depositEach x d fun j =>
      let ply := j / 32 * 32
      let from_ := match m.lane (j % 32) (s.src x j b) with
        | some l => if x.contrib.contains (ply + l) then ply + l else j
        | none => j
      let v := s.readOp x.e from_ x.lay a.op a.ty
      { val := BitVec.ofNat 64 v.1, p0 := v.2 }) [] }

def execXlaneAt (f : FmtA) (s : State) : Host.Outcome State Fault Refusal := s.perform (.xlaneAt f) f.c (xlaneRow .at_ f)
def execXlaneBelow (f : FmtA) (s : State) : Host.Outcome State Fault Refusal := s.perform (.xlaneBelow f) f.c (xlaneRow .below f)
def execXlaneAbove (f : FmtA) (s : State) : Host.Outcome State Fault Refusal := s.perform (.xlaneAbove f) f.c (xlaneRow .above f)
def execXlaneFlip (f : FmtA) (s : State) : Host.Outcome State Fault Refusal := s.perform (.xlaneFlip f) f.c (xlaneRow .flip f)

/-! ### Reductions and scans (R169, R170) -/

end Sys2Proof.Machine

namespace Sys2Proof
open Machine

def RedTy.oty : RedTy → OTy
  | .i32 => .int ⟨32, true⟩ | .n32 => .int ⟨32, false⟩ | .f32 => .float .f32 | .f64 => .float .f64

end Sys2Proof

namespace Sys2Proof.Machine

/-- The sum of source patterns, with the flags of every step: an ordered sum from −0, or a sum that wraps. -/
def redSum (ty : OTy) (l : List Nat) : Nat × Flags :=
  match ty with
  | .float F => let r := orderedSum F (.zero true) (l.map F.decode); (F.encode r.1, r.2)
  | .int T => (T.wrap ((l.map T.decode).foldl (· + ·) 0), 0)
  | .raw _ => (0, 0)

/-- The least, or the greatest, of source patterns; a NaN only where every value is one. -/
def redExtreme (greatest : Bool) (ty : OTy) (l : List Nat) : Nat :=
  match ty, l with
  | _, [] => 0
  | .float F, a :: r =>
    F.encode (r.foldl (fun x y => if greatest then x.greatest (F.decode y) else x.least (F.decode y)) (F.decode a))
  | .int T, a :: r =>
    T.wrap (r.foldl (fun x y => if greatest then max x (T.decode y) else min x (T.decode y)) (T.decode a))
  | .raw _, a :: _ => a

def redRow (t : RedTy) (f : FmtA) (g : List Nat → Nat × Flags) : Row :=
  combineRow (f.useA t.oty) (f.dest t.oty) fun _ l =>
    let r := g (l.map Prod.snd)
    { val := t.oty.extend r.1, flags := r.2 }

/-- `scan.add`: each contributor receives the sum of the values up to its own, and the flags of the whole sum. -/
def scanRow (t : RedTy) (f : FmtA) : Row :=
  let a : Use := { f.useA t.oty with perStrand := true }
  let d : Dest := { f.dest t.oty with perStrand := true, only := Operand.perStrand }
  { srcs := [a], dst := some d
    act := fun s x =>
      let l := x.contrib.map fun j => (j, s.src x j a)
      let all := redSum t.oty (l.map Prod.snd)
      .done (s.depositEach x d fun j =>
        { val := t.oty.extend (redSum t.oty ((l.filter fun e => decide (e.1 ≤ j)).map Prod.snd)).1, flags := all.2 }) [] }

def execRedAdd (t : RedTy) (f : FmtA) (s : State) : Host.Outcome State Fault Refusal :=
  s.perform (.redAdd t f) f.c (redRow t f (redSum t.oty))
def execRedMin (t : RedTy) (f : FmtA) (s : State) : Host.Outcome State Fault Refusal :=
  s.perform (.redMin t f) f.c (redRow t f fun l => (redExtreme false t.oty l, 0))
def execRedMax (t : RedTy) (f : FmtA) (s : State) : Host.Outcome State Fault Refusal :=
  s.perform (.redMax t f) f.c (redRow t f fun l => (redExtreme true t.oty l, 0))
def execScanAdd (t : RedTy) (f : FmtA) (s : State) : Host.Outcome State Fault Refusal :=
  s.perform (.scanAdd t f) f.c (scanRow t f)

def redBitsRow (w : Width) (f : FmtA) (g : Nat → Nat → Nat) : Row :=
  combineRow (f.useA w.oty) (f.dest w.oty) fun _ l =>
    match l.map Prod.snd with
    | [] => rawVal 0
    | a :: r => rawVal (r.foldl g a)

def execRedAnd (w : Width) (f : FmtA) (s : State) : Host.Outcome State Fault Refusal :=
  s.perform (.redAnd w f) f.c (redBitsRow w f Nat.land)
def execRedOr (w : Width) (f : FmtA) (s : State) : Host.Outcome State Fault Refusal :=
  s.perform (.redOr w f) f.c (redBitsRow w f Nat.lor)
def execRedXor (w : Width) (f : FmtA) (s : State) : Host.Outcome State Fault Refusal :=
  s.perform (.redXor w f) f.c (redBitsRow w f Nat.xor)

/-! ### Mask operations (R172) -/

/-- The lanes of the ply where the predicate holds, lanes of strands that have exited included. -/
def State.predicateLanes (s : State) (x : Issue) (strand : Nat) : W32 :=
  if (s.clauseOf x.e.uid strand).skip = true then 0
  else if x.c.pmask = 0 then 0xFFFFFFFF
  else
    let m := s.readMask x.e strand x.c.pmask.toNat
    if x.c.pinv then ~~~m else m

/-- A row that forms a 32-bit result for a mask destination; it consumes the poison of its source wherever the predicate
holds for a lane (R165). -/
def maskRow (f : FmtA) (srcs : List Use) (g : State → Issue → Nat → W32) : Row :=
  let m := maskField f.dst
  { srcs := srcs, latch := .own, always := true
    act := fun s x =>
      let j := x.members.headD 0
      let lanes := s.predicateLanes x j
      match (if lanes = 0 then none else srcs.find? fun u => (s.readOp x.e j x.lay u.op u.ty).2) with
      | some u => .fault { cause := 9, strand := some j, detail := u.code, count := (laneSet lanes).length }
      | none =>
        let s1 := s.writeMask x.e.uid j m lanes (g s x j)
        let after := s1.readMask x.e j m
        .done (x.members.foldl (fun s i => s.setLatch x.e i (some ⟨false, after.setWidth 64, false⟩))
          (s1.ownLatch x.e x.members)) [] }

def maskTwo (f : FmtA) (g : W32 → W32 → W32) : Row :=
  maskRow f [] fun s x j => g (s.readMask x.e j (maskField f.sa)) (s.readMask x.e j (maskField f.sb))

/-- A row that puts a value formed from a mask into a uniform register. -/
def maskOutRow (f : FmtA) (g : W32 → Nat) : Row :=
  let d : Dest := { f.dest (.raw false) with
    only := fun op => match op with | .s _ => true | .y _ => true | .k _ => true | _ => false }
  { dst := some d
    act := fun s x => s.compute x d fun j => rawVal (g (s.readMask x.e j (maskField f.sa))) }

def execMand (f : FmtA) (s : State) : Host.Outcome State Fault Refusal := s.perform (.mand f) f.c (maskTwo f fun a b => a &&& b)
def execMor (f : FmtA) (s : State) : Host.Outcome State Fault Refusal := s.perform (.mor f) f.c (maskTwo f fun a b => a ||| b)
def execMxor (f : FmtA) (s : State) : Host.Outcome State Fault Refusal := s.perform (.mxor f) f.c (maskTwo f fun a b => a ^^^ b)
def execMandn (f : FmtA) (s : State) : Host.Outcome State Fault Refusal := s.perform (.mandn f) f.c (maskTwo f fun a b => a &&& ~~~b)
def execMnot (f : FmtA) (s : State) : Host.Outcome State Fault Refusal :=
  s.perform (.mnot f) f.c (maskRow f [] fun s x j => ~~~(s.readMask x.e j (maskField f.sa)))
def execMpop (f : FmtA) (s : State) : Host.Outcome State Fault Refusal :=
  s.perform (.mpop f) f.c (maskOutRow f fun m => countOnes 32 m.toNat)
def execMfirst (f : FmtA) (s : State) : Host.Outcome State Fault Refusal :=
  s.perform (.mfirst f) f.c (maskOutRow f fun m => zerosBelow 32 m.toNat)
def execMtov (f : FmtA) (s : State) : Host.Outcome State Fault Refusal := s.perform (.mtov f) f.c (maskOutRow f fun m => m.toNat)
def execVtom (f : FmtA) (s : State) : Host.Outcome State Fault Refusal :=
  let u := f.useA (.raw false)
  s.perform (.vtom f) f.c (maskRow f [u] fun s x j => BitVec.ofNat 32 (s.readOp x.e j x.lay u.op u.ty).1)
def execMlive (f : FmtA) (s : State) : Host.Outcome State Fault Refusal :=
  s.perform (.mlive f) f.c (maskRow f [] fun s x j => (s.cable x.e.uid).liveLanes (j / 32))

/-! ### Joins, barriers, yields (R173, R174, R178) -/

def execJoin (f : FmtA) (s : State) : Host.Outcome State Fault Refusal :=
  s.perform (.join f) f.c { latch := .clear, always := true, act := fun s x => s.joinHere x (maskField f.sa) }

/-- `bar`: issues when no write of a member ply is outstanding, and orders as an acquire-release fence of cable scope. -/
def barRow : Row :=
  { latch := .clear, always := true
    act := fun s x =>
      let plies := distinct (x.members.map (· / 32))
      let s1 := s.drainPlies x.e.uid plies
      if s1.releaseHolds x.e.uid plies x.members 1 && s1.loadsBack x.e.uid x.members then .done s1 [] else .stall s1 }

def execBar (f : FmtA) (s : State) : Host.Outcome State Fault Refusal := s.perform (.bar f) f.c barRow

/-- `yield.ply`: the clause ranks its ply as a header with YIELD = 1. -/
def yieldRow : Row :=
  { latch := .clear, always := true
    act := fun s x => .done (x.groups.foldl (fun s g => s.updClause x.e.uid g.1 g.2 fun cl =>
      { cl with hdr := { cl.hdr with yield := true } }) s) [] }

def execYield (f : FmtA) (s : State) : Host.Outcome State Fault Refusal := s.perform (.yield f) f.c yieldRow

end Sys2Proof.Machine
end

