-- ==== Sys2Proof/Machine/Crews.lean ====
section
/-! DEFINITION. Fabric commands at issue, crews, and what a collective computes (18 R406 to R414). -/
namespace Sys2Proof.Machine

/-! ### The commands (Table 18.7) -/

/-- What a FAB command does. -/
inductive FabOp where | add | min | max | topk | bar | put | get | sig
deriving DecidableEq, Repr, Inhabited

def FabOp.isRed : FabOp → Bool | .add => true | .min => true | .max => true | _ => false
/-- A command of a crew. -/
def FabOp.collective : FabOp → Bool | .put => false | .get => false | .sig => false | _ => true
/-- The number under which contributions name their operation. -/
def FabOp.code : FabOp → Nat
  | .add => 0 | .min => 1 | .max => 2 | .topk => 3 | .bar => 4 | .put => 5 | .get => 6 | .sig => 7

def Cmd.fabOp (m : Cmd) : FabOp :=
  match m.instr with
  | .fabRedAdd .. => .add | .fabRedMin .. => .min | .fabRedMax .. => .max | .fabTopk _ => .topk
  | .fabPut _ => .put | .fabGet _ => .get | .fabSig _ => .sig | _ => .bar
def Cmd.fabTy (m : Cmd) : FabTy :=
  match m.instr with | .fabRedAdd t _ => t | .fabRedMin t _ => t | .fabRedMax t _ => t | _ => .f32

def fabOty : FabTy → OTy
  | .f32 => .float .f32 | .f64 => .float .f64 | .i32 => .int ⟨32, true⟩ | .i64 => .int ⟨64, true⟩
def fabWidth (t : FabTy) : Nat := (fabOty t).bits / 8

/-- The crew group: descriptor address, SEQ, COUNT. -/
def Cmd.crewAt (m : Cmd) : Nat := pairNat m.b
def Cmd.crewSeq (m : Cmd) : Nat := regNat m.b 2
def Cmd.crewCount (m : Cmd) : Nat := regNat m.b 3
/-- len of `fab.put` and `fab.get`, v of `fab.sig`. -/
def Cmd.fabLen (m : Cmd) : Nat := regNat m.b 0

/-- Bytes that a command takes from its local source. -/
def Cmd.fabSrcBytes (m : Cmd) : Nat :=
  match m.fabOp with
  | .add | .min | .max => m.crewCount * fabWidth m.fabTy
  | .topk => 8 * (m.crewCount + 1)
  | .put => m.fabLen
  | _ => 0
/-- Bytes that it writes at its local destination. -/
def Cmd.fabDstBytes (m : Cmd) : Nat :=
  match m.fabOp with
  | .add | .min | .max => m.crewCount * fabWidth m.fabTy
  | .topk => 16 * (m.crewCount + 1)
  | .get => m.fabLen
  | _ => 0
/-- The local places: source, destination. -/
def Cmd.fabPlaces (m : Cmd) : List (Loc × Nat × Bool) :=
  (if m.fabSrcBytes = 0 then [] else [(locOf (pairNat m.a) 0, m.fabSrcBytes, false)]) ++
  (if m.fabDstBytes = 0 then [] else [(locOf (pairNat m.d) 0, m.fabDstBytes, true)])
/-- The peer-window operand, with the bytes it names. -/
def Cmd.fabPeer (m : Cmd) : Option (Nat × Nat) :=
  match m.fabOp with
  | .put => some (pairNat m.d, m.fabLen)
  | .get => some (pairNat m.a, m.fabLen)
  | .sig => some (pairNat m.a, 8)
  | _ => none

/-- PEER and OFF of a peer-window address (R394). -/
def peerOf (ea : Nat) : Nat := ea / 2 ^ 44 % 2 ^ 12
def offOf (ea : Nat) : Nat := ea % 2 ^ 44

/-! ### Checks at issue (R406; R395, 13 R314) -/

/-- The word fields. -/
def Cmd.fabFieldsOk (m : Cmd) : Bool :=
  match m.fabOp with
  | .add | .min | .max => 1 ≤ m.crewCount && m.crewCount ≤ 2 ^ 20
  | .topk => m.crewCount < 2 ^ 10
  | .bar => m.crewCount == 0
  | .put | .get => 16 ≤ m.fabLen && m.fabLen ≤ 2 ^ 30 && m.fabLen % 16 == 0
  | .sig => true

/-- The address operands in copy-address form. -/
def Cmd.fabForms (m : Cmd) : List Nat :=
  (if m.fabSrcBytes = 0 then [] else [pairNat m.a]) ++ (if m.fabDstBytes = 0 then [] else [pairNat m.d])

def Cmd.fabAligned (m : Cmd) : Bool :=
  (m.fabForms.all fun a => a % 16 == 0) &&
  (match m.fabPeer with | some (ea, _) => ea % (if m.fabOp = .sig then 8 else 16) == 0 | none => true) &&
  (!m.fabOp.collective || m.crewAt % 64 == 0)

/-- The checks on operands alone, in the order of 13 R314; among those of addresses, the peer operand's in the order of R395
(log 67). -/
def State.fabCheck (s : State) (c : Cable) (m : Cmd) : Option Trouble :=
  let outside (e : Nat × Nat) : Bool := !(0x0F00000000000000 ≤ e.1 && e.1 + e.2 ≤ 2 ^ 60)
  let self (e : Nat × Nat) : Bool := peerOf e.1 == s.fabId || peerOf (e.1 + e.2 - 1) == s.fabId
  let address (e : Nat × Nat) : Trouble := { cause := 5, addr := e.1, write := m.fabOp != .get }
  if !m.fabFieldsOk || m.fabForms.any fun a => !formOk a then some { cause := 2 }
  else if !m.fabAligned then some { cause := 6 }
  else match m.fabPeer.filter outside with
    | some e => some (address e)
    | none =>
      if c.priv = 0 && !(s.ctx c.ctx).peerEn then some { cause := 8, addr := ((m.fabPeer.map Prod.fst).getD 0) }
      else match m.fabPeer.filter self with
        | some e => some (address e)
        | none => placesTrouble c m.fabPlaces

/-! ### Crew descriptors (R410) -/

/-- A crew as its descriptor gives it. -/
structure Crew where
  crew : Nat
  rank : Nat
  peers : List Nat
deriving DecidableEq, Repr, Inhabited

/-- The crew of a descriptor's bytes; none where it has a defect. -/
def Crew.ofBytes (me : Nat) (bytes : List Byte) : Option Crew :=
  let w0 := leNat (bytes.take 8)
  let n := bitsAt w0 32 12 + 1
  let rank := bitsAt w0 48 12
  let entries := (List.range n).map fun r => leNat ((bytes.drop (0x40 + 2 * r)).take 2)
  if bitsAt w0 44 4 ≠ 0 || bitsAt w0 60 4 ≠ 0 || ((bytes.drop 8).take 56).any (· != 0) || entries.any (4096 ≤ ·) ||
      n ≤ rank || entries.getD rank 0 ≠ me || (distinct entries).length ≠ n then none
  else some { crew := bitsAt w0 0 32, rank := rank, peers := entries }

/-- Reads bytes behind virtual addresses for the issuing core, page by page. -/
def State.readAtIssue (s : State) (c : Cable) (va n : Nat) : State × Except Trouble (List (Byte × Bool)) :=
  let first := va / 4096
  (List.range ((va + n - 1) / 4096 - first + 1)).foldl (fun (b : State × Except Trouble (List (Byte × Bool))) i =>
    match b.2 with
    | .error t => (b.1, .error t)
    | .ok l =>
      let lo := max va ((first + i) * 4096)
      let hi := min (va + n) ((first + i + 1) * 4096)
      match b.1.translate c.coreD c.ctx lo .read (c.priv == 0) with
      | (s1, .error f) => (s1, .error { cause := f.cause, detail := f.detail, addr := lo, unpop := f.cause == 5, count := 1
                                        page := f.page lo, pages := [lo / 4096] })
      | (s1, .ok p) => ((s1.touchSpan p.pa (hi - lo)), .ok (l ++ s1.fetchBytes p.pa (hi - lo)))) (s, .ok [])

/-- The crew that a command names; a poisoned granule of its descriptor is consumed at the crew group, OPB (16 R371). -/
def State.readCrew (s : State) (c : Cable) (m : Cmd) : State × Except Trouble Crew :=
  let poisoned (l : List (Byte × Bool)) : Option Trouble := (l.findIdx? fun b => b.2).map fun i =>
    { cause := 9, detail := 2 + 16, addr := (m.crewAt + i) / 16 * 16 }
  if !vaOk m.crewAt 0x40 then (s, .error { cause := 5, addr := m.crewAt })
  else match s.readAtIssue c m.crewAt 0x40 with
    | (s1, .error t) => (s1, .error t)
    | (s1, .ok head) =>
      let n := 0x40 + 2 * (bitsAt (leNat ((head.take 8).map Prod.fst)) 32 12 + 1)
      match poisoned head with
      | some t => (s1, .error t)
      | none =>
        if !vaOk m.crewAt n then (s1, .error { cause := 5, addr := m.crewAt })
        else match s1.readAtIssue c m.crewAt n with
          | (s2, .error t) => (s2, .error t)
          | (s2, .ok l) =>
            match poisoned l, Crew.ofBytes s.fabId (l.map Prod.fst) with
            | some t, _ => (s2, .error t)
            | none, some k => (s2, .ok k)
            | none, none => (s2, .error { cause := 2 })

/-! ### Rows -/

/-- The command of a row of class FAB: one for the scope. -/
def State.fabCmd (s : State) (x : Issue) (i : Instr) (f : FmtE) (uses : List (Use × Nat)) : Cmd :=
  let regs (k : Nat) : List PReg :=
    match uses.find? fun u => u.1.code == k with | some u => s.regsOf x u.1 x.lead u.2 | none => []
  s.newCmd x f i .fab x.lead (regs 0) (regs 1) (regs 2)

/-- The instance of a collective that a command begins, with this module's place in it. -/
def Cmd.opening (m : Cmd) (x : Issue) (part : Nat) (k : Crew) (op : Nat) : Collective :=
  { part := part, crew := k.crew, seq := m.crewSeq, uid := x.e.uid, cmd := op
    got := [{ rank := k.rank, peers := k.peers, kind := m.fabOp.code, ty := m.fabTy, count := m.crewCount, elems := [], psn := [] }] }

/-- A row of class FAB: a collective enters its instance (R411). -/
def fabRow (i : Instr) (f : FmtE) (uses : List (Use × Nat)) : Row :=
  { srcs := uses.map Prod.fst, latch := .clear, extra := FmtE.tokenKey f
    act := fun s x =>
      let c := s.cable x.e.uid
      let m := s.fabCmd x i f uses
      match s.fabCheck c m with
      | some t => .fault t
      | none =>
        if !m.fabOp.collective then
          let s1 := if m.fabOp = .sig then s.drainPlies x.e.uid (distinct (x.members.map (· / 32))) 4 else s
          s1.issueAll x f .fab (2 ^ 32) [m]
        else match s.readCrew c m with
          | (_, .error t) => .fault t
          | (s1, .ok k) =>
            if s1.collectives.any fun q => q.part == c.part && q.crew == k.crew && q.seq == m.crewSeq then .fault { cause := 2 }
            else if 64 ≤ (s1.collectives.filter fun q => q.part == c.part).length then .stall s1
            else
              let s2 := if m.fabOp = .bar then s1.drainPlies x.e.uid (distinct (x.members.map (· / 32))) 4 else s1
              let q := m.opening x c.part k s2.nextOp
              match s2.issueAll x f .fab (2 ^ 32) [m] with
              | .done s3 g => .done { s3 with collectives := s3.collectives ++ [q] } g
              | a => a }

def fabPairD (f : FmtE) : Use × Nat := ({ f.useD (.raw true) with late := laRegs 2 }, 2)

def redUses (f : FmtE) : List (Use × Nat) := [fabPairD f, laPairA f, laGroupB f 4]

def execFabRedAdd (t : FabTy) (f : FmtE) (s : State) : Host.Outcome State Fault Refusal :=
  s.perform (.fabRedAdd t f) f.c (fabRow (.fabRedAdd t f) f (redUses f))
def execFabRedMin (t : FabTy) (f : FmtE) (s : State) : Host.Outcome State Fault Refusal :=
  s.perform (.fabRedMin t f) f.c (fabRow (.fabRedMin t f) f (redUses f))
def execFabRedMax (t : FabTy) (f : FmtE) (s : State) : Host.Outcome State Fault Refusal :=
  s.perform (.fabRedMax t f) f.c (fabRow (.fabRedMax t f) f (redUses f))
def execFabTopk (f : FmtE) (s : State) : Host.Outcome State Fault Refusal :=
  s.perform (.fabTopk f) f.c (fabRow (.fabTopk f) f (redUses f))
def execFabPut (f : FmtE) (s : State) : Host.Outcome State Fault Refusal :=
  s.perform (.fabPut f) f.c (fabRow (.fabPut f) f [fabPairD f, laPairA f, scalarB f])
def execFabGet (f : FmtE) (s : State) : Host.Outcome State Fault Refusal :=
  s.perform (.fabGet f) f.c (fabRow (.fabGet f) f [fabPairD f, laPairA f, scalarB f])
def execFabBar (f : FmtE) (s : State) : Host.Outcome State Fault Refusal :=
  s.perform (.fabBar f) f.c (fabRow (.fabBar f) f [laGroupB f 4])
def execFabSig (f : FmtE) (s : State) : Host.Outcome State Fault Refusal :=
  s.perform (.fabSig f) f.c (fabRow (.fabSig f) f [laPairA f, scalarB f])

/-! ### Combining (R413, R414) -/

/-- Combine of two element patterns. -/
def fabCombine (k : FabOp) (t : FabTy) (x y : Nat) : Nat × Flags :=
  match k, fabOty t with
  | .add, .float F =>
    let (v, f1) := (F.decode x).add (F.decode y) false
    let (p, f2) := F.round v .rn false
    (p, f1 ||| f2)
  | .add, .int T => (T.wrap (T.decode x + T.decode y), 0)
  | .min, ty => (redExtreme false ty [x, y], 0)
  | .max, ty => (redExtreme true ty [x, y], 0)
  | _, _ => (x, 0)

/-- The largest power of two below `n`, for `n` above 1. -/
def halfOf (n : Nat) : Nat := 2 ^ Nat.log2 (n - 1)

/-- Tree over the ranks' elements, with the flags of every Combine. -/
def treeFold (f : Nat → Nat → Nat × Flags) : Nat → List Nat → Nat × Flags
  | 0, l => (l.headD 0, 0)
  | fuel + 1, l =>
    match l with
    | [] => (0, 0)
    | [x] => (x, 0)
    | l =>
      let h := halfOf l.length
      let (a, f1) := treeFold f fuel (l.take h)
      let (b, f2) := treeFold f fuel (l.drop h)
      let (c, f3) := f a b
      (c, f1 ||| f2 ||| f3)

/-- The contribution of each rank, in rank order. -/
def byRank (l : List Contribution) : List Contribution :=
  (List.range l.length).filterMap fun r => l.find? fun k => k.rank == r

/-- The elements of a reduction: value, flags, poison. -/
def reduceAll (k : FabOp) (t : FabTy) (count : Nat) (l : List Contribution) : List (Nat × Flags × Bool) :=
  (List.range count).map fun e =>
    let (v, fl) := treeFold (fabCombine k t) l.length (l.map fun q => (q.elems.getD e 0).toNat)
    (v, fl, l.any fun q => q.psn.getD e false)

/-- The bytes of a reduction's result: a granule that holds a poisoned element is poisoned. -/
def reduceBytes (t : FabTy) (r : List (Nat × Flags × Bool)) : List (Byte × Bool) :=
  let n := fabWidth t
  let per := 16 / n
  ((List.range r.length).zip r).flatMap fun e =>
    let g := e.1 / per * per
    let bad := ((r.drop g).take per).any fun q => q.2.2
    (leBytes e.2.1 n).map fun b => (b, bad)

/-- An entry of a splice. -/
structure Spliced where
  d : Nat
  id : Nat
  rank : Nat
  psn : Bool := false
deriving DecidableEq, Repr, Inhabited

/-- The order of (D, id, rank). -/
def Spliced.before (x y : Spliced) : Bool :=
  keyLess x.d x.id y.d y.id || (!keyLess y.d y.id x.d x.id && decide (x.rank < y.rank))

/-- The entries of the union, best first, equal keys once. -/
def splice (l : List Contribution) : List Spliced :=
  let all := l.flatMap fun q => ((List.range q.elems.length).filterMap fun i =>
    let w := (q.elems.getD i 0).toNat
    if w / 2 ^ 32 = 0xFFFFFFFF then none
    else some ({ d := w % 2 ^ 32, id := w / 2 ^ 32, rank := q.rank, psn := q.psn.getD i false } : Spliced))
  all.foldl (fun (acc : List Spliced) e =>
    let lo := acc.takeWhile fun x => x.before e
    let hi := acc.drop lo.length
    match hi with
    | x :: _ => if e.before x then lo ++ e :: hi else acc
    | [] => acc ++ [e]) []

/-- The result of a splice: K entries of 16 bytes. -/
def spliceBytes (k : Nat) (l : List Contribution) : List (Byte × Bool) :=
  let top := (splice l).take k
  (List.range k).flatMap fun i =>
    match top[i]? with
    | some e => (leBytes (e.d + e.id * 2 ^ 32 + e.rank * 2 ^ 64) 16).map fun b => (b, e.psn)
    | none => (leBytes (0x7F800000 + 0xFFFFFFFF * 2 ^ 32 + 0xFFFF * 2 ^ 64) 16).map fun b => (b, false)

end Sys2Proof.Machine
end

