-- ==== Sys2Proof/Machine/Wire.lean ====
section
/-! DEFINITION. What crosses a fibre (18 R400, R401, R403): codewords, blocks, head flits. -/
namespace Sys2Proof.Machine

/-! ### RS(544,514) over 10-bit symbols (R400)

R400 names the code and no field polynomial; the field, its element α = 2 and the roots α⁰ to α²⁹ of the generator are those of
IEEE 802.3 (PRESUMED, log 139). -/

/-- Twice an element of GF(2¹⁰) modulo x¹⁰ + x³ + 1. -/
def gfDouble (a : Nat) : Nat := if 512 ≤ a then (2 * a) ^^^ 0x409 else 2 * a
def gfMul (a b : Nat) : Nat :=
  (List.range 10).foldl (fun r i => if b.testBit (9 - i) then gfDouble r ^^^ a else gfDouble r) 0
/-- αⁿ. -/
def gfExp (n : Nat) : Nat := (List.range (n % 1023)).foldl (fun r _ => gfDouble r) 1
/-- The inverse of a nonzero element, its power 2 + 4 + … + 512. -/
def gfInv (a : Nat) : Nat :=
  ((List.range 9).foldl (fun (b : Nat × Nat) _ => let q := gfMul b.1 b.1; (q, gfMul b.2 q)) (a, 1)).2
/-- A polynomial, highest coefficient first, at a point. -/
def gfEval (p : List Nat) (x : Nat) : Nat := p.foldl (fun r c => gfMul r x ^^^ c) 0

/-- The generator without its leading 1, highest coefficient first. -/
def rsTail : List Nat :=
  ((List.range 30).foldl (fun (g : List Nat) j => (g ++ [0]).zipWith (· ^^^ ·) (0 :: g.map (gfMul (gfExp j)))) [1]).drop 1
/-- The check symbols of 514 data symbols. -/
def rsCheck (data : List Nat) : List Nat :=
  data.foldl (fun (r : List Nat) d =>
    let f := d ^^^ r.headD 0
    (r.drop 1 ++ [0]).zipWith (fun a g => a ^^^ gfMul f g) rsTail) (List.replicate 30 0)

/-- The values of a received word at the 30 roots. -/
def rsSyndromes (w : List Nat) : List Nat := (List.range 30).map fun j => gfEval w (gfExp j)

/-- Berlekamp and Massey: the error locator of syndromes, lowest coefficient first, with its length. -/
def rsLocator (syn : List Nat) : List Nat × Nat :=
  let r := (List.range 30).foldl (fun (a : List Nat × List Nat × Nat × Nat × Nat) n =>
    -- locator, previous locator, length, shift, previous discrepancy
    let (c, b, l, m, bd) := a
    let d := (List.range (l + 1)).foldl (fun d i => d ^^^ gfMul (c.getD i 0) (syn.getD (n - i) 0)) 0
    if d = 0 then (c, b, l, m + 1, bd)
    else
      let f := gfMul d (gfInv bd)
      let c' := (List.range (max c.length (b.length + m))).map fun i =>
        c.getD i 0 ^^^ (if m ≤ i then gfMul f (b.getD (i - m) 0) else 0)
      if 2 * l ≤ n then (c', c, n + 1 - l, 1, d) else (c', b, l, m + 1, bd)) ([1], [1], 0, 1, 1)
  (r.1, r.2.2.1)

/-- The word nearest to a received one, at most 15 symbols from it; none where there is none. -/
def rsCorrect (w : List Nat) : Option (List Nat) :=
  let syn := rsSyndromes w
  if syn.all (· == 0) then some w else
    let (loc, l) := rsLocator syn
    let at_ (p : Nat) : Nat := gfExp (1023 - p % 1023)
    let low (p : List Nat) (x : Nat) : Nat := gfEval p.reverse x
    -- places by the power of the symbol's term
    let places := (List.range 544).filter fun p => low loc (at_ p) == 0
    if 15 < l || places.length != l then none else
      let omega := (List.range 30).map fun n => (List.range (n + 1)).foldl (fun r i => r ^^^ gfMul (loc.getD i 0) (syn.getD (n - i) 0)) 0
      let slope := (List.range (l + 1)).map fun i => if i % 2 = 0 then loc.getD (i + 1) 0 else 0
      let fix := places.map fun p => (543 - p, gfMul (gfExp p) (gfMul (low omega (at_ p)) (gfInv (low slope (at_ p)))))
      let out := ((List.range w.length).zip w).map fun e => match fix.find? fun q => q.1 == e.1 with | some q => e.2 ^^^ q.2 | none => e.2
      if (rsSyndromes out).all (· == 0) then some out else none

/-! ### Blocks (R400, Table 18.2) -/

/-- The codewords of a block: symbol s of the protected data is data symbol s div 4 of codeword s mod 4. -/
def fecEncode (bytes : List Byte) : List (List Nat) :=
  let v := leNat bytes
  (List.range 4).map fun k =>
    let data := (List.range 514).map fun i => v / 2 ^ (10 * (4 * i + k)) % 1024
    data ++ rsCheck data

/-- The codewords of a block's data symbols, and of its check symbols, those of one codeword after those of another. -/
def codewords (data check : List Nat) : List (List Nat) :=
  (List.range 4).map fun k => ((List.range 514).map fun i => data.getD (4 * i + k) 0) ++ (check.drop (30 * k)).take 30

/-- The protected bytes of received codewords, and whether each could be corrected; one that could not stands as received. -/
def fecDecode (words : List (List Nat)) : List Byte × Bool :=
  let fixed := words.map rsCorrect
  let got := (fixed.zip words).map fun e => (e.1.getD e.2).take 514
  let v := (List.range 2056).foldl (fun v s => v + (got.getD (s % 4) []).getD (s / 4) 0 % 1024 * 2 ^ (10 * s)) 0
  (leBytes v 2570, fixed.all Option.isSome)

/-- The block header of Table 18.2. -/
def blockHeader (bseq head valid : Nat) : Nat := bseq % 2 ^ 32 * 2 ^ 48 + head % 1024 * 2 ^ 38 + valid % 1024 * 2 ^ 28

/-- A block of up to ten flits, each with whether it is a head flit: its header, then its flits (DESIGN CHOICE, log 138). -/
def blockBytes (bseq : Nat) (flits : List (Bool × List Byte)) : List Byte :=
  let bits (f : Bool × List Byte → Bool) : Nat := ((List.range flits.length).zip flits).foldl (fun n e => if f e.2 then n + 2 ^ e.1 else n) 0
  leBytes (blockHeader bseq (bits Prod.fst) (bits fun _ => true)) 10 ++
    ((flits.flatMap Prod.snd) ++ List.replicate 2560 0).take 2560

/-! ### Head flits (R401, Table 18.3) -/

/-- CRC-32 of IEEE 802.3. -/
def crc32 (bytes : List Byte) : Nat :=
  (bytes.foldl (fun r b => (List.range 8).foldl (fun (r : Nat) _ => if r % 2 = 1 then (r / 2) ^^^ 0xEDB88320 else r / 2) (r ^^^ b.toNat))
    0xFFFFFFFF) ^^^ 0xFFFFFFFF

end Sys2Proof.Machine

namespace Sys2Proof
open Machine

def AtomOp.number : AtomOp → Nat
  | .add => 0 | .min => 1 | .max => 2 | .and => 3 | .or => 4 | .xor => 5 | .xchg => 6 | .cas => 7 | .addF32 => 8
def AtomOp.ofNumber : Nat → Option AtomOp
  | 0 => some .add | 1 => some .min | 2 => some .max | 3 => some .and | 4 => some .or | 5 => some .xor | 6 => some .xchg
  | 7 => some .cas | 8 => some .addF32 | _ => none

/-- The OP byte. Table 18.3 lists the kinds and gives no codes; the model's carry the size of a load or store, an atomic's operation
and type, and the DETAIL of a refusal (DESIGN CHOICE, log 138). -/
def NetOp.code : NetOp → Nat
  | .load n => 0x00 + Nat.log2 n
  | .store n => 0x08 + Nat.log2 n
  | .ack none => 0x10
  | .ack (some d) => 0x10 + d % 8
  | .put _ => 0x20
  | .get _ => 0x21
  | .sig => 0x22
  | .coll .. => 0x23
  | .atomic op ty ret => 0x40 + 8 * op.number + 2 * ty.code + (if ret then 1 else 0)

/-- The request of an OP byte, of a message with NDATA data flits whose INLINE is a number. -/
def NetOp.ofCode (c ndata off inline_ : Nat) : Option NetOp :=
  if c < 0x08 then some (.load (2 ^ c))
  else if c < 0x10 then some (.store (2 ^ (c - 8)))
  else if c = 0x10 then some (.ack none)
  else if c < 0x18 then some (.ack (some (c - 0x10)))
  else if c = 0x20 then some (.put (if ndata = 0 then 16 else inline_ % 2 ^ 16))
  else if c = 0x21 then some (.get (inline_ % 2 ^ 16))
  else if c = 0x22 then some .sig
  else if c = 0x23 then some (.coll (off % 2 ^ 32) (off / 2 ^ 32 % 2 ^ 16) (off / 2 ^ 48 % 2 ^ 16))
  else if 0x40 ≤ c ∧ c < 0x90 then (AtomOp.ofNumber ((c - 0x40) / 8)).map fun op => .atomic op (IntTy.ofCode (c / 2 % 4)) (c % 2 == 1)
  else none

/-- INLINE: up to 16 bytes of data; the length of a `put` of more, and of a `get` (DESIGN CHOICE, log 138). -/
def NetHead.inlineBytes (h : NetHead) : List Byte :=
  ((match h.op with
    | .put n => if h.ndata = 0 then h.inline else leBytes n 2
    | .get n => leBytes n 2
    | _ => h.inline) ++ List.replicate 16 0).take 16
/-- OFF: an address; of a collective CREW and the low halves of SEQ and chunk, which is what its 64 bits hold (log 138). -/
def NetHead.offWord (h : NetHead) : Nat :=
  match h.op with
  | .coll crew seq chunk => crew % 2 ^ 32 + seq % 2 ^ 16 * 2 ^ 32 + chunk % 2 ^ 16 * 2 ^ 48
  | _ => h.off % 2 ^ 64

/-- A head flit. -/
def NetHead.bytes (h : NetHead) : List Byte :=
  let psn := ((List.range h.psn.length).zip h.psn).foldl (fun n e => if e.2 then n + 2 ^ e.1 else n) 0
  let body := leBytes (h.src % 4096) 2 ++ leBytes (h.dst % 4096) 2 ++ leBytes (h.dom % 16 + h.hops % 4 * 16) 1 ++ leBytes h.op.code 1 ++
    leBytes h.ndata 2 ++ leBytes h.mseq 4 ++ leBytes h.offWord 8 ++ leBytes psn 32 ++ h.inlineBytes ++
    leBytes (h.age % 2 ^ 24) 4 ++ leBytes (h.limit % 2 ^ 24) 4 ++ List.replicate 176 0
  leBytes (crc32 body) 4 ++ body

/-- The message that a head flit begins; none where its CRC fails or it asks nothing that the model knows. -/
def NetHead.ofBytes (b : List Byte) : Option NetHead :=
  let f (lo n : Nat) : Nat := leNat ((b.drop lo).take n)
  let ndata := f 10 2
  let psn := f 24 32
  match NetOp.ofCode (f 9 1) ndata (f 16 8) (f 56 16) with
  | none => none
  | some op =>
    if f 0 4 ≠ crc32 (b.drop 4) || 16 < ndata then none
    else some { src := f 4 2 % 4096, dst := f 6 2 % 4096, dom := f 8 1 % 16, hops := f 8 1 / 16 % 4, op := op, ndata := ndata
                mseq := f 12 4, off := f 16 8, psn := (List.range 256).map fun i => psn.testBit i
                inline := (b.drop 56).take 16, age := f 72 3, limit := f 76 3 }

end Sys2Proof

namespace Sys2Proof.Machine

/-- A flit of a block, by its HEAD and VALID bits. -/
def flitOf (head valid : Bool) (bytes : List Byte) : Flit :=
  if !valid then .idle
  else if head then .head (NetHead.ofBytes bytes)
  else .data bytes

/-- The flits of received bytes: the header, then ten flits. -/
def blockFlits (bytes : List Byte) : List Flit :=
  let h := leNat (bytes.take 10)
  (List.range 10).map fun i => flitOf (h.testBit (38 + i)) (h.testBit (28 + i)) ((bytes.drop (10 + 256 * i)).take 256)

/-- The flits of a message: whether each is a head flit, and its bytes. -/
def messageFlits (h : NetHead) (data : List Byte) : List (Bool × List Byte) :=
  (true, h.bytes) :: (List.range h.ndata).map fun i => (false, ((data.drop (256 * i)).take 256 ++ List.replicate 256 0).take 256)

/-- Flits in tens. -/
def tens : Nat → List (Bool × List Byte) → List (List (Bool × List Byte))
  | 0, _ => []
  | n + 1, l => if l.isEmpty then [] else l.take 10 :: tens n (l.drop 10)

end Sys2Proof.Machine
end

