-- ==== Sys2Proof/Machine/Fabric.lean ====
section
/-! DEFINITION. The fabric (18 R394 to R404, R407 to R416): how messages form and leave through the rotor slots, what a
received block holds, accesses as their target performs them, acknowledgements, losses, the completion of commands. -/
namespace Sys2Proof.Machine

/-! ### Messages -/

def fabIssuer : Nat := issuerOf 4 0

/-- Cycles of a rotor slot: 5 µs (R399). -/
def slotCycles : Nat := 15000

/-- Flits of a message. -/
def OutMsg.flits (m : OutMsg) : Nat := 1 + m.head.ndata

/-- The poison of the granules of some bytes. -/
def psnOf (data : List (Byte × Bool)) : List Bool :=
  (List.range ((data.length + 15) / 16)).map fun g => ((data.drop (16 * g)).take 16).any Prod.snd

/-- A message for a peer; up to 16 bytes stand in the head flit (R401). -/
def State.netHead (s : State) (part dst off : Nat) (op : NetOp) (data : List (Byte × Bool)) : NetHead :=
  let short := decide (data.length ≤ 16)
  { src := s.fabId, dst := dst, dom := (s.part part).domain, hops := 0, op := op
    ndata := if short then 0 else (data.length + 255) / 256, mseq := s.nextMseq, off := off
    psn := psnOf data
    inline := if short then data.map Prod.fst else [], age := 0, limit := s.fabTmo / 2 }

/-- A message joins those that wait at the port. -/
def State.postMsg (s : State) (part dst off : Nat) (op : NetOp) (data : List (Byte × Bool)) (txn : Option Nat)
    (cmd : Option (Nat × Nat)) : State :=
  { s with nextMseq := (s.nextMseq + 1) % 2 ^ 32, nextOp := s.nextOp + 1
           outMsgs := s.outMsgs ++ [{ id := s.nextOp, head := s.netHead part dst off op data, data := data, part := part, txn := txn, cmd := cmd }] }

/-! ### Peer accesses become messages (R394, R397) -/

/-- The peer, offset, request and bytes of a peer access. -/
def TxnKind.peer : TxnKind → Option (Nat × Nat × NetOp × List (Byte × Bool))
  | .peerLoad p o _ part => some (p, o, .load part.z.bytes, [])
  | .peerWrite p o bytes psn => some (p, o, .store bytes.length, bytes.map fun b => (b, psn))
  | .peerAtom p o op ty v cmp psn part =>
    let n := atomBytes op ty
    some (p, o, .atomic op ty part.isSome,
      (leBytes v.toNat n ++ (if op = .cas then leBytes cmp.toNat n else [])).map fun b => (b, psn))
  | _ => none

/-- The plies whose access a transaction is: its own, and every one that it counts for (09 R241). -/
def Txn.owners (t : Txn) : List (Nat × Nat) := (t.uid, t.ply) :: t.acks ++ t.strands.map fun j => (t.uid, j / 32)

/-- A peer access may leave: the loads before it have returned, and no earlier one of a ply whose access it is to its line is
out. -/
def State.peerReady (s : State) (t : Txn) : Bool :=
  match t.kind.peer with
  | none => false
  | some (p, o, _, _) =>
    s.loadsReturned t.core t.after && !(s.outMsgs.any fun m => m.txn == some t.id) &&
    !(s.txns.vals.any fun u => decide (u.id < t.id) && (u.owners.any fun a => t.owners.contains a) &&
      match u.kind.peer with | some (q, k, _, _) => q == p && k / 128 == o / 128 | none => false)

def State.formAccess (s : State) (t : Txn) : State :=
  match t.kind.peer with
  | some (p, o, op, data) => if s.peerReady t then s.postMsg (s.cable t.uid).part p o op data (some t.id) none else s
  | none => s

/-! ### Commands become messages (R407 to R416) -/

/-- Places of a command's unit are open: their pages translate, their segments are current; or it suspends or waits. While its
cable is being saved a fault posts no record, and the unit stands as not done (16 R383). -/
def State.openFab (s : State) (uid : Nat) (m : Cmd) (l : List (Loc × Nat × Bool)) : State × Option (SMap Phys) :=
  let c := s.cable uid
  match s.reachPages c.ctx m.super (pagesOf l) with
  | (s1, .error t) => (if c.saving.isSome then s1 else s1.suspendCmd uid m fabIssuer (some (fabHalts c m)) t, none)
  | (s1, .ok map) =>
    if s1.padsBusy uid l || l.any fun e => match e.1 with | .pad off => !e.2.2 && c.padInTransit off.toNat e.2.1 | .va _ => false then (s1, none)
    else ((s1.landFor uid .fab l).touchPlaces map l, some map)
where
  /-- The plies that a fault of the command halts: those of its issue scope (16 R369). -/
  fabHalts (c : Cable) (m : Cmd) : List Nat :=
    match m.scope with
    | .strand | .ply => [m.ply]
    | .lay => c.memberPlies .lay (Common.ofWord m.word).lay.toNat m.ply
    | .cable => []

/-- Units of progress in all (Table 18.10): bytes, chunks contributed, or one. -/
def Cmd.fabTotal (m : Cmd) : Nat :=
  match m.fabOp with
  | .put | .get => m.fabLen
  | .add | .min | .max => (m.fabSrcBytes + 4095) / 4096
  | _ => 1

/-- The plies of a command's scope. -/
def Cable.fabPlies (c : Cable) (m : Cmd) : List Nat := c.memberPlies m.scope (Common.ofWord m.word).lay.toNat m.ply

/-- What a `fab.sig` or `fab.bar` waits for (Table 8.3, system scope). -/
def State.fabReleased (s : State) (uid : Nat) (m : Cmd) : Bool :=
  let c := s.cable uid
  let plies := c.fabPlies m
  s.releaseHolds uid plies (plies.flatMap c.livePly) 4

/-- An earlier FAB command of one of the command's plies that names the same module has not completed (R409). -/
def Cable.fabBefore (c : Cable) (m : Cmd) : Bool :=
  c.cmds.any fun k => k.path == .fab && k.state != .done && decide (k.id < m.id) && ((c.fabPlies k).any fun q => (c.fabPlies m).contains q) &&
    match k.fabPeer, m.fabPeer with | some a, some b => peerOf a.1 == peerOf b.1 | _, _ => false

/-- The instance that a command has entered. -/
def State.instanceOf (s : State) (uid cmd : Nat) : Option Collective := s.collectives.find? fun q => q.uid == uid && q.cmd == cmd
def State.updInstance (s : State) (uid cmd : Nat) (f : Collective → Collective) : State :=
  { s with collectives := s.collectives.map fun q => if q.uid = uid ∧ q.cmd = cmd then f q else q }
/-- This module's own contribution. -/
def Collective.mine (q : Collective) : Contribution := q.got.headD { rank := 0, peers := [], kind := 0, ty := .f32, count := 0, elems := [], psn := [] }

/-- The elements of bytes, with the poison of each. -/
def elemsOf (n : Nat) (bytes : List (Byte × Bool)) : List (BitVec 64) × List Bool :=
  let l := (List.range (bytes.length / n)).map fun i => (bytes.drop (n * i)).take n
  (l.map fun b => BitVec.ofNat 64 (leNat (b.map Prod.fst)), l.map fun b => b.any Prod.snd)

/-- Contributes the next chunk of a collective: its elements join the module's contribution, and messages of at most 4 KiB leave for
another rank (R401). -/
def State.contribute (s : State) (uid : Nat) (m : Cmd) : State :=
  match s.instanceOf uid m.id with
  | none => s
  | some q =>
    let send (s : State) (data : List (Byte × Bool)) : State :=
      let s1 := s.updCmd uid m.id fun k => { k with state := .running, progress := m.progress + 1 }
      match (List.range q.mine.peers.length).find? fun r => r != q.mine.rank with
      | some r => (List.range (max 1 ((data.length + 4095) / 4096))).foldl (fun (s : State) i =>
          s.postMsg q.part (q.mine.peers.getD r 0) 0 (.coll q.crew q.seq (m.progress + i)) ((data.drop (4096 * i)).take 4096) none
            (some (uid, m.id))) s1
      | none => s1
    if m.fabOp = .bar then
      let s1 := s.drainPlies uid ((s.cable uid).fabPlies m) 4
      if s1.fabReleased uid m then send s1 [] else s1
    else
      let at_ := 4096 * m.progress
      let n := if m.fabOp = .topk then m.fabSrcBytes else min 4096 (m.fabSrcBytes - at_)
      let l := locOf (pairNat m.a) (at_ : Nat)
      match s.openFab uid m [(l, n, false)] with
      | (s1, none) => s1
      | (s1, some map) =>
        let bytes := s1.readLoc uid map l n
        let (es, ps) := elemsOf (if m.fabOp = .topk then 8 else fabWidth m.fabTy) bytes
        send (s1.updInstance uid m.id fun q => { q with got := q.got.modify 0 fun k =>
          { k with elems := k.elems ++ es, psn := k.psn ++ ps } }) bytes

/-- A command forms its next message, where it has one to form. -/
def State.formCmd (s : State) (uid : Nat) (m : Cmd) : State :=
  let c := s.cable uid
  if m.path != .fab || m.state == .done || m.state == .suspended || m.cancel || m.fail && m.fabOp.collective ||
      m.fabTotal ≤ m.progress || !c.isPlaced || c.saving.isSome || s.outMsgs.any fun o => o.cmd == some (uid, m.id) then s
  else match m.fabPeer with
    | none => s.contribute uid m
    | some (ea0, _) =>
      let ea := ea0 + m.progress
      let n := min 4096 (m.fabLen - m.progress)
      let post (s : State) (op : NetOp) (data : List (Byte × Bool)) : State :=
        (s.updCmd uid m.id fun k => { k with state := .running }).postMsg c.part (peerOf ea) (offOf ea) op data none (some (uid, m.id))
      match m.fabOp with
      | .put =>
        let l := locOf (pairNat m.a) (m.progress : Nat)
        (match s.openFab uid m [(l, n, false)] with
         | (s1, some map) => post s1 (.put n) (s1.readLoc uid map l n)
         | (s1, none) => s1)
      | .get => post s (.get n) []
      | _ =>
        let s1 := s.drainPlies uid (c.fabPlies m) 4
        if s1.fabReleased uid m && !(s1.cable uid).fabBefore m then post s1 .sig ((leBytes m.fabLen 8).map fun b => (b, false)) else s1

/-- Forms the messages of the accesses and commands that are ready. -/
def State.formMsgs (s : State) : State :=
  let s1 := s.txns.vals.foldl (fun (s : State) t => s.formAccess t) s
  s1.cables.foldl (fun (s : State) (e : Nat × Cable) => e.2.cmds.foldl (fun s m => s.formCmd e.1 m) s) s1

/-! ### Records of the fabric port (R396, R403) -/

/-- A record of class R for a peer access; none while its cable is being saved (16 R383). -/
def State.reportTxn (s : State) (t : Txn) (cause detail : Nat) : State :=
  let c := s.cable t.uid
  if c.saving.isSome then s else
  let (s1, n) := s.nextEngSeq fabIssuer
  s1.postFor c { cause := cause, super := c.priv != 0, issuer := fabIssuer, seq := n, part := c.part, ply := t.ply
                 strand := t.strands.headD 0, cid := c.cid, pc := t.pc, addr := t.va, detail := detail, instr := t.word
                 write := match t.kind with | .peerLoad .. => false | _ => true }

/-! ### What completes at the issuer (R396, R397, R403, R408, R409) -/

/-- How the far end answered: with bytes, refused with a DETAIL, or not at all. -/
inductive NetReply where
  | done (data : List (Byte × Bool))
  | refused (detail : Nat)
  | lost
deriving DecidableEq, Repr, Inhabited

/-- Bytes that nothing gave, under poison. -/
def State.noBytes (s : State) (n : Nat) : List (Byte × Bool) := (List.range n).map fun i => (Config.poisonByte s.stepCount i, true)

/-- A peer access completes. -/
def State.peerDone (s : State) (t : Txn) (r : NetReply) : State :=
  let s1 := match r with
    | .refused d => s.reportTxn t 32 d
    | .lost => s.reportTxn t 33 0
    | .done _ => s
  let bytes (n : Nat) : List (Byte × Bool) := match r with
    | .done d => if d.length < n then s.noBytes n else d.take n
    | _ => s.noBytes n
  let s2 := s1.acknowledge t 0
  match t.kind with
  | .peerLoad _ _ _ part => s2.deliverPart t.uid t.id part (bytes part.z.bytes)
  | .peerAtom _ _ op ty v cmp _ (some part) =>
    let old := bytes (atomBytes op ty)
    let fl := match r with
      | .done _ => (atomResult op ty.fmt (leNat (old.map Prod.fst)) v.toNat cmp.toNat).2
      | _ => 0
    (s2.deliverPart t.uid t.id part old).updCable t.uid fun c => (c.raiseFlags t.id fl).awaken
  | _ => s2

/-- A unit of a command completes; a `fab.get` writes its local destination, and stays at the unit while that faults. `sent` says
that the unit's message carried poison, which a `fab.put` writes at the peer (R408). -/
def State.unitDone (s : State) (uid : Nat) (m : Cmd) (sent : Bool) (r : NetReply) : Option State :=
  let n := min 4096 (m.fabLen - m.progress)
  let ea := ((m.fabPeer.map Prod.fst).getD 0) + m.progress
  let failed (s : State) : State := match r with
    | .done _ => s
    | .refused d => (s.reportCmd uid m fabIssuer fun q => { q with cause := 32, addr := ea, detail := d }).updCmd uid m.id
        fun k => { k with fail := true, cause := 32 }
    | .lost => (s.reportCmd uid m fabIssuer fun q => { q with cause := 33, addr := ea }).updCmd uid m.id
        fun k => { k with fail := true, cause := 33 }
  let step (s : State) (k : Nat) (psn : Bool) : State :=
    (failed s).updCmd uid m.id fun q => { q with progress := q.progress + k, psn := q.psn || psn }
  match m.fabOp with
  | .get =>
    let bytes := match r with
      | .done d => if d.length < n then s.noBytes n else d.take n
      | _ => s.noBytes n
    let l := locOf (pairNat m.d) (m.progress : Nat)
    (match s.openFab uid m [(l, n, true)] with
     | (_, none) => none
     | (s1, some map) => some (step ((s1.landCmd uid (((s1.cable uid).cmd? m.id).getD m)).writeLocs uid m.id map [(l, bytes)]) n (bytes.any Prod.snd)))
  | .put => some (step s n (sent && match r with | .done _ => true | _ => false))
  | .sig => some (step s 1 false)
  | _ => some (failed s)

/-- Whether the unit of an answer that arrives during a save stands as not done, to be asked for again (16 R383): one that was not
performed, or whose repetition changes nothing. -/
def NetReply.again (r : NetReply) (op : FabOp) : Bool :=
  match r with | .done _ => false | .refused _ => true | .lost => op != .sig

/-- A message of this module is answered, or declared lost. -/
def State.settleMsg (s : State) (o : OutMsg) (r : NetReply) : State :=
  let drop (s : State) : State := { s with outMsgs := s.outMsgs.filter fun x => x.id != o.id }
  match o.txn.bind s.txns.find?, o.cmd.bind fun e => ((s.cable e.1).cmd? e.2).map fun m => (e.1, m) with
  | some t, _ => (drop s).peerDone t r
  | none, some (uid, m) =>
    if (s.cable uid).saving.isSome && r.again m.fabOp then drop s else
    (match s.unitDone uid m (o.data.any Prod.snd) r with
     | some s1 => drop s1
     | none =>
       -- the unit is asked for again once its destination can be written
       match s.openFab uid m [(locOf (pairNat m.d) (m.progress : Nat), min 4096 (m.fabLen - m.progress), true)] with
       | (s1, _) => drop s1)
  | none, none => drop s

/-- A message of this module that the port has sent. -/
def State.sentMsg (s : State) (mseq : Nat) : Option OutMsg := s.outMsgs.find? fun o => o.head.mseq == mseq && o.sentAt.isSome

/-- TMO µs have passed since a message was sent: it is lost (R403). -/
def State.timedOut (s : State) (o : OutMsg) : Bool :=
  match o.sentAt with | some t => decide (t + s.fabTmo * 3000 ≤ s.cycle) | none => false

/-- An acknowledgement arrives (R396, R397). One for a message that has been given up, or is to be, is discarded (R403). -/
def State.ackMsg (s : State) (mseq : Nat) (refused : Option Nat) (data : List (Byte × Bool)) : State :=
  match s.sentMsg mseq with
  | some o => if s.timedOut o then s else s.settleMsg o (match refused with | some d => .refused d | none => .done data)
  | none => s

def execPeerAck (mseq : Nat) (refused : Option Nat) (data : List Byte) (psn : Bool) (s : State) : Host.Outcome State Fault Refusal :=
  .next (s.ackMsg mseq refused (data.map fun b => (b, psn)))

/-- A message that has not completed within TMO µs of its sending (R403). -/
def execMessageLost (mseq : Nat) (s : State) : Host.Outcome State Fault Refusal :=
  .next (match s.sentMsg mseq with
    | some o => if s.timedOut o then s.settleMsg o .lost else s
    | none => s)

/-! ### Rotor slots (R399, R402, R404) -/

def State.slotNow (s : State) : Nat := s.cycle / slotCycles
/-- The peer that a fibre reaches in a slot. -/
def State.matchedPeer (s : State) (fibre slot : Nat) : Option Nat := s.matching.find? (64 * fibre + slot % 64)
/-- The schedule connects this module to a peer at all. -/
def State.scheduled (s : State) (dst : Nat) : Bool := s.matching.vals.contains dst
/-- A matching of the current slot or the next seven connects this module to a peer. -/
def State.directSoon (s : State) (dst : Nat) : Bool :=
  (List.range 48).any fun f => (List.range 8).any fun k => s.matchedPeer f (s.slotNow + k) == some dst

/-- The relay for a destination: of the modules connected in this slot that advertise a matching to it, the one of lowest
occupancy, then of lowest id. `relays` lists (module, destination, occupancy). -/
def State.relayFor (s : State) (dst : Nat) (relays : List (Nat × Nat × Nat)) : Option Nat :=
  let now := (List.range 48).filterMap fun f => s.matchedPeer f s.slotNow
  let fit := relays.filter fun r => r.2.1 == dst && now.contains r.1
  (fit.foldl (fun (b : Option (Nat × Nat)) r =>
    match b with
    | none => some (r.2.2, r.1)
    | some (o, p) => if r.2.2 < o || (r.2.2 == o && decide (r.1 < p)) then some (r.2.2, r.1) else b) none).map Prod.snd

/-- Whether a message may leave by a fibre in the current slot. -/
def State.leavesBy (s : State) (fibre dst : Nat) (relays : List (Nat × Nat × Nat)) : Bool :=
  match s.matchedPeer fibre s.slotNow with
  | none => false
  | some p => p == dst || (!s.directSoon dst && s.relayFor dst relays == some p)

/-- The flits of a slot on a fibre, and a partition's share of them. -/
def slotFlits : Nat := 4500
def State.shareFlits (s : State) (part : Nat) : Nat := slotFlits * (s.part part).fab / 64

/-- Chooses among (partition, flits) in order: first within each partition's share, then what is left, lent. -/
def State.chooseSlot (s : State) (l : List (Nat × Nat)) : List Bool :=
  let own := l.foldl (fun (b : SMap Nat × Nat × List Bool) e =>
    let used := b.1.getD e.1 0
    if used + e.2 ≤ s.shareFlits e.1 && b.2.1 + e.2 ≤ slotFlits then (b.1.insert e.1 (used + e.2), b.2.1 + e.2, b.2.2 ++ [true])
    else (b.1, b.2.1, b.2.2 ++ [false])) ([], 0, [])
  ((l.zip own.2.2).foldl (fun (b : Nat × List Bool) e =>
    if e.2 then (b.1, b.2 ++ [true])
    else if b.1 + e.1.2 ≤ slotFlits then (b.1 + e.1.2, b.2 ++ [true]) else (b.1, b.2 ++ [false])) (own.2.1, [])).2

/-- The partition bound to a domain (R394). -/
def State.domainPart (s : State) (dom : Nat) : Option Nat :=
  (List.find? (fun (e : Nat × Partition) => e.2.en && e.2.domain == dom) s.parts).map Prod.fst

/-- A relayed message as it leaves: its age with the time held and the crossing (R403). -/
def Relayed.aged (r : Relayed) (cycle : Nat) : Nat := r.head.age + (cycle - r.at_ + 2999) / 3000

/-- The blocks of a slot that carry messages, the first with this number; the slot's other blocks carry none (R400). Blocks are
numbered from clock 0, 450 a slot (DESIGN CHOICE, log 138). -/
def slotBlocks (first : Nat) (flits : List (Bool × List Byte)) : List (List (List Nat)) :=
  let l := tens 450 flits
  ((List.range l.length).zip l).map fun e => fecEncode (blockBytes (first + e.1) e.2)

/-- One slot of a fibre: messages that it connects to their destination, or to their relay, leave in its blocks. -/
def State.serveSlot (s : State) (fibre : Nat) (relays : List (Nat × Nat × Nat)) : State :=
  let s1 := s.formMsgs
  let dead := s1.outMsgs.filter fun o => o.sentAt.isNone && !s1.scheduled o.head.dst && (o.txn.isSome || o.cmd.isSome) &&
    (match o.head.op with | .coll .. => false | _ => true)
  let s2 := dead.foldl (fun s o => s.settleMsg o (.refused 1)) s1
  let old := s2.relayed.filter fun r => decide (r.aged s2.cycle < r.head.limit)
  let fwd := old.filter fun r => s2.matchedPeer fibre s2.slotNow == some r.head.dst
  let own := s2.outMsgs.filter fun o => o.sentAt.isNone && s2.leavesBy fibre o.head.dst relays
  let picks := s2.chooseSlot ((fwd.map fun r => ((s2.domainPart r.head.dom).getD 0, 1 + r.head.ndata)) ++ own.map fun o => (o.part, o.flits))
  let sentFwd := (fwd.zip picks).filterMap fun e => if e.2 then some e.1 else none
  let sentOwn := (own.zip (picks.drop fwd.length)).filterMap fun e => if e.2 then some e.1 else none
  let flits := (sentFwd.flatMap fun r => messageFlits { r.head with age := r.aged s2.cycle, psn := psnOf r.data } (r.data.map Prod.fst)) ++
    sentOwn.flatMap fun o => messageFlits o.head (o.data.map Prod.fst)
  { s2 with
    egress := s2.egress.insert fibre (slotBlocks (450 * s2.slotNow) flits)
    relayed := old.filter fun r => !sentFwd.contains r
    outMsgs := s2.outMsgs.filterMap fun o =>
      if o.sentAt.isNone && sentOwn.any fun q => q.id == o.id then
        (if o.txn.isSome || o.cmd.isSome then some { o with sentAt := some s2.cycle } else none)
      else some o }

/-- A fibre serves each slot once. -/
def execFabricSlot (fibre : Nat) (relays : List (Nat × Nat × Nat)) (s : State) : Host.Outcome State Fault Refusal :=
  .next (if 48 ≤ fibre || !s.ready || decide (s.slotNow < s.fibreSlot.getD fibre 0) then s
    else { s.serveSlot fibre relays with fibreSlot := s.fibreSlot.insert fibre (s.slotNow + 1) })

/-! ### Received blocks (R400 to R403) -/

/-- The relay region has room in a domain's share (R404). -/
def State.relayRoom (s : State) (h : NetHead) : Bool :=
  ((s.relayed.filter fun r => r.head.dom == h.dom).foldl (fun n r => n + 256 * (1 + r.head.ndata)) 0) + 256 * (1 + h.ndata) ≤ 2 ^ 29

/-- The whole of a message has arrived. One for another module has taken a hop to come here: where a relay has sent it already,
this module is no further relay (R402; log 126). -/
def State.arriveMsg (s : State) (h : NetHead) (data : List (Byte × Bool)) : State :=
  if h.dst = s.fabId then
    match h.op with
    | .ack refused => if h.limit ≤ h.age then s else s.ackMsg h.mseq refused data
    | _ => { s with nextOp := s.nextOp + 1, inMsgs := s.inMsgs ++ [{ id := s.nextOp, head := h, data := data, at_ := s.cycle }] }
  else if 1 ≤ h.hops || h.limit ≤ h.age || !s.relayRoom h then s
  else { s with relayed := s.relayed ++ [{ head := { h with hops := h.hops + 1, age := h.age + 1 }, data := data, at_ := s.cycle }] }

/-- Bytes of a message's request where its head flit carries them. -/
def inlineData (h : NetHead) : List (Byte × Bool) := h.inline.map fun b => (b, h.psn.headD false)

/-- One flit: the message that its fibre is receiving grows, or a new one begins. -/
def State.takeFlit (s : State) (fibre : Nat) (bad : Bool) (f : Flit) : State :=
  let finish (s : State) (h : NetHead) (data : List (Byte × Bool)) : State :=
    if h.ndata * 256 ≤ data.length then { s with partial_ := s.partial_.erase fibre }.arriveMsg h data
    else { s with partial_ := s.partial_.insert fibre (h, data) }
  match f with
  | .idle => s
  | .head none => { s with partial_ := s.partial_.erase fibre }
  | .head (some h) => if h.ndata = 0 then { s with partial_ := s.partial_.erase fibre }.arriveMsg h (inlineData h) else finish s h []
  | .data bytes =>
    match s.partial_.find? fibre with
    | none => s
    | some (h, got) =>
      let base := got.length / 16
      finish s h (got ++ (List.range 256).map fun i => (bytes.getD i 0, bad || h.psn.getD (base + i / 16) false))

/-- A block as it is received: the 8 symbols of its header, the 2,048 of its flits and the 30 check symbols of each codeword. A
codeword that cannot be corrected affects every flit (R403). -/
def execFecBlockReceive (fibre : Nat) (header flits check : List Nat) (s : State) : Host.Outcome State Fault Refusal :=
  .next (if 48 ≤ fibre || header.length != 8 || flits.length != 2048 || check.length != 120 then s else
    let (bytes, good) := fecDecode (codewords (header ++ flits) check)
    (blockFlits bytes).foldl (fun s f => s.takeFlit fibre (!good) f) s)

/-! ### The target (R396, R409) -/

/-- The DETAIL with which a range is refused. -/
def State.refusal (s : State) (part off n : Nat) : Option Nat :=
  let pages := (List.range ((off + max n 1 - 1) / 4096 - off / 4096 + 1)).map fun i => (off / 4096 + i) * 4096
  if pages.any fun q => !(nodeOf q == some 0 || nodeOf q == some 1) || s.owner q != part then some 3
  else if pages.any fun q => isReserved q then some 4
  else none

/-- Bytes that a request reaches. -/
def netReach (op : NetOp) : Nat :=
  match op with
  | .load n => n | .store n => n | .atomic o ty _ => atomBytes o ty | .put n => n | .get n => n | .sig => 8
  | _ => 0

/-- Performs a request at the home slices, as from P = 0; what its reply carries, and the updates that it became. -/
def State.performRemote (s : State) (part : Nat) (h : NetHead) (data : List (Byte × Bool)) :
    State × List (Byte × Bool) × List (Nat × Nat) :=
  let raise (s : State) (w : Nat) : State := s.updPart part fun q => { q with ft := max q.ft w }
  let wrote (n : Nat) : State × List (Byte × Bool) × List (Nat × Nat) :=
    let cells := (List.range n).zipWith (fun i b => (h.off + i, b)) (data.take n)
    let (s1, w, us) := s.engineCells part cells fun _ => false
    (raise s1 w, [], us)
  match h.op with
  | .load n | .get n =>
    let r := s.homeRead part h.off n; (r.1, r.2, [])
  | .store n => wrote n
  | .put n => wrote n
  | .atomic op ty ret =>
    let n := atomBytes op ty
    let v := leNat ((data.take n).map Prod.fst)
    let cmp := leNat (((data.drop n).take n).map Prod.fst)
    let (s1, old, _, w, _, u) := s.atomHere part 0 h.off op ty v cmp (data.any Prod.snd) false
    (raise s1 w, if ret then old else [], u.toList)
  | .sig =>
    let (s1, _, _, w, _, u) := s.atomHere part 0 h.off .add .n64 (leNat (data.map Prod.fst)) 0 (data.any Prod.snd) false
    ((raise s1 w).wakeKey part h.off s.waiters.length w, [], u.toList)
  | _ => (s, [], [])

/-- The age of a message that has arrived, with the time since in µs, rounded up: it is performed within LIMIT µs of its
sending, or never (R403; log 123). -/
def InMsg.aged (m : InMsg) (cycle : Nat) : Nat := m.head.age + (cycle - m.at_ + 2999) / 3000

/-- The answer to a message leaves for its sender. -/
def State.answerMsg (s : State) (m : InMsg) (part : Nat) (refused : Option Nat) (data : List (Byte × Bool)) : State :=
  let head := { s.netHead part m.head.src 0 (.ack refused) data with mseq := m.head.mseq, dom := m.head.dom }
  { s with nextOp := s.nextOp + 1, inMsgs := s.inMsgs.filter fun x => x.id != m.id
           outMsgs := s.outMsgs ++ [{ id := s.nextOp, head := head, data := data, part := part }] }

/-- A message of another module is performed here, unless it has grown too old (R403); its acknowledgement leaves once every
subscriber has applied the updates that it became (07 R208). Before firmware has put the module in service no partition is bound
to its domain (R396; log 124). -/
def execPeerAccessTarget (msg : Nat) (s : State) : Host.Outcome State Fault Refusal :=
  .next (match s.inMsgs.find? fun m => m.id == msg with
    | none => s
    | some m =>
      let h := m.head
      match m.performed with
      | some (part, data, us) => if us.all fun u => s.applied (some u) then s.answerMsg m part none data else s
      | none =>
        if h.limit ≤ m.aged s.cycle then { s with inMsgs := s.inMsgs.filter fun x => x.id != msg }
        else match (if s.ready then s.domainPart h.dom else none) with
        | none => s.answerMsg m 0 (some 2) []
        | some part =>
          match (match h.op with | .coll .. => none | _ => s.refusal part h.off (netReach h.op)) with
          | some d => s.answerMsg m part (some d) []
          | none =>
            let (s1, data, us) := s.performRemote part h m.data
            if us.isEmpty then s1.answerMsg m part none data
            else { s1 with inMsgs := s1.inMsgs.map fun x => if x.id = m.id then { x with performed := some (part, data, us) } else x })

/-! ### FAB_COMPLETE (R408, R411, R412, R415) -/

/-- The token (Table 18.8). -/
def Cmd.fabToken (m : Cmd) : W32 :=
  let fail := m.fail || m.cancel
  BitVec.ofNat 32 (bit1 fail 31 + bit1 m.psn 30 + m.flags.toNat * 2 ^ 16 + (if fail && !m.cancel then m.cause else 0))

/-- A command completes: its records are posted, its writes applied; a barrier ends as an acquire of system scope. -/
def State.closeFab (s : State) (uid cmd : Nat) : State :=
  match (s.cable uid).cmd? cmd with
  | none => s
  | some m =>
    let c := s.cable uid
    if !m.held.isEmpty then s.landCmd uid m
    else if s.recordsWait c fabIssuer || !s.updatesApplied m then s
    else
      let s1 := if m.fabOp = .bar && !m.fail && !m.cancel then s.raiseP c.coreD (s.part c.part).ft else s
      { s1 with collectives := s1.collectives.filter fun q => !(q.uid == uid && q.cmd == cmd)
                outMsgs := s1.outMsgs.filter fun o => o.cmd != some (uid, cmd) }.finishCmd uid m m.fabToken

/-- The other ranks' contributions complete an instance, each rank's once and none of them short. -/
def Collective.completeWith (q : Collective) (l : List Contribution) : Bool :=
  let all := q.mine :: l
  let n := q.mine.peers.length
  all.length == n && (byRank all).length == n &&
  l.all fun k => k.psn.length == k.elems.length && (k.kind != q.mine.kind || k.count != q.mine.count || k.elems.length == q.mine.elems.length)

/-- The commands of an instance differ (R412). -/
def Collective.differs (q : Collective) (l : List Contribution) : Bool :=
  l.any fun k => k.peers != q.mine.peers || k.kind != q.mine.kind || k.ty != q.mine.ty || k.count != q.mine.count

/-- The next chunk of a collective's result is written; once the last is, the command completes. -/
def State.writeResult (s : State) (uid : Nat) (m : Cmd) (bytes : List (Byte × Bool)) (fl : Flags) : State :=
  let n := if m.fabOp = .topk then bytes.length else 4096
  let at_ := n * m.progress2
  let part := (bytes.drop at_).take n
  let last := decide (bytes.length ≤ at_ + part.length)
  let l := locOf (pairNat m.d) (at_ : Nat)
  if part.isEmpty then s.closeFab uid m.id
  else match s.openFab uid m [(l, part.length, true)] with
    | (s1, none) => s1
    | (s1, some map) =>
      let s2 := ((s1.landCmd uid m).writeLocs uid m.id map [(l, part)]).updCmd uid m.id fun k =>
        { k with progress2 := k.progress2 + 1, psn := k.psn || part.any Prod.snd, flags := fl }
      if last then s2.closeFab uid m.id else s2

/-- A collective whose ranks have all contributed. -/
def State.finishCollective (s : State) (uid : Nat) (m : Cmd) (q : Collective) (l : List Contribution) : State :=
  if q.differs l then
    let s1 := if m.fail then s else s.reportCmd uid m fabIssuer fun r => { r with cause := 34 }
    (s1.updCmd uid m.id fun k => { k with fail := true, cause := 34 }).closeFab uid m.id
  else
    let all := byRank (q.mine :: l)
    match m.fabOp with
    | .bar => s.closeFab uid m.id
    | .topk => s.writeResult uid m (spliceBytes (m.crewCount + 1) all) 0
    | op =>
      let r := reduceAll op m.fabTy m.crewCount all
      s.writeResult uid m (reduceBytes m.fabTy r) (r.foldl (fun f e => f ||| e.2.1) 0)

/-- A command whose parts are done completes; one of a collective once this rank's messages have left and every rank has contributed
(R415, R416). -/
def execFabComplete (uid cmd : Nat) (contribs : List Contribution) (s : State) : Host.Outcome State Fault Refusal :=
  .next (match s.engineTurn uid cmd .fab with
    | none => s
    | some (_, m) =>
      if m.state = .done || m.state = .suspended then s
      else if m.cancel || (m.fail && m.fabOp.collective) then
        (if s.outMsgs.any fun o => o.cmd == some (uid, cmd) && o.sentAt.isSome then s else s.closeFab uid cmd)
      else if !m.fabOp.collective then (if m.fabTotal ≤ m.progress then s.closeFab uid cmd else s)
      else match s.instanceOf uid cmd with
        | none => s
        | some q =>
          if m.progress < m.fabTotal then (if q.mine.peers.length = 1 then s.contribute uid m else s)
          else if s.outMsgs.any fun o => o.cmd == some (uid, cmd) && o.sentAt.isNone then s
          else
            let l := match q.got with | _ :: rest => if rest.isEmpty then contribs else rest | [] => contribs
            if !q.completeWith l then s
            else (s.updInstance uid cmd fun q => { q with got := q.got.take 1 ++ l }).finishCollective uid m q l)

end Sys2Proof.Machine
end

