-- ==== Sys2Proof/Machine/Transcendental.lean ====
section
/-! DEFINITION. The correctly rounded functions of 04 R106. Each is enclosed between two rationals in fixed point with
`P` fraction bits; once both lie between the same neighbouring multiples of 2^−200, the middle of that interval
rounds as the exact value does, because no rounding of these results turns on a finer point (log 7). -/
namespace Sys2Proof

/-- An enclosure of a non-negative value, in units of 2^−P. -/
structure Enc where
  lo : Nat
  hi : Nat
deriving DecidableEq, Repr, Inhabited

/-- The fraction bits at which roundings are decided. -/
def encGrid : Nat := 200

def Enc.mul (P : Nat) (a b : Enc) : Enc := ⟨a.lo * b.lo / 2 ^ P, a.hi * b.hi / 2 ^ P + 1⟩
def Enc.divNat (a : Enc) (n : Nat) : Enc := ⟨a.lo / n, a.hi / n + 1⟩
def Enc.add (a b : Enc) : Enc := ⟨a.lo + b.lo, a.hi + b.hi⟩
/-- a − b, known to be non-negative. -/
def Enc.sub (a b : Enc) : Enc := ⟨a.lo - b.hi, a.hi - b.lo⟩
def Enc.ofRat (P num den : Nat) : Enc := ⟨num * 2 ^ P / den, num * 2 ^ P / den + 1⟩

/-- The middle of the grid interval that holds both ends; none while they straddle a grid point. -/
def Enc.settle (P : Nat) (a : Enc) : Option (Nat × Nat) :=
  let s := 2 ^ (P - encGrid)
  if a.lo / s = a.hi / s then some (2 * (a.lo / s) + 1, 2 ^ (encGrid + 1)) else none

/-- Σ xᵏ/k! from term k on, `n` terms, for x ≤ 1. -/
def expTail (P : Nat) (x : Enc) : Nat → Nat → Enc → Enc → Enc
  | 0, _, _, acc => ⟨acc.lo, acc.hi + 2⟩
  | n + 1, k, t, acc =>
    let t' := (t.mul P x).divNat k
    expTail P x n (k + 1) t' (acc.add t')
/-- eˣ for 0 ≤ x ≤ 1. -/
def expEnc (P : Nat) (x : Enc) : Enc :=
  let one : Enc := ⟨2 ^ P, 2 ^ P⟩
  expTail P x (P / 3 + 20) 1 one one

/-- Σ 1/((2k+1) n^(2k+1)), `terms` terms, alternating when `alt`; each term is cut below by less than one unit. -/
def invSeries (P n : Nat) (alt : Bool) : Nat → Nat → Nat → Int → Int
  | 0, _, _, acc => acc
  | j + 1, k, pw, acc =>
    let t : Int := (2 ^ P / (pw * (2 * k + 1)) : Nat)
    invSeries P n alt j (k + 1) (pw * n * n) (if alt && k % 2 == 1 then acc - t else acc + t)

/-- An enclosure of `c` × the series above. -/
def invEnc (P n c : Nat) (alt : Bool) : Enc :=
  let terms := P / 2 + 4
  let v := (invSeries P n alt terms 0 n 0).toNat
  ⟨c * (v - terms - 1), c * (v + terms + 1)⟩

/-- ln 2 = 2 artanh(1/3). -/
def ln2Enc (P : Nat) : Enc := invEnc P 3 2 false
/-- π = 16 arctan(1/5) − 4 arctan(1/239). -/
def piEnc (P : Nat) : Enc := (invEnc P 5 16 true).sub (invEnc P 239 4 true)

/-- Σ z^(2k+1)/(2k+1) for z ≤ 1/3. -/
def artanhTail (P : Nat) (z2 : Enc) : Nat → Nat → Enc → Enc → Enc
  | 0, _, _, acc => ⟨acc.lo, acc.hi + 2⟩
  | n + 1, k, pw, acc => artanhTail P z2 n (k + 2) (pw.mul P z2) (acc.add (pw.divNat k))
/-- ln(num/den) for 1 ≤ num/den < 2. -/
def lnEnc (P num den : Nat) : Enc :=
  let z := Enc.ofRat P (num - den) (num + den)
  let s := artanhTail P (z.mul P z) (P / 3 + 4) 1 z ⟨0, 0⟩
  ⟨2 * s.lo, 2 * s.hi⟩

/-- Alternating Σ ±x^k/k! over k of one parity from `k`, starting with the term `t` of sign + (`pos`). -/
def trigTail (P : Nat) (x2 : Enc) : Nat → Nat → Bool → Enc → Enc → Enc
  | 0, _, _, _, acc => ⟨acc.lo - 2, acc.hi + 2⟩
  | n + 1, k, pos, t, acc =>
    let t' := (t.mul P x2).divNat ((k + 1) * (k + 2))
    trigTail P x2 n (k + 2) (!pos) t' (if pos then acc.add t' else acc.sub t')
def sinEnc (P : Nat) (x : Enc) : Enc := trigTail P (x.mul P x) (P / 6 + 12) 1 false x x
def cosEnc (P : Nat) (x : Enc) : Enc :=
  let one : Enc := ⟨2 ^ P, 2 ^ P⟩
  trigTail P (x.mul P x) (P / 6 + 12) 0 false one one

/-- An enclosure with its sign. -/
abbrev SEnc := Bool × Enc

/-- (sin, cos) of num/den > 0 at precision P; none while the reduced argument straddles zero. -/
def trigAt (P num den : Nat) : Option (SEnc × SEnc) :=
  let extra := (floorLog2 num den).toNat + 8
  let Q := P + extra
  let pi2 : Enc := let p := piEnc (Q + 1); ⟨p.lo / 4, p.hi / 4 + 1⟩
  let a := num * 2 ^ Q / den
  let k := (a + pi2.lo / 2) / pi2.lo
  let rlo : Int := (a : Int) - k * pi2.hi
  let rhi : Int := (a : Int) + 1 - k * pi2.lo
  let cut (e : Enc) : Enc := ⟨e.lo / 2 ^ extra, e.hi / 2 ^ extra + 1⟩
  let r? : Option SEnc :=
    if 0 < rlo then some (false, cut ⟨rlo.toNat, rhi.toNat⟩)
    else if rhi < 0 then some (true, cut ⟨(-rhi).toNat, (-rlo).toNat⟩)
    else none
  r?.map fun (s, r) =>
    let sn := sinEnc P r
    let cs := cosEnc P r
    match k % 4 with
    | 0 => ((s, sn), (false, cs))
    | 1 => ((false, cs), (!s, sn))
    | 2 => ((!s, sn), (true, cs))
    | _ => ((true, cs), (s, sn))

/-- e^y repeatedly squared `n` times. -/
def squareTimes (P : Nat) : Nat → Enc → Enc
  | 0, e => e
  | n + 1, e => squareTimes P n (e.mul P e)

/-- tanh(num/den) for 2^−60 ≤ num/den < 64. -/
def tanhAt (P num den : Nat) : Enc :=
  let E := squareTimes P 8 (expEnc P (Enc.ofRat P (2 * num) (den * 256)))
  let one := 2 ^ P
  ⟨(E.lo - one) * one / (E.lo + one), (E.hi - one) * one / (E.hi + one) + 1⟩

/-- 2^f for 0 < f < 1. -/
def exp2At (P num den : Nat) : Enc := expEnc P ((ln2Enc P).mul P (Enc.ofRat P num den))

/-- log₂(num/den) − e for 1 < num/den < 2. -/
def log2At (P num den : Nat) : Enc :=
  let l := lnEnc P num den
  let d := ln2Enc P
  ⟨l.lo * 2 ^ P / d.hi, l.hi * 2 ^ P / d.lo + 1⟩

/-- Precisions at which a result is tried, from 320 bits on in steps of 64. -/
def fnTries : Nat := 4096

/-- A rational that rounds as the value does which `f` encloses at every precision: `n` precisions are tried, from `P` on in
steps of 64, until one settles, and the next one's middle is taken where none has. -/
def settleFrom (f : Nat → Option SEnc) : Nat → Nat → XVal
  | 0, P => match f P with
    | some (s, e) => .fin s (e.lo + e.hi) (2 ^ (P + 1))
    | none => .fin false 1 (2 ^ P)
  | n + 1, P => match (f P).bind fun x => (x.2.settle P).map fun (m, d) => XVal.fin x.1 m d with
    | some v => v
    | none => settleFrom f n (P + 64)

/-- The functions of R106. -/
inductive Fn where | exp2 | log2 | tanh | sin | cos
deriving DecidableEq, Repr, Inhabited

/-- num/den × (1 − 2^−110): a value just below, with nothing to round on between. -/
def justBelow (neg : Bool) (num den : Nat) : XVal := .fin neg (num * (2 ^ 110 - 1)) (den * 2 ^ 110)
/-- Just above 1. -/
def justAboveOne : XVal := .fin false (2 ^ 110 + 1) (2 ^ 110)

/-- |num/den| < 2^−60: the leading term decides. -/
def tiny (num den : Nat) : Bool := num * 2 ^ 60 < den

/-- A rational that rounds as the exact value at ±num/den does. -/
def Fn.surrogate (g : Fn) (neg : Bool) (num den : Nat) : XVal :=
  match g with
  | .exp2 =>
    if num % den = 0 then
      XVal.ofDyadic false 1 (let k : Int := (min (num / den) 20000 : Nat); if neg then -k else k)
    else if tiny num (den / 2 ^ 50) then (if neg then justBelow false 1 1 else justAboveOne)
    else if 2 ^ 14 * den < num then XVal.ofDyadic false 1 (if neg then -20000 else 20000)
    else
      let n : Int := if neg then -((num / den : Nat) : Int) - 1 else (num / den : Nat)
      let f := if neg then den - num % den else num % den
      (settleFrom (fun P => some (false, exp2At P f den)) fnTries 320).scale n
  | .log2 =>
    let e := floorLog2 num den
    let (m, d) := scale2 num den (-e)
    if m = d then XVal.ofInt e
    else settleFrom (fun P =>
      let l := log2At P m d
      if 0 ≤ e then
        let k := e.toNat * 2 ^ P
        some (false, ⟨k + l.lo, k + l.hi⟩)
      else
        let k := (-e).toNat * 2 ^ P
        some (true, ⟨k - l.hi, k - l.lo⟩)) fnTries 320
  | .tanh =>
    if tiny num den then justBelow neg num den
    else if 64 * den ≤ num then justBelow neg 1 1
    else settleFrom (fun P => some (neg, tanhAt P num den)) fnTries 320
  | .sin =>
    if tiny num den then justBelow neg num den
    else settleFrom (fun P => (trigAt P num den).map fun x => (x.1.1 ^^ neg, x.1.2)) fnTries 320
  | .cos =>
    if tiny num den then justBelow false 1 1
    else settleFrom (fun P => (trigAt P num den).map fun x => x.2) fnTries 320

/-- A value that rounds as the exact result of R106 does. Special values: Table 4.6. -/
def Fn.exact (g : Fn) (a : XVal) : XVal × Flags :=
  match a with
  | .nan => (.nan, 0)
  | .zero s =>
    match g with
    | .exp2 | .cos => (XVal.ofInt 1, 0)
    | .log2 => (.inf true, Flags.dz)
    | .tanh | .sin => (.zero s, 0)
  | .inf s =>
    match g with
    | .exp2 => (if s then .zero false else .inf false, 0)
    | .log2 => if s then (.nan, Flags.nv) else (.inf false, 0)
    | .tanh => ((XVal.ofInt 1).withSign s, 0)
    | .sin | .cos => (.nan, Flags.nv)
  | .fin s n d =>
    match g with
    | .log2 => if s then (.nan, Flags.nv) else (g.surrogate false n d, 0)
    | .exp2 => (g.surrogate s n d, 0)
    | .tanh => (g.surrogate s n d, 0)
    | .sin => (g.surrogate s n d, 0)
    | .cos => (g.surrogate false n d, 0)

end Sys2Proof
end

