-- ==== Sys2Proof/Machine/Float.lean ====
section
/-! DEFINITION. Floating-point arithmetic, the correctly rounded functions, and conversions (04 R104 to R107). -/
namespace Sys2Proof.Machine

/-- A floating result from its exact value and the flags its operation raised (R90). -/
def floatVal (F : Fmt) (x : XVal × Flags) (mode : RMode) (clamp : BitVec 2) (scale : Int) : Val :=
  let (pat, fl) := finishFloat F x.1 mode clamp scale
  { val := (OTy.float F).extend pat, flags := x.2 ||| fl }

/-- `op.t dst, a, b`. -/
def floatTwo (t : FloatTy) (rm : BitVec 3) (f : FmtA) (g : XVal → XVal → XVal × Flags) : Row :=
  valueRow [f.useA t.oty, f.useB t.oty] (f.dest t.oty) true fun l =>
    floatVal t.fmt (g (t.fmt.decode (src1 l)) (t.fmt.decode (src2 l))) (RMode.ofCode rm 0) f.clamp (scaleOf f.scale)
/-- `op.t dst, a`. -/
def floatOne (t : FloatTy) (rm : BitVec 3) (f : FmtA) (g : XVal → XVal × Flags) : Row :=
  valueRow [f.useA t.oty] (f.dest t.oty) true fun l =>
    floatVal t.fmt (g (t.fmt.decode (src1 l))) (RMode.ofCode rm 0) f.clamp (scaleOf f.scale)
/-- `op.t dst, a, b, c`: (±a) × b ± c rounded once (R105). -/
def fmaRow (t : FloatTy) (rm : BitVec 3) (f : FmtB) (negP negC : Bool) : Row :=
  valueRow [f.useA t.oty, f.useB t.oty, f.useC t.oty] (f.dest t.oty) true fun l =>
    let a := t.fmt.decode (src1 l)
    let c := t.fmt.decode (src3 l)
    floatVal t.fmt (XVal.fma (if negP then a.neg else a) (t.fmt.decode (src2 l)) (if negC then c.neg else c) (decide (rm = 3)))
      (RMode.ofCode rm 0) 0 0

def execAddFloat (t : FloatTy) (rm : BitVec 3) (f : FmtA) (s : State) : Host.Outcome State Fault Refusal :=
  s.perform (.addFloat t rm f) f.c (floatTwo t rm f fun a b => a.add b (decide (rm = 3)))
def execSubFloat (t : FloatTy) (rm : BitVec 3) (f : FmtA) (s : State) : Host.Outcome State Fault Refusal :=
  s.perform (.subFloat t rm f) f.c (floatTwo t rm f fun a b => a.add b.neg (decide (rm = 3)))
def execMulFloat (t : FloatTy) (rm : BitVec 3) (f : FmtA) (s : State) : Host.Outcome State Fault Refusal :=
  s.perform (.mulFloat t rm f) f.c (floatTwo t rm f fun a b => a.mul b)
def execDivFloat (t : FloatTy) (rm : BitVec 3) (f : FmtA) (s : State) : Host.Outcome State Fault Refusal :=
  s.perform (.divFloat t rm f) f.c (floatTwo t rm f fun a b => a.div b)
def execSqrt (t : FloatTy) (rm : BitVec 3) (f : FmtA) (s : State) : Host.Outcome State Fault Refusal :=
  s.perform (.sqrt t rm f) f.c (floatOne t rm f fun a => a.sqrt t.fmt)
def execMinFloat (t : FloatTy) (rm : BitVec 3) (f : FmtA) (s : State) : Host.Outcome State Fault Refusal :=
  s.perform (.minFloat t rm f) f.c (floatTwo t rm f fun a b => (a.least b, 0))
def execMaxFloat (t : FloatTy) (rm : BitVec 3) (f : FmtA) (s : State) : Host.Outcome State Fault Refusal :=
  s.perform (.maxFloat t rm f) f.c (floatTwo t rm f fun a b => (a.greatest b, 0))
def execRint (t : FloatTy) (rm : BitVec 3) (f : FmtA) (s : State) : Host.Outcome State Fault Refusal :=
  s.perform (.rint t rm f) f.c (floatOne t rm f fun a => a.rint (RMode.ofCode rm 0))
def execFma (t : FloatTy) (rm : BitVec 3) (f : FmtB) (s : State) : Host.Outcome State Fault Refusal :=
  s.perform (.fma t rm f) f.c (fmaRow t rm f false false)
def execFms (t : FloatTy) (rm : BitVec 3) (f : FmtB) (s : State) : Host.Outcome State Fault Refusal :=
  s.perform (.fms t rm f) f.c (fmaRow t rm f false true)
def execFnma (t : FloatTy) (rm : BitVec 3) (f : FmtB) (s : State) : Host.Outcome State Fault Refusal :=
  s.perform (.fnma t rm f) f.c (fmaRow t rm f true false)
def execFnms (t : FloatTy) (rm : BitVec 3) (f : FmtB) (s : State) : Host.Outcome State Fault Refusal :=
  s.perform (.fnms t rm f) f.c (fmaRow t rm f true true)

/-- A function of R106 at an argument. -/
def fnRow (g : Fn) (t : FloatTy) (rm : BitVec 3) (f : FmtA) : Row :=
  valueRow [f.useA t.oty] (f.dest t.oty) true fun l =>
    floatVal t.fmt (g.exact (t.fmt.decode (src1 l))) (RMode.ofCode rm 0) f.clamp (scaleOf f.scale)

def execRsqrt (t : FloatTy) (rm : BitVec 3) (f : FmtA) (s : State) : Host.Outcome State Fault Refusal :=
  s.perform (.rsqrt t rm f) f.c (floatOne t rm f fun a => a.rsqrt t.fmt)
def execExp2 (t : FloatTy) (rm : BitVec 3) (f : FmtA) (s : State) : Host.Outcome State Fault Refusal :=
  s.perform (.exp2 t rm f) f.c (fnRow .exp2 t rm f)
def execLog2 (t : FloatTy) (rm : BitVec 3) (f : FmtA) (s : State) : Host.Outcome State Fault Refusal :=
  s.perform (.log2 t rm f) f.c (fnRow .log2 t rm f)
def execTanh (t : FloatTy) (rm : BitVec 3) (f : FmtA) (s : State) : Host.Outcome State Fault Refusal :=
  s.perform (.tanh t rm f) f.c (fnRow .tanh t rm f)
def execSin (t : FloatTy) (rm : BitVec 3) (f : FmtA) (s : State) : Host.Outcome State Fault Refusal :=
  s.perform (.sin t rm f) f.c (fnRow .sin t rm f)
def execCos (t : FloatTy) (rm : BitVec 3) (f : FmtA) (s : State) : Host.Outcome State Fault Refusal :=
  s.perform (.cos t rm f) f.c (fnRow .cos t rm f)

/-! ### Conversions (R107) -/

/-- The exact value after the clamps of an integer destination. -/
def clampExact (clamp : BitVec 2) (x : XVal) : XVal :=
  let low := XVal.ofInt (if clamp = 1 then 0 else -1)
  let one := XVal.ofInt 1
  if clamp = 1 ∨ clamp = 2 then
    (if x.isNaN then x else if x.ltNum low then low else if one.ltNum x then one else x)
  else x

/-- A conversion of an exact value to a destination type. -/
def convert (d : OTy) (x : XVal) (mode : RMode) (clamp : BitVec 2) (scale : Int) : Nat × Flags :=
  match d with
  | .float F => finishFloat F x mode clamp scale
  | .int T =>
    let (y, fl) := T.round (clampExact clamp (x.scale scale)) mode (decide (clamp = 3))
    (T.wrap y, fl)
  | .raw _ => (0, 0)

def execCvt (d : CvtTy) (rm : BitVec 3) (f : FmtA) (s : State) : Host.Outcome State Fault Refusal :=
  let src := ((CvtTy.ofCode (maskField f.sb)).getD .i8).oty
  let u := f.useA src
  let dst := f.dest d.oty
  s.perform (.cvt d rm f) f.c
    { srcs := [u], dst := some dst
      act := fun s x => s.compute x dst fun j =>
        let next := s.nextDraw x.e j
        let r := convert d.oty (src.decode (s.src x j u)) (RMode.ofCode rm (srDraw next)) f.clamp (scaleOf f.scale)
        { val := d.oty.extend r.1, flags := r.2, sr := if rm = 4 then some next else none } }

end Sys2Proof.Machine
end

