-- ==== Sys2Proof/Machine/Integer.lean ====
section
/-! DEFINITION. Integer arithmetic (04 R95 to R97). -/
namespace Sys2Proof.Machine

/-- An integer result as its register holds it. -/
def intVal (T : IntFmt) (r : Nat × Flags) : Val := { val := (OTy.int T).extend r.1, flags := r.2 }

/-- A row `op.t dst, a, b` whose exact result is `g a b` (R95), treated under 01 R29. -/
def intRow (t : IntTy) (b : OTy) (f : FmtA) (g : Int → Int → Int) : Row :=
  valueRow [f.useA t.oty, f.useB b] (f.dest t.oty) (scaleOk f.clamp f.scale t.oty) fun l =>
    let y := match b with | .int T => T.decode (src2 l) | _ => src2 l
    intVal t.fmt (finishInt t.fmt (g (t.fmt.decode (src1 l)) y) f.clamp (scaleOf f.scale))

/-- The shift count is one 32-bit register read as `n32`. -/
def countTy : OTy := IntTy.n32.oty

/-- a / b toward zero; the result for a zero divisor is −1, or 2^w − 1 where unsigned. -/
def divExact (t : IntTy) (a b : Int) : Int :=
  if b = 0 then (if t.fmt.signed then -1 else t.fmt.max)
  else if decide (a < 0) == decide (b < 0) then (a.natAbs / b.natAbs : Nat) else -((a.natAbs / b.natAbs : Nat) : Int)
/-- a − b × (a / b toward zero); a for a zero divisor. -/
def remExact (a b : Int) : Int :=
  if b = 0 then a else if a < 0 then -((a.natAbs % b.natAbs : Nat) : Int) else (a.natAbs % b.natAbs : Nat)
/-- A shift count beyond 256 acts as 256: the result is the same at every width, scale and clamp. -/
def shiftCount (b : Int) : Nat := min b.toNat 256

def execAddInt (t : IntTy) (f : FmtA) (s : State) : Host.Outcome State Fault Refusal :=
  s.perform (.addInt t f) f.c (intRow t t.oty f fun a b => a + b)
def execSubInt (t : IntTy) (f : FmtA) (s : State) : Host.Outcome State Fault Refusal :=
  s.perform (.subInt t f) f.c (intRow t t.oty f fun a b => a - b)
def execMulInt (t : IntTy) (f : FmtA) (s : State) : Host.Outcome State Fault Refusal :=
  s.perform (.mulInt t f) f.c (intRow t t.oty f fun a b => a * b)
/-- The high half of the product. -/
def execMulhi (t : IntTy) (f : FmtA) (s : State) : Host.Outcome State Fault Refusal :=
  s.perform (.mulhi t f) f.c (intRow t t.oty f fun a b => (a * b) / (2 ^ t.fmt.w : Nat))
def execMinInt (t : IntTy) (f : FmtA) (s : State) : Host.Outcome State Fault Refusal :=
  s.perform (.minInt t f) f.c (intRow t t.oty f fun a b => if a ≤ b then a else b)
def execMaxInt (t : IntTy) (f : FmtA) (s : State) : Host.Outcome State Fault Refusal :=
  s.perform (.maxInt t f) f.c (intRow t t.oty f fun a b => if b ≤ a then a else b)
def execDivInt (t : IntTy) (f : FmtA) (s : State) : Host.Outcome State Fault Refusal :=
  s.perform (.divInt t f) f.c (intRow t t.oty f (divExact t))
def execRem (t : IntTy) (f : FmtA) (s : State) : Host.Outcome State Fault Refusal :=
  s.perform (.rem t f) f.c (intRow t t.oty f remExact)
def execShl (t : IntTy) (f : FmtA) (s : State) : Host.Outcome State Fault Refusal :=
  s.perform (.shl t f) f.c (intRow t countTy f fun a b => a * (2 ^ shiftCount b : Nat))
/-- Arithmetic for signed types, logical for unsigned ones. -/
def execShr (t : IntTy) (f : FmtA) (s : State) : Host.Outcome State Fault Refusal :=
  s.perform (.shr t f) f.c (intRow t countTy f fun a b => a / (2 ^ shiftCount b : Nat))

/-- R96: a × b + c modulo 2^w. -/
def execMad (t : IntTy) (f : FmtB) (s : State) : Host.Outcome State Fault Refusal :=
  s.perform (.mad t f) f.c (valueRow [f.useA t.oty, f.useB t.oty, f.useC t.oty] (f.dest t.oty) true fun l =>
    let d := t.fmt.decode
    intVal t.fmt (t.fmt.wrap (d (src1 l) * d (src2 l) + d (src3 l)), 0))

/-- R97: a + SignExtend(IMM) modulo the width. -/
def addiRow (wide : Bool) (f : FmtI) : Row :=
  let T : IntFmt := ⟨if wide then 64 else 32, true⟩
  valueRow [f.useA (.int T)] (f.dest (.int T)) true fun l => intVal T (T.wrap (T.decode (src1 l) + f.imm.toInt), 0)

def execAddiI32 (f : FmtI) (s : State) : Host.Outcome State Fault Refusal := s.perform (.addiI32 f) f.c (addiRow false f)
def execAddiI64 (f : FmtI) (s : State) : Host.Outcome State Fault Refusal := s.perform (.addiI64 f) f.c (addiRow true f)

end Sys2Proof.Machine
end

