-- ==== Sys2Proof/Machine/LookupArray.lean ====
section
/-! DEFINITION. The lookup array (12, 13): its instructions, its units, its completion. -/
namespace Sys2Proof.Machine

/-! ### Instructions -/

/-- The array of a core holds 32 commands (R293). -/
def laLimit : Nat := 32

def laRow (i : Instr) (f : FmtE) (uses : List (Use × Nat)) : Row := engineRow .la laLimit i f uses laCheck

/-- The commands of a cable that carry bytes of registers (16 R381). -/
def Cable.buildsInFlight (c : Cable) : Nat := (c.cmds.filter fun m => m.srcReg.isSome && m.state != .done).length

/-- Issues a build: one from registers waits for them, brings spilled ones back, and takes their bytes along (R297, R318). -/
def State.issueBuild (s : State) (x : Issue) (f : FmtE) (m : Cmd) : Attempt :=
  let t := m.buildTag
  if t.kind = 1 then s.issueAll x f .la laLimit [m]
  else
    let lanes := (List.range t.m).map (32 * t.ply + ·)
    let names := (List.range t.vcnt).map (t.vlo + ·)
    let c := s.cable x.e.uid
    let want := lanes.flatMap fun j => (names.filter fun n => (c.strand j).spilled.contains n).map fun n => (j, n)
    if c.board.any fun b => match b.1 with | .v j n => lanes.contains j && names.contains n | _ => false then .stall s
    else if 8 ≤ c.buildsInFlight then .stall s
    else if Config.physRegs < s.poolUse c.coreD + want.length then
      .stall (s.awaitRegs x.e (distinct (want.map Prod.fst)) names)
    else match s.unspill x.e.uid x.lead want with
      | .error a => a
      | .ok s1 =>
        let c1 := s1.cable x.e.uid
        let bytes := lanes.flatMap fun j => names.flatMap fun n =>
          let r := (c1.strand j).v.getD n {}
          (leBytes r.val.toNat 4).map fun b => (b, r.psn)
        match s1.issueAll x f .la laLimit [{ m with build := bytes, srcReg := some (t.ply, t.vlo, t.vcnt) }] with
        | .done s2 goto => .done s2 goto
        | .park _ => .park s
        | _ => .stall s

/-- `tbld`: one command. -/
def buildRow (i : Instr) (f : FmtE) (uses : List (Use × Nat)) : Row :=
  { laRow i f uses with
    act := fun s x =>
      let regs (k : Nat) : List PReg := match uses[k]? with | some u => s.regsOf x u.1 x.lead u.2 | none => []
      let m := s.newCmd x f i .la x.lead (regs 0) (regs 1) (regs 2)
      match laCheck s (s.cable x.e.uid) m with
      | some t => .fault { t with strand := some x.lead }
      | none => s.issueBuild x f m }

def execTbldT4 (x : WFmt) (a : AFmt) (f : FmtE) (s : State) : Host.Outcome State Fault Refusal :=
  s.perform (.tbldT4 x a f) f.c (buildRow (.tbldT4 x a f) f [scalarD f, laPairA f])
def execTbldG4 (a : Fmt8) (f : FmtE) (s : State) : Host.Outcome State Fault Refusal :=
  s.perform (.tbldG4 a f) f.c (buildRow (.tbldG4 a f) f [scalarD f, laPairA f, scalarB f])
def execTbinv (f : FmtE) (s : State) : Host.Outcome State Fault Refusal :=
  s.perform (.tbinv f) f.c (laRow (.tbinv f) f [scalarD f])
def execTbspill (f : FmtE) (s : State) : Host.Outcome State Fault Refusal :=
  s.perform (.tbspill f) f.c (laRow (.tbspill f) f [scalarD f, laPairA f])
def execTbfill (f : FmtE) (s : State) : Host.Outcome State Fault Refusal :=
  s.perform (.tbfill f) f.c (laRow (.tbfill f) f [scalarD f, laPairA f])
def execLmmT8 (x a : Fmt8) (f : FmtE) (s : State) : Host.Outcome State Fault Refusal :=
  s.perform (.lmmT8 x a f) f.c (laRow (.lmmT8 x a f) f [scalarD f, laGroupA f, laGroupB f 4])
def execLmmT4 (x : WFmt) (f : FmtE) (s : State) : Host.Outcome State Fault Refusal :=
  s.perform (.lmmT4 x f) f.c (laRow (.lmmT4 x f) f [scalarD f, laGroupA f])
def execLmmT4Rb (x : WFmt) (f : FmtE) (s : State) : Host.Outcome State Fault Refusal :=
  s.perform (.lmmT4Rb x f) f.c (laRow (.lmmT4Rb x f) f [scalarD f, laGroupA f])
def execLmmG4 (b : Planes) (f : FmtE) (s : State) : Host.Outcome State Fault Refusal :=
  s.perform (.lmmG4 b f) f.c (laRow (.lmmG4 b f) f [scalarD f, laGroupA f])
def execLmmG4Rb (b : Planes) (f : FmtE) (s : State) : Host.Outcome State Fault Refusal :=
  s.perform (.lmmG4Rb b f) f.c (laRow (.lmmG4Rb b f) f [scalarD f, laGroupA f])
def execDmm (t : FloatTy) (f : FmtE) (s : State) : Host.Outcome State Fault Refusal :=
  s.perform (.dmm t f) f.c (laRow (.dmm t f) f [scalarD f, laGroupA f, laGroupB f 4])
def execSaccMx (f : FmtE) (s : State) : Host.Outcome State Fault Refusal :=
  s.perform (.saccMx f) f.c (laRow (.saccMx f) f ([scalarD f, laGroupA f] ++ if f.opb = 0 then [] else [laGroupB f 8]))
def execSaccQ16 (f : FmtE) (s : State) : Host.Outcome State Fault Refusal :=
  s.perform (.saccQ16 f) f.c (laRow (.saccQ16 f) f [scalarD f, laGroupA f, laGroupB f 8])
def execZld (f : FmtE) (s : State) : Host.Outcome State Fault Refusal :=
  s.perform (.zld f) f.c (laRow (.zld f) f [scalarD f, laPairA f, scalarB f])
def execZst (f : FmtE) (s : State) : Host.Outcome State Fault Refusal :=
  s.perform (.zst f) f.c (laRow (.zst f) f [scalarD f, laPairA f, scalarB f])
def execZzero (f : FmtE) (s : State) : Host.Outcome State Fault Refusal :=
  s.perform (.zzero f) f.c (laRow (.zzero f) f [scalarD f])
def execZmov (f : FmtE) (s : State) : Host.Outcome State Fault Refusal :=
  s.perform (.zmov f) f.c (laRow (.zmov f) f [scalarD f, scalarA f])

/-! ### What a unit reads, and how it ends -/

def laIssuer (c : Cable) : Nat := issuerOf 2 c.coreD

/-- The plies that a fault of the command halts: those of its issue scope (R310). -/
def Cable.laHalts (c : Cable) (m : Cmd) : List Nat :=
  match m.scope with
  | .strand | .ply => [m.ply]
  | .lay => c.memberPlies .lay (Common.ofWord m.word).lay.toNat m.ply
  | .cable => []

/-- Suspends an LA command. -/
def State.suspendLa (s : State) (uid : Nat) (m : Cmd) (t : EngineFault) : State :=
  let c := s.cable uid
  s.suspendCmd uid m (laIssuer c) (some (c.laHalts m)) t

/-- Opens the places of a unit: their pages translate and their segments are current; or the command suspends or waits,
which leaves no map. -/
def State.openPlaces (s : State) (uid : Nat) (c : Cable) (m : Cmd) (l : List (Loc × Nat × Bool)) : State × Option (SMap Phys) :=
  match s.reachPages c.ctx m.super (pagesOf l) with
  | (s1, .error t) => (s1.suspendLa uid m t, none)
  | (s1, .ok map) =>
    if s1.padsBusy uid l || l.any fun e => match e.1 with | .pad off => !e.2.2 && c.padInTransit off.toNat e.2.1 | .va _ => false then
      (s1, none)
    else (s1.touchPlaces map l, some map)

/-- A unit has been applied: progress rises by `k`; the command's first poisoned operand is reported (R311). -/
def State.laApplied (s : State) (uid : Nat) (m : Cmd) (k : Nat) (bad : Option Nat) (fl : Flags) : State :=
  let s1 := match bad with
    | some a => if (((s.cable uid).cmd? m.id).getD m).reported then s else s.reportCmd uid m (laIssuer (s.cable uid)) fun r => { r with cause := 21, addr := a }
    | none => s
  s1.updCmd uid m.id fun q => { q with
    state := .running, progress := m.progress + k, reported := q.reported || bad.isSome, psn := q.psn || bad.isSome
    flags := q.flags ||| fl }

/-! ### Builds (R297 to R301, R317, R318) -/

/-- The granule that the first poisoned table of a range was built from: of its scratchpad source; a register has no address. -/
def Cable.badSource (c : Cable) (x : Table) (lo n : Nat) : Option Nat :=
  ((List.range n).find? fun i => x.psn.contains (lo + i)).map fun i => if x.tag.kind = 1 then padBadAt c x.tag (lo + i) else 0

/-- Tables that a build makes in all. -/
def Cmd.buildTotal (m : Cmd) : Nat := m.buildTag.m * m.buildTag.kt

def State.buildUnit (s : State) (uid : Nat) (c : Cable) (m : Cmd) : State :=
  let t := m.buildTag
  if t.kind = 1 && (c.padInTransit t.lo (t.spanEnd - t.lo) || s.padBusy uid t.lo (t.spanEnd - t.lo)) then s
  else
    let x0 : Table := if m.progress = 0 then { tag := { t with stale := m.srcWritten } } else c.tableReg m.table
    let n := min 64 (m.buildTotal - m.progress)
    let src := if t.kind = 1 then padSource c t else regSource m.build t
    let (x1, fl) := x0.buildRange src m.progress n
    (s.updCable uid fun c => c.setTable m.table x1).laApplied uid m n (c.badSource x1 m.progress n) fl

/-! ### Rebuilding (R302) -/

/-- The source of a table register as it stands, with what reading spilled names changes; a fault where it is not there, or
nothing while it has not arrived. -/
def State.sourceNow (s : State) (uid : Nat) (c : Cable) (t : TableTag) : State × Except (Option EngineFault) Source :=
  if t.kind = 1 then
    (if c.spadBytes < t.spanEnd then (s, .error (some { cause := 5, addr := t.lo }))
     else if c.padInTransit t.lo (t.spanEnd - t.lo) || s.padBusy uid t.lo (t.spanEnd - t.lo) then (s, .error none)
     else (s, .ok (padSource c t)))
  else
    let lanes := (List.range t.m).map (32 * t.ply + ·)
    let names := (List.range t.vcnt).map (t.vlo + ·)
    if 32 < t.m || c.plyCount ≤ t.ply || c.budget t.ply < t.vlo + t.vcnt || 4 * t.vcnt < t.positions * t.width then
      (s, .error (some { cause := 5 }))
    else if c.board.any fun b => match b.1 with | .v j n => lanes.contains j && names.contains n | _ => false then (s, .error none)
    else
      let one (a : State × Except (Option EngineFault) (List (Byte × Bool))) (j n : Nat) :
          State × Except (Option EngineFault) (List (Byte × Bool)) :=
        match a with
        | (s, .error e) => (s, .error e)
        | (s, .ok l) =>
          let add (s : State) (r : PReg) := (s, Except.ok (l ++ (leBytes r.val.toNat 4).map fun b => (b, r.psn)))
          if ((s.cable uid).strand j).spilled.contains n then
            let va := c.spillSlot j n
            match s.translateEngine c.ctx va .read false with
            | (s1, .error e) => (s1, .error (some { cause := e.cause, addr := va, detail := e.detail, unpop := e.cause == 5
                                                    page := e.page va }))
            | (s1, .ok p) =>
              match s1.loadNow c.coreD uid (j / 32) p.pa 8 (s1.leaseOf c.ctx p) with
              | none => (s1, .error none)
              | some (s2, bs) =>
                let w := leNat (bs.map Prod.fst)
                add s2 ⟨BitVec.ofNat 32 w, w.testBit 32 || bs.any Prod.snd⟩
          else add s (((s.cable uid).strand j).v.getD n {})
      match lanes.foldl (fun a j => names.foldl (fun a n => one a j n) a) (s, .ok []) with
      | (s1, .error e) => (s1, .error e)
      | (s1, .ok l) => (s1, .ok (regSource l t))

/-- Rebuilds stale registers; the last of the pair tells whether the command may go on. A poisoned source is reported and sets PSN
as that of a build (R311). -/
def State.rebuildAll (s : State) (uid : Nat) (m : Cmd) (regs : List Nat) : State × Bool :=
  regs.foldl (fun (a : State × Bool) r =>
    if !a.2 then a else
      let c := a.1.cable uid
      let t := (c.tableReg r).tag
      match a.1.sourceNow uid c t with
      | (s1, .error (some e)) => (s1.suspendLa uid m e, false)
      | (s1, .error none) => (s1, false)
      | (s1, .ok src) =>
        let x : Table := { tag := { t with stale := false } }
        let (x1, fl) := x.buildRange src 0 (t.m * t.kt)
        let bad := (s1.cable uid).badSource x1 0 (t.m * t.kt)
        let s2 := (s1.updCable uid fun c => c.setTable r x1).laApplied uid m 0 bad fl
        (s2.updCmd uid m.id fun q => { q with rb := true }, true))
    (s, true)

/-- The tests of a product that begins or resumes (R302, R303, 13 R324); the last of the pair tells whether it goes on. -/
def State.chainTest (s : State) (uid : Nat) (c : Cable) (m : Cmd) (o : Mode) (p : Product) : State × Bool :=
  let l := c.chain p
  let fault (code reg : Nat) : State × Bool := (s.suspendLa uid m { cause := 18, detail := code + 16 * reg }, false)
  let rb := match o with | .t4 _ b => b | .g4 _ b => b | _ => false
  let passed (s : State) : State := s.updCmd uid m.id fun q => { q with checkStale := false }
  if !o.tabled || !m.checkStale then (s, true)
  else match chainDefect o p l with
    | some d => fault d.1 d.2
    | none =>
      let stale := (l.filter fun e => e.2.tag.stale).map Prod.fst
      match stale with
      | [] => (passed s, true)
      | r :: _ =>
        if !rb then fault 0 r
        else match s.rebuildAll uid m stale with
          | (s1, true) => (passed s1, true)
          | (s1, false) => (s1, false)

/-! ### Products (R295, R305, 13 R323, R325) -/

/-- VAR of a product. -/
def Cmd.var (m : Cmd) : Nat :=
  match m.instr with
  | .lmmT4 _ f | .lmmT4Rb _ f | .lmmG4 _ f | .lmmG4Rb _ f => f.var.toNat
  | _ => 0

/-- What a k-step works on: the weight and activation rows read, and the tables of its chain. -/
structure KStep where
  s : Nat
  wrows : List (List Byte)
  arows : List (List Byte)
  chain : List (Nat × Table)
  var : Nat

/-- Nibble n of a weight row. -/
def KStep.nibble (k : KStep) (r n : Nat) : Nat := (((k.wrows.getD r []).getD (n / 2) 0).toNat / 16 ^ (n % 2)) % 16
/-- An element of some bytes in a row. -/
def rowElem (rows : List (List Byte)) (r i w : Nat) : Nat := leNat (((rows.getD r []).drop (i * w)).take w)

/-- A substituted term (R305). -/
def substituted (var : Nat) : XVal × Flags := if var = 2 then (.nan, Flags.nv) else (.zero false, 0)

/-- An index-range case: position, column, plane. -/
structure IndexCase where
  k : Nat
  n : Nat
  plane : Nat
deriving DecidableEq, Repr, Inhabited

/-- The first index-range case of a k-step (R305). V does not depend on i. -/
def KStep.indexCase (k : KStep) (o : Mode) (n : Nat) : Option IndexCase :=
  match o with
  | .t4 .. => (List.range 16).findSome? fun r =>
      let t := (chainAt k.chain (16 * k.s + r)).1.tag
      ((List.range n).find? fun j => !t.valid.getLsbD (k.nibble r j)).map fun j => ⟨16 * k.s + r, j, 0⟩
  | .g4 b _ => (List.range 4).findSome? fun g =>
      let t := (chainAt k.chain (16 * k.s + 4 * g)).1.tag
      (List.range n).findSome? fun j =>
        ((List.range b).find? fun q => !t.valid.getLsbD (k.nibble (b * g + q) j)).map fun q => ⟨16 * k.s + 4 * g, j, q⟩
  | _ => none

/-- The terms of output (i, n) in a k-step, in order (Table 12.2). -/
def KStep.terms (k : KStep) (o : Mode) (m i n : Nat) : List (XVal × Flags) :=
  match o with
  | .t8 x a => (List.range 16).map fun r =>
      (actValue a.code (rowElem k.arows i r 1)).mul (actValue x.code (rowElem k.wrows r n 1))
  | .direct t => (List.range 16).map fun r =>
      (t.fmt.decode (rowElem k.arows i r (elemBytes t))).mul (t.fmt.decode (rowElem k.wrows r n (elemBytes t)))
  | .t4 .. => (List.range 16).map fun r =>
      let (x, pos) := chainAt k.chain (16 * k.s + r)
      let c := k.nibble r n
      if x.tag.valid.getLsbD c then (Fmt.f32.decode (x.get (pos * m + i) c), 0) else substituted k.var
  | .g4 b _ => (List.range 4).map fun g =>
      let (x, pos) := chainAt k.chain (16 * k.s + 4 * g)
      let ps := (List.range b).map fun q => k.nibble (b * g + q) n
      if ps.all fun p => x.tag.valid.getLsbD p then
        sumOf (((List.range b).zip ps).map fun e => ((Fmt.f32.decode (x.get (pos / 4 * m + i) e.2)).scale e.1, 0))
      else substituted k.var

/-- A poisoned table that a k-step reads. -/
def KStep.badTable (k : KStep) (o : Mode) (m : Nat) : Bool :=
  o.tabled && (List.range 16).any fun r =>
    let (x, pos) := chainAt k.chain (16 * k.s + r)
    let t := if x.tag.g4 then pos / 4 else pos
    (List.range m).any fun i => x.psn.contains (t * m + i)

/-- The format of a product's sums. -/
def Mode.sumFmt : Mode → Fmt | .direct .f64 => .f64 | _ => .f32

/-- Applies a k-step to the tile that receives it: from what the tile holds, or from −0 where a block begins. -/
def KStep.apply (k : KStep) (o : Mode) (p : Product) (t : Tile) : Tile × Flags :=
  let F := o.sumFmt
  let fresh := p.form ≠ 0 && 16 * k.s % p.kb == 0
  (List.range p.m).foldl (fun (a : Tile × Flags) i =>
    (List.range p.n).foldl (fun (a : Tile × Flags) n =>
      let start := if fresh then XVal.zero true else F.decode (t.getF F i n)
      let (y, fl) := (k.terms o p.m i n).foldl (fun (acc : XVal × Flags) e =>
        let (x, fl) := sumStep F acc e.1
        (x, fl ||| e.2)) (start, 0)
      (a.1.putF F i n (F.encode y), a.2 ||| fl)) a) (t, 0)

/-- One k-step of a product, or its fault. -/
def State.productUnit (s : State) (uid : Nat) (m : Cmd) (o : Mode) : State :=
  let p := m.product
  match s.chainTest uid (s.cable uid) m o p with
  | (s0, false) => s0
  | (s0, true) =>
    let c := s0.cable uid
    let rows := o.rowsPerStep
    let wl := (List.range rows).map fun r => locOf p.w ((m.progress * rows + r) * p.wstr : Nat)
    let al := if o.tabled then [] else
      (List.range p.m).map fun i => locOf p.a (i * p.astr + 16 * m.progress * o.actBytes : Nat)
    let row := o.rowBytes p.n
    match s0.openPlaces uid c m ((wl.map fun l => (l, row, false)) ++ al.map fun l => (l, 16 * o.actBytes, false)) with
    | (s1, none) => s1
    | (s1, some map) =>
      let wb := wl.map fun l => (l, s1.readLoc uid map l row)
      let ab := al.map fun l => (l, s1.readLoc uid map l (16 * o.actBytes))
      let k : KStep := { s := m.progress, wrows := wb.map fun e => e.2.map Prod.fst, arows := ab.map fun e => e.2.map Prod.fst
                         chain := if o.tabled then c.chain p else [], var := m.var }
      let hit := k.indexCase o p.n
      match hit, m.var with
      | some x, 0 => s1.suspendLa uid m { cause := 19, detail := x.k + x.n * 2 ^ 16 + x.plane * 2 ^ 32 }
      | _, _ =>
        let z := p.zd + (if p.form = 0 then 0 else 16 * m.progress / p.kb)
        let (t, fl) := k.apply o p (c.tile z)
        let bad := match poisonAt (wb ++ ab) with | some a => some a | none => if k.badTable o p.m then some 0 else none
        let s2 := s1.updCable uid fun c => c.setTile z { t with psn := t.psn || bad.isSome }
        (s2.updCmd uid m.id fun q => { q with ixr := q.ixr || hit.isSome }).laApplied uid m 1 bad fl

/-! ### Scale and accumulate (R306, 13 R326) -/

/-- One block of a scale and accumulate. R306's "zero scale" is taken to include a zero super-scale of `sacc.q16` (DESIGN CHOICE,
log 155). -/
def State.scaleUnit (s : State) (uid : Nat) (c : Cable) (m : Cmd) : State :=
  let p := m.scaleStep
  let b := p.b0 + m.progress
  let wl := locOf p.ws (b * p.wsstr : Nat)
  let al := match p.as_ with
    | some a => (List.range p.m).map fun i => locOf a (i * p.asstr + 2 * b : Nat)
    | none => []
  let gl := match p.gs with | some g => [locOf g (b / 256 * p.gsstr : Nat)] | none => []
  match s.openPlaces uid c m ([(wl, 2 * p.n, false)] ++ (al.map fun l => (l, 2, false)) ++ gl.map fun l => (l, 4 * p.n, false)) with
  | (s1, none) => s1
  | (s1, some map) =>
    let wb := s1.readLoc uid map wl (2 * p.n)
    let ab := al.map fun l => (l, s1.readLoc uid map l 2)
    let gb := gl.map fun l => (l, s1.readLoc uid map l (4 * p.n))
    let part := c.tile (p.zp + m.progress)
    let num (l : List (Byte × Bool)) (i w : Nat) : Nat := leNat (((l.drop (i * w)).take w).map Prod.fst)
    let one := XVal.ofInt 1
    let (t, fl) := (List.range p.m).foldl (fun (a : Tile × Flags) i =>
      (List.range p.n).foldl (fun (a : Tile × Flags) n =>
        let sa := match ab[i]? with | some e => decodeSC10 (num e.2 0 2) | none => one
        let sw := decodeSC10 (num wb n 2)
        let g := match gb.head? with | some e => Fmt.f32.decode (num e.2 n 4) | none => one
        let p0 := Fmt.f32.decode (part.get i n)
        let (x1, f1) := p0.mul sa
        let (x2, f2) := x1.mul sw
        let (x3, f3) := x2.mul g
        let f0 : Flags := if (p0.isNaN || p0.isInf) && (sa.isZero || sw.isZero || g.isZero) then Flags.nv else 0
        let (r, f4) := sumStep .f32 (Fmt.f32.decode (a.1.get i n), f0 ||| f1 ||| f2 ||| f3) x3
        (a.1.put i n (Fmt.f32.encode r), a.2 ||| f4)) a) (c.tile p.zr, 0)
    let bad := match poisonAt ((wl, wb) :: ab ++ gb) with | some a => some a | none => if part.psn then some 0 else none
    (s1.updCable uid fun c => c.setTile p.zr { t with psn := t.psn || bad.isSome }).laApplied uid m 1 bad fl

/-! ### Tiles (13 R327, R328) -/

/-- The elements of a unit of a region: row, column. -/
def Region.cells (r : Region) (progress : Nat) : List (Nat × Nat) :=
  (List.range (min 4 (r.m - progress))).flatMap fun i => (List.range r.n).map fun n => (progress + i, n)

def State.tileUnit (s : State) (uid : Nat) (c : Cable) (m : Cmd) : State :=
  let r := m.region
  let k := min 4 (r.m - m.progress)
  let rowLocs := (List.range k).map fun i => (locOf m.address ((m.progress + i) * m.stride : Nat), r.row0 + m.progress + i)
  let t := c.tile r.z
  match m.instr with
  | .zld _ =>
    (match s.openPlaces uid c m (rowLocs.map fun e => (e.1, 4 * r.n, false)) with
     | (s1, none) => s1
     | (s1, some map) =>
       let rows := rowLocs.map fun e => (e.1, e.2, s1.readLoc uid map e.1 (4 * r.n))
       let t1 := rows.foldl (fun (t : Tile) e => (List.range r.n).foldl (fun t n =>
         t.put e.2.1 n (leNat (((e.2.2.drop (4 * n)).take 4).map Prod.fst))) t) t
       let bad := poisonAt (rows.map fun e => (e.1, e.2.2))
       (s1.updCable uid fun c => c.setTile r.z { t1 with psn := t.psn || bad.isSome }).laApplied uid m k bad 0)
  | .zst _ =>
    (match s.openPlaces uid c m (rowLocs.map fun e => (e.1, 4 * r.n, true)) with
     | (s1, none) => s1
     | (s1, some map) =>
       let s2 := s1.writeLocs uid m.id map (rowLocs.map fun e =>
         (e.1, (List.range r.n).flatMap fun n => (leBytes (t.get e.2 n) 4).map fun b => (b, t.psn)))
       s2.laApplied uid m k (if t.psn then some 0 else none) 0)
  | .zmov _ =>
    let (zs, row) := m.moveFrom
    let src := c.tile zs
    let t1 := (r.cells m.progress).foldl (fun (t : Tile) e => t.put (r.row0 + e.1) e.2 (src.get (row + e.1) e.2)) t
    (s.updCable uid fun c => c.setTile r.z { t1 with psn := src.psn }).laApplied uid m k (if src.psn then some 0 else none) 0
  | _ =>
    let t1 := (r.cells m.progress).foldl (fun (t : Tile) e => t.put (r.row0 + e.1) e.2 0) t
    (s.updCable uid fun c => c.setTile r.z { t1 with psn := false }).laApplied uid m k none 0

/-! ### Images (R307, 13 R319 to R321) -/

/-- Spills 4 KiB of a table register's image, or its tag: STALE and GSUM are those of the spill's beginning. -/
def State.spillUnit (s : State) (uid : Nat) (c : Cable) (m : Cmd) : State :=
  let x := c.tableReg m.table
  let first := if m.progress = 0 then 2 * c.gsum x.tag + (if x.tag.stale then 1 else 0) else m.progress2
  let bytes : List (Byte × Bool) :=
    if m.progress < 65536 then x.imageUnit m.progress
    else ({ x.tag with stale := first % 2 == 1 }.bytes (first / 2)).map fun b => (b, false)
  let l := locOf m.address (m.progress : Nat)
  match s.openPlaces uid c m [(l, bytes.length, true)] with
  | (s1, none) => s1
  | (s1, some map) =>
    let s2 := (s1.writeLocs uid m.id map [(l, bytes)]).updCmd uid m.id fun q => { q with progress2 := first }
    s2.laApplied uid m bytes.length (if bytes.any Prod.snd then some 0 else none) 0

/-- Fills 4 KiB of a table register, or takes the tag: until then the register is empty. -/
def State.fillTableUnit (s : State) (uid : Nat) (c : Cable) (m : Cmd) : State :=
  let n := if m.progress < 65536 then 4096 else 64
  let l := locOf m.address (m.progress : Nat)
  match s.openPlaces uid c m [(l, n, false)] with
  | (s1, none) => s1
  | (s1, some map) =>
    let bytes := s1.readLoc uid map l n
    let x0 : Table := if m.progress = 0 then {} else c.tableReg m.table
    let put (x : Table) : State :=
      (s1.updCable uid fun c => c.setTable m.table x).laApplied uid m n (poisonAt [(l, bytes)]) 0
    if m.progress < 65536 then put (x0.takeUnit m.progress bytes)
    else match TableTag.ofBytes (bytes.map Prod.fst) with
      | none => s1.suspendLa uid m { cause := 20, addr := l.addr }
      | some (t, gsum) =>
        let touched := m.touched.any fun o => t.lo ≤ o && o < t.spanEnd
        let stale := t.stale || t.kind == 2 || (t.kind == 1 && (c.gsum t != gsum || touched))
        put (if t.kind = 0 then {} else { x0 with tag := { t with stale := stale } })

/-! ### The array's turn and completion -/

/-- Units that a command counts in all (Table 12.6). -/
def Cmd.laTotal (m : Cmd) : Nat :=
  match m.instr with
  | .tbldT4 .. | .tbldG4 .. => m.buildTotal
  | .tbinv _ => 1
  | .tbspill _ | .tbfill _ => imageBytes
  | .saccMx _ | .saccQ16 _ => m.scaleStep.nb
  | .zld _ | .zst _ | .zzero _ | .zmov _ => m.region.m
  | _ => m.product.kq

/-- One unit of a command. -/
def State.laTurn (s : State) (uid : Nat) (c : Cable) (m : Cmd) : State :=
  match m.instr with
  | .tbldT4 .. | .tbldG4 .. => s.buildUnit uid c m
  | .tbinv _ => (s.updCable uid fun c => c.setTable m.table {}).laApplied uid m 1 none 0
  | .tbspill _ => s.spillUnit uid c m
  | .tbfill _ => s.fillTableUnit uid c m
  | .saccMx _ | .saccQ16 _ => s.scaleUnit uid c m
  | .zld _ | .zst _ | .zzero _ | .zmov _ => s.tileUnit uid c m
  | _ => match m.mode with | some o => s.productUnit uid m o | none => s

/-- The LA command of a cable whose turn it is: the first that has not completed (R293). -/
def Cable.laFirst (c : Cable) : Option Nat := (c.cmds.find? fun m => m.path == .la && m.state != .done).map Cmd.id

/-- The array performs one unit of a command or suspends it; what it has written before takes effect first. -/
def execLaUnit (uid cmd : Nat) (s : State) : Host.Outcome State Fault Refusal :=
  .next (match s.engineTurn uid cmd .la with
    | some (c, m) =>
      if c.laFirst ≠ some cmd ∨ m.state = .suspended ∨ m.cancel = true ∨ m.laTotal ≤ m.progress then s
      else if !m.held.isEmpty then s.landCmd uid m
      else if !c.late.isEmpty then
        let s1 := s.landPath uid .la
        s1.laTurn uid (s1.cable uid) (((s1.cable uid).cmd? cmd).getD m)
      else s.laTurn uid c m
    | none => s)

/-- The token of an LA command (Table 12.7). -/
def Cmd.laToken (m : Cmd) : W32 :=
  BitVec.ofNat 32 (m.progress % 2 ^ 16 + bit1 m.rb 29 + bit1 m.ixr 30 + bit1 m.psn 31)

/-- An LA command that is over or cancelled completes: its flags reach `CBL_LA_FLAGS`, its token is written. A fill that is
cancelled leaves its register empty. -/
def execLaComplete (uid cmd : Nat) (s : State) : Host.Outcome State Fault Refusal :=
  .next (match s.engineTurn uid cmd .la with
    | some (c, m) =>
      if c.laFirst ≠ some cmd ∨ m.state = .suspended then s
      else if !m.held.isEmpty then s.landCmd uid m
      else if !(m.cancel || m.laTotal ≤ m.progress) || s.recordsWait c (laIssuer c) || !s.updatesApplied m then s
      else
        let s1 := match m.instr with
          | .tbfill _ => if m.progress < imageBytes && m.progress ≠ 0 then s.updCable uid fun c => c.setTable m.table {} else s
          | _ => s
        (s1.updCable uid fun c => c.orLaFlags (m.flags.setWidth 32)).finishCmd uid m m.laToken
    | none => s)

end Sys2Proof.Machine
end

