-- ==== Sys2Proof/Machine/Saves.lean ====
section
/-! DEFINITION. How a save begins, and what asks for one (16 R378, R382, R383; 19 R433, R434). -/
namespace Sys2Proof.Machine

/-- Bytes of a save slot (R378). -/
def slotBytes : Nat := 0x400000
/-- The device save pool of a partition (19 Table 19.5). -/
def devPool (part : Nat) : Nat := reservedBase part + 0x29400000
def devPoolSlots : Nat := 90

/-- The lowest number below `n` that a map of slots does not hold. -/
def freeSlot (used : SMap Nat) (n : Nat) : Option Nat := (List.range n).find? fun i => (used.find? i).isNone

/-- HALTED in bit [0], the halted lays in bits [4:1] (Table 16.11). -/
def Cable.haltWord (c : Cable) : Nat :=
  let all := c.halts.any fun h => h.plies.isEmpty
  let lay (i : Nat) : Bool := c.layDeclared i && (List.range c.plyCount).all fun p => !c.inLay i p || c.haltedPly p
  (if all then 1 else 0) + ((List.range 4).filter fun i => !c.halts.isEmpty && lay i).foldl (fun n i => n + 2 ^ (i + 1)) 0

/-- A save cancels the handles that its cable holds or has joined (R383): the cable's own work stands as not done, and
what other cables had waiting on them is retried. -/
def State.cancelHandles (s : State) (uid : Nat) : State :=
  let ctx := (s.cable uid).ctx
  ((s.ctx ctx).handles.filter fun h => h.uids.contains uid).foldl (fun s h =>
    let s1 := h.agents.foldl (fun s a => match a with | .cmd .. => s.retryAgent h a | a => if a.uid = uid then s else s.retryAgent h a)
      (s.dropHandle ctx h.h)
    s1.releaseHalts h.h) s

/-- A search command that a save abandons (14 R354): it gives up its slots and its heap, and keeps its snapshot. -/
def Cmd.abandon (m : Cmd) : Cmd :=
  if m.path = .srch ∧ m.srchOp.mustComplete = false ∧ m.state ≠ .done ∧ m.srch.finished = false then
    { m with progress := 0, srch := { desc := m.srch.desc, pages := m.srch.pages, snap := m.srch.snap, referenced := m.srch.referenced } }
  else m

/-- A save begins: no further clause of the cable begins, its plies stop at their stop points; its searches are
abandoned. A `trap` that has not taken effect runs again after the restore. -/
def State.beginSave (s : State) (uid : Nat) (map : List Nat) (v : Saving) : State :=
  let c := s.cable uid
  let s1 := s.updCable uid fun c =>
    { c with
      saving := some { v with halted := c.haltWord, at_ := s.cycle }
      slotMap := map
      trapping := none
      cmds := c.cmds.map Cmd.abandon
      plies := c.plies.map fun (p, y) => (p, { y with stopped := y.stopped || y.running.isNone
                                                      skid := if c.halts.isEmpty then 0 else y.skid }) }
  let s2 := s1.cancelHandles uid
  if v.device then s2.updPart c.part fun p => { p with devSlots := p.devSlots.insert v.slot uid }
  else s2.updCtx c.ctx fun x => { x with slots := x.slots.insert v.slot uid }

/-! ### Supervisor saves (R378) -/

/-- The record of a collector (R378, R382). -/
def State.postCollector (s : State) (ctx core cause cid addr detail : Nat) (c : Option Cable) : State :=
  let (s1, n) := s.nextEngSeq (issuerOf 7 core)
  let r : FRec :=
    { cause := cause, issuer := issuerOf 7 core, seq := n, part := ctx / 16, cid := cid, addr := addr, detail := detail
      super := match c with | some c => c.priv != 0 | none => false }
  match c with
  | some c => s1.postFor c r
  | none => s1.postCtx ctx r

/-- The virtual address of a slot of a context's save pool. -/
def Context.slotVa (x : Context) (i : Nat) : Nat := x.saveBase.toNat + i * slotBytes

/-- The collector translates every page of a slot for a supervisor write, which gives its map; none where one does not
translate. -/
def State.mapSlot (s : State) (ctx va : Nat) : Option (State × List Nat) :=
  (List.range (slotBytes / 4096)).foldl (fun (r : Option (State × List Nat)) i => r.bind fun b =>
    if 2 ^ 60 ≤ va + i * 4096 then none
    else match b.1.translateEngine ctx (va + i * 4096) .write false with
      | (s1, .ok p) => some (s1, b.2 ++ [2 * (p.pa / 4096) + if p.esr then 1 else 0])
      | (_, .error _) => none) (some (s, []))
/-- The map of a slot of a partition's device save pool. -/
def devSlotMap (part slot : Nat) : List Nat :=
  (List.range (slotBytes / 4096)).map fun i => 2 * ((devPool part + slot * slotBytes) / 4096 + i)

/-- A cable of a context by its identity: one that is placed, saved or requeued. -/
def State.cableOf (s : State) (ctx cid : Nat) : Option Cable :=
  s.cables.vals.find? fun c => c.ctx == ctx && c.cid == cid && c.state != .ended

/-- A write of `CTX_PREEMPT`. The record of one that finds no slot, or none that is mapped, waits for the end of its cycle: a device
save of the cable that begins within it makes the record that of a cable being saved (19 R435). -/
def State.preempt (s : State) (ctx cid : Nat) : State :=
  match s.cableOf ctx cid with
  | none => s.postCollector ctx 0 26 cid 0 2 none
  | some c =>
    let x := s.ctx ctx
    let later (addr detail : Nat) : State :=
      { s with unsaved := s.unsaved ++ [{ ctx := ctx, uid := c.uid, addr := addr, detail := detail, at_ := s.cycle }] }
    if c.saving.isSome || !c.isPlaced then s.postCollector ctx c.lastCore 26 c.cid 0 3 (some c)
    else match freeSlot x.slots x.nslot with
      | none => later 0 1
      | some i =>
        match s.mapSlot ctx (x.slotVa i) with
        | none => later (x.slotVa i) 4
        | some (s1, map) => s1.beginSave c.uid map { slot := i, device := false }

/-- The collector posts the records of preemptions of a cable that did not begin, their cycles being over. -/
def State.postUnsaved (s : State) (uid : Nat) : State :=
  let due (u : Unsaved) : Bool := u.uid == uid && decide (u.at_ < s.cycle)
  let c := s.cable uid
  (s.unsaved.filter due).foldl (fun s u => s.postCollector u.ctx c.lastCore 26 c.cid u.addr u.detail (some c))
    { s with unsaved := s.unsaved.filter fun u => !due u }

def execCtxPreempt (ctx cid : Nat) (s : State) : Host.Outcome State Fault Refusal :=
  .next (if (s.ctx ctx).en then s.preempt ctx (cid % 2 ^ 24) else s)

/-! ### Restores asked for (R382) -/

/-- A saved cable enters the tail of its queue. -/
def State.requeue (s : State) (uid : Nat) : State :=
  let c := s.cable uid
  match c.state with
  | .saved n d =>
    (s.updCable uid fun c => { c with state := .requeued n d }).updCtx c.ctx fun x =>
      { x with queues := x.queues.modify c.prio fun q => q ++ [.restore uid] }
  | _ => s

/-- A write of `CTX_RESTORE`; a slot whose save is still under way, or whose cable already waits to be placed, is left
alone (log 24). -/
def State.restoreSlot (s : State) (ctx slot : Nat) : State :=
  match (s.ctx ctx).slots.find? slot with
  | none => s.postCollector ctx 0 27 0 ((s.ctx ctx).slotVa slot) 1 none
  | some uid => s.requeue uid

def execCtxRestore (ctx slot : Nat) (s : State) : Host.Outcome State Fault Refusal :=
  .next (if (s.ctx ctx).en then s.restoreSlot ctx (slot % 2 ^ 16) else s)

/-! ### Device saves (19 R433, R434) -/

/-- A device save takes the place of a supervisor save that began in the same cycle, whose write gets the record of a cable
that is being saved (R435). -/
def State.overtakeSave (s : State) (c : Cable) (old new : Saving) (map : List Nat) : State :=
  let s1 := (s.updCtx c.ctx fun x => { x with slots := x.slots.erase old.slot }).updPart c.part fun p =>
    { p with devSlots := p.devSlots.insert new.slot c.uid }
  (s1.updCable c.uid fun c => { c with saving := some { new with halted := old.halted, at_ := old.at_ }, slotMap := map }).postCollector
    c.ctx c.lastCore 26 c.cid 0 3 (some c)

/-- A device save takes the lowest free slot of the partition's pool; without one NOSLOT is set. -/
def State.deviceSave (s : State) (uid : Nat) (migrateTo : Option Nat) (requeue : Bool) : State × Bool :=
  let c := s.cable uid
  match freeSlot (s.part c.part).devSlots devPoolSlots with
  | none => ({ s with pwrNoslot := true }, false)
  | some i =>
    let v : Saving := { slot := i, device := true, migrateTo := migrateTo, requeue := requeue }
    let s := { s with pwrNoslot := false
                      unsaved := s.unsaved.map fun (u : Unsaved) => if u.uid = uid ∧ u.at_ = s.cycle then { u with addr := 0, detail := 3 } else u }
    (match c.saving with
     | some old => s.overtakeSave c old v (devSlotMap c.part i)
     | none => s.beginSave uid (devSlotMap c.part i) v, true)

/-- A cable has resided on its core for its context's MINRES (05 R161). -/
def State.resided (s : State) (c : Cable) : Bool := c.since + (s.ctx c.ctx).minres * 1000 ≤ s.clock
/-- A device save may begin: none is under way, but for a supervisor save that began in this cycle (R435). -/
def State.movable (s : State) (c : Cable) : Bool :=
  c.isPlaced && (match c.saving with | some v => !v.device && v.at_ == s.cycle | none => true) && !c.terminated && !c.live.isEmpty && s.resided c

/-- The cable that is shed: the lowest PRIO, among those the latest placed (R433). -/
def State.shedVictim (s : State) : Option Cable :=
  (s.cables.vals.filter s.movable).foldl (fun (r : Option Cable) c => match r with
    | none => some c
    | some b => if c.prio < b.prio || (c.prio == b.prio && (b.since < c.since || (b.since == c.since && b.uid < c.uid)))
        then some c else some b) none

/-- The earliest placed of the cables that may leave a core. -/
def State.migrant (s : State) (core : Nat) : Option Cable :=
  ((s.placedOn core).filter fun c => s.movable c && !c.dbg.getLsbD 6).foldl (fun (r : Option Cable) c => match r with
    | none => some c
    | some b => if c.order < b.order then some c else some b) none

/-- The cluster within which a cable must be restored (09 R266). -/
def State.clusterOk (s : State) (c : Cable) (core : Nat) : Bool := !s.tied c || clusterOf core == clusterOf c.lastCore

/-- The coolest core of a partition on which a cable fits, the lowest on a tie; none within 5 °C of MIG (R434). -/
def State.coolest (s : State) (c : Cable) (but : Nat) : Option Nat :=
  ((List.range Config.cores).filter fun k => k != but && s.corePart k == some c.part &&
      s.cool k && s.clusterOk c k && s.fits k c.lrec).foldl
    (fun (r : Option Nat) k => match r with
      | none => some k
      | some j => if s.coreTemps.getD k 0 < s.coreTemps.getD j 0 then some k else some j) none

/-- A core is at MIG or above (R434): its earliest eligible cable is migrated, at most one per MINRES. -/
def State.migrate (s : State) (core : Nat) : State :=
  match s.migrant core with
  | none => s
  | some c =>
    let again := match (s.core core).lastMigration with
      | some t => decide (t + (s.ctx c.ctx).minres * 1000 ≤ s.clock) | none => true
    if !again then s
    else match s.coolest c core with
      | none => s
      | some k =>
        let (s1, ok) := s.deviceSave c.uid (some k) false
        s1.updCore core fun x => if ok then { x with lastMigration := some s.clock, migrating := false } else { x with migrating := true }

/-- Power after a 1 ms window (R433). -/
def State.shedWindow (s : State) (watts : Nat) : State :=
  let s1 := { s with nextWindow := s.nextWindow + 3000000, pwrWatts := watts }
  if watts ≤ s.pwrLimit then { s1 with pwrOver := 0, pwrShed := false }
  else if s.pwrOver < 10 then { s1 with pwrOver := s.pwrOver + 1 }
  else match s1.shedVictim with
    | none => s1
    | some c => { (s1.deviceSave c.uid none true).1 with pwrShed := true }

/-- The migrations that found no slot are tried again while their cores stay at MIG, and given up below it (R434). -/
def State.migrateAgain (s : State) : State :=
  (List.range Config.cores).foldl (fun s k =>
    if !(s.core k).migrating then s
    else if s.thermMig ≤ s.coreTemps.getD k 0 then s.migrate k
    else s.updCore k fun x => { x with migrating := false }) s

/-- The end of a 1 ms window: a cable is shed, then migrations are tried again (R433, R434; the order of the two is the model's,
DESIGN CHOICE, log 145). -/
def State.windowEnd (s : State) (watts : Nat) : State := (s.shedWindow watts).migrateAgain

/-- No register of the machine changes in FAILED (19 Table 19.1). -/
def execPowerWindow (watts : Nat) (s : State) : Host.Outcome State Fault Refusal :=
  .next (if s.cycle < s.nextWindow then s
    else if s.boot = .failed then { s with nextWindow := s.nextWindow + 3000000 }
    else s.windowEnd (min watts 8191))

/-- Temperatures are measured at the core and, in order of their numbers, at every core. -/
def execThermalMigration (core temp : Nat) (temps : List Nat) (s : State) : Host.Outcome State Fault Refusal :=
  let measured := ((List.range temps.length).zip temps).foldl (fun (m : SMap Nat) e => m.insert e.1 e.2) s.coreTemps
  let s1 := { s with coreTemps := measured.insert core temp }
  .next (if s.thermMig ≤ temp ∧ core < Config.cores then s1.migrate core else s1)

/-! ### Gating (19 R432, 07 R205) -/

/-- A section of a core without a cable is gated after GIDLE, unless it serves an L1 way that holds a copy (log 20). -/
def execGateIdle (core section_ : Nat) (s : State) : Host.Outcome State Fault Refusal :=
  .next (if core < Config.cores ∧ section_ < 10 ∧ (s.placedOn core).isEmpty = true ∧
      (s.core core).idleSince + s.thermGidle * 1000 ≤ s.clock ∧ (s.core core).waking.contains section_ = false ∧
      ((s.core core).l1.any fun e => e.2.way == section_) = false then
    s.updCore core fun k => { k with gated := setInsert section_ k.gated }
  else s)

/-- A section that was waking is awake, zero-filled or with every line invalid. -/
def execPowerWakeComplete (core section_ : Nat) (s : State) : Host.Outcome State Fault Refusal :=
  .next (if (s.core core).waking.contains section_ then
    s.updCore core fun k => { k with waking := setErase section_ k.waking, gated := setErase section_ k.gated }
  else s)

end Sys2Proof.Machine
end

