-- ==== Sys2Proof/Machine/Slot.lean ====
section
/-! DEFINITION. The save slot of a cable (16 R380, Tables 16.10 to 16.14): what is written into it, what is read back. -/
namespace Sys2Proof.Machine

/-! ### Pieces -/

/-- Bytes of a region of a slot: `n` bytes of zero over which numbers are written, each at an offset with its width. -/
def regionBytes (n : Nat) (items : List (Nat × Nat × Nat)) : List (Byte × Bool) :=
  let cells : SMap Byte := items.foldl (fun (m : SMap Byte) e =>
    ((List.range e.2.1).zip (leBytes e.2.2 e.2.1)).foldl (fun (m : SMap Byte) b => m.insert (e.1 + b.1) b.2) m) []
  (List.range n).map fun i => (cells.getD i 0, false)

/-- Registers of a map from an offset on. -/
def regItems (off n : Nat) (r : SMap PReg) (base : Nat := 0) : List (Nat × Nat × Nat) :=
  (List.range n).map fun i => (off + 4 * i, 4, (r.getD (base + i) {}).val.toNat)
/-- Their poison bits, from bit 0 on. -/
def poisonBits (n : Nat) (r : SMap PReg) (base : Nat := 0) : Nat :=
  (List.range n).foldl (fun v i => v + bit1 (r.getD (base + i) {}).psn i) 0

/-! ### Table 16.11 -/

/-- Commands that have a register-source build buffer, in issue order. -/
def Cable.builds (c : Cable) : List Cmd := c.cmds.filter fun m => !m.build.isEmpty && m.state != .done

def headerItems (c : Cable) (p : Nat) (waiting : List Nat) : List (Nat × Nat × Nat) :=
  ((List.range 16).map fun i => (8 * i, 8, (c.lrec.getD i 0).toNat)) ++
  [ (0x80, 8, c.cid + c.part * 2 ^ 24 + ((c.saving.map Saving.halted).getD 0) * 2 ^ 32 + bit1 (c.trapInfo.getLsbD 31) 37),
    (0x88, 8, p) ] ++
  ((List.range 4).map fun i => (0x90 + 8 * i, 8, c.ept.getD i 0)) ++
  ((List.range 16).map fun i => (0xB0 + 2 * i, 2, (c.counter i).val)) ++
  [ (0xD0, 8, ((List.range 16).foldl (fun v i => v + bit1 (c.counter i).strict i) 0) + c.cmds.length * 2 ^ 16 + c.segs.length * 2 ^ 32) ] ++
  regItems 0x100 64 c.k ++ [(0x200, 8, poisonBits 64 c.k), (0x208, 8, poisonBits 64 c.lays)] ++ regItems 0x210 64 c.lays ++
  [ (0x310, 8, c.spillBase.toNat), (0x318, 8, c.spillSize.toNat), (0x320, 8, c.trapVec.toNat), (0x328, 8, c.trapPc.toNat),
    (0x330, 8, c.trapInfo.toNat), (0x338, 8, c.nredCnt.toNat), (0x340, 8, c.wtqTmo.toNat), (0x348, 8, c.laFlags.toNat),
    (0x350, 8, (List.range 16).foldl (fun v u => v + bit1 (c.tile u).psn u) 0),
    (0x358, 8, c.dbg.toNat), (0x360, 8, c.stop.toNat) ] ++
  ((List.range 4).map fun i => (0x368 + 8 * i, 8, (c.wps.getD i 0).toNat)) ++
  ((List.range 192).map fun u => (0x400 + 8 * u, 8, c.unitCounts.getD u 0)) ++
  ((List.range 16).map fun i => (0xA00 + 8 * i, 8, (waiting.filter fun j => j / 64 == i).foldl (fun v j => v + 2 ^ (j % 64)) 0))

/-! ### Table 16.12 -/

def Group.saveState (g : Group) : Nat :=
  match g.hold with
  | .rendezvous => 2 | .join _ => 3 | .joinFull _ => 3 | .ring _ => 4 | .late => 5
  | .none => if g.clause.isSome then 1 else 0
/-- Slot and parked rank of a group: the rank counts the older groups of the parked set. -/
def Ply.saveCode (y : Ply) (g : Group) : Nat :=
  match g.place with
  | .slot n => n
  | .out n => n
  | .parked r => 2 + 4 * (y.groups.filter fun h => match h.place with | .parked k => decide (k < r) | _ => false).length

def plyItems (y : Ply) : List (Nat × Nat × Nat) :=
  regItems 0 64 y.s ++ [(0x100, 8, poisonBits 64 y.s)] ++ ((List.range 16).map fun i => (0x108 + 4 * i, 4, (y.m.getD i 0).toNat)) ++
  [ (0x148, 8, y.ic.toNat),
    (0x150, 8, (y.seq + 1).toNat + y.skid % 16 * 2 ^ 32 + bit1 y.faulting 36 + bit1 y.demoted 37),
    (0x158, 8, y.groups.length + y.joins.length * 2 ^ 8 + y.nextSlot % 2 * 2 ^ 16) ] ++
  (((List.range y.groups.length).zip y.groups).flatMap fun e =>
    [ (0x160 + 16 * e.1, 8, e.2.next / 8 * 8 + e.2.saveState),
      (0x168 + 16 * e.1, 8, e.2.lanes.toNat + y.saveCode e.2 * 2 ^ 32 + bit1 e.2.signed 42) ]) ++
  ((List.range y.joins.length).zip y.joins).flatMap fun e =>
    [(0x360 + 16 * e.1, 8, e.2.addr / 8 * 8 + 1), (0x368 + 16 * e.1, 8, e.2.lanes.toNat)]

/-! ### Table 16.13 -/

def strandItems (t : Strand) : List (Nat × Nat × Nat) :=
  let kept : SMap PReg := t.v.filter fun (e : Nat × PReg) => !t.spilled.contains e.1
  regItems 0 256 kept ++ regItems 0x400 8 t.o ++
  [ (0x420, 8, (match t.latch with | some l => l.val.toNat | none => 0)), (0x428, 32, poisonBits 256 kept),
    (0x448, 32, t.spilled.foldl (fun v n => v + 2 ^ n) 0),
    (0x468, 8, poisonBits 8 t.o + (match t.latch with | some l => bit1 l.psn 8 + (if l.wide then 2 else 1) * 2 ^ 9 | none => 0)
      + bit1 t.live 11),
    (0x470, 8, t.fflags.toNat + t.sr.toNat * 2 ^ 32) ]

/-! ### Table 16.14 -/

def Cmd.saveState (m : Cmd) : Nat := match m.state with | .waiting => 0 | .running => 1 | .suspended => 2 | .done => 3
/-- TOK: the number of its token registers, or that of its word where it has none. -/
def Cmd.tokField (m : Cmd) : Nat := match m.tok.head? with | some (.s _ n) => n | _ => (m.word.extractLsb' 12 6).toNat
def scopeCode (sc : Scope) : Nat := match sc with | .strand => 0 | .ply => 1 | .lay => 2 | .cable => 3
def scopeOf (n : Nat) : Scope := match n with | 0 => .strand | 1 => .ply | 2 => .lay | _ => .cable
/-- The path of a code of Table 16.14, and the class whose words are its commands. -/
def pathOf (n : Nat) : Option (Path × Cls) :=
  match n with | 1 => some (.copy, .copy) | 2 => some (.la, .la) | 3 => some (.srch, .srch) | 4 => some (.fab, .fab) | _ => none
/-- A number split into words of eight bytes. -/
def Cmd.entryItems (m : Cmd) (pos buffer : Nat) : List (Nat × Nat × Nat) :=
  let ops := (m.d ++ m.a ++ m.b).take 16
  [ (0, 8, m.word.toNat),
    (8, 8, m.path.code + bit1 m.ce 3 + m.cnt % 16 * 2 ^ 4 + bit1 m.te 8 + m.tokField * 2 ^ 9 + m.saveState * 2 ^ 15 + m.ply % 32 * 2 ^ 18
      + scopeCode m.scope * 2 ^ 23 + buffer % 8 * 2 ^ 25 + pos * 2 ^ 32),
    (0x10, 8, m.progress), (0x18, 8, m.progress2) ] ++
  (((List.range ops.length).zip ops).map fun e => (0x20 + 4 * e.1, 4, e.2.val.toNat)) ++
  [(0x60, 8, (((List.range ops.length).zip ops).foldl (fun v e => v + bit1 e.2.psn e.1) 0) + m.srch.snap * 2 ^ 16)]

/-! ### The slot (Table 16.10) -/

/-- Cuts bytes into pieces of 4 KiB at most, each with its offset. -/
def pieces (off : Nat) (bytes : List (Byte × Bool)) : List (Nat × List (Byte × Bool)) :=
  (List.range ((bytes.length + 4095) / 4096)).map fun i => (off + 4096 * i, (bytes.drop (4096 * i)).take 4096)

def tableAt (t : Nat) : Nat := 0x134000 + 0x11000 * t
def tileAt (u : Nat) : Nat := 0x1BC000 + 0x10000 * u
def plyAt (p : Nat) : Nat := 0x4000 + 0x800 * p
def strandAt (j : Nat) : Nat := 0x14000 + 0x480 * j
def padAt : Nat := 0x2BC000

/-- What a save writes, by offset; `p` is the core's logical time, `waiting` the strands in a wait queue. -/
def slotPieces (c : Cable) (p : Nat) (waiting : List Nat) : List (Nat × List (Byte × Bool)) :=
  pieces 0 (regionBytes 0x4000 (headerItems c p waiting)) ++
  ((List.range c.plyCount).map fun q => (plyAt q, regionBytes 0x800 (plyItems (c.ply q)))) ++
  ((List.range (32 * c.plyCount)).map fun j => (strandAt j, regionBytes 0x480 (strandItems (c.strand j)))) ++
  ((List.range c.tableCount).flatMap fun t =>
    let x := c.tableReg t
    ((List.range 16).map fun i => (tableAt t + 4096 * i, x.imageUnit (4096 * i))) ++
    [(tableAt t + 65536, (x.tag.bytes (c.gsum x.tag)).map fun b => (b, false))]) ++
  ((List.range c.tileCount).flatMap fun u => (List.range 16).map fun i =>
    (tileAt u + 4096 * i, (List.range 1024).flatMap fun e =>
      let n := 1024 * i + e
      (leBytes ((c.tile u).get (n / 256) (n % 256)) 4).map fun b => (b, false))) ++
  ((List.range c.spadUnits).map fun i => (padAt + 4096 * i, c.padRead (4096 * i) 4096)) ++
  (((List.range c.cmds.length).zip c.cmds).map fun e =>
    let buffer := (c.builds.findIdx? fun m => m.id == e.2.id).getD 0
    (0x37C000 + 128 * e.1, regionBytes 128 (e.2.entryItems e.1 buffer))) ++
  (((List.range c.segs.length).zip c.segs).map fun e => (0x384000 + 16 * e.1, regionBytes 16
    [(0, 8, e.2.2.va / 4096 * 4096 + 4 + (if e.2.2.owned then 2 else 1)), (8, 8, e.2.2.last + e.2.1 * 2 ^ 32)])) ++
  (((List.range c.builds.length).zip c.builds).map fun e => (0x385000 + 4096 * e.1, (e.2.build ++ List.replicate 4096 (0, false)).take 4096)) ++
  (List.range 0x73).map fun i => (0x38D000 + 4096 * i, List.replicate 4096 (0, false))

/-- Where a byte of a slot lies, and whether its page has ESR = 1. -/
def slotPhys (map : List Nat) (off : Nat) : Nat := map.getD (off / 4096) 0 / 2 * 4096 + off % 4096
def slotEsr (map : List Nat) (pa : Nat) : Bool := map.contains (2 * (pa / 4096) + 1)

/-- The collector writes a slot, as writes from P = 0. -/
def State.writeSlot (s : State) (part : Nat) (map : List Nat) (l : List (Nat × List (Byte × Bool))) : State :=
  l.foldl (fun (s : State) e =>
    let cells := (List.range e.2.length).zipWith (fun i b => (slotPhys map (e.1 + i), b)) e.2
    (s.engineCells part cells (slotEsr map)).1) s

/-! ### Reading back (R382) -/

/-- Bytes of a slot, with the poison of their granules. -/
def State.slotBytes (s : State) (map : List Nat) (off n : Nat) : List (Byte × Bool) :=
  (List.range n).flatMap fun i => s.fetchBytes (slotPhys map (off + i)) 1
/-- A number of a slot, and whether a granule of it is poisoned. -/
def State.slotNat (s : State) (map : List Nat) (off n : Nat) : Nat × Bool :=
  let b := s.slotBytes map off n
  (leNat (b.map Prod.fst), b.any Prod.snd)

/-- A register whose value lies at an offset and whose poison is a bit of a word. -/
def State.slotReg (s : State) (map : List Nat) (off bits i : Nat) : PReg :=
  let (v, p) := s.slotNat map off 4
  ⟨BitVec.ofNat 32 v, p || bits.testBit i⟩
/-- Registers of a map, each read back where it is not zero and clean. -/
def State.slotRegs (s : State) (map : List Nat) (off n bits : Nat) : SMap PReg :=
  (List.range n).filterMap fun i =>
    let r := s.slotReg map (off + 4 * i) bits i
    if r.val = 0 && !r.psn then none else some (i, r)

/-- What a group is held at by its code of Table 16.12, where its record does not say it already. -/
def holdOf (code pc : Nat) : Hold :=
  match code with | 2 => .rendezvous | 3 => .join pc | 4 => .ring none | 5 => .late | _ => .none

/-- A group read back: its program counter, its state, its strands and its place. One that the slot alone has is at a header:
no field of its record gives the header of a clause that it would be inside (DESIGN CHOICE, log 168). -/
def State.slotGroup (s : State) (map : List Nat) (at_ : Nat) (g : Group) : Group :=
  let w := (s.slotNat map at_ 8).1
  let u := (s.slotNat map (at_ + 8) 8).1
  let pc := w / 8 * 8 % 2 ^ 60
  let n := u / 2 ^ 32 % 4
  let place : Place := if n = 2 then .parked (u / 2 ^ 34 % 256) else match g.place with | .out _ => .out n | _ => .slot n
  let hold := if w % 8 = g.saveState then g.hold else holdOf (w % 8) pc
  let g1 : Group := { g with lanes := BitVec.ofNat 32 u, place := place, signed := u.testBit 42, hold := hold }
  match g.clause with
  | some cl => if w % 8 = 0 then { g1 with pc := pc, clause := none } else { g1 with clause := some { cl with pos := (pc - cl.addr) / 8 - 1 } }
  | none => { g1 with pc := pc }

/-- The open join instances read back. -/
def State.slotJoins (s : State) (map : List Nat) (at_ n : Nat) : List JoinInst :=
  (List.range n).filterMap fun i =>
    let w := (s.slotNat map (at_ + 16 * i) 8).1
    if w.testBit 0 then some ⟨w / 8 * 8 % 2 ^ 60, BitVec.ofNat 32 (s.slotNat map (at_ + 16 * i + 8) 8).1⟩ else none

def State.slotPly (s : State) (map : List Nat) (q : Nat) (y : Ply) : Ply :=
  let at_ := plyAt q
  let flags := (s.slotNat map (at_ + 0x150) 8).1
  let sizes := (s.slotNat map (at_ + 0x158) 8).1
  { y with
    s := s.slotRegs map at_ 64 (s.slotNat map (at_ + 0x100) 8).1
    m := (List.range 16).filterMap fun i =>
      let v := (s.slotNat map (at_ + 0x108 + 4 * i) 4).1
      if v = 0 then none else some (i, BitVec.ofNat 32 v)
    ic := BitVec.ofNat 64 (s.slotNat map (at_ + 0x148) 8).1
    seq := BitVec.ofNat 32 flags - 1
    skid := flags / 2 ^ 32 % 16, faulting := flags.testBit 36, demoted := flags.testBit 37
    groups := (List.range (min (sizes % 256) 32)).map fun i =>
      s.slotGroup map (at_ + 0x160 + 16 * i) (y.groups.getD i { gid := y.nextGid + i, lanes := 0, pc := 0 })
    joins := s.slotJoins map (at_ + 0x360) (sizes / 2 ^ 8 % 256)
    nextSlot := sizes / 2 ^ 16 % 2, running := none }

/-- A latch read back from its value and the word at 0x468. -/
def slotLatch (val : Nat × Bool) (w : Nat) : Option Latch :=
  if w / 2 ^ 9 % 4 = 0 then none
  else some { wide := w / 2 ^ 9 % 4 == 2, val := BitVec.ofNat 64 val.1, psn := val.2 || w.testBit 8 }

/-- A strand's registers. A name holds a register where it held one, or where its value or its poison is not zero; a
spilled one has its slot of the spill area. -/
def State.slotStrand (s : State) (map : List Nat) (j : Nat) (t : Strand) : Strand :=
  let at_ := strandAt j
  let vp := (s.slotNat map (at_ + 0x428) 32).1
  let spilt := (s.slotNat map (at_ + 0x448) 32).1
  let w := (s.slotNat map (at_ + 0x468) 8).1
  let (fv, _) := s.slotNat map (at_ + 0x470) 8
  { t with
    v := (List.range 256).filterMap fun n =>
      let r := s.slotReg map (at_ + 4 * n) vp n
      if spilt.testBit n || ((t.v.find? n).isNone && r.val == 0 && !r.psn) then none else some (n, r)
    spilled := (List.range 256).filter fun n => spilt.testBit n
    o := s.slotRegs map (at_ + 0x400) 8 w
    latch := slotLatch (s.slotNat map (at_ + 0x420) 8) w
    live := w.testBit 11
    fflags := BitVec.ofNat 5 fv, sr := srFix (BitVec.ofNat 32 (fv / 2 ^ 32)) }

def State.slotTable (s : State) (map : List Nat) (t : Nat) (x : Table) : Table :=
  let x1 := (List.range 16).foldl (fun (x : Table) i => x.takeUnit (4096 * i) (s.slotBytes map (tableAt t + 4096 * i) 4096))
    { tag := x.tag }
  match TableTag.ofBytes ((s.slotBytes map (tableAt t + 65536) 64).map Prod.fst) with
  | some (g, _) => { x1 with tag := g }
  | none => x1

def State.slotTile (s : State) (map : List Nat) (u bits : Nat) : Tile :=
  (List.range 16).foldl (fun (z : Tile) i =>
    let b := s.slotBytes map (tileAt u + 4096 * i) 4096
    let z1 := (List.range 1024).foldl (fun (z : Tile) e =>
      let n := 1024 * i + e
      z.put (n / 256) (n % 256) (leNat (((b.drop (4 * e)).take 4).map Prod.fst))) z
    { z1 with psn := z1.psn || b.any Prod.snd }) { psn := bits.testBit u }

/-- The scratchpad of a slot. -/
def State.slotPad (s : State) (map : List Nat) (units : Nat) : Memory × List Nat :=
  let b := (List.range units).flatMap fun i => s.slotBytes map (padAt + 4096 * i) 4096
  (((List.range b.length).zip b).filterMap fun e => if e.2.1 = 0 then none else some (e.1, e.2.1),
   (List.range (units * 256)).filter fun g => (b.getD (16 * g) (0, false)).2)

/-- A control register of the cable read back. -/
def State.slotCreg (s : State) (map : List Nat) (off n : Nat) (c : Cable) : Cable :=
  c.putCreg n (BitVec.ofNat 64 (s.slotNat map off 8).1)

/-- How many registers a command reads by OPD, OPA and OPB (11 Table 11.2, 13 Tables 13.1 to 13.7, 14 Table 14.3, 18 R404). -/
def commandRegs (i : Instr) : Nat × Nat × Nat :=
  match i with
  | .cpZero _ => (2, 0, 1)
  | .cp2d _ | .cpGth _ | .cpSct _ => (2, 2, 4)
  | .cpSeg _ | .tbinv _ | .zzero _ => (1, 0, 0)
  | .tbldT4 .. | .tbspill _ | .tbfill _ => (1, 2, 0)
  | .tbldG4 .. | .zld _ | .zst _ => (1, 2, 1)
  | .lmmT8 .. | .dmm .. => (1, 4, 4)
  | .lmmT4 .. | .lmmT4Rb .. | .lmmG4 .. | .lmmG4Rb .. => (1, 4, 0)
  | .saccMx f => (1, 4, if f.opb = 0 then 0 else 8)
  | .saccQ16 _ => (1, 4, 8)
  | .zmov _ => (1, 1, 0)
  | .srchDist _ | .srchKnn _ | .srchWalk _ | .srchIns _ => (2, 2, 8)
  | .srchDel _ | .srchSnap _ | .srchRel _ | .srchHeap _ | .srchReclaim _ => (2, 0, 8)
  | .fabRedAdd .. | .fabRedMin .. | .fabRedMax .. | .fabTopk _ => (2, 2, 4)
  | .fabBar _ => (0, 0, 4)
  | .fabSig _ => (0, 2, 1)
  | _ => (2, 2, 1)

/-- Registers read back from an entry: `n` of them, from number `k` on. -/
def State.slotOps (s : State) (map : List Nat) (at_ psn k n : Nat) : List PReg :=
  (List.range n).map fun i => s.slotReg map (at_ + 0x20 + 4 * (k + i)) psn (k + i)

/-- A build from registers: its ply, its first name and its count of names. -/
def Cmd.builtFrom (m : Cmd) : Option (Nat × Nat × Nat) :=
  match m.instr with
  | .tbldT4 .. | .tbldG4 .. => let t := m.buildTag; if t.kind = 1 then none else some (t.ply, t.vlo, t.vcnt)
  | _ => none

/-- The token registers of an entry: of the plies that had them, or of the plies of its scope (03 R69). -/
def Cable.slotToks (c : Cable) (m : Cmd) (te : Bool) (n ply : Nat) (sc : Scope) (word : W64) : List RegKey :=
  let plies : List Nat := match sc with
    | .strand | .ply => [ply]
    | sc => if m.tok.isEmpty || sc != m.scope then c.memberPlies sc (Common.ofWord word).lay.toNat ply
      else m.tok.filterMap fun k => match k with | .s q _ => some q | _ => none
  if te then plies.map fun q => .s q n else []

/-- Where an entry of the slot lies, and the path and instruction that it names. -/
def entryAt (i : Nat) : Nat := 0x37C000 + 128 * i
def State.slotInstr (s : State) (map : List Nat) (i : Nat) : Option (Path × Instr) :=
  (pathOf ((s.slotNat map (entryAt i + 8) 1).1 % 8)).bind fun e =>
    match decodeWord e.2 (BitVec.ofNat 64 (s.slotNat map (entryAt i) 8).1) with | .ok k => some (e.1, k) | .error _ => none

/-- A command read back from its entry and its build buffer; it resumes at its progress. An entry whose path and word are no
command's keeps its path and its instruction (DESIGN CHOICE, log 168). -/
def State.slotCmd (s : State) (map : List Nat) (c : Cable) (m : Cmd) : Cmd :=
  let at_ := entryAt m.entry
  let w := (s.slotNat map (at_ + 8) 8).1
  let last := (s.slotNat map (at_ + 0x60) 8).1
  let psn := last % 2 ^ 16
  let word : W64 := BitVec.ofNat 64 (s.slotNat map at_ 8).1
  let read := s.slotInstr map m.entry
  let instr := (read.map Prod.snd).getD m.instr
  let (nd, na, nb) := commandRegs instr
  let ply := w / 2 ^ 18 % 32
  let sc := scopeOf (w / 2 ^ 23 % 4)
  let m1 : Cmd := { m with
    word := word, path := (read.map Prod.fst).getD m.path, instr := instr
    ply := ply, strand := 32 * ply + m.strand % 32, scope := sc
    tok := c.slotToks m (w.testBit 8) (w / 2 ^ 9 % 64) ply sc word
    ce := w.testBit 3, cnt := w / 2 ^ 4 % 16, te := w.testBit 8
    state := match w / 2 ^ 15 % 8 with | 0 => .waiting | 3 => .done | _ => .running
    progress := (s.slotNat map (at_ + 0x10) 8).1, progress2 := (s.slotNat map (at_ + 0x18) 8).1
    d := s.slotOps map at_ psn 0 nd
    a := s.slotOps map at_ psn nd na
    b := s.slotOps map at_ psn (nd + na) nb
    srch := { m.srch with snap := last / 2 ^ 16 % 2 ^ 32 }
    checkStale := true }
  let from_ := m1.builtFrom
  { m1 with
    srcReg := from_
    build := match from_ with
      | some (_, _, n) => s.slotBytes map (0x385000 + 4096 * (w / 2 ^ 25 % 8)) (min 4096 (4 * n * m1.buildTag.m))
      | none => [] }

/-- A command of an entry that the device has no command for: it is made where the entry names one. A collective has no instance
to enter then, and is not made (DESIGN CHOICE, log 168). -/
def State.slotNew (s : State) (map : List Nat) (c : Cable) (i : Nat) : Option Cmd :=
  (s.slotInstr map i).bind fun e => match e.2 with
    | .fabRedAdd .. | .fabRedMin .. | .fabRedMax .. | .fabTopk _ | .fabBar _ => none
    | k => some { id := s.nextOp + i, path := e.1, instr := k, entry := i, super := c.priv != 0 }

/-- Places a command by its position in the order of issue. -/
def placeCmd (l : List (Nat × Cmd)) (e : Nat × Cmd) : List (Nat × Cmd) :=
  (l.takeWhile fun x => decide (x.1 ≤ e.1)) ++ e :: l.dropWhile fun x => decide (x.1 ≤ e.1)

/-- The commands of the entries in use, in the order of their positions (Table 16.14). A command that has retired since the save is
not made again from its entry (11 R275). -/
def State.slotCmds (s : State) (map : List Nat) (c : Cable) : List Cmd :=
  (((List.range (min 256 (s.slotNat map 0xD2 2).1)).filterMap fun i =>
    let base := match c.cmds.find? fun m => m.entry == i with
      | some m => some m
      | none => if i < c.savedEntries then none else s.slotNew map c i
    base.map fun m => ((s.slotNat map (entryAt i + 12) 4).1, s.slotCmd map c m)).foldl placeCmd []).map Prod.snd

/-- The registers that wait for tokens, after the commands have been read back: a command waits with the token registers that
it now has (01 R20). -/
def slotBoard (board : List (RegKey × Nat)) (old new : List Cmd) : List (RegKey × Nat) :=
  let had (m : Cmd) (k : RegKey) : Bool := old.any fun o => o.id == m.id && o.tok.contains k
  (board.filter fun b => !(old.any fun o => o.id == b.2) || new.any fun m => m.id == b.2 && m.tok.contains b.1) ++
  new.flatMap fun m => if m.state = .done then [] else (m.tok.filter fun k => !had m k).map fun k => (k, m.id)

/-- The operations on counters, after the commands have been read back (Table 16.14 CE and CNT). -/
def slotCntOps (ops : List CntOp) (old new : List Cmd) : List CntOp :=
  ((ops.filter fun o => !(old.any fun m => m.id == o.op) || new.any fun m => m.id == o.op && m.ce && m.cnt == o.cnt).map fun o =>
    if new.any fun m => m.id == o.op && m.state == .done then { o with done := true } else o) ++
  (new.filter fun m => m.ce && !(ops.any fun o => o.op == m.id && o.cnt == m.cnt)).map fun m =>
    { op := m.id, cnt := m.cnt, done := m.state == .done }

/-- A segment entry in use: index, virtual range, owner's or subscriber's, last number. -/
def State.slotSeg (s : State) (map : List Nat) (i : Nat) : Option (Nat × Nat × Bool × Nat) :=
  let w := (s.slotNat map (0x384000 + 16 * i) 8).1
  let u := (s.slotNat map (0x384000 + 16 * i + 8) 8).1
  if w.testBit 2 then some (u / 2 ^ 32 % 256, w / 4096 * 4096 % 2 ^ 60, w % 4 == 2, u % 2 ^ 32) else none
def State.slotSegEntries (s : State) (map : List Nat) : List (Nat × Nat × Bool × Nat) :=
  (List.range (min 192 (s.slotNat map 0xD4 2).1)).filterMap fun i => s.slotSeg map i

/-- The counters read back: what has retired since the save is gone from them (11 R275). -/
def State.slotCounters (s : State) (map : List Nat) (c : Cable) : SMap Counter :=
  let modes := (s.slotNat map 0xD0 2).1
  (List.range 16).filterMap fun i =>
    let retired := (c.savedCounters.getD i {}).val - (c.counter i).val
    let k : Counter := { val := (s.slotNat map (0xB0 + 2 * i) 2).1 - retired, strict := modes.testBit i }
    if k = {} then none else some (i, k)

/-- A timestamp of a slot, lowered by the rebases since the save (08 R230). -/
def State.slotTime (s : State) (map : List Nat) (off : Nat) (c : Cable) : Nat :=
  (s.slotNat map off 8).1 % 2 ^ 20 - rebaseBy * ((s.part c.part).rebases - c.savedRebases)

/-- The launch record of a slot; where it breaks R148, the one that the device read (DESIGN CHOICE, log 168). -/
def State.slotRecord (s : State) (map : List Nat) (c : Cable) : List W64 :=
  let r : List W64 := (List.range 16).map fun i => BitVec.ofNat 64 (s.slotNat map (8 * i) 8).1
  if recOk r false then r else c.lrec

/-- What a restore writes back from a slot into its cable. ACTIVE of `CBL_TRAP_INFO` stands in the slot twice, at `0x80` and at
`0x330`: the model restores the one at `0x80` (DESIGN CHOICE, log 163). -/
def State.readSlot (s : State) (map : List Nat) (c : Cable) : Cable :=
  let c := { c with lrec := s.slotRecord map c }
  let cmds := s.slotCmds map c
  let tilePsn := (s.slotNat map 0x350 8).1
  let (pad, psn) := s.slotPad map c.spadUnits
  let active := (s.slotNat map 0x80 8).1.testBit 37
  let c1 : Cable :=
    { c with
      k := s.slotRegs map 0x100 64 (s.slotNat map 0x200 8).1
      lays := s.slotRegs map 0x210 64 (s.slotNat map 0x208 8).1
      ept := (List.range 4).map fun i => s.slotTime map (0x90 + 8 * i) c
      counters := s.slotCounters map c
      spad := pad, spadPsn := psn
      unitCounts := (List.range c.spadUnits).filterMap fun u =>
        let v := (s.slotNat map (0x400 + 8 * u) 8).1
        if v = 0 then none else some (u, v)
      trapInfo := BitVec.ofNat 32 ((s.slotNat map 0x330 8).1 % 2 ^ 26 + bit1 active 31)
      laFlags := BitVec.ofNat 32 (s.slotNat map 0x348 8).1
      tables := (List.range c.tableCount).map fun t => (t, s.slotTable map t (c.tableReg t))
      tiles := (List.range c.tileCount).map fun u => (u, s.slotTile map u tilePsn)
      plies := (List.range c.plyCount).map fun q => (q, s.slotPly map q (c.ply q))
      strands := (List.range (32 * c.plyCount)).map fun j => (j, s.slotStrand map j (c.strand j))
      cmds := cmds, board := slotBoard c.board c.cmds cmds, cntOps := slotCntOps c.cntOps c.cmds cmds }
  [(0x310, 0x100), (0x318, 0x101), (0x320, 0x102), (0x328, 0x103), (0x338, 0x105), (0x340, 0x106), (0x358, 0x109), (0x360, 0x10A),
   (0x368, 0x10C), (0x370, 0x10D), (0x378, 0x10E), (0x380, 0x10F)].foldl (fun c e => s.slotCreg map e.1 e.2 c) c1

end Sys2Proof.Machine
end

