-- ==== Sys2Proof/Machine/Placement.lean ====
section
/-! DEFINITION. The end of a save, restores, placement (05 R150 to R153, R161; 08 R237; 14 R354; 16 R379 to R382;
19 R433, R434). -/
namespace Sys2Proof.Machine

/-! ### Restores (16 R382) -/

/-- A segment resubscribes with its last number (07 Table 7.8). One that was saved before the snapshot it had asked for
came has no number to go on from: it asks for a snapshot (DESIGN CHOICE, log 117). -/
def State.resubscribe (s : State) (g : Seg) : Seg :=
  match s.dirs.find? g.range with
  | none => { g with state := .current }
  | some d =>
    let behind := (d.seq + 2 ^ 32 - g.last) % 2 ^ 32
    if g.synced && behind == 0 then { g with state := .current }
    else if g.synced && behind ≤ 256 && behind ≤ d.log.length then
      { g with state := .inTransit, snapshot := none, inbox := (d.log.drop (d.log.length - behind)).map fun u => { u with sent := s.stepCount } }
    else
      { g with state := .inTransit, inbox := [], snapshot := some (d.seq, s.pageImage g.range), sent := s.stepCount }

/-- The number of a segment as an entry of the slot has it: index, virtual range, kind, number. -/
def Cable.numberSeg (c : Cable) (e : Nat × Nat × Bool × Nat) (joined : Bool) : Cable :=
  { c with segs := c.segs.map fun (x : Nat × Seg) =>
      if x.1 = e.1 ∧ x.2.va = e.2.1 ∧ x.2.owned = e.2.2.1 then (x.1, { x.2 with last := e.2.2.2, synced := x.2.synced || joined }) else x }

/-- A cable's segments as the entries of its slot have them (R382): one whose index, range and kind stand there keeps its place with
the number there; others leave their ranges, and entries that the device has no segment for join theirs, as `sub` would
(DESIGN CHOICE, log 168). -/
def State.slotSegs (s : State) (uid : Nat) : State :=
  let c := s.cable uid
  let entries := s.slotSegEntries c.slotMap
  let stands (k : Nat) (g : Seg) : Bool := entries.any fun e => e.1 == k && e.2.1 == g.va && e.2.2.1 == g.owned
  let s1 := (c.segs.filter fun (e : Nat × Seg) => !stands e.1 e.2).foldl (fun (s : State) e =>
    (s.leaveRange uid e.2.range e.1).updCable uid fun c => { c with segs := c.segs.erase e.1 }) s
  entries.foldl (fun (s : State) e =>
    if ((s.cable uid).segs.find? e.1).isSome then s.updCable uid fun c => c.numberSeg e false
    else match s.translateEngine c.ctx e.2.1 .read (c.priv == 0) with
      | (s1, .error _) => s1
      | (s1, .ok p) =>
        (s1.subscribe uid (p.pa / 4096) e.2.1 e.1 e.2.2.1 p.esr).1.updCable uid fun c => c.numberSeg e true) s1

/-- The search commands of a slot that are not as the device has them are prepared as at their issue (14 R344); one that has a
fault then is not made (DESIGN CHOICE, log 168). -/
def State.slotSearches (s : State) (old : Cable) (c : Cable) : State × List Cmd :=
  c.cmds.foldl (fun (b : State × List Cmd) m =>
    if m.path ≠ .srch ∨ m.state = .done ∨ (old.cmds.any fun o => o.id == m.id && o.word == m.word && o.d == m.d && o.a == m.a && o.b == m.b) = true
    then (b.1, b.2 ++ [m])
    else match b.1.srchPlan c m with
      | (s1, .ok m1) => (s1, b.2 ++ [{ m1 with srch := { m1.srch with snap := m.srch.snap } }])
      | (s1, .error _) => (s1, b.2)) (s, [])

/-- The slot of a restored cable is free; a restore from its context's pool posts a record of cause 27. -/
def State.freeRestored (s : State) (c : Cable) (core slot : Nat) (device : Bool) : State :=
  if device then s.updPart c.part fun p => { p with devSlots := p.devSlots.erase slot }
  else (s.updCtx c.ctx fun x => { x with slots := x.slots.erase slot }).postCollector c.ctx core 27 c.cid
    ((s.ctx c.ctx).slotVa slot) 0 (some c)

/-- Restores a saved cable on a core. Every register of its slot is written back, so it is placed only where `State.mayTake`
finds the register file large enough for them (R3). -/
def State.restore (s : State) (uid core : Nat) : State :=
  let c := s.cable uid
  let at_ := match c.state with | .saved n d => some (n, d) | .requeued n d => some (n, d) | _ => none
  match at_ with
  | none => s
  | some (slot, device) =>
    let s0 := (s.raiseP core (s.slotTime c.slotMap 0x88 c)).slotSegs uid
    let c := s0.cable uid
    let read := s0.readSlot c.slotMap c
    let units := (s0.freeUnits core).take read.spadUnits
    let segs := c.segs.map fun (e : Nat × Seg) => (e.1, s0.resubscribe e.2)
    let (s0, cmds) := { s0 with nextOp := s0.nextOp + 256 }.slotSearches c { read with state := .placed core, lastCore := core }
    let s0 := segs.foldl (fun (s : State) e => if e.2.snapshot.isSome then s.touchSpan (e.2.range * 4096) 4096 else s) s0
    let new : Cable := { read with
      state := .placed core, lastCore := core, order := (s0.core core).placedCount, since := s0.clock, units := units
      cmds := cmds, segs := segs, resuming := segs.any fun (e : Nat × Seg) => e.2.state != SegState.current
      saving := none, slotMap := [], savedWaits := [], savedCounters := [], savedEntries := 0 }.resumePlies
    let new := (List.range 16).foldl Cable.retire new
    let s1 := s0.seat core units
    let s2 := { s1 with cables := s1.cables.insert uid new, waiters := s1.waiters ++ c.savedWaits }
    let s3 := (c.savedWaits.filter fun w => w.status.isNone).foldl (fun s w => s.releaseWaiter w 2 none) s2
    (s3.freeRestored new core slot device).checkMismatch uid

/-- A core may take a cable: within its cluster where it must be (09 R266), and for a restore with registers enough for all
that its slot gives back (00 R3: a core has 131,072; a cable that had grown beyond its reservation waits for them, DESIGN
CHOICE, log 140). -/
def State.mayTake (s : State) (c : Option Cable) (core : Nat) : Bool :=
  match c with
  | some c => s.clusterOk c core && s.poolUse core + (s.readSlot c.slotMap c).poolUse ≤ Config.physRegs
  | none => true

/-! ### SAVE_COMPLETE (R379) -/

/-- Everything of the cable has stopped at its granularity and every write it has in flight has taken effect. -/
def State.saveReady (s : State) (c : Cable) : Bool :=
  (c.plies.vals.all fun y => y.running.isNone && y.unack == 0) &&
  !(s.txns.vals.any fun t => t.uid == c.uid) &&
  !((s.core c.coreD).wc.any fun e => e.stores.any fun a => a.1 == c.uid) &&
  !((s.core c.coreD).banks.vals.any fun q => q.any fun b => b.uid == c.uid) &&
  !(c.cmds.any fun m => m.path == .srch && m.srchOp.mustComplete && m.state != .done) &&
  !(s.outMsgs.any fun o => match o.cmd with | some (u, _) => u == c.uid | none => false)

/-- The commands of a cable by their entries in its slot. -/
def Cable.numberCmds (c : Cable) : List Cmd := ((List.range c.cmds.length).zip c.cmds).map fun e => { e.2 with entry := e.1 }

/-- A saved cable leaves its core: its waiters and segments are put away. A waiter that a `wake` or its timeout has already
released keeps its status (09 R260). -/
def State.putAway (s : State) (c : Cable) (v : Saving) : State :=
  let mine := s.waiters.filter fun w => w.uid == c.uid
  let s1 := { s with waiters := s.waiters.filter fun w => w.uid != c.uid }
  let s2 := s1.updCable c.uid fun c =>
    { c with
      state := .saved v.slot v.device, saving := none, units := [], savedWaits := mine
      savedRebases := (s.part c.part).rebases, savedCounters := c.counters, savedEntries := c.cmds.length, cmds := c.numberCmds
      segs := c.segs.map fun (e : Nat × Seg) => (e.1, { e.2 with state := .saved, snapshot := none, inbox := [], pendingStores := 0 }) }
  s2.markIdle c.coreD

/-- What follows the save: the record of a supervisor save; a migration's restore on its core where the cable still fits
there and the core has not come within 5 °C of MIG meanwhile (19 R434), else its queue; a shed cable's place in its queue. -/
def State.afterSave (s : State) (c : Cable) (v : Saving) : State :=
  if !v.device then s.postCollector c.ctx c.coreD 26 c.cid ((s.ctx c.ctx).slotVa v.slot) 0 (some c)
  else match v.migrateTo with
    | some k =>
      if s.fits k c.lrec && s.mayTake (some (s.cable c.uid)) k && s.cool k then s.restore c.uid k else s.requeue c.uid
    | none => if v.requeue then s.requeue c.uid else s

def execSaveComplete (uid : Nat) (s : State) : Host.Outcome State Fault Refusal :=
  let s := s.postUnsaved uid
  .next (match (s.cable uid).saving with
    | none => s
    | some v =>
      if !(s.cable uid).isPlaced then s
      else
        let s1 := s.drainPlies uid (List.range (s.cable uid).plyCount)
        let c := s1.cable uid
        if !s1.saveReady c then s1
        else
          let s1 := s1.landCable uid
          let c := s1.cable uid
          let p := (s1.core c.coreD).p
          let waiting := (s1.waiters.filter fun w => w.uid == uid && w.status.isNone).map Waiter.strand
          ((s1.writeSlot c.part c.slotMap (slotPieces c p waiting)).putAway c v).afterSave c v)

/-! ### LAUNCH_ENTER, PLACEMENT (05 R150 to R153) -/

def execLaunchEnter (launch : Nat) (s : State) : Host.Outcome State Fault Refusal := .next (s.enterLaunch launch)

/-- The record and the cable, if it has one already, at the head of a queue. -/
def State.headOf (s : State) (q : QItem) : Option (List W64 × Option Cable) :=
  match q with
  | .coil id => (s.coils.find? id).map fun k => (k.lrec, none)
  | .restore uid => (s.cables.find? uid).map fun c => (s.slotRecord c.slotMap c, some c)

/-- Contexts of a partition in the rotation of a priority: from the one after that served last. R152 does not say where
the rotation begins; the model begins with context 1 (DESIGN CHOICE, log 118). -/
def State.rotation (s : State) (part prio : Nat) : List Nat :=
  (List.range 16).map fun i => 16 * part + ((s.part part).rot.getD prio 0 + 1 + i) % 16

/-- The heads of a partition's queues in the order in which they are tried: priority, context, item. -/
def State.heads (s : State) (part : Nat) : List (Nat × Nat × QItem) :=
  (List.range 8).flatMap fun i => (s.rotation part (7 - i)).filterMap fun x =>
    match (s.ctx x).queues.getD (7 - i) [] with
    | q :: _ => if (s.ctx x).en then some (7 - i, x, q) else none
    | [] => none

/-- The head leaves its queue: a coil's once its last cable is placed. -/
def State.popHead (s : State) (prio ctx : Nat) (q : QItem) : State :=
  let spent := match q with
    | .coil id => (match s.coils.find? id with | some k => decide (recCables k.lrec ≤ k.placedCables) | none => true)
    | .restore _ => true
  let s1 := s.updPart (ctx / 16) fun p => { p with rot := p.rot.insert prio (ctx % 16) }
  if spent then s1.updCtx ctx fun x => { x with queues := x.queues.modify prio List.tail } else s1

/-- Places one head on a core. -/
def State.placeHead (s : State) (q : QItem) (core : Nat) : State :=
  match q with | .coil id => s.placeNew id core | .restore uid => s.restore uid core

/-- Serves the queues of a partition once: the first head that fits is placed; where none fits, gated sections wake for
the first that would fit with them. -/
def State.place (s : State) (part : Nat) : State :=
  let tries := (s.heads part).filterMap fun e => (s.headOf e.2.2).map fun h => (e, h)
  let found := tries.findSome? fun t =>
    (s.bestCore part fun k => s.mayTake t.2.2 k && s.fits k t.2.1).map fun k => (t.1, k)
  match found with
  | some ((prio, ctx, q), k) => (s.placeHead q k).popHead prio ctx q
  | none =>
    match tries.findSome? fun t => s.bestCore part fun k => s.mayTake t.2.2 k && s.fitsAwake k t.2.1 && !(s.core k).gated.isEmpty with
    | some k => s.updCore k fun x => { x with waking := x.gated.foldl (fun l n => setInsert n l) x.waking }
    | none => s

/-- Placement while the module is in service, the partition enabled, and no shedding pauses it (19 R433). -/
def execPlacement (part : Nat) (s : State) : Host.Outcome State Fault Refusal :=
  .next (if s.ready && decide (part < 16) && (s.part part).en && !s.pwrShed then s.place part else s)

end Sys2Proof.Machine
end

