-- ==== Sys2Proof/Machine/Registers.lean ====
section
/-! DEFINITION. The control registers of contexts and of the module: what a read gives and what a write does
(05 Table 5.9; 07 Tables 7.3, 7.4, 7.7; 16 Tables 16.3 to 16.8, 16.17; 18 Tables 18.4, 18.5, 18.13; 19 Tables 19.6, 19.7, 19.9). -/
namespace Sys2Proof.Machine

def bitsOf (v : W64) (lo n : Nat) : Nat := v.toNat / 2 ^ lo % 2 ^ n
def clampTo (lo hi x : Nat) : Nat := max lo (min hi x)

/-! ### The fault queue (16 R365) -/

/-- Whether a queue's HEAD may move to a new value: it advances, and never past TAIL. -/
def headOk (old new tail : BitVec 16) : Bool := decide ((new - old).toNat ≤ (tail - old).toNat)
/-- A record's index lies in the queue still. -/
def unserved (head tail : BitVec 16) (i : Nat) : Bool := decide ((BitVec.ofNat 16 i - head).toNat < (tail - head).toNat)

/-- A write of `CTX_FQ_CTL`. -/
def State.writeFqCtl (s : State) (ctx : Nat) (v : W64) : State :=
  let x := s.ctx ctx
  let want := BitVec.ofNat 16 (bitsOf v 0 16)
  let head := if headOk x.fqHead want x.fqTail then want else x.fqHead
  let log := clampTo 6 15 (bitsOf v 16 5)
  (s.updCtx ctx fun x => { x with
    fqHead := head
    fqLog := if head = x.fqTail ∧ x.fqWaiting = [] then log else x.fqLog
    pfhPages := x.pfhPages.filter fun e => unserved head x.fqTail e.2 }).drainFq ctx

/-- A write of `DEV_FWQ` for a partition (19 R440). -/
def State.writeFwq (s : State) (part : Nat) (v : W64) : State :=
  let q := s.part part
  let want := BitVec.ofNat 16 (bitsOf v 0 16)
  let head := if headOk q.fwHead want q.fwTail then want else q.fwHead
  (s.updPart part fun q => { q with
    fwHead := head, fwPdrop := q.fwPdrop && bitsOf v 32 1 == 1
    pfhPages := q.pfhPages.filter fun e => unserved head q.fwTail e.2.2 }).drainFw part

/-! ### Context registers (19 R436) -/

def ctxMask (lo hi : Nat) (v : W64) : W64 := BitVec.ofNat 64 (bitsOf v lo (hi - lo) * 2 ^ lo)

/-- A read of a register of an enabled context. -/
def State.readCtx (s : State) (ctx n : Nat) : Nat :=
  let x := s.ctx ctx
  if !x.en then 0
  else if n = 0x180 then x.minres
  else if n = 0x181 then x.lease
  else if n = 0x182 then x.fqBase.toNat
  else if n = 0x183 then x.fqHead.toNat + x.fqLog * 2 ^ 16
  else if n = 0x184 then x.fqTail.toNat + bit1 x.fqPdrop 16
  else if n = 0x185 then x.resume.toNat
  else if n = 0x186 then x.ptbr.toNat
  else if n = 0x187 then x.tlbinv.toNat
  else if n = 0x188 then x.saveBase.toNat
  else if n = 0x189 then x.nslot + (x.nslot - (x.slots.filter fun e => e.1 < x.nslot).length) * 2 ^ 16
  else if n = 0x18C then x.rlogBase.toNat
  else if n = 0x18D then x.rlogMode + x.rlogLog * 4 + x.rlogHead.toNat * 2 ^ 32
  else if n = 0x18E then x.rlogTail.toNat
  else if n = 0x18F then bit1 x.peerEn 0
  else if n = 0x191 then x.gpfBusy.toNat * 2 ^ 8
  else 0

/-- A flush starts on the expander ports that a write of `CTX_GPF` names (18 R423): a port serves the contexts in turn, and a
context that has one in progress there starts no other (DESIGN CHOICE, log 144). -/
def State.startGpf (s : State) (ctx : Nat) (v : W64) : State :=
  [0, 1].foldl (fun s n =>
    if v.getLsbD n && (s.port n).mode == 2 && (s.port n).online && !(s.port n).gpf.contains ctx then
      (s.updPort n fun p => { p with gpf := p.gpf ++ [ctx] }).updCtx ctx fun x => { x with gpfBusy := x.gpfBusy ||| ((1 : BitVec 2) <<< n) }
    else s) s

/-- A write of a register of an enabled context. -/
def State.writeCtx (s : State) (ctx n : Nat) (v : W64) : State :=
  let set (f : Context → Context) : State := s.updCtx ctx f
  if !(s.ctx ctx).en then s
  else if n = 0x180 then set fun x => { x with minres := max 2000 (bitsOf v 0 24) }
  else if n = 0x181 then set fun x => { x with lease := max 1 (bitsOf v 0 8) }
  else if n = 0x182 then set fun x => { x with fqBase := ctxMask 12 60 v }
  else if n = 0x183 then s.writeFqCtl ctx v
  else if n = 0x184 then set fun x => { x with fqPdrop := x.fqPdrop && v.getLsbD 16 }
  else if n = 0x185 then s.writeResumeAt ctx v (s.observedIn ctx)
  else if n = 0x186 then set fun x => { x with ptbr := ctxMask 12 48 v }
  else if n = 0x187 then s.tlbInvalidate ctx v
  else if n = 0x188 then set fun x => { x with saveBase := ctxMask 22 60 v }
  else if n = 0x189 then set fun x => { x with nslot := x.slots.keys.foldl (fun m i => max m (i + 1)) (bitsOf v 0 16) }
  else if n = 0x18A then s.preempt ctx (bitsOf v 0 24)
  else if n = 0x18B then s.restoreSlot ctx (bitsOf v 0 16)
  else if n = 0x18C then set fun x => { x with rlogBase := ctxMask 12 60 v }
  else if n = 0x18D then set fun x => { x with
    rlogHead := BitVec.ofNat 32 (bitsOf v 32 32), rlogLog := clampTo 10 26 (bitsOf v 2 6)
    rlogMode := if bitsOf v 0 2 = 3 then 0 else bitsOf v 0 2, rlogFull := false, rlogDone := [] }
  else if n = 0x18E then set fun x => if x.rlogMode = 2 then { x with rlogTail := BitVec.ofNat 32 (bitsOf v 0 32) } else x
  else if n = 0x18F then set fun x => { x with peerEn := v.getLsbD 0 }
  else if n = 0x190 then { s with msix := s.msix ++ [bitsOf v 0 11] }
  else if n = 0x191 then s.startGpf ctx v
  else s

def execCtxTlbinv (ctx : Nat) (value : W64) (s : State) : Host.Outcome State Fault Refusal := .next (s.writeCtx ctx 0x187 value)
def execCtxFqCtl (ctx : Nat) (value : W32) (s : State) : Host.Outcome State Fault Refusal :=
  .next (s.writeCtx ctx 0x183 (value.setWidth 64))
def execCtxNotify (ctx : Nat) (value : W32) (s : State) : Host.Outcome State Fault Refusal :=
  .next (s.writeCtx ctx 0x190 (value.setWidth 64))
def execCtxGpfStart (ctx : Nat) (value : W32) (s : State) : Host.Outcome State Fault Refusal :=
  .next (s.writeCtx ctx 0x191 (value.setWidth 64))

/-- A read of `CTX_FQ_TAIL` by a cable acts as an acquire: P rises to the writes of the posted records (16 R365). -/
def State.acquireTail (s : State) (uid : Nat) : State :=
  let c := s.cable uid
  match c.core? with
  | some k => s.raiseP k (s.ctx c.ctx).fqW
  | none => s

def execCtxFqTailRead (uid : Nat) (s : State) : Host.Outcome State Fault Refusal := .next (s.acquireTail uid)

def nodeOfPort (port : Nat) : Nat := port + 2
def onPort (port pa : Nat) : Bool := nodeOf pa == some (nodeOfPort port)

/-- The device behind a port holds what the LLC holds of it: its lines are clean. -/
def State.flushPort (s : State) (port : Nat) : State :=
  { s with lines := s.lines.map fun (e : Nat × Line) =>
      if onPort port (e.1 * 128) then (e.1, { e.2 with dirty := false, far := none }) else e }

/-- A flush completes (18 R423): from here on the image is durable. One whose node has gone offline never does. -/
def execGpfComplete (port : Nat) (s : State) : Host.Outcome State Fault Refusal :=
  .next (match (s.port port).gpf with
    | ctx :: rest => ((s.flushPort port).updPort port fun p => { p with gpf := rest }).updCtx ctx fun x =>
        { x with gpfBusy := x.gpfBusy &&& ~~~((1 : BitVec 2) <<< port) }
    | [] => s)

/-! ### Partitions (19 R431) -/

/-- A partition holds a placed or saved cable, or an enabled context. -/
def State.partBusy (s : State) (p : Nat) : Bool :=
  (s.cables.vals.any fun c => c.part == p && c.state != .ended) || s.ctxs.any fun e => e.1 / 16 == p && e.2.en

/-- The register value of a partition. -/
def Partition.word (q : Partition) : Nat :=
  bit1 q.en 63 + q.domain % 16 * 2 ^ 56 + q.hbm % 128 * 2 ^ 49 + q.ways.toNat * 2 ^ 32 + q.fab % 128 * 2 ^ 24

/-- The enabled partitions obey R431. -/
def partsOk (l : List Partition) : Bool :=
  let on := l.filter fun q => q.en
  (on.foldl (fun n q => n + q.hbm) 0 ≤ 64) && (on.foldl (fun n q => n + q.fab) 0 ≤ 64) &&
  (List.range on.length).all fun i => (List.range i).all fun j =>
    let a := on.getD i {}
    let b := on.getD j {}
    a.ways &&& b.ways == 0 && a.domain != b.domain

/-- The ways of enabled partitions: the others are gated (R432). -/
def State.assignedWays (s : State) : BitVec 16 :=
  s.parts.vals.foldl (fun m q => if q.en then m ||| q.ways else m) 0

/-- The ways that were gated before a change of the partitions wake: within 2 µs (07 R205; log 121). -/
def State.wakeWays (s : State) (before : BitVec 16) : State :=
  let fresh := (List.range 16).filter fun w => s.assignedWays.getLsbD w && !before.getLsbD w
  { s with wayWake := fresh.foldl (fun m w => m.insert w (s.cycle + min 6000 (Config.wakeCycles s.stepCount))) s.wayWake }

/-- A write of `DEV_PART_CFG`: the partition's lines leave the LLC, and ways that were gated wake, with every line invalid. -/
def State.writePartCfg (s : State) (v : W64) : State :=
  let p := s.partSel
  let new (q : Partition) : Partition := { q with
    en := v.getLsbD 63, domain := bitsOf v 56 4, hbm := bitsOf v 49 7, ways := BitVec.ofNat 16 (bitsOf v 32 16), fab := bitsOf v 24 7 }
  if s.partBusy p then { s with partResult := 1 }
  else if !partsOk ((List.range 16).map fun i => if i = p then new (s.part i) else s.part i) then { s with partResult := 2 }
  else
    let mine := s.lines.filter fun e => e.2.inLlc && s.owner (e.1 * 128) == p
    ({ (mine.foldl (fun (s : State) (e : Nat × Line) => s.evict e.1) s).updPart p new with partResult := 0 }).wakeWays s.assignedWays

/-- A write of `DEV_CORE_MAP`; a core number beyond 703 breaks a constraint. -/
def State.writeCoreMap (s : State) (v : W64) : State :=
  let core := bitsOf v 32 10
  let busy := (v.getLsbD 4 && s.partBusy (bitsOf v 0 4)) || (match s.corePart core with | some p => s.partBusy p | none => false)
  if Config.cores ≤ core then { s with partResult := 2 }
  else if busy then { s with partResult := 1 }
  else { s with coreMapReg := BitVec.ofNat 64 (core * 2 ^ 32), coreMap := s.coreMap.insert core (bitsOf v 0 5), partResult := 0 }

/-! ### Contexts (19 R437, R438) -/

def State.ctxCables (s : State) (ctx : Nat) : List Cable := s.cables.vals.filter fun c => c.ctx == ctx && c.state != .ended

/-- Discards the launches of a context that have cables not yet placed. -/
def State.dropLaunches (s : State) (ctx : Nat) : State :=
  (s.coils.vals.filter fun c => c.ctx == ctx && c.placedCables < recCables c.lrec).foldl (fun s c =>
    let total := recCables c.lrec
    let ended := c.endedCables + (total - c.placedCables)
    let s1 := { s with coils := s.coils.insert c.id { c with queued := true, placedCables := total, endedCables := ended } }
    if ended = total then s1.endCoil c.id else s1)
    (s.updCtx ctx fun x => { x with queues := x.queues.map fun q => q.filter fun i => match i with | .coil _ => false | _ => true })

/-- Discards a saved cable; its slot is free. -/
def State.discardSaved (s : State) (c : Cable) : State :=
  let s1 := ((s.withdraw c.uid).dropSave c.uid).updCtx c.ctx fun x =>
    { x with queues := x.queues.map fun q => q.filter fun i => i != .restore c.uid }
  { s1 with cables := s1.cables.insert c.uid c.ashes }.countEnded c.coil

/-- TERM of a context (R437). -/
def State.termCtx (s : State) (ctx : Nat) : State :=
  let all := s.ctxCables ctx
  let s1 := (all.filter fun c => c.isPlaced).foldl (fun s c => (s.terminate c.uid).withdraw c.uid) (s.dropLaunches ctx)
  (all.filter fun c => c.isSaved).foldl State.discardSaved s1

/-- A context that may be disabled. -/
def State.ctxIdle (s : State) (ctx : Nat) : Bool :=
  (s.ctxCables ctx).isEmpty && s.launchesOf ctx == 0 && (s.ctx ctx).handles.isEmpty

/-- A context takes or loses its place: its registers are as after reset, no TLB holds an entry of it, and no record waits for an
event page that it had. -/
def State.setCtx (s : State) (ctx : Nat) (en : Bool) : State :=
  let keep (l : List TlbEntry) := l.filter fun e => e.ctx != ctx
  { s with
    ctxs := if en then s.ctxs.insert ctx { Context.fresh with en := true } else s.ctxs.erase ctx
    cores := s.cores.map fun (c, k) => (c, { k with tlb := keep k.tlb })
    l2tlb := s.l2tlb.map fun (c, l) => (c, keep l)
    evPending := s.evPending.map fun (e : Nat × Nat × List (Byte × Bool)) => if e.2.1 = ctx then (e.1, 256, e.2.2) else e }

/-- A write of `DEV_CTX_CFG` for a context; its RESULT beside the state. -/
def State.configCtx (s : State) (ctx : Nat) (en term : Bool) : State × Nat :=
  let was := (s.ctx ctx).en
  if term && !was then (s, 2)
  else
    let s1 := if term then s.termCtx ctx else s
    if was == en then (s1, 0)
    else if en then (if (s1.part (ctx / 16)).en then (s1.setCtx ctx true, 0) else (s1, 2))
    else if s1.ctxIdle ctx then (s1.setCtx ctx false, 0) else (s1, 1)

def State.writeCtxCfg (s : State) (en term : Bool) : State :=
  let (s1, r) := s.configCtx s.ctxSel en term
  { s1 with ctxResult := r }

/-- Launches the record at an address in a context, as a supervisor cable of it would (R438); none while the context
has no room for one more launch. -/
def State.launchIn (s : State) (ctx va : Nat) : Option (State × Nat) :=
  if !(s.ctx ctx).en then some (s, 3)
  else match s.readRecord ctx va false with
    | (s1, .error _) => some (s1, 3)
    | (s1, .ok (r, ks)) =>
      if (recDone r).isSome || recField r 0x30 0 64 != 0 || recPriv r != 1 then some (s1, 3)
      else if 4096 ≤ s1.launchesOf ctx then none
      else some (s1.applyLaunch ctx none r ks, 0)

def State.writeCtxLaunch (s : State) (v : W64) : State :=
  match s.launchIn s.ctxSel (bitsOf v 7 53 * 128) with
  | some (s1, r) => { s1 with ctxResult := r }
  | none => { s with fwLaunch := some (s.ctxSel, v) }

/-- A write of `DEV_CTX_LAUNCH` that waits for room is tried again (06 R177): the state, and whether firmware goes on. -/
def State.fwRetry (s : State) : State × Bool :=
  match s.fwLaunch with
  | none => (s, true)
  | some (ctx, v) => match s.launchIn ctx (bitsOf v 7 53 * 128) with
    | some (s1, r) => ({ s1 with ctxResult := r, fwLaunch := none }, true)
    | none => (s, false)

/-! ### Reset (19 R424) -/

/-- A dirty line that is dropped leaves what the far device holds. -/
def State.revertLine (s : State) (l : Nat) : State :=
  match (s.lines.getD l {}).far with
  | none => s
  | some (bytes, psn) =>
    { s with mem := Memory.writeN (l * 128) bytes s.mem
             psn := psn.foldl (fun m g => setInsert g m) (s.psn.filter fun g => g / 8 != l) }

/-- The dirty lines of the LLC are lost with its contents. -/
def State.dropDirty (s : State) : State := s.lines.keys.foldl (fun s l => s.revertLine l) s

/-- The bytes and poison of nodes 2 and 3, which a reset leaves: what the devices there hold. -/
def farMemory (s : State) : Memory × List Nat :=
  let s := s.dropDirty
  (s.mem.filter fun c => 0x100000000000 ≤ c.1, s.psn.filter fun g => 0x10000000000 ≤ g)

/-- A module reset: everything of the earlier chapters is discarded but the contents of nodes 2 and 3; the fuses stay
blown. -/
def State.moduleReset (s : State) : State :=
  { State.reset with
    agenda := s.agenda, stepCount := s.stepCount, mem := (farMemory s).1, psn := (farMemory s).2, svn := s.svn }

/-! ### Module registers -/

/-- Placed and saved cables of a context, saturating. -/
def State.cableCount (s : State) (ctx : Nat) : Nat := min 65535 (s.ctxCables ctx).length

def Port.word (p : Port) : Nat := bit1 p.online 31 + p.mode % 4 * 2 ^ 29 + p.width % 8 * 2 ^ 26 + p.cto % 2 ^ 24

/-- The way the register `DEV_SVN` rises (R427). -/
def State.writeSvn (s : State) (v : W64) : State := { s with svn := max s.svn (min 64 (bitsOf v 0 7)) }

def State.readDev (s : State) (n : Nat) : Nat :=
  if n = 0x200 then s.tickDiv
  else if n = 0x201 then s.rdmThresh + s.rdmBlast * 2 ^ 16
  else if n = 0x202 then s.fabId
  else if n = 0x203 then s.fabTmo
  else if n = 0x204 ∨ n = 0x205 then (s.port (n - 0x204)).word
  else if n = 0x206 ∨ n = 0x207 then
    (s.port (n - 0x206)).mbox.toNat + bit1 (s.port (n - 0x206)).mboxEn 0
  else if n = 0x208 then s.partSel + s.partResult * 2 ^ 28
  else if n = 0x209 then (s.part s.partSel).word
  else if n = 0x20A then s.coreMapReg.toNat + s.coreMap.getD (bitsOf s.coreMapReg 32 10) 0
  else if n = 0x20B then s.pwrLimit
  else if n = 0x20C then s.thermGidle + s.thermMig * 2 ^ 16 + s.thermTrip * 2 ^ 24
  else if n = 0x20D then s.pwrWatts + bit1 s.pwrNoslot 17 + bit1 s.pwrShed 18
  else if n = 0x20E then s.svn
  else if n = 0x210 then s.ctxSel
  else if n = 0x211 then s.cableCount s.ctxSel + s.ctxResult * 2 ^ 28 + bit1 (s.ctx s.ctxSel).en 31
  else if n = 0x213 then
    let q := s.part s.partSel
    q.fwHead.toNat + q.fwTail.toNat * 2 ^ 16 + bit1 q.fwPdrop 32
  else 0

/-- A node comes back once its link has been retrained (18 R420): WIDTH is the width to which it trained, which the spec leaves
to the link (log 142). -/
def State.trainedPort (s : State) (n : Nat) : State :=
  s.updPort n fun p => { p with online := true, width := if p.online then p.width else 2 + (Config.freeWidth s.stepCount).val }

/-- A write of a port's control register (18 Table 18.13). -/
def State.writePort (s : State) (n : Nat) (v : W64) : State :=
  (if v.getLsbD 31 then s.trainedPort n else s).updPort n fun p => { p with
    mode := if bitsOf v 29 2 = 3 then 0 else bitsOf v 29 2, cto := max 50 (bitsOf v 0 24) }

/-- A write of `DEV_THERM`: TRIP first, then MIG within it. -/
def State.writeTherm (s : State) (v : W64) : State :=
  let trip := clampTo 90 110 (bitsOf v 24 8)
  { s with thermTrip := trip, thermMig := clampTo 60 (trip - 5) (bitsOf v 16 8), thermGidle := max 1 (bitsOf v 0 16) }

def State.writeDev (s : State) (n : Nat) (v : W64) : State :=
  if n = 0x200 then
    let d := max 256 (bitsOf v 0 16)
    { s with tickDiv := d, nextTick := s.cycle + d }
  else if n = 0x201 then { s with rdmThresh := max 64 (bitsOf v 0 16), rdmBlast := max 1 (bitsOf v 16 2) }
  else if n = 0x202 then { s with fabId := bitsOf v 0 12 }
  else if n = 0x203 then { s with fabTmo := max 1000 (bitsOf v 0 24) }
  else if n = 0x204 ∨ n = 0x205 then s.writePort (n - 0x204) v
  else if n = 0x206 ∨ n = 0x207 then s.updPort (n - 0x206) fun p => { p with mbox := ctxMask 12 48 v, mboxEn := v.getLsbD 0 }
  else if n = 0x208 then { s with partSel := bitsOf v 0 4 }
  else if n = 0x209 then s.writePartCfg v
  else if n = 0x20A then s.writeCoreMap v
  else if n = 0x20B then { s with pwrLimit := clampTo 1000 5800 (bitsOf v 0 13) }
  else if n = 0x20C then s.writeTherm v
  else if n = 0x20E then s.writeSvn v
  else if n = 0x20F then (if v.getLsbD 0 then s.moduleReset else s)
  else if n = 0x210 then { s with ctxSel := bitsOf v 0 8 }
  else if n = 0x211 then s.writeCtxCfg (v.getLsbD 31) (v.getLsbD 30)
  else if n = 0x212 then s.writeCtxLaunch v
  else if n = 0x213 then s.writeFwq s.partSel v
  else s

end Sys2Proof.Machine
end

