-- ==== Sys2Proof/Machine/Ring.lean ====
section
/-! DEFINITION. Stage-ring instructions (05 R157 to R160; 06 R175). -/
namespace Sys2Proof.Machine

/-- The fields of a ring descriptor (Table 5.7). -/
structure RingDesc where
  cons : Nat
  prod : Nat
  slotsz : Nat
  slots : Nat
  base : Nat
  getix : Nat
  putix : Nat
  h : Nat
  f : Nat
deriving DecidableEq, Repr, Inhabited

/-- A side of a ring: a ply or a lay (Table 5.7). -/
def ringSideOk (n : Nat) : Bool := n < 36

/-- A descriptor from its words; none where a reserved bit is set or R157 is broken. R157 gives no rule for a PUTIX or GETIX
above NSLOT: the model takes the F and H bits and the place of that number, outside the slots (DESIGN CHOICE, log 119). -/
def RingDesc.ofWords (w0 w1 spad : Nat) : Option RingDesc :=
  let d : RingDesc :=
    { cons := w0 / 2 ^ 54 % 64, prod := w0 / 2 ^ 48 % 64, slotsz := w0 / 2 ^ 32 % 2 ^ 16, slots := w0 / 2 ^ 20 % 16 + 1
      base := w0 % 2 ^ 20, getix := w1 / 2 ^ 36 % 16, putix := w1 / 2 ^ 32 % 16, h := w1 / 2 ^ 16 % 2 ^ 16, f := w1 % 2 ^ 16 }
  if w0 / 2 ^ 60 ≠ 0 ∨ w0 / 2 ^ 24 % 256 ≠ 0 ∨ w1 / 2 ^ 40 ≠ 0 ∨ d.slotsz % 16 ≠ 0 ∨ d.slotsz = 0 ∨ d.slots < 2 ∨
      ringSideOk d.prod = false ∨ ringSideOk d.cons = false ∨ d.base % 16 ≠ 0 ∨ spad < d.base + d.slots * d.slotsz then none
  else some d

/-- The second word of a descriptor. -/
def RingDesc.word1 (d : RingDesc) : Nat := d.getix * 2 ^ 36 + d.putix * 2 ^ 32 + d.h * 2 ^ 16 + d.f

/-- The slot a side stands at, and whether it is in a state. -/
def RingDesc.ix (d : RingDesc) (put : Bool) : Nat := if put then d.putix else d.getix
def RingDesc.slotIs (d : RingDesc) (put f h : Bool) : Bool :=
  d.f.testBit (d.ix put) == f && d.h.testBit (d.ix put) == h
/-- This side holds a slot: producer-held is (0, 1), consumer-held (1, 1). -/
def RingDesc.holds (d : RingDesc) (put : Bool) : Bool := d.slotIs put (!put) true
/-- The slot can be acquired: Empty for the producer, Full for the consumer. -/
def RingDesc.free (d : RingDesc) (put : Bool) : Bool := d.slotIs put (!put) false
def setBitTo (n i : Nat) (b : Bool) : Nat := if n.testBit i == b then n else if b then n + 2 ^ i else n - 2 ^ i
/-- Commits or releases the held slot (Table 5.8). -/
def RingDesc.letGo (d : RingDesc) (put : Bool) : RingDesc :=
  let i := d.ix put
  let d1 := { d with h := setBitTo d.h i false, f := setBitTo d.f i put }
  if put then { d1 with putix := (i + 1) % d.slots } else { d1 with getix := (i + 1) % d.slots }
/-- Acquires the slot. -/
def RingDesc.take (d : RingDesc) (put : Bool) : RingDesc := { d with h := setBitTo d.h (d.ix put) true }

/-- The bank stores a descriptor's second word. -/
def State.putRing (s : State) (uid off : Nat) (d : RingDesc) : State :=
  s.updCable uid fun c => c.padWriteAt (off + 8) ((leBytes d.word1 8).map fun b => (b, false))

/-- Groups that wait at the ring of a descriptor test it again: one of its operations has ended (05 R138, R158). -/
def State.wakeRings (s : State) (uid off : Nat) : State :=
  s.updCable uid fun c => { c with plies := c.plies.map fun (p, y) =>
    (p, (y.groups.filter fun g => match g.hold with | .ring d => d.all (· == off) | _ => false).foldl (fun (y : Ply) g => y.releaseGroup g.gid) y) }

/-- The code of the issuing ply or lay in PROD and CONS. -/
def Issue.ringSide (x : Issue) : Nat := match x.scope with | .lay => 32 + x.lay | _ => x.e.ply

/-- The mode operand: `c1`, `c2` or `c3`. -/
def ringMode (f : FmtE) : Nat := match Operand.ofField f.opb with | .c n => n | _ => 0

/-- `ring.put` and `ring.get` (R175). One that has waited reads and checks the whole descriptor again (DESIGN CHOICE, log 151). -/
def State.ringAct (s : State) (x : Issue) (f : FmtE) (put : Bool) (u : Use) (d : Dest) : Attempt :=
  let uid := x.e.uid
  let c := s.cable uid
  let off := s.valueOf x u x.lead
  let mode := ringMode f
  let letGo := mode % 2 == 1
  let take := decide (2 ≤ mode)
  let bad : Attempt := .fault { cause := 2, strand := some x.lead }
  let begun := (s.clauseOf uid x.lead).begun
  if off % 16 ≠ 0 || c.spadBytes < off + 16 then bad
  else match s.watchTrouble x x.lead off { size := 16, write := true } with
  | some t => .fault t
  | none =>
  if s.acquiring uid x.ordered || s.padBusy uid off 16 then .stall s
  else
    let bs := c.padRead off 16
    if bs.any Prod.snd then .fault { cause := 9, strand := some x.lead, detail := 17, addr := off }
    else match RingDesc.ofWords (leNat ((bs.take 8).map Prod.fst)) (leNat ((bs.drop 8).map Prod.fst)) c.spadBytes with
      | none => bad
      | some r =>
        let r1 := if letGo && !begun then r.letGo put else r
        if (if put then r.prod else r.cons) ≠ x.ringSide || (letGo && !begun && !r.holds put) || (take && r1.holds put) then bad
        else
          let plies := distinct (x.members.map (· / 32))
          let commits := put && letGo && !begun
          let s1 := if commits then s.drainPlies uid plies else s
          if commits && !s1.releaseHolds uid plies x.members 1 then .stall s1
          -- a write of the descriptor follows the loads before it (08 R214)
          else if ((letGo && !begun) || (take && r1.free put)) && !(s1.loadsOf uid x.members).isEmpty then .stall s1
          else
            let s2 := if letGo && !begun then (s1.putRing uid off r1).wakeRings uid off else s1
            if !take then .done s2 []
            else if r1.free put then
              let s3 := (s2.putRing uid off (r1.take put)).wakeRings uid off
              s3.compute x d fun _ => { val := BitVec.ofNat 64 (r1.base + r1.ix put * r1.slotsz) }
            else .hold (if letGo then x.groups.foldl (fun s g => s.updClause uid g.1 g.2 fun cl => { cl with begun := true }) s2
              else s2) (.ring (some off))

def ringRow (put : Bool) (f : FmtE) : Row :=
  let u := f.useA (.raw false)
  let take := decide (2 ≤ ringMode f)
  let d : Dest := { op := .ofField f.opd, ty := .raw false
                    only := fun op => match op with | .s _ => true | .y _ => true | .k _ => true | _ => false }
  { srcs := [u], dst := if take then some d else none, latch := if take then .value else .clear
    legal := fun _ _ _ => 1 ≤ ringMode f && ringMode f ≤ 3 && (take || f.opd == 0)
    more := [.ofField f.opb, .ofField f.opd]
    act := fun s x => s.ringAct x f put u d }

def execRingPut (f : FmtE) (s : State) : Host.Outcome State Fault Refusal := s.perform (.ringPut f) f.c (ringRow true f)
def execRingGet (f : FmtE) (s : State) : Host.Outcome State Fault Refusal := s.perform (.ringGet f) f.c (ringRow false f)

end Sys2Proof.Machine
end

