-- ==== Sys2Proof/Machine/Services.lean ====
section
/-! DEFINITION. The module's own services: reset and boot, attestation, requests of the host, the firmware queue, the
CXL ports and the host's accesses (18 R418 to R423; 19). -/
namespace Sys2Proof.Machine

/-! ### Reset (19 R424) -/

def execDevReset (s : State) : Host.Outcome State Fault Refusal := .next (if s.boot = .run then s.moduleReset else s)
def execPowerOn (s : State) : Host.Outcome State Fault Refusal := .next s.moduleReset
/-- A hot reset of port 0 resets the module while the port is a host link. -/
def execPort0HotReset (s : State) : Host.Outcome State Fault Refusal :=
  .next (if (s.port 0).mode = 1 then s.moduleReset else s)
def execThermalTrip (temp : Nat) (s : State) : Host.Outcome State Fault Refusal :=
  .next (if s.thermTrip ≤ temp then s.moduleReset else s)

/-- The end of SCRUB (Table 19.1): the training of port 0 has its outcome. -/
def execScrubComplete (trained : Bool) (width : Nat) (s : State) : Host.Outcome State Fault Refusal :=
  .next (if s.boot = .scrub then
    { (s.updPort 0 fun p => { p with mode := 1, width := if trained then width % 8 else p.width, online := p.online || trained }).updPort 1
        fun p => { p with mode := 0 } with boot := .await }
  else s)

/-! ### The firmware image (19 R425, R426) -/

/-- The staging window in node 0 (Table 19.5). -/
def stagingAt : Nat := reservedBase 0 + 0x25400000
def firmwareAt : Nat := reservedBase 0 + 0x21400000
def stagingBytes : Nat := 64 * 2 ^ 20

def State.staged (s : State) (off n : Nat) : List Byte := s.mem.readN (stagingAt + off) n
def State.stagedNat (s : State) (off n : Nat) : Nat := leNat (s.staged off n)
def State.imageLength (s : State) : Nat := s.stagedNat 0x08 8
/-- The message M that is signed. -/
def State.imageMessage (s : State) : List Byte := s.staged 0 0x100 ++ s.staged 0x8000 s.imageLength

/-- The number of the first check that fails (R426), or 0. LENGTH and SVN have checks of their own: check 1 leaves them out
(DEDUCED, log 125). -/
def State.verifyImage (s : State) : Nat :=
  let zero (off n : Nat) : Bool := (s.staged off n).all fun b => b == 0
  let len := s.imageLength
  if s.stagedNat 0 4 ≠ 0x57464D4C || s.stagedNat 4 4 ≠ 1 || !(zero 0x14 4 && zero 0x20 0xE0 && zero 0x78A0 0x760) ||
      decide (len ≤ s.stagedNat 0x18 8) then 1
  else if len % 4096 ≠ 0 || decide (stagingBytes - 32 * 1024 < len) then 2
  else if Config.sha384 (s.staged 0x100 384 ++ s.staged 0x280 64) ≠ Config.keyHash then 3
  else if s.stagedNat 0x10 4 < s.svn || decide (64 < s.stagedNat 0x10 4) then 4
  else if !Config.verifies 0 (s.staged 0x100 384) s.imageMessage (s.staged 0x2C0 384) then 5
  else if !Config.verifies 1 (s.staged 0x280 64) s.imageMessage (s.staged 0x440 29792) then 6
  else 0

/-- A host write to BOOT_DOOR (R425): 1 in AWAIT or FAILED starts VERIFY, whose checks follow at once. -/
def execBootDoor (value : W64) (s : State) : Host.Outcome State Fault Refusal :=
  .next (if value = 1 ∧ (s.boot = .await ∨ s.boot = .failed) then
    let e := s.verifyImage
    { s with boot := if e = 0 then .load else .failed, bootError := e }
  else s)

/-- LOAD: the body is copied and the management controller started. In RUN: firmware completes its configuration, the
schedule and the pages of the partitions with it, and sets READY (log 25). -/
def execFirmwareLoad (s : State) : Host.Outcome State Fault Refusal :=
  .next (match s.boot with
    | .load => { s with
        mem := Memory.writeN firmwareAt (s.staged 0x8000 s.imageLength) s.mem, boot := .run
        measured := Config.sha384 s.imageMessage, imageSvn := s.stagedNat 0x10 4 }
    | .run => if s.ready then s else
        { s with ready := true
                 matching := Config.schedule.foldl (fun (m : SMap Nat) e => m.insert e.1 e.2) []
                 pageOwner := Config.pageOwners.foldl (fun (m : SMap Nat) e => m.insert e.1 e.2) [] }
    | _ => s)

/-! ### Attestation (19 R429) -/

/-- CONFIG: the partitions, then the cores. -/
def State.configBytes (s : State) : List Byte :=
  ((List.range 16).flatMap fun p => leBytes (s.part p).word 8) ++
  (List.range Config.cores).flatMap fun c => leBytes (c * 2 ^ 32 + s.coreMap.getD c 0) 8

/-- Bytes 0x000 to 0x1FF of the report (Table 19.4). The fused floor is at most the image SVN there, also after firmware has blown
fuses beyond it (DESIGN CHOICE, log 160). -/
def State.reportBody (s : State) (nonce : List Byte) : List Byte :=
  ((List.range 64).map fun i => nonce.getD i 0) ++ leBytes s.measured 48 ++ leBytes s.imageSvn 4 ++ leBytes (min s.svn s.imageSvn) 4 ++
  leBytes (Config.sha384 s.configBytes) 48 ++ leBytes Config.serial 16 ++ List.replicate 328 0

/-- The bytes of a signature over the report's body. -/
def signatureBytes (scheme n : Nat) (body : List Byte) : List Byte := (List.range n).map (Config.sign scheme body)

/-- The report of Table 19.4, then both certificate chains (R5, R428). -/
def State.report (s : State) (nonce : List Byte) : List Byte :=
  let body := s.reportBody nonce
  body ++ signatureBytes 0 384 body ++ signatureBytes 1 29792 body ++ Config.certificates 0 ++ Config.certificates 1

def execAttestationRequest (nonce : List Byte) (s : State) : Host.Outcome State Fault Refusal :=
  .next (if s.boot = .run then
    { s with nonce := nonce, attReport := s.report nonce, attDone := true }
  else s)

/-! ### Firmware's registers (19 R427, R431, R437, R438, R440) -/

/-- What firmware does while its controller runs and no write of its own waits. -/
def State.byFirmware (s : State) (f : State → State) : Host.Outcome State Fault Refusal :=
  .next (if s.boot = .run then match s.fwRetry with | (s1, true) => f s1 | (s1, false) => s1 else s)

def execPortOnline (port : Nat) (s : State) : Host.Outcome State Fault Refusal :=
  s.byFirmware fun s => s.trainedPort port
def execDevSvnWrite (value : W32) (s : State) : Host.Outcome State Fault Refusal :=
  s.byFirmware fun s => s.writeSvn (value.setWidth 64)
def execDevPartCfgWrite (value : W64) (s : State) : Host.Outcome State Fault Refusal := s.byFirmware fun s => s.writePartCfg value
def execDevCoreMapWrite (value : W64) (s : State) : Host.Outcome State Fault Refusal := s.byFirmware fun s => s.writeCoreMap value
def execCtxEnable (s : State) : Host.Outcome State Fault Refusal := s.byFirmware fun s => s.writeCtxCfg true false
def execCtxDisable (s : State) : Host.Outcome State Fault Refusal := s.byFirmware fun s => s.writeCtxCfg false false
def execCtxTerm (s : State) : Host.Outcome State Fault Refusal := s.byFirmware fun s => s.writeCtxCfg true true
def execDevCtxLaunch (value : W64) (s : State) : Host.Outcome State Fault Refusal := s.byFirmware fun s => s.writeCtxLaunch value
def execDevFwqWrite (value : W64) (s : State) : Host.Outcome State Fault Refusal := s.byFirmware fun s => s.writeFwq s.partSel value

/-! ### The firmware queue's service (19 R441) -/

/-- The contexts whose event pages a record goes to: that of the cable it names; for a record of a port, every enabled
context of the partition. A context that no create request made, or that has been destroyed, has no event page (DESIGN CHOICE,
log 161). -/
def State.eventTargets (s : State) (part : Nat) (bytes : List Byte) : List Nat :=
  let paged (c : Nat) : Bool := (s.ctx c).en && (s.ctx c).evPage.isSome
  let word0 := leNat (bytes.take 8)
  let word1 := leNat ((bytes.drop 8).take 8)
  let cid := word1 % 2 ^ 24
  if word0 / 2 ^ 42 % 16 = 4 ∧ cid = 0 then (List.range 16).map (16 * part + ·) |>.filter paged
  else match s.cables.vals.reverse.find? fun c => c.part == part && c.cid == cid with
    | some c => if paged c.ctx then [c.ctx] else []
    | none => []

/-- The handle of a record that has reached an event page is the host's to answer (R441). -/
def State.markEvent (s : State) (ctx : Nat) (bytes : List (Byte × Bool)) : State :=
  let n := leNat (((bytes.drop 56).take 8).map Prod.fst) % 2 ^ 32
  s.updCtx ctx fun x => { x with handles := x.handles.map fun h => if h.h = n then { h with atEvent := true } else h }

/-- Writes a record to the event page of a context, where it has room, and sends the page's vector. A page that is gone since
takes none. -/
def State.eventWrite (s : State) (ctx : Nat) (bytes : List (Byte × Bool)) : Option State :=
  let x := s.ctx ctx
  match x.evPage with
  | none => some s
  | some page =>
  if (x.evWritten + 2 ^ 32 - s.readNat (page + 8) 4) % 2 ^ 32 < 63 then
    let (s1, _) := s.engineWrite (ctx / 16) (page + 64 * (1 + x.evWritten % 63)) bytes
    let n := (x.evWritten + 1) % 2 ^ 32
    let (s2, _) := s1.engineWriteNat (ctx / 16) page n 4
    some ({ s2.updCtx ctx fun x => { x with evWritten := n } with msix := s2.msix ++ [x.evVec] }.markEvent ctx bytes)
  else none

/-- Firmware serves the record at HEAD: it is written to each page it goes to, as they have room; then HEAD advances. -/
def State.serveFwq (s : State) (part : Nat) : State :=
  let q := s.part part
  let mine (e : Nat × Nat × List (Byte × Bool)) : Bool := e.1 == part
  if q.fwHead = q.fwTail then s
  else
    let bytes := s.fetchBytes (fwRing part + 64 * (q.fwHead.toNat % 8192)) 64
    let pending := if s.evPending.any mine then s.evPending.filter mine
      else (s.eventTargets part (bytes.map Prod.fst)).map fun c => (part, c, bytes)
    let out := pending.foldl (fun (b : State × List (Nat × Nat × List (Byte × Bool))) e =>
      match b.1.eventWrite e.2.1 e.2.2 with
      | some s1 => (s1, b.2)
      | none => (b.1, b.2 ++ [e])) (s, [])
    let s1 := { out.1 with evPending := (s.evPending.filter fun e => !mine e) ++ out.2 }
    if out.2.isEmpty then s1.writeFwq part (BitVec.ofNat 64 ((q.fwHead + 1).toNat + bit1 (s1.part part).fwPdrop 32)) else s1

def execFwqService (part : Nat) (s : State) : Host.Outcome State Fault Refusal := s.byFirmware fun s =>
  (s.updPart part fun q => { q with fwIrq := false }).serveFwq part

/-! ### Requests of the host (19 R439) -/

/-- CRESULT with DONE. -/
def requestResult (status ctx resume : Nat) : W64 := BitVec.ofNat 64 (1 + status * 2 ^ 8 + ctx % 256 * 2 ^ 16 + resume % 16 * 2 ^ 24)

def reqOp (creq : W64) : Nat := bitsOf creq 60 4
def reqPart (creq : W64) : Nat := bitsOf creq 56 4
def reqCtx (creq : W64) : Nat := bitsOf creq 48 8

/-- A page that the host reaches: in node 0 or 1 and the partition, outside the reserved regions, or in port 0's window
while that is a host link (R441). -/
def State.eventPageOk (s : State) (part pa : Nat) : Bool :=
  match nodeOf pa with
  | some 2 => (s.port 0).mode == 1
  | some 3 => false
  | some _ => !isReserved pa && s.owner pa == part
  | none => false

/-- STATUS 4 (R439): a reserved bit is set, a CTXID lies outside PART, or the event page cannot be reached. -/
def State.badRequest (s : State) (creq a0 a1 a2 : W64) : Bool :=
  bitsOf creq 0 48 != 0 ||
  match reqOp creq with
  | 1 => reqCtx creq != 0 || bitsOf a2 11 1 != 0 || bitsOf a2 48 16 != 0 || !s.eventPageOk (reqPart creq) (bitsOf a2 12 36 * 4096)
  | 3 => reqCtx creq / 16 != reqPart creq || a1 != 0 || a2 != 0
  | _ => reqCtx creq / 16 != reqPart creq || a0 != 0 || a1 != 0 || a2 != 0

/-- Request 1. None while the launch has to wait. -/
def State.createCtx (s : State) (part : Nat) (a0 a1 a2 : W64) : Option (State × W64) :=
  let free := ((List.range 16).map (16 * part + ·)).find? fun c => !(s.ctx c).en
  match (if (s.part part).en then free else none) with
  | none => some (s, requestResult 1 0 0)
  | some c =>
    let s1 := (s.setCtx c true).updCtx c fun x =>
      { x with ptbr := ctxMask 12 48 a1, evPage := some (bitsOf a2 12 36 * 4096), evVec := bitsOf a2 0 11 }
    match s1.launchIn c (bitsOf a0 7 53 * 128) with
    | none => none
    | some (s2, 0) => some (s2, requestResult 0 c 0)
    | some (s2, _) => some (s2.setCtx c false, requestResult 3 0 0)

/-- A request's effect and its CRESULT; none while firmware is still at it. -/
def State.request (s : State) (creq a0 a1 a2 : W64) : State × Option W64 :=
  let ctx := reqCtx creq
  if s.badRequest creq a0 a1 a2 then (s, some (requestResult 4 0 0))
  else match reqOp creq with
    | 1 => (match s.createCtx (reqPart creq) a0 a1 a2 with
      | some (s1, r) => (s1, some r)
      | none => (s, none))
    | 2 => if !(s.ctx ctx).en then (s, some (requestResult 2 0 0)) else ({ s.termCtx ctx with hostBusy := some ctx }, none)
    | 3 =>
      let s1 := if (s.ctx ctx).en then s.answerAt ctx a0 (s.observedIn ctx) else s
      (s1, some (requestResult 0 0 (s1.readCtx ctx 0x185 / 2 ^ 36)))
    | 4 => if !(s.ctx ctx).en then (s, some (requestResult 2 0 0)) else (s.termCtx ctx, some (requestResult 0 0 0))
    | _ => (s, some (requestResult 4 0 0))

/-- A request submitted while none is in progress; a destruction in progress ends once its context can be disabled. -/
def State.submit (s : State) (ok : Nat → Bool) (creq a0 a1 a2 : W64) : State :=
  if !s.ready || !ok (reqOp creq) then s
  else match s.hostBusy with
    | some c => if reqOp creq = 2 ∧ s.ctxIdle c = true then { s.setCtx c false with hostBusy := none, cresult := requestResult 0 0 0 } else s
    | none =>
      let (s1, r) := s.request creq a0 a1 a2
      { s1 with creq := creq, cargs := [a0, a1, a2], cresult := r.getD 0 }

def execCtxCreate (creq arg0 arg1 arg2 : W64) (s : State) : Host.Outcome State Fault Refusal :=
  .next (s.submit (fun o => o == 1) creq arg0 arg1 arg2)
def execCtxDestroy (creq arg0 arg1 arg2 : W64) (s : State) : Host.Outcome State Fault Refusal :=
  .next (s.submit (fun o => o == 2) creq arg0 arg1 arg2)
def execCtxAnswer (creq arg0 arg1 arg2 : W64) (s : State) : Host.Outcome State Fault Refusal :=
  .next (s.submit (fun o => o == 3) creq arg0 arg1 arg2)
def execCtxTerminate (creq arg0 arg1 arg2 : W64) (s : State) : Host.Outcome State Fault Refusal :=
  .next (s.submit (fun o => o == 4) creq arg0 arg1 arg2)
def execBadRequest (creq arg0 arg1 arg2 : W64) (s : State) : Host.Outcome State Fault Refusal :=
  .next (s.submit (fun o => o == 0 || decide (4 < o)) creq arg0 arg1 arg2)

/-! ### What the host reads of BAR 0 of port 0 (19 R425, R429, R439) -/

/-- STATE of BOOT_STATUS (Tables 19.1, 19.2). -/
def Boot.code : Boot → Nat | .scrub => 0 | .await => 1 | .verify => 2 | .load => 3 | .run => 4 | .failed => 15

/-- BOOT_STATUS (Table 19.2). -/
def State.bootStatus (s : State) : W32 := BitVec.ofNat 32 (s.boot.code * 2 ^ 28 + s.bootError % 256 * 2 ^ 20 + bit1 s.ready 0)

/-- The registers and areas that Tables 19.2, 19.4 and 19.11 give the host to read: where each begins, and its bytes. -/
def State.bar0Areas (s : State) : List (Nat × List Byte) :=
  [ (0, leBytes s.bootStatus.toNat 4), (0x148, leBytes (bit1 s.attDone 0) 1), (0x180, leBytes s.creq.toNat 8),
    (0x188, leBytes (s.cargs.getD 0 0).toNat 8), (0x190, leBytes (s.cargs.getD 1 0).toNat 8),
    (0x198, leBytes (s.cargs.getD 2 0).toNat 8), (0x1C0, leBytes 0 8), (0x1C8, leBytes s.cresult.toNat 8), (0x2000, s.attReport) ]

/-- The byte that the host reads at an offset of BAR 0, where the spec gives one. -/
def State.bar0 (s : State) (off : Nat) : Option Byte :=
  s.bar0Areas.findSome? fun a => if a.1 ≤ off then a.2[off - a.1]? else none

/-! ### The host's accesses (18 R421) -/

/-- The physical address that an HDM offset names, where it is exposed. -/
def State.hdm (s : State) (off : Nat) : Option Nat :=
  match s.boot with
  | .run => if off < 0x030000000000 && (nodeOf off).isSome && !isReserved off then some off else none
  | .await | .verify | .failed => if off < stagingBytes then some (stagingAt + off) else none
  | _ => none

/-- A host link carries the host's accesses. -/
def State.hostThere (s : State) : Bool := s.ports.any fun p => p.mode == 1 && p.online

/-- Wakes every waiter whose key translates to a word (18 R421, R409). -/
def State.wakeWord (s : State) (pa p : Nat) : State := s.wakeKey (s.owner pa) pa (2 ^ 32 - 1) p

/-- A host write at the home slices, as writes from P = 0, counted in FT; a write of a mailbox word wakes. -/
def State.hostWrite (s : State) (pa : Nat) (bytes : List Byte) : State :=
  let part := s.owner pa
  let (s1, w) := s.engineWrite part pa (bytes.map fun b => (b, false))
  let s2 := s1.updPart part fun q => { q with ft := max q.ft w }
  let box := s.ports.any fun p => p.mboxEn && p.mbox.toNat / 4096 == pa / 4096
  if box && bytes.length == 8 && pa % 8 == 0 then s2.wakeWord pa w else s2

def execHostMemWrite (off : Nat) (bytes : List Byte) (s : State) : Host.Outcome State Fault Refusal :=
  .next (if !s.hostThere || bytes.isEmpty then s
    else if ((List.range bytes.length).all fun i => (s.hdm (off + i)).isSome) then
      (match s.hdm off with | some pa => s.hostWrite pa bytes | none => s)
    else s)

/-- A host read, performed at the home slice; outside what is exposed, ones with poison. -/
def execHostMemRead (off len : Nat) (s : State) : Host.Outcome State Fault Refusal :=
  .next (if !s.hostThere then s
    else if ((List.range len).all fun i => (s.hdm (off + i)).isSome) then
      (match s.hdm off with
       | some pa =>
         let (s1, bs) := s.homeRead (s.owner pa) pa len
         { s1 with hostRead := (bs.map Prod.fst, bs.any Prod.snd) }
       | none => { s with hostRead := ([], false) })
    else { s with hostRead := (List.replicate len 0xFF, true) })

/-! ### A node goes offline (18 R420) -/

/-- An access is outstanding at a port. -/
def Txn.waitsOn (t : Txn) (port : Nat) : Bool :=
  t.state.isAsked && match t.kind.line with | some l => onPort port (l * 128) | none => false

/-- An access outstanding at a port whose node goes offline. -/
def State.failTxn (s : State) (port : Nat) (t : Txn) : State := if t.waitsOn port then s.setTxn t.failed else s

/-- The dirty lines of a node. -/
def State.dirtyOn (s : State) (port : Nat) : List Nat :=
  (s.lines.filter fun e => e.2.inLlc && e.2.dirty && onPort port (e.1 * 128)).map Prod.fst

/-- The addresses that an outstanding write gives up when it is dropped. -/
def TxnKind.dropped : TxnKind → List Nat
  | .write bytes _ _ => bytes.map Prod.fst
  | .atom _ _ pa .. => [pa]
  | .nred _ pa .. => [pa]
  | _ => []

/-- The addresses of a port that a command's held writes go to (log 135). -/
def Cmd.heldOn (m : Cmd) (port : Nat) : List Nat := m.held.flatMap fun l => (l.map fun h => h.1.1).filter (onPort port)
/-- A command whose held writes to a port are dropped. -/
def Cmd.dropHeld (m : Cmd) (port : Nat) : Cmd :=
  { m with held := (m.held.map fun l => l.filter fun h => !onPort port h.1.1).filter fun l => !l.isEmpty }

/-- The addresses that are dropped when a node goes offline: of its dirty lines, and of the writes of cores and engines outstanding
at its port. -/
def State.droppedOn (s : State) (port : Nat) : List Nat :=
  (s.dirtyOn port).map (128 * ·) ++ ((s.txns.vals.filter fun t => t.waitsOn port).flatMap fun t => t.kind.dropped) ++
  s.cables.vals.flatMap fun c => c.cmds.flatMap fun m => m.heldOn port

/-- The contexts that have an access outstanding at a port, of a core or of an engine. -/
def State.waitingOn (s : State) (port : Nat) : List Nat :=
  distinct (((s.txns.vals.filter fun t => t.waitsOn port).map fun t => (s.cable t.uid).ctx) ++
    (s.cables.vals.filter fun c => c.cmds.any fun m => !(m.heldOn port).isEmpty).map fun c => c.ctx)

/-- Takes a node offline and posts one record, to the firmware queues and to every context with an access
outstanding; `width` is what the port's link keeps of its width. A flush that is in progress ends without its image being
durable: BUSY stays 1 until a flush that its context starts later completes (R423; DESIGN CHOICE, log 159). -/
def State.goOffline (s : State) (port cause : Nat) (width : Nat → Nat) : State :=
  let dirty := s.dirtyOn port
  let gone := s.droppedOn port
  let ctxs := s.waitingOn port
  let mine := (s.lines.filter fun e => e.2.inLlc && onPort port (e.1 * 128)).map Prod.fst
  let s0 := s.txns.vals.foldl (fun s t => s.failTxn port t) s
  let s1 := { s0 with cables := s0.cables.map fun (e : Nat × Cable) => (e.1, { e.2 with cmds := e.2.cmds.map fun (m : Cmd) => m.dropHeld port }) }
  let s2 := mine.foldl (fun s l => (if dirty.contains l then s.revertLine l else s).evict l) s1
  let s3 := s2.updPort port fun p => { p with online := false, width := width p.width, gpf := [] }
  let issuer := issuerOf 4 port
  let (s4, n) := s3.nextEngSeq issuer
  let r : FRec := { cause := cause, issuer := issuer, seq := n, addr := gone.foldl min (gone.headD 0)
                    detail := (distinct (gone.map (· / 128))).length }
  let parts := (List.range 16).filter fun p => (s.part p).en
  ctxs.foldl (fun s c => s.postCtx c { r with part := c / 16 }) (parts.foldl (fun s p => s.postFw p { r with part := p }) s4)

/-- A request that has been outstanding longer than CTO. -/
def State.overdue (s : State) (port : Nat) : Bool :=
  s.txns.vals.any fun t => t.waitsOn port && decide (t.sent + (s.port port).cto * 1000 < s.clock)

def execCxlCompletionTimeout (port : Nat) (s : State) : Host.Outcome State Fault Refusal :=
  .next (if port < 2 ∧ (s.port port).online = true ∧ s.overdue port = true then s.goOffline port 36 id else s)

/-- A link goes down, and has no width; that of port 0 as a host link resets the module (19 R424). -/
def execCxlLinkDown (port : Nat) (s : State) : Host.Outcome State Fault Refusal :=
  .next (if port = 0 ∧ (s.port 0).mode = 1 then s.moduleReset
    else if port < 2 ∧ (s.port port).online = true then s.goOffline port 35 fun _ => 0 else s)

end Sys2Proof.Machine
end

