-- ==== Sys2Proof/Machine/Spill.lean ====
section
/-! DEFINITION. Spilling of physical registers (01 R33 to R35). -/
namespace Sys2Proof.Machine

/-- The highest of a list of names. -/
def highest (l : List Nat) : Option Nat := l.foldl (fun r n => match r with | some m => some (max m n) | none => some n) none

/-- The names of a strand that may be spilled: those that hold a register and whose value has arrived; R33 does not say what
spilling another would store (DESIGN CHOICE, log 109). -/
def Cable.spillable (c : Cable) (strand : Nat) : List Nat :=
  (c.strand strand).v.keys.filter fun n => !(c.board.any fun b => b.1 == .v strand n)

/-- The name that is spilled for a strand: its own highest that the stalled instruction does not read, otherwise the
highest name of the cable's highest strand that holds one (R33). -/
def Cable.victim (c : Cable) (strand : Nat) (reads : List Nat) : Option (Nat × Nat) :=
  match highest ((c.spillable strand).filter fun n => !reads.contains n) with
  | some n => some (strand, n)
  | none => c.strands.foldl (fun r e => match highest (c.spillable e.1) with | some n => some (e.1, n) | none => r) none

/-- What spilling one register for a strand comes to. -/
inductive Spilled where
  | done (s : State)
  /-- the store waits for room in the core's tables -/
  | waits
  /-- the slot lies outside the area, or cannot be written (R35) -/
  | bad (s : State) (slot : Nat)
deriving Inhabited

/-- Spills one register for a strand: a store of the victim's strand to its slot (R33, R34, 08 R211), translated at
supervisor level; a permission or address fault on it counts as the translation fault of R35 (DESIGN CHOICE, log 109). -/
def State.spillFor (s : State) (uid strand : Nat) (reads : List Nat) : Spilled :=
  let c := s.cable uid
  match c.victim strand reads with
  | none => .done s
  | some (j, n) =>
    let slot := c.spillSlot j n
    if c.spillBaseNow + c.spillSizeNow * 4096 ≤ slot + 7 then .bad s slot
    else match s.slotAt uid slot .write with
      | (s1, none) => .bad s1 slot
      | (s1, some p) =>
        let r := (c.strand j).v.getD n {}
        let bytes := (leBytes (r.val.toNat + if r.psn then 2 ^ 32 else 0) 8).map fun b => (b, false)
        if s1.unackFull uid (j / 32) 1 || s1.acquiring uid [j] then .waits
        else match s1.bufferStore c.coreD uid [j / 32] (s1.loadsOf uid [j]) p.pa bytes p.esr with
          | none => .waits
          | some s2 => .done (s2.updStrand uid j fun t => { t with v := t.v.erase n, spilled := setInsert n t.spilled })

/-- The running groups of a core: cable, ply, group, its clause. -/
def State.runningOn (s : State) (core : Nat) : List (Nat × Nat × Group × Clause) :=
  (s.core core).slots.filterMap fun o => match o with
    | some (uid, p) => (match ((s.cable uid).ply p).running.bind fun g => ((s.cable uid).ply p).group? g with
      | some g => g.clause.map fun cl => (uid, p, g, cl)
      | none => none)
    | none => none

/-- No ply of the core can progress: the last steps of the module, one for each running group, were turns of them at which
their instructions could not execute, so that nothing has changed for them since; and no scheduler can begin a clause. -/
def State.coreStuck (s : State) (core : Nat) : Bool :=
  let running := s.runningOn core
  running.all (fun e => match e.2.2.2.blocked with | some t => s.stepCount ≤ t + running.length | none => false) &&
  (List.range 4).all fun k => (s.core core).slots.getD k none != none ||
    ((s.candidates core k).all fun u => ((s.cable u.1).nextGroups u.2).all fun g => (s.tryBegin core k u.1 u.2 g).isNone)

/-- The slot of the next spill for a strand where it matches a watchpoint as the waiting clause has them (16 R385). -/
def State.spillWatched (s : State) (uid : Nat) (cl : Clause) (strand : Nat) : Option (Nat × Nat) :=
  match (s.cable uid).victim strand cl.allocs.2 with
  | some (j, n) =>
    let slot := (s.cable uid).spillSlot j n
    if cl.watches strand slot 8 false true then some (j, slot) else none
  | none => none

/-- With the pool empty and no ply able to progress, one register is spilled for each strand that waits. -/
def State.spillCore (s : State) (core : Nat) : State :=
  let waiting := (s.runningOn core).filter fun e => !e.2.2.2.allocs.1.isEmpty
  if waiting.isEmpty || !s.coreStuck core then s
  else waiting.foldl (fun s e =>
    let uid := e.1
    let out := e.2.2.2.allocs.1.foldl (fun (r : State × Option Trouble) j =>
      match r.2, r.1.spillWatched uid e.2.2.2 j with
      | some _, _ => r
      | none, some (_, slot) => (r.1, some { cause := 24, strand := some j, addr := slot, write := true })
      | none, none => match r.1.spillFor uid j e.2.2.2.allocs.2 with
        | .done s1 => (s1, none)
        | .waits => r
        | .bad s1 slot => (s1, some { cause := 10, strand := some j, addr := slot, write := true, pages := [slot / 4096] })) (s, none)
    match out.2 with
    | some t => out.1.raisePly { uid := uid, ply := e.2.1, gid := e.2.2.1.gid } e.2.2.1.next e.2.2.2.word t
    | none => out.1.updClause uid e.2.1 e.2.2.1.gid fun cl => { cl with blocked := none, allocs := ([], []) }) s

def execSpill (core : Nat) (s : State) : Host.Outcome State Fault Refusal := .next (s.spillCore core)

end Sys2Proof.Machine
end

