-- ==== Sys2Proof/Machine/System.lean ====
section
/-! DEFINITION. Control registers by `crd` and `cwr` (01 R14, R16; 04 R113 to R116; 02 R53, R54; 03 R81; 16 R365, R386). -/
namespace Sys2Proof.Machine

/-- A control register: whether it is 64 bits wide, the scope it belongs to (0 strand, 1 ply, 3 cable, 4 wider), the
level that may access it, and whether any level may write it (04 Table 4.8 and the registers' own tables). -/
structure RegInfo where
  wide : Bool := false
  scope : Nat := 4
  level : Nat := 0
  writable : Bool := true
deriving DecidableEq, Repr, Inhabited

def regInfo (n : Nat) : Option RegInfo :=
  if n = 0 then some { scope := 0, writable := false }
  else if n = 1 then some { scope := 1, writable := false }
  else if n ≤ 6 then some { scope := 3, writable := false }
  else if n = 7 then some { writable := false }
  else if n = 8 then some { wide := true, writable := false }
  else if n = 0x10 then some { scope := 0, writable := false }
  else if n = 0x11 ∨ n = 0x12 then some { scope := 0 }
  else if n = 0x100 ∨ n = 0x102 ∨ n = 0x103 then some { wide := true, scope := 3, level := 1 }
  else if n = 0x101 then some { scope := 3, level := 1 }
  else if n = 0x104 then some { scope := 3, level := 1, writable := false }
  else if n = 0x105 ∨ n = 0x106 ∨ n = 0x108 then some { scope := 3 }
  else if n = 0x107 then some { scope := 3, writable := false }
  else if n = 0x109 then some { scope := 3, level := 1 }
  else if n = 0x10A then some { wide := true, scope := 3, level := 1 }
  else if n = 0x10B then some { wide := true, scope := 1, writable := false }
  else if 0x10C ≤ n ∧ n ≤ 0x10F then some { wide := true, scope := 3, level := 1 }
  else if 0x180 ≤ n ∧ n ≤ 0x191 then
    some { wide := [0x182, 0x185, 0x186, 0x187, 0x188, 0x18C, 0x18D].contains n, level := 1 }
  else if 0x200 ≤ n ∧ n ≤ 0x213 then
    some { wide := [0x206, 0x207, 0x209, 0x20A, 0x212, 0x213].contains n, level := 3, writable := n != 0x20D }
  else none

def Scope.rank : Scope → Nat | .strand => 0 | .ply => 1 | .lay => 2 | .cable => 3

/-- `STRAND_STATUS` (01 Table 1.3). -/
def Cable.status (c : Cable) (strand : Nat) : Nat :=
  let t := c.strand strand
  (t.v.length + t.spilled.length) * 2 ^ 16 + bit1 (!t.spilled.isEmpty) 3 + c.priv.toNat

/-- The value in force of a register for a strand (R115). -/
def State.readReg (s : State) (uid strand n : Nat) : Nat :=
  let c := s.cable uid
  if n = 0 then strand
  else if n = 1 then strand / 32
  else if n = 2 then c.lin
  else if n = 3 then c.x
  else if n = 4 then c.y
  else if n = 5 then c.z
  else if n = 6 then c.coreD
  else if n = 7 then (s.core c.coreD).p
  else if n = 8 then s.clock
  else if n = 0x10 then c.status strand
  else if n = 0x11 then (c.strand strand).fflags.toNat
  else if n = 0x12 then (c.strand strand).sr.toNat
  else if n = 0x104 then c.trapInfo.toNat
  else if n = 0x107 then c.cid
  else if n = 0x10B then (c.ply (strand / 32)).ic.toNat
  else if n < 0x180 then ((s.clauseOf uid strand).readCreg strand n).toNat
  else if n < 0x200 then s.readCtx c.ctx n
  else s.readDev n

/-- A write by one strand of a register; `publish` is false where another strand publishes the same write. -/
def State.writeReg (s : State) (uid strand n : Nat) (v : W64) (publish : Bool) : State :=
  if n = 0x11 then s.updStrand uid strand fun t => { t with fflags := v.setWidth 5 }
  else if n = 0x12 then s.updStrand uid strand fun t => { t with sr := srFix (v.setWidth 32) }
  else if n < 0x180 then
    let s := s.updCable uid fun c => { c with spillNext :=
      if n = 0x100 then (some (cregFix n v), c.spillNext.2) else if n = 0x101 then (c.spillNext.1, some ((cregFix n v).setWidth 32))
      else c.spillNext }
    let present := ((s.clauseOf uid strand).readCreg strand n).lo
    let kept := if n = 0x108 then W64.ofPair (v.lo &&& 0x1F) present else cregFix n v
    s.updStrandClause uid strand fun cl => { cl with log := cl.log ++ [.creg n strand kept (if publish then some s.stepCount else none)] }
  else if !publish then s
  else if n = 0x185 ∧ (s.ctx (s.cable uid).ctx).en = true then s.writeResumeAt (s.cable uid).ctx v (s.observed uid)
  else if n < 0x200 then s.writeCtx (s.cable uid).ctx n v
  else s.writeDev n v

/-- The number in IMM. -/
def regNumber (f : FmtI) : Nat := (f.imm.extractLsb' 0 16).toNat

/-- The registers whose accesses wait for the flags of the strand's own atomics (02 R54, 09 R250). -/
def flagKey (n strand : Nat) : List RegKey := if n = 0x11 then [.fflags strand] else []

def regAllowed (n : Nat) (s : State) (e : Env) : Bool :=
  match regInfo n with | some i => i.level ≤ (s.cable e.uid).priv.toNat | none => true

/-- Reads a value for each of some strands through the replay log, an entry each. -/
def State.readEach (s : State) (x : Issue) (v : Nat → Nat) : List Nat → (State → List (Nat × Nat) → Attempt) → Attempt
  | [], f => f s []
  | j :: js, f => s.readLogged x j (v j) fun s1 r => s1.readEach x v js fun s2 l => f s2 ((j, r) :: l)

/-- `crd` (R113, R115). Reads of `%clock`, `%tick` and `CBL_LA_FLAGS` go through the replay log (16 Table 16.16): one entry for
the core's or the module's time, one for each strand's view of the flags (log 120); a read of `CTX_FQ_TAIL` acts as an
acquire (16 R365). -/
def crdRow (f : FmtI) : Row :=
  let n := regNumber f
  let i := (regInfo n).getD {}
  let d := f.dest (.raw i.wide)
  { dst := some d
    priv := regAllowed n
    legal := fun _ _ _ => (regInfo n).isSome && decide (Scope.rank f.c.scope ≤ i.scope)
    extra := flagKey n
    act := fun s x =>
      if n = 7 ∨ n = 8 then
        s.readLogged x x.lead (s.readReg x.e.uid x.lead n) fun s1 v => s1.compute x d fun _ => { val := BitVec.ofNat 64 v }
      else if n = 0x108 then
        s.readEach x (fun j => s.readReg x.e.uid j n) x.accessors fun s1 l =>
          s1.compute x d fun j => { val := BitVec.ofNat 64 (((l.find? fun e => e.1 == j).map Prod.snd).getD 0) }
      else
        let s1 := if n = 0x184 then s.acquireTail x.e.uid else s
        s1.compute x d fun j => { val := BitVec.ofNat 64 (s1.readReg x.e.uid j n) } }

/-- The state in which a `cwr` of the values begins, and whether it may: one that resumes agents first waits as a
device-scope release fence (17 R390). -/
def State.cwrBegin (s : State) (x : Issue) (n : Nat) (vals : List (Nat × W64)) : State × Bool :=
  if n == 0x185 && vals.any fun e => resumes e.2 then
    let plies := distinct (x.ordered.map (· / 32))
    let s1 := s.drainPlies x.e.uid plies
    (s1, s1.releaseHolds x.e.uid plies x.ordered 3)
  else (s, true)

/-- `cwr` (R113, R114): contributors write in ascending order. -/
def cwrRow (f : FmtI) : Row :=
  let n := regNumber f
  let i := (regInfo n).getD {}
  let u := f.useA (.raw i.wide)
  { srcs := [u], latch := .clear
    priv := regAllowed n
    legal := fun _ _ _ => (regInfo n).isSome && i.writable && decide (Scope.rank f.c.scope ≤ i.scope)
    extra := flagKey n
    act := fun s x =>
      let wide := decide (x.scope ≠ .strand)
      let vals := x.contrib.map fun j => (j, BitVec.ofNat 64 (s.readOp x.e (if wide then x.lead else j) x.lay u.op u.ty).1)
      match s.cwrBegin x n vals with
      | (s1, true) => .done (vals.foldl (fun s e => s.writeReg x.e.uid e.1 n e.2 (!wide || e.1 == x.lead)) s1) []
      | (s1, false) => .stall s1 }

/-- What firmware's access of a register raises at machine level: the illegal-operand fault for a number that names no
register, and for a write of one that no level may write (01 R16, R81). The fault's entry is outside the spec, which gives
the management controller no registers: the model shows its cause (DESIGN CHOICE, log 5). -/
def firmwareFault (n : Nat) (write : Bool) : Nat :=
  match regInfo n with
  | none => 2
  | some i => if write && !i.writable then 2 else 0

/-- Firmware's `crd` of a register of the selected context or of the module, while its controller runs. -/
def State.firmwareRead (s : State) (n : Nat) : State :=
  if s.boot ≠ .run then s
  else
  let (s, free) := s.fwRetry
  if !free then s else
  let s := { s with fwFault := firmwareFault n false }
  if 0x180 ≤ n ∧ n ≤ 0x191 then { s with fwResult := BitVec.ofNat 64 (s.readCtx s.ctxSel n) }
  else if 0x200 ≤ n ∧ n ≤ 0x213 then { s with fwResult := BitVec.ofNat 64 (s.readDev n) }
  else if n = 8 then { s with fwResult := BitVec.ofNat 64 s.clock }
  else s

/-- Firmware's `cwr`. -/
def State.firmwareWrite (s : State) (n : Nat) (v : W64) : State :=
  if s.boot ≠ .run then s
  else
  let (s, free) := s.fwRetry
  if !free then s else
  let s := { s with fwFault := firmwareFault n true }
  if firmwareFault n true ≠ 0 then s
  else if 0x180 ≤ n ∧ n ≤ 0x191 then s.writeCtx s.ctxSel n v
  else if 0x200 ≤ n ∧ n ≤ 0x213 then s.writeDev n v
  else s

def execCrd (f : FmtI) (s : State) : Host.Outcome State Fault Refusal :=
  match s.cur with
  | .firmware _ => .next (s.firmwareRead (regNumber f))
  | _ => s.perform (.crd f) f.c (crdRow f)
def execCwr (f : FmtI) (s : State) : Host.Outcome State Fault Refusal :=
  match s.cur with
  | .firmware v => .next (s.firmwareWrite (regNumber f) v)
  | _ => s.perform (.cwr f) f.c (cwrRow f)

end Sys2Proof.Machine
end

