-- ==== Sys2Proof/Machine/Walkers.lean ====
section
/-! DEFINITION. Walkers (14 R349 to R353): how one begins a clause, its own instructions, the answers it waits for, its
hops. -/
namespace Sys2Proof.Machine

/-! ### Clauses of a walker (R350) -/

/-- The header of a walker's clause: nothing in it waits, yields or breaks. -/
def walkerHeader (v : Nat) : Option Header :=
  (if 2 ^ 63 ≤ v then none else Header.decode (BitVec.ofNat 64 v)).filter fun h =>
    h.wa == ⟨false, 0, 0⟩ && h.wb == ⟨false, 0, 0⟩ && !h.yield && h.bpmask == 0

/-- A walker begins the clause at its PC, fetched whole from the image of its stack. -/
def State.walkerBegin (s : State) (uid cmd w : Nat) : State :=
  match s.srchTurn uid cmd, s.walker? uid cmd w with
  | some (_, m), some k =>
    if k.state != .run || k.clause.isSome || m.cancel then s
    else
      let e : Env := { walker := true, uid := uid, cmd := cmd, w := w }
      match s.imageWord uid cmd w k.pc with
      | none => s.walkerFault e 4 k.pc
      | some (v, psn) =>
        match walkerHeader v with
        | none => s.walkerFault e (if psn then 6 else 4) k.pc
        | some h =>
          let words := (List.range (h.len.toNat + 1)).map fun i => s.imageWord uid cmd w (k.pc + 8 * (i + 1))
          if words.contains none then s.walkerFault e 4 k.pc
          else if psn || words.any fun x => (x.map Prod.snd).getD false then s.walkerFault e 6 k.pc
          else
            let at_ := s.shardCode (s.descAt m.srch.desc) k.stack + k.pc
            let cl : Clause := { addr := k.pc, hdr := h, words := words.map fun x => BitVec.ofNat 64 ((x.map Prod.fst).getD 0)
                                 born := s.nextOp }
            (s.touchSpan at_ (8 * (words.length + 1))).updWalker uid cmd w fun x => { x with clause := some cl }
  | _, _ => s

def execClauseBegin (who : Beginner) (s : State) : Host.Outcome State Fault Refusal :=
  .next (match who with
    | .sched core slot => s.beginClause core slot
    | .walker uid cmd w => s.walkerBegin uid cmd w)

/-! ### Walker instructions (Table 14.8a) -/

/-- An `s` register. -/
def isS : Operand → Bool | .s _ => true | _ => false

def sUse (u : Use) : Use := { u with only := isS }
def sDest (op : BitVec 10) : Dest := { op := .ofField op, ty := .raw true, only := isS }

/-- The walker stands at the die of a stack, or that die has answered it. -/
def State.atDie (s : State) (x : Issue) (stack : Nat) : Bool :=
  match s.walker? x.e.uid x.e.cmd x.e.w with
  | some w => decide (w.stack = stack) || w.answered
  | none => false

/-- The walker has taken the answer. -/
def State.asked (s : State) (x : Issue) : State := s.updWalker x.e.uid x.e.cmd x.e.w fun y => { y with answered := false }

/-- What an instruction does at a die: at the walker's own at once, at another when the answer has come (R351). -/
def State.askDie (s : State) (x : Issue) (stack key : Nat) (k : State → Attempt) : Attempt :=
  match s.walker? x.e.uid x.e.cmd x.e.w with
  | some _ =>
    if s.atDie x stack then k (s.asked x)
    else .stall (s.updWalker x.e.uid x.e.cmd x.e.w fun y => { y with state := .asking (BitVec.ofNat 32 key) })
  | none => .stall s

/-- The walk a walker belongs to. -/
def State.walkOf (s : State) (e : Env) : Cmd := ((s.cable e.uid).cmd? e.cmd).getD
  { id := e.cmd, path := .srch, instr := .nop (FmtA.ofWord 0) }

def State.updWalk (s : State) (x : Issue) (f : Search → Search) : State := s.updSrch x.e.uid x.e.cmd f

/-- The value of a source and its poison. -/
def State.wsrc (s : State) (x : Issue) (u : Use) : Nat × Bool := s.readOp x.e 0 0 u.op u.ty

def execDist (f : FmtE) (s : State) : Host.Outcome State Fault Refusal :=
  let a : Use := { sUse (f.useA (.raw true)) with carry := true }
  let d := sDest f.opd
  s.perform (.dist f) f.c
    { srcs := [a], dst := some d
      legal := fun s e _ => f.var.toNat == (s.walkOf e).metric
      act := fun s x =>
        let m := s.walkOf x.e
        let desc := s.descAt m.srch.desc
        let (v, psn) := s.wsrc x a
        let id := v % 2 ^ 32
        if !s.idOk desc id then .fault { cause := 5, walk := 5 }
        else s.askDie x (id / 2 ^ 28) id fun s =>
          let (s1, r) := s.findNode desc m.srch m.metric id
          let s2 := s1.updWalk x fun k => k.met r.bad
          .done (s2.deposit x d 0 { val := BitVec.ofNat 64 (r.d + bit1 r.visible 32), flags := r.flags, p0 := psn || r.psn }) [] }

def execHeapPush (f : FmtE) (s : State) : Host.Outcome State Fault Refusal :=
  let a : Use := { sUse (f.useA (.raw true)) with carry := true }
  let b : Use := { sUse (f.useB (.raw true)) with carry := true }
  s.perform (.heapPush f) f.c
    { srcs := [a, b], latch := .clear
      act := fun s x =>
        let m := s.walkOf x.e
        let (d, p) := s.wsrc x a
        let (id, q) := s.wsrc x b
        s.askDie x m.srch.home 0 fun s =>
          .done (if d.testBit 32 then
            s.updWalk x fun k => { k with heap := heapPush m.k k.heap { d := BitVec.ofNat 32 d, id := BitVec.ofNat 32 id, psn := p || q } }
            else s) [] }

/-- `heap.top` and `heap.pop`: an entry of the heap at home. -/
def heapRow (f : FmtE) (pop : Bool) : Row :=
  let d := sDest f.opd
  { dst := some d
    act := fun s x =>
      let m := s.walkOf x.e
      s.askDie x m.srch.home 0 fun s =>
        let (h, e) := if pop then heapPop m.srch.heap else (m.srch.heap, heapTop m.k m.srch.heap)
        .done ((s.updWalk x fun k => { k with heap := h }).deposit x d 0 { val := e.word, p0 := e.psn }) [] }

def execHeapTop (f : FmtE) (s : State) : Host.Outcome State Fault Refusal := s.perform (.heapTop f) f.c (heapRow f false)
def execHeapPop (f : FmtE) (s : State) : Host.Outcome State Fault Refusal := s.perform (.heapPop f) f.c (heapRow f true)

/-- What `visit` finds of an edge entry, and the search after it (R336). -/
def Search.visitEdge (k : Search) (e : Nat) : Search × Nat :=
  let id := BitVec.ofNat 32 e
  if id = 0xFFFFFFFF ∨ k.snap < e / 2 ^ 32 then (k, 0)
  else if k.filter.contains id then (k, 2)
  else if 16384 ≤ k.filter.length then ({ k with vfull := true }, 3)
  else ({ k with filter := k.filter ++ [id] }, 1)

def execVisit (f : FmtE) (s : State) : Host.Outcome State Fault Refusal :=
  let a := sUse (f.useA (.raw true))
  let d := sDest f.opd
  s.perform (.visit f) f.c
    { srcs := [a], dst := some d
      act := fun s x =>
        let m := s.walkOf x.e
        s.askDie x m.srch.home 0 fun s =>
          let (k, v) := m.srch.visitEdge (s.wsrc x a).1
          .done ((s.updWalk x fun q => { q with filter := k.filter, vfull := k.vfull }).deposit x d 0
            { val := BitVec.ofNat 64 v }) [] }

def execHop (f : FmtE) (s : State) : Host.Outcome State Fault Refusal :=
  let a := sUse (f.useA (.raw false))
  s.perform (.hop f) f.c
    { srcs := [a], latch := .clear, transfer := true
      act := fun s x =>
        let id := (s.wsrc x a).1
        if !s.idOk (s.descAt (s.walkOf x.e).srch.desc) id then .fault { cause := 5, walk := 5 }
        else .done (s.updWalker x.e.uid x.e.cmd x.e.w fun w =>
          { w with state := .hopping (id / 2 ^ 28), clause := none, pc := x.after }) [] }

def execWalkEnd (f : FmtE) (s : State) : Host.Outcome State Fault Refusal :=
  s.perform (.walkEnd f) f.c
    { latch := .clear, transfer := true
      act := fun s x => .done (s.updWalker x.e.uid x.e.cmd x.e.w fun w =>
        { w with state := .ended, clause := none, pc := x.after }) [] }

/-! ### WALKER_REPLY, HOP_ARRIVAL (R351) -/

/-- The registers of a walker that has hopped. -/
def hopRegs (s : SMap WReg) (recSize base : Nat) : SMap WReg :=
  let kept : SMap WReg := s.filter fun (e : Nat × WReg) => e.1 < 16
  (kept.insert 30 ⟨BitVec.ofNat 64 recSize, false⟩).insert 31 ⟨BitVec.ofNat 64 base, false⟩

def execHopArrival (uid cmd w : Nat) (s : State) : Host.Outcome State Fault Refusal :=
  .next (match s.srchTurn uid cmd, s.walker? uid cmd w with
    | some (_, m), some k =>
      match k.state with
      | .hopping st =>
        let d := s.descAt m.srch.desc
        s.updWalker uid cmd w fun x =>
          { x with stack := st, state := .run, latch := none, s := hopRegs x.s d.recSize (s.shardBase d st) }
      | _ => s
    | _, _ => s)

/-- The answer of another die arrives, and the instruction that waits for it is done. -/
def execWalkerReply (uid cmd w : Nat) (s : State) : Host.Outcome State Fault Refusal :=
  match s.srchTurn uid cmd, s.walker? uid cmd w with
  | some _, some k =>
    match k.state, k.clause with
    | .asking _, some cl =>
      let s1 := { s.updWalker uid cmd w fun x => { x with state := .run, answered := true } with cur := .walker uid cmd w }
      match decodeWord cl.hdr.cls cl.word with
      | .ok (.dist f) => execDist f s1
      | .ok (.heapPush f) => execHeapPush f s1
      | .ok (.heapTop f) => execHeapTop f s1
      | .ok (.heapPop f) => execHeapPop f s1
      | .ok (.visit f) => execVisit f s1
      | _ => .next s
    | _, _ => .next s
  | _, _ => .next s

end Sys2Proof.Machine
end

