-- ==== Sys2Proof/Machine/Dispatch.lean ====
section
/-! DEFINITION. The meaning of every row of spec/opcode_table.json, one arm for each constructor. -/
namespace Sys2Proof.Machine

def exec (i : Instr) (s : State) : Host.Outcome State Fault Refusal :=
  match i with
  | .addInt t f => Sys2Proof.Machine.execAddInt t f s
  | .subInt t f => Sys2Proof.Machine.execSubInt t f s
  | .mulInt t f => Sys2Proof.Machine.execMulInt t f s
  | .mulhi t f => Sys2Proof.Machine.execMulhi t f s
  | .minInt t f => Sys2Proof.Machine.execMinInt t f s
  | .maxInt t f => Sys2Proof.Machine.execMaxInt t f s
  | .divInt t f => Sys2Proof.Machine.execDivInt t f s
  | .rem t f => Sys2Proof.Machine.execRem t f s
  | .shl t f => Sys2Proof.Machine.execShl t f s
  | .shr t f => Sys2Proof.Machine.execShr t f s
  | .mad t f => Sys2Proof.Machine.execMad t f s
  | .addiI32 f => Sys2Proof.Machine.execAddiI32 f s
  | .addiI64 f => Sys2Proof.Machine.execAddiI64 f s
  | .and w f => Sys2Proof.Machine.execAnd w f s
  | .or w f => Sys2Proof.Machine.execOr w f s
  | .xor w f => Sys2Proof.Machine.execXor w f s
  | .andn w f => Sys2Proof.Machine.execAndn w f s
  | .not w f => Sys2Proof.Machine.execNot w f s
  | .popc w f => Sys2Proof.Machine.execPopc w f s
  | .clz w f => Sys2Proof.Machine.execClz w f s
  | .ctz w f => Sys2Proof.Machine.execCtz w f s
  | .brev w f => Sys2Proof.Machine.execBrev w f s
  | .bfe w f => Sys2Proof.Machine.execBfe w f s
  | .bfi w f => Sys2Proof.Machine.execBfi w f s
  | .mov w f => Sys2Proof.Machine.execMov w f s
  | .nop f => Sys2Proof.Machine.execNop f s
  | .li f => Sys2Proof.Machine.execLi f s
  | .lih f => Sys2Proof.Machine.execLih f s
  | .sel w f => Sys2Proof.Machine.execSel w f s
  | .cmpEqInt t f => Sys2Proof.Machine.execCmpEqInt t f s
  | .cmpNeInt t f => Sys2Proof.Machine.execCmpNeInt t f s
  | .cmpLtInt t f => Sys2Proof.Machine.execCmpLtInt t f s
  | .cmpLeInt t f => Sys2Proof.Machine.execCmpLeInt t f s
  | .cmpGtInt t f => Sys2Proof.Machine.execCmpGtInt t f s
  | .cmpGeInt t f => Sys2Proof.Machine.execCmpGeInt t f s
  | .cmpEqFloat t f => Sys2Proof.Machine.execCmpEqFloat t f s
  | .cmpNeFloat t f => Sys2Proof.Machine.execCmpNeFloat t f s
  | .cmpLtFloat t f => Sys2Proof.Machine.execCmpLtFloat t f s
  | .cmpLeFloat t f => Sys2Proof.Machine.execCmpLeFloat t f s
  | .cmpGtFloat t f => Sys2Proof.Machine.execCmpGtFloat t f s
  | .cmpGeFloat t f => Sys2Proof.Machine.execCmpGeFloat t f s
  | .cmpNum t f => Sys2Proof.Machine.execCmpNum t f s
  | .cmpNan t f => Sys2Proof.Machine.execCmpNan t f s
  | .addFloat t rm f => Sys2Proof.Machine.execAddFloat t rm f s
  | .subFloat t rm f => Sys2Proof.Machine.execSubFloat t rm f s
  | .mulFloat t rm f => Sys2Proof.Machine.execMulFloat t rm f s
  | .divFloat t rm f => Sys2Proof.Machine.execDivFloat t rm f s
  | .sqrt t rm f => Sys2Proof.Machine.execSqrt t rm f s
  | .minFloat t rm f => Sys2Proof.Machine.execMinFloat t rm f s
  | .maxFloat t rm f => Sys2Proof.Machine.execMaxFloat t rm f s
  | .rint t rm f => Sys2Proof.Machine.execRint t rm f s
  | .fma t rm f => Sys2Proof.Machine.execFma t rm f s
  | .fms t rm f => Sys2Proof.Machine.execFms t rm f s
  | .fnma t rm f => Sys2Proof.Machine.execFnma t rm f s
  | .fnms t rm f => Sys2Proof.Machine.execFnms t rm f s
  | .rsqrt t rm f => Sys2Proof.Machine.execRsqrt t rm f s
  | .exp2 t rm f => Sys2Proof.Machine.execExp2 t rm f s
  | .log2 t rm f => Sys2Proof.Machine.execLog2 t rm f s
  | .tanh t rm f => Sys2Proof.Machine.execTanh t rm f s
  | .sin t rm f => Sys2Proof.Machine.execSin t rm f s
  | .cos t rm f => Sys2Proof.Machine.execCos t rm f s
  | .cvt d rm f => Sys2Proof.Machine.execCvt d rm f s
  | .br f => Sys2Proof.Machine.execBr f s
  | .brx f => Sys2Proof.Machine.execBrx f s
  | .call f => Sys2Proof.Machine.execCall f s
  | .ret f => Sys2Proof.Machine.execRet f s
  | .musterCnt f => Sys2Proof.Machine.execMusterCnt f s
  | .musterFirst f => Sys2Proof.Machine.execMusterFirst f s
  | .musterSame f => Sys2Proof.Machine.execMusterSame f s
  | .musterLanes f => Sys2Proof.Machine.execMusterLanes f s
  | .xlaneAt f => Sys2Proof.Machine.execXlaneAt f s
  | .xlaneBelow f => Sys2Proof.Machine.execXlaneBelow f s
  | .xlaneAbove f => Sys2Proof.Machine.execXlaneAbove f s
  | .xlaneFlip f => Sys2Proof.Machine.execXlaneFlip f s
  | .redAdd t f => Sys2Proof.Machine.execRedAdd t f s
  | .redMin t f => Sys2Proof.Machine.execRedMin t f s
  | .redMax t f => Sys2Proof.Machine.execRedMax t f s
  | .scanAdd t f => Sys2Proof.Machine.execScanAdd t f s
  | .redAnd w f => Sys2Proof.Machine.execRedAnd w f s
  | .redOr w f => Sys2Proof.Machine.execRedOr w f s
  | .redXor w f => Sys2Proof.Machine.execRedXor w f s
  | .mand f => Sys2Proof.Machine.execMand f s
  | .mor f => Sys2Proof.Machine.execMor f s
  | .mxor f => Sys2Proof.Machine.execMxor f s
  | .mandn f => Sys2Proof.Machine.execMandn f s
  | .mnot f => Sys2Proof.Machine.execMnot f s
  | .mpop f => Sys2Proof.Machine.execMpop f s
  | .mfirst f => Sys2Proof.Machine.execMfirst f s
  | .mtov f => Sys2Proof.Machine.execMtov f s
  | .vtom f => Sys2Proof.Machine.execVtom f s
  | .mlive f => Sys2Proof.Machine.execMlive f s
  | .ldG z f => Sys2Proof.Machine.execLdG z f s
  | .stG z f => Sys2Proof.Machine.execStG z f s
  | .ldP z f => Sys2Proof.Machine.execLdP z f s
  | .stP z f => Sys2Proof.Machine.execStP z f s
  | .ldK z f => Sys2Proof.Machine.execLdK z f s
  | .atomAdd t f => Sys2Proof.Machine.execAtomAdd t f s
  | .atomMin t f => Sys2Proof.Machine.execAtomMin t f s
  | .atomMax t f => Sys2Proof.Machine.execAtomMax t f s
  | .atomAnd t f => Sys2Proof.Machine.execAtomAnd t f s
  | .atomOr t f => Sys2Proof.Machine.execAtomOr t f s
  | .atomXor t f => Sys2Proof.Machine.execAtomXor t f s
  | .atomXchg t f => Sys2Proof.Machine.execAtomXchg t f s
  | .atomCas t f => Sys2Proof.Machine.execAtomCas t f s
  | .atomAddF32 f => Sys2Proof.Machine.execAtomAddF32 f s
  | .aredAdd t f => Sys2Proof.Machine.execAredAdd t f s
  | .aredMin t f => Sys2Proof.Machine.execAredMin t f s
  | .aredMax t f => Sys2Proof.Machine.execAredMax t f s
  | .aredAnd t f => Sys2Proof.Machine.execAredAnd t f s
  | .aredOr t f => Sys2Proof.Machine.execAredOr t f s
  | .aredXor t f => Sys2Proof.Machine.execAredXor t f s
  | .aredAddF32 f => Sys2Proof.Machine.execAredAddF32 f s
  | .nredAddI32 f => Sys2Proof.Machine.execNredAddI32 f s
  | .nredAddF32 f => Sys2Proof.Machine.execNredAddF32 f s
  | .pfhL1 f => Sys2Proof.Machine.execPfhL1 f s
  | .pfhLlc f => Sys2Proof.Machine.execPfhLlc f s
  | .pfhNode0 f => Sys2Proof.Machine.execPfhNode0 f s
  | .sub f => Sys2Proof.Machine.execSub f s
  | .unsub f => Sys2Proof.Machine.execUnsub f s
  | .fence f => Sys2Proof.Machine.execFence f s
  | .xfence from_ to_ f => Sys2Proof.Machine.execXfence from_ to_ f s
  | .wtq f => Sys2Proof.Machine.execWtq f s
  | .wake f => Sys2Proof.Machine.execWake f s
  | .send f => Sys2Proof.Machine.execSend f s
  | .recv f => Sys2Proof.Machine.execRecv f s
  | .join f => Sys2Proof.Machine.execJoin f s
  | .bar f => Sys2Proof.Machine.execBar f s
  | .ringPut f => Sys2Proof.Machine.execRingPut f s
  | .ringGet f => Sys2Proof.Machine.execRingGet f s
  | .cntWait f => Sys2Proof.Machine.execCntWait f s
  | .cntMode f => Sys2Proof.Machine.execCntMode f s
  | .cntRd f => Sys2Proof.Machine.execCntRd f s
  | .crd f => Sys2Proof.Machine.execCrd f s
  | .cwr f => Sys2Proof.Machine.execCwr f s
  | .trap f => Sys2Proof.Machine.execTrap f s
  | .rft f => Sys2Proof.Machine.execRft f s
  | .launch f => Sys2Proof.Machine.execLaunch f s
  | .yield f => Sys2Proof.Machine.execYield f s
  | .exit f => Sys2Proof.Machine.execExit f s
  | .cp1d f => Sys2Proof.Machine.execCp1d f s
  | .cp2d f => Sys2Proof.Machine.execCp2d f s
  | .cpGth f => Sys2Proof.Machine.execCpGth f s
  | .cpSct f => Sys2Proof.Machine.execCpSct f s
  | .cpFillRaw f => Sys2Proof.Machine.execCpFillRaw f s
  | .cpFillEsr f => Sys2Proof.Machine.execCpFillEsr f s
  | .cpFillN4e f => Sys2Proof.Machine.execCpFillN4e f s
  | .cpZero f => Sys2Proof.Machine.execCpZero f s
  | .cpSeg f => Sys2Proof.Machine.execCpSeg f s
  | .cpCancel f => Sys2Proof.Machine.execCpCancel f s
  | .tbldT4 x a f => Sys2Proof.Machine.execTbldT4 x a f s
  | .tbldG4 a f => Sys2Proof.Machine.execTbldG4 a f s
  | .tbinv f => Sys2Proof.Machine.execTbinv f s
  | .tbspill f => Sys2Proof.Machine.execTbspill f s
  | .tbfill f => Sys2Proof.Machine.execTbfill f s
  | .lmmT8 x a f => Sys2Proof.Machine.execLmmT8 x a f s
  | .lmmT4 x f => Sys2Proof.Machine.execLmmT4 x f s
  | .lmmT4Rb x f => Sys2Proof.Machine.execLmmT4Rb x f s
  | .lmmG4 b f => Sys2Proof.Machine.execLmmG4 b f s
  | .lmmG4Rb b f => Sys2Proof.Machine.execLmmG4Rb b f s
  | .dmm t f => Sys2Proof.Machine.execDmm t f s
  | .saccMx f => Sys2Proof.Machine.execSaccMx f s
  | .saccQ16 f => Sys2Proof.Machine.execSaccQ16 f s
  | .zld f => Sys2Proof.Machine.execZld f s
  | .zst f => Sys2Proof.Machine.execZst f s
  | .zzero f => Sys2Proof.Machine.execZzero f s
  | .zmov f => Sys2Proof.Machine.execZmov f s
  | .srchDist f => Sys2Proof.Machine.execSrchDist f s
  | .srchKnn f => Sys2Proof.Machine.execSrchKnn f s
  | .srchWalk f => Sys2Proof.Machine.execSrchWalk f s
  | .srchIns f => Sys2Proof.Machine.execSrchIns f s
  | .srchDel f => Sys2Proof.Machine.execSrchDel f s
  | .srchSnap f => Sys2Proof.Machine.execSrchSnap f s
  | .srchRel f => Sys2Proof.Machine.execSrchRel f s
  | .srchHeap f => Sys2Proof.Machine.execSrchHeap f s
  | .srchReclaim f => Sys2Proof.Machine.execSrchReclaim f s
  | .dist f => Sys2Proof.Machine.execDist f s
  | .heapPush f => Sys2Proof.Machine.execHeapPush f s
  | .heapTop f => Sys2Proof.Machine.execHeapTop f s
  | .heapPop f => Sys2Proof.Machine.execHeapPop f s
  | .visit f => Sys2Proof.Machine.execVisit f s
  | .hop f => Sys2Proof.Machine.execHop f s
  | .walkEnd f => Sys2Proof.Machine.execWalkEnd f s
  | .fabRedAdd t f => Sys2Proof.Machine.execFabRedAdd t f s
  | .fabRedMin t f => Sys2Proof.Machine.execFabRedMin t f s
  | .fabRedMax t f => Sys2Proof.Machine.execFabRedMax t f s
  | .fabTopk f => Sys2Proof.Machine.execFabTopk f s
  | .fabPut f => Sys2Proof.Machine.execFabPut f s
  | .fabGet f => Sys2Proof.Machine.execFabGet f s
  | .fabBar f => Sys2Proof.Machine.execFabBar f s
  | .fabSig f => Sys2Proof.Machine.execFabSig f s
  | .illegalInstruction why => Sys2Proof.Machine.execIllegalInstruction why s
  | .clauseBegin who => Sys2Proof.Machine.execClauseBegin who s
  | .spill core => Sys2Proof.Machine.execSpill core s
  | .tick => Sys2Proof.Machine.execTick s
  | .homeRead txn evict => Sys2Proof.Machine.execHomeRead txn evict s
  | .loadReply txn => Sys2Proof.Machine.execLoadReply txn s
  | .homeWrite txn => Sys2Proof.Machine.execHomeWrite txn s
  | .writeAck txn => Sys2Proof.Machine.execWriteAck txn s
  | .homeAtomic txn => Sys2Proof.Machine.execHomeAtomic txn s
  | .capstanNred txn => Sys2Proof.Machine.execCapstanNred txn s
  | .refreshWindow => Sys2Proof.Machine.execRefreshWindow s
  | .meshEpoch => Sys2Proof.Machine.execMeshEpoch s
  | .bankAccess core bank => Sys2Proof.Machine.execBankAccess core bank s
  | .homeSubscribe txn => Sys2Proof.Machine.execHomeSubscribe txn s
  | .segmentSnapshot uid seg => Sys2Proof.Machine.execSegmentSnapshot uid seg s
  | .segmentUpdate uid seg => Sys2Proof.Machine.execSegmentUpdate uid seg s
  | .wtqAppend txn => Sys2Proof.Machine.execWtqAppend txn s
  | .wakeAtHome txn => Sys2Proof.Machine.execWakeAtHome txn s
  | .wtqTimeout waiter => Sys2Proof.Machine.execWtqTimeout waiter s
  | .messageDelivery msg => Sys2Proof.Machine.execMessageDelivery msg s
  | .pageWalk core ctx va write fetch => Sys2Proof.Machine.execPageWalk core ctx va write fetch s
  | .copyUnit uid cmd => Sys2Proof.Machine.execCopyUnit uid cmd s
  | .copyComplete uid cmd => Sys2Proof.Machine.execCopyComplete uid cmd s
  | .laUnit uid cmd => Sys2Proof.Machine.execLaUnit uid cmd s
  | .laComplete uid cmd => Sys2Proof.Machine.execLaComplete uid cmd s
  | .srchStart uid cmd => Sys2Proof.Machine.execSrchStart uid cmd s
  | .versionCommit uid cmd => Sys2Proof.Machine.execVersionCommit uid cmd s
  | .walkerReply uid cmd w => Sys2Proof.Machine.execWalkerReply uid cmd w s
  | .hopArrival uid cmd w => Sys2Proof.Machine.execHopArrival uid cmd w s
  | .srchFinish uid cmd => Sys2Proof.Machine.execSrchFinish uid cmd s
  | .launchEnter launch => Sys2Proof.Machine.execLaunchEnter launch s
  | .placement part => Sys2Proof.Machine.execPlacement part s
  | .cableEnd uid => Sys2Proof.Machine.execCableEnd uid s
  | .saveComplete uid => Sys2Proof.Machine.execSaveComplete uid s
  | .powerWindow watts => Sys2Proof.Machine.execPowerWindow watts s
  | .thermalMigration core temp temps => Sys2Proof.Machine.execThermalMigration core temp temps s
  | .thermalTrip temp => Sys2Proof.Machine.execThermalTrip temp s
  | .gateIdle core section_ => Sys2Proof.Machine.execGateIdle core section_ s
  | .powerWakeComplete core section_ => Sys2Proof.Machine.execPowerWakeComplete core section_ s
  | .fabricSlot fibre relays => Sys2Proof.Machine.execFabricSlot fibre relays s
  | .fecBlockReceive fibre header flits check => Sys2Proof.Machine.execFecBlockReceive fibre header flits check s
  | .peerAccessTarget msg => Sys2Proof.Machine.execPeerAccessTarget msg s
  | .peerAck mseq refused data psn => Sys2Proof.Machine.execPeerAck mseq refused data psn s
  | .messageLost mseq => Sys2Proof.Machine.execMessageLost mseq s
  | .fabComplete uid cmd contribs => Sys2Proof.Machine.execFabComplete uid cmd contribs s
  | .cxlCompletionTimeout port => Sys2Proof.Machine.execCxlCompletionTimeout port s
  | .cxlLinkDown port => Sys2Proof.Machine.execCxlLinkDown port s
  | .hostMemWrite off bytes => Sys2Proof.Machine.execHostMemWrite off bytes s
  | .hostMemRead off len => Sys2Proof.Machine.execHostMemRead off len s
  | .resumeRetry ctx handle => Sys2Proof.Machine.execResumeRetry ctx handle s
  | .resumeSkip ctx handle => Sys2Proof.Machine.execResumeSkip ctx handle s
  | .resumeTerminate ctx handle => Sys2Proof.Machine.execResumeTerminate ctx handle s
  | .resumeCancel ctx handle => Sys2Proof.Machine.execResumeCancel ctx handle s
  | .resumeRetrySpill ctx handle size => Sys2Proof.Machine.execResumeRetrySpill ctx handle size s
  | .ctxPreempt ctx cid => Sys2Proof.Machine.execCtxPreempt ctx cid s
  | .ctxRestore ctx slot => Sys2Proof.Machine.execCtxRestore ctx slot s
  | .ctxTlbinv ctx value => Sys2Proof.Machine.execCtxTlbinv ctx value s
  | .ctxFqCtl ctx value => Sys2Proof.Machine.execCtxFqCtl ctx value s
  | .ctxFqTailRead uid => Sys2Proof.Machine.execCtxFqTailRead uid s
  | .ctxNotify ctx value => Sys2Proof.Machine.execCtxNotify ctx value s
  | .ctxGpfStart ctx value => Sys2Proof.Machine.execCtxGpfStart ctx value s
  | .gpfComplete port => Sys2Proof.Machine.execGpfComplete port s
  | .portOnline port => Sys2Proof.Machine.execPortOnline port s
  | .devSvnWrite value => Sys2Proof.Machine.execDevSvnWrite value s
  | .devPartCfgWrite value => Sys2Proof.Machine.execDevPartCfgWrite value s
  | .devCoreMapWrite value => Sys2Proof.Machine.execDevCoreMapWrite value s
  | .ctxEnable => Sys2Proof.Machine.execCtxEnable s
  | .ctxDisable => Sys2Proof.Machine.execCtxDisable s
  | .ctxTerm => Sys2Proof.Machine.execCtxTerm s
  | .devCtxLaunch value => Sys2Proof.Machine.execDevCtxLaunch value s
  | .devFwqWrite value => Sys2Proof.Machine.execDevFwqWrite value s
  | .fwqService part => Sys2Proof.Machine.execFwqService part s
  | .devReset => Sys2Proof.Machine.execDevReset s
  | .powerOn => Sys2Proof.Machine.execPowerOn s
  | .port0HotReset => Sys2Proof.Machine.execPort0HotReset s
  | .scrubComplete trained width => Sys2Proof.Machine.execScrubComplete trained width s
  | .bootDoor value => Sys2Proof.Machine.execBootDoor value s
  | .firmwareLoad => Sys2Proof.Machine.execFirmwareLoad s
  | .attestationRequest nonce => Sys2Proof.Machine.execAttestationRequest nonce s
  | .ctxCreate creq arg0 arg1 arg2 => Sys2Proof.Machine.execCtxCreate creq arg0 arg1 arg2 s
  | .ctxDestroy creq arg0 arg1 arg2 => Sys2Proof.Machine.execCtxDestroy creq arg0 arg1 arg2 s
  | .ctxAnswer creq arg0 arg1 arg2 => Sys2Proof.Machine.execCtxAnswer creq arg0 arg1 arg2 s
  | .ctxTerminate creq arg0 arg1 arg2 => Sys2Proof.Machine.execCtxTerminate creq arg0 arg1 arg2 s
  | .badRequest creq arg0 arg1 arg2 => Sys2Proof.Machine.execBadRequest creq arg0 arg1 arg2 s
  | .resumeActionReserved ctx handle action => Sys2Proof.Machine.execResumeActionReserved ctx handle action s

end Sys2Proof.Machine
end

