-- ==== Sys2Proof/Machine/Due.lean ====
section
/-! DEFINITION. The turn of a group at its next instruction, and the instructions that an exit in that turn leaves signed by
all: they issue at the exit (05 R137). -/
namespace Sys2Proof.Machine

/-- The instruction a clause has next: what its word decodes to in the clause's class, or the fault of a word that is no
instruction (01 R18, 03 R83). -/
def Clause.instr (cl : Clause) : Instr :=
  match decodeWord cl.hdr.cls cl.word with | .ok i => i | .error r => .illegalInstruction r

/-- A group executes its next instruction; nothing where it is in no clause. -/
def State.runGroup (s : State) (uid p gid : Nat) : Host.Outcome State Fault Refusal :=
  match s.group? uid p gid with
  | some { clause := some cl, .. } => exec cl.instr { s with cur := .group uid p gid }
  | _ => .next s

/-- A ply stands, or does not stand, at a stop point. -/
def State.setStopped (s : State) (uid p : Nat) (b : Bool) : State := s.updPly uid p fun y => { y with stopped := b }

/-- The last signer of an instruction that an exit has completed executes it for all its members. A ply that was told to stop
had stopped at the instruction, and stops again after it, as the plies of the other signers do. -/
def State.runDue (s : State) (uid p gid : Nat) : Host.Outcome State Fault Refusal :=
  if ((s.cable uid).ply p).stopped then
    match (s.setStopped uid p false).runGroup uid p gid with
    | .next t => .next (t.setStopped uid p true)
    | o => o
  else s.runGroup uid p gid

/-- The instructions that are due issue, `n` of them at most: one that is an exit itself may leave more. -/
def State.issueDue (s : State) : Nat → Host.Outcome State Fault Refusal
  | 0 => .next s
  | n + 1 =>
    match s.due with
    | [] => .next s
    | d :: rest =>
      match State.runDue { s with due := rest } d.1 d.2.1 d.2.2 with
      | .next t => t.issueDue n
      | o => o

/-- What the turn of a group comes to: its instruction, and what falls due in it. A cable has 1024 strands at most. -/
def withDue (o : Host.Outcome State Fault Refusal) : Host.Outcome State Fault Refusal :=
  match o with
  | .next t => t.issueDue 1024
  | o => o

end Sys2Proof.Machine
end

