-- ==== Sys2Proof/Machine/Step.lean ====
section
/-! DEFINITION. One step of the module: the agent whose turn it is moves (log 1). -/
namespace Sys2Proof.Machine

/-- The state in which an agent begins its step: the step is counted, time has passed, its turn is taken, and the host has
changed its own memory (18 R419). -/
def State.begun (s : State) : State :=
  { s.hostSide with agenda := s.agenda.tail, stepCount := s.stepCount + 1
                    cycle := s.cycle + Config.freeCycles s.stepCount, cur := .none, due := [] }

/-- Whose turn it is. -/
def State.turn (s : State) : Turn := match s.agenda with | t :: _ => t | [] => Config.freeTurn s.stepCount

/-- One step. An agent that does not exist, or has nothing to execute, leaves the state as time has left it. A group's turn
takes in the instructions that its own leaves due. -/
def step (s : State) : Host.Outcome State Fault Refusal :=
  let s0 := s.begun
  match s.turn with
  | .instr uid p =>
    match ((s0.cable uid).ply p).running with
    | none => .next s0
    | some gid => withDue (s0.runGroup uid p gid)
  | .walker uid cmd w =>
    match s0.walker? uid cmd w with
    | some { clause := some cl, .. } => exec cl.instr { s0 with cur := .walker uid cmd w }
    | _ => .next s0
  | .event i =>
    match i with
    | .illegalInstruction _ => .next s0
    | i => if i.row.isSome then .next s0 else exec i s0
  | .firmware i val =>
    match i with
    | .crd f => exec (.crd f) { s0 with cur := .firmware val }
    | .cwr f => exec (.cwr f) { s0 with cur := .firmware val }
    | _ => .next s0

/-- The launch record of the cable that `withFetchWord` places: one ply, nothing else. -/
def fetchWordRecord : List W64 := [0, 0x100010001, 1] ++ List.replicate 13 0

/-- A state whose very next step runs an instruction (log 11): a cable of one ply is placed on core 0, and its one group
has fetched the clause, the header in bits [63:0] of `w` and the instruction in bits [127:64]; with 64 bits or fewer,
the instruction alone, in a clause of class ALU. Further words of the clause are zero. -/
def State.withFetchWord (s : State) (nbits w : Nat) : State :=
  let alone := decide (nbits ≤ 64)
  let h : Header := (if alone then none else Header.decode (BitVec.ofNat 64 w)).getD
    ⟨.alu, 0, 0, ⟨false, 0, 0⟩, ⟨false, 0, 0⟩, false⟩
  let word : W64 := BitVec.ofNat 64 (if alone then w else w / 2 ^ 64)
  let uid := s.nextUid
  let cl : Clause := { addr := 0x10000, hdr := h, words := word :: List.replicate h.len.toNat 0, born := s.nextOp }
  let g : Group := { gid := 0, lanes := 0xFFFFFFFF, pc := 0x10000, clause := some cl }
  let y : Ply := { groups := [g], running := some 0 }
  let c : Cable :=
    { uid := uid, lrec := fetchWordRecord, plies := [(0, y)], strands := (List.range 32).map fun j => (j, {}) }
  let s1 := { s with cables := s.cables.insert uid c, nextUid := uid + 1, agenda := [.instr uid 0] }
  s1.updCore 0 fun k => { k with slots := k.slots.set 0 (some (uid, 0)) }

end Sys2Proof.Machine
end

