-- ==== Sys2Proof/Safety.lean ====
section
/-! DEFINITION. The terms that claims use: when an instruction may issue and what its completion leaves (01 R20, R21; 03
Table 3.19; 05 R134 to R136), the invariants of the state, and what counts as a safe step. -/
namespace Sys2Proof.Machine

/-! ### When an instruction issues -/

/-- The registers of an issue are at hand: none of its accesses is kept out by a full bank (07 R184), a shared destination
is one its ply may write (05 R133), the pool has room and spilled sources come back (01 R33), no source is poisoned (04
R93), and a command's operands are of its kinds (13 R314). The state is that with the sources back. -/
def State.atHand (s : State) (x : Issue) (r : Row) : Option (Issue × State) :=
  if s.goesOn x.e || !s.mayWrite x r || (!x.e.walker && !s.poolRoom x r) then none
  else match s.sourcesBack x r with
    | .error _ => none
    | .ok s1 =>
      if (s1.poisoned x r).isSome || (!x.contrib.isEmpty && r.srcs.any fun u => !u.late u.op) then none else some (x, s1)

/-- The instruction `i` issues in `s`: the group or walker whose turn it is runs and is at it, no debug event of its ply or of
another that signed, and no decoding fault is due, all its members have signed it, and its registers have arrived and are at
hand. Answers the issue, and the state in which its effect takes place. -/
def State.issues (s : State) (i : Instr) (cm : Common) (r : Row) : Option (Issue × State) :=
  match s.cur with
  | .group uid p gid =>
    let e : Env := { uid := uid, ply := p, gid := gid }
    match s.group? uid p gid with
    | none => none
    | some g =>
      match g.clause with
      | none => none
      | some cl =>
        let c := s.cable uid
        let x := s.fullIssue e g cl cm
        if (c.ply p).stopped || s.goesOn e || (c.debugTrouble p cl).isSome
            || (s.decodeTrouble e i cm (laneSet g.lanes) (cl.pos + 1 == cl.words.length) r).isSome
            || s.waiting e cm.lay.toNat (c.groupStrands p g) r
            || !(c.allIn x.members ((p, g) :: s.signed e g cm)) || s.waiting e cm.lay.toNat x.members r
            || (s.signerStop e g cm).isSome then none
        else (s.gathered e g cm).atHand x r
  | .walker uid cmd w =>
    let e : Env := { walker := true, uid := uid, cmd := cmd, w := w }
    match (s.cable uid).cmd? cmd, s.walker? uid cmd w with
    | some m, some k =>
      match k.clause with
      | none => none
      | some cl =>
        let x : Issue := { e := e, c := cm, addr := cl.addr + 8 * (cl.pos + 1), hdr := cl.addr, word := cl.word
                           members := [0], contrib := if s.predicate e cm 0 then [0] else [], groups := [] }
        if k.state != .run || decide (m.walkLimit ≤ k.count)
            || (s.decodeTrouble e i cm [] (cl.pos + 1 == cl.words.length) r).isSome then none
        else s.atHand x r
    | _, _ => none
  | _ => none

/-- Some strand contributes: at least one member's predicate holds (06 R163). -/
abbrev Issue.Contributes (x : Issue) : Prop := x.contrib ≠ []

/-- What follows the effect of an instruction: the strands that go elsewhere, the latches of members that did not
contribute, released names, and the next instruction of every group, or the end of its clause. -/
def State.retire (t : State) (x : Issue) (r : Row) (goto : List (Nat × Nat)) : State :=
  let u := (t.latchRest x r).releaseMarks x r
  if x.e.walker then (u.walkerNext x.e (goto.head?.map Prod.snd)).updWalker x.e.uid x.e.cmd x.e.w fun k => { k with count := k.count + 1 }
  else x.groups.foldl (fun s g => (s.advance x.e.uid goto g).stepped x.e.uid g.1 g.2 false) u

/-- The agent whose turn it is exists, and is inside a clause. -/
def State.hasAgent (s : State) : Bool :=
  match s.cur with
  | .group uid p gid => ((s.group? uid p gid).bind Group.clause).isSome
  | .walker uid cmd w => ((s.cable uid).cmd? cmd).isSome && ((s.walker? uid cmd w).bind Walker.clause).isSome
  | _ => false

/-! ### What an effect leaves -/

/-- Everything but the cable `uid` is as it was: memory and its poison, every other cable, the cores, the home slices, the
contexts and partitions, the devices. -/
def State.OnlyCable (uid : Nat) (s t : State) : Prop :=
  t = { s with cables := t.cables } ∧ ∀ v, v ≠ uid → t.cables.find? v = s.cables.find? v

/-- A pair of registers, or one, given a value. -/
def givenRegs (m : SMap PReg) (n : Nat) (wide : Bool) (v : Val) : SMap PReg :=
  let m1 := m.insert n ⟨v.val.lo, v.p0⟩
  if wide then m1.insert (n + 1) ⟨v.val.hi, v.p1⟩ else m1

/-- A strand after it was given a result: its destination where that is its own, its flags, its generator, its latch; all
else as it was. -/
def Strand.given (t : Strand) (op : Operand) (wide : Bool) (v : Val) : Strand :=
  { t with
    v := match op with | .v n => givenRegs t.v n wide v | _ => t.v
    spilled := match op with
      | .v n => (if wide then setErase (n + 1) (setErase n t.spilled) else setErase n t.spilled) | _ => t.spilled
    o := match op with | .o n => givenRegs t.o n wide v | _ => t.o
    fflags := t.fflags ||| v.flags
    sr := match v.sr with | some x => srFix x | none => t.sr
    latch := some (v.latch wide) }

/-- A walker after it was given a result (14 R349): its register, its latch; all else as it was. -/
def Walker.given (k : Walker) (op : Operand) (wide : Bool) (v : Val) : Walker :=
  { k with
    s := match op with | .s n => k.s.insert n ⟨v.val, v.p0 || v.p1⟩ | _ => k.s
    latch := some (v.latch wide) }

/-- A register shared above the strand. -/
def Operand.shared : Operand → Bool | .s _ => true | .k _ => true | .y _ => true | _ => false

/-- The group that holds a strand runs a clause. -/
def State.inClause (s : State) (uid strand : Nat) : Bool :=
  match ((s.cable uid).ply (strand / 32)).groups.find? fun g => g.lanes.getLsbD (strand % 32) with
  | some { clause := some _, .. } => true
  | _ => false

/-- What an instruction that computes leaves in `t`, from `s`, the values of its contributors being `f` (04 R90, R92; 05
R130; 06 R163). Nothing outside the cable changes. At strand scope every contributor is given its own value; at a wider
scope the value is that of the lowest contributor, and every contributor's latch and flags take it; no other strand
changes. A shared destination, read again by the highest-numbered writer, or at a wider scope by the lowest contributor,
holds the value. A walker is given its value, and its flags gather in its command. -/
structure Computed (s t : State) (x : Issue) (d : Dest) (f : Nat → Val) : Prop where
  only : State.OnlyCable x.e.uid s t
  each : x.e.walker = false → x.scope = .strand → ∀ j, (t.cable x.e.uid).strand j =
    if j ∈ x.contrib then ((s.cable x.e.uid).strand j).given d.op d.ty.wide (f j) else (s.cable x.e.uid).strand j
  wide : x.e.walker = false → x.scope ≠ .strand → d.op.perStrand = false → ∀ j, (t.cable x.e.uid).strand j =
    if j ∈ x.contrib then ((s.cable x.e.uid).strand j).given .lat d.ty.wide
      { f x.lead with sr := if j = x.lead then (f x.lead).sr else none }
    else (s.cable x.e.uid).strand j
  shared : x.e.walker = false → d.op.shared = true →
    let j := if x.scope = .strand then x.contrib.getLastD 0 else x.lead
    s.inClause x.e.uid j = true →
      t.readOne x.e j x.lay d.op 0 = ⟨(f j).val.lo, (f j).p0⟩ ∧
      (d.ty.wide = true → t.readOne x.e j x.lay d.op 1 = ⟨(f j).val.hi, (f j).p1⟩)
  walker : x.e.walker = true → x.scope = .strand → x.contrib = [0] →
    t.walker? x.e.uid x.e.cmd x.e.w = (s.walker? x.e.uid x.e.cmd x.e.w).map fun k => k.given d.op d.ty.wide (f 0)

/-- What an instruction asks of its issue: the sources it reads, its destination, and a condition on its own fields. It
says nothing of its effect. -/
def asks (srcs : List Use) (dst : Option Dest) (ok : Bool := true) : Row :=
  { srcs := srcs, dst := dst, legal := fun _ _ _ => ok, act := fun s _ => .done s [] }

/-- The instruction `i` completes wherever it issues, and gives each contributor, or at a wider scope all of them, the value
`val` of the state in which its effect takes place. Without a contributor nothing but its retirement takes place. -/
def Computes (i : Instr) (cm : Common) (r : Row) (d : Dest) (val : State → Issue → Nat → Val) : Prop :=
  ∀ (s s1 : State) (x : Issue), s.issues i cm r = some (x, s1) →
    (x.contrib = [] → exec i s = .next (s1.retire x r [])) ∧
    (x.Contributes → ∃ u, exec i s = .next (u.retire x r []) ∧ Computed s1 u x d (val s1 x))

/-- What an instruction that tests leaves in `t`, from `s` (04 R103, R92): the bit of the mask register `m` of every
contributor is the outcome `f` of its test, at a wider scope that of the lowest contributor; no other bit of the mask
changes; every member's latch holds its bit. No other strand changes, and nothing outside the cable. -/
structure Tested (s t : State) (x : Issue) (m : Nat) (f : Nat → Bool) : Prop where
  only : State.OnlyCable x.e.uid s t
  bit : x.e.walker = false → ∀ j, s.inClause x.e.uid j = true → t.maskBit x.e j m =
    if j ∈ x.contrib then f (if x.scope = .strand then j else x.lead) else s.maskBit x.e j m
  latch : x.e.walker = false → ∀ j, (t.cable x.e.uid).strand j = if j ∈ x.members then
      { (s.cable x.e.uid).strand j with latch := some ⟨false, if (if j ∈ x.contrib then
          f (if x.scope = .strand then j else x.lead) else s.maskBit x.e j m) = true then 1 else 0, false⟩ }
    else (s.cable x.e.uid).strand j
  walker : x.e.walker = true → x.scope = .strand → ∀ k, s.walker? x.e.uid x.e.cmd x.e.w = some k →
    let b := if x.contrib = [] then k.m.getLsbD m else f 0
    t.walker? x.e.uid x.e.cmd x.e.w = some { k with
      m := if x.contrib = [] then k.m else if b then k.m ||| (1 <<< m) else k.m &&& ~~~((1 : W32) <<< m)
      latch := some ⟨false, if b = true then 1 else 0, false⟩ }

/-- The instruction `i` tests its sources and writes mask bits wherever it issues. -/
def Tests (i : Instr) (cm : Common) (r : Row) (m : Nat) (val : State → Issue → Nat → Bool) : Prop :=
  ∀ (s s1 : State) (x : Issue), s.issues i cm r = some (x, s1) →
    ∃ u, exec i s = .next (u.retire x r []) ∧ Tested s1 u x m (val s1 x)

/-- What a parallel instruction with per-strand or uniform results leaves in `t`, from `s` (06 Table 6.1, 05 R130): each
contributor is given its value `f`, in its own register where the destination is its own; a shared destination, read again
by the lowest contributor, holds that contributor's value. No other strand changes, and nothing outside the cable. -/
structure Gathered (s t : State) (x : Issue) (d : Dest) (f : Nat → Val) : Prop where
  only : State.OnlyCable x.e.uid s t
  each : ∀ j, (t.cable x.e.uid).strand j =
    if j ∈ x.contrib then ((s.cable x.e.uid).strand j).given d.op d.ty.wide (f j) else (s.cable x.e.uid).strand j
  shared : d.op.shared = true → s.inClause x.e.uid x.lead = true →
    t.readOne x.e x.lead x.lay d.op 0 = ⟨(f x.lead).val.lo, (f x.lead).p0⟩ ∧
    (d.ty.wide = true → t.readOne x.e x.lead x.lay d.op 1 = ⟨(f x.lead).val.hi, (f x.lead).p1⟩)

/-- The instruction `i` completes wherever a group issues it with a contributor, and gives each contributor its value. -/
def Gathers (i : Instr) (cm : Common) (r : Row) (d : Dest) (val : State → Issue → Nat → Val) : Prop :=
  ∀ (s s1 : State) (x : Issue), s.issues i cm r = some (x, s1) → x.e.walker = false → x.scope ≠ .strand → x.Contributes →
    ∃ u, exec i s = .next (u.retire x r []) ∧ Gathered s1 u x d (val s1 x)

/-- What a mask instruction leaves in `t`, from `s` (06 R172): the lanes `lanes` of the mask register `m` take `v`, the others
stay; every member's latch holds the mask after it. No other register changes, and nothing outside the cable. -/
structure Masked (s t : State) (x : Issue) (m : Nat) (lanes v : W32) : Prop where
  only : State.OnlyCable x.e.uid s t
  mask : s.inClause x.e.uid (x.members.headD 0) = true → ∀ n, t.readMask x.e (x.members.headD 0) n =
    if n = m then (s.readMask x.e (x.members.headD 0) m &&& ~~~lanes) ||| (v &&& lanes)
    else s.readMask x.e (x.members.headD 0) n
  latch : ∀ j, (t.cable x.e.uid).strand j = if j ∈ x.members then
      { (s.cable x.e.uid).strand j with latch := some ⟨false, (t.readMask x.e (x.members.headD 0) m).setWidth 64, false⟩ }
    else (s.cable x.e.uid).strand j

/-- No single step is in force for a cable (16 R386): bit 0 of `CBL_DEBUG` is clear, as the cable holds it and as every
running clause reads or has written it. -/
def Cable.unstepped (c : Cable) : Bool :=
  !c.dbg.getLsbD 0 && c.plies.all fun e => e.2.groups.all fun g =>
    match g.clause with
    | none => true
    | some cl => !((cl.view.cregs.getD 0x109 0).getLsbD 0) && cl.log.all fun w =>
        match w with | .creg 0x109 _ v _ => !v.getLsbD 0 | _ => true

/-- What the instructions of 09 R248 to R252 ask to leave the core: good addresses, room in UNACK and in the table, the
entries of their lines drained, what Table 8.3 asks of a release, and the scopes of their lines. `accs` are their
accesses, `t` the state in which they are sent, `s2` the one before the scopes are met. -/
def State.writesReady (s : State) (x : Issue) (f : FmtM) (size : Nat) (near read : Bool) (accs : List Acc) (s2 t : State) : Prop :=
  let uid := x.e.uid
  let plies := distinct (x.ordered.map (· / 32))
  let mem := accs.filter fun a => !a.peer
  s.acquiring uid x.ordered = false ∧
  (∃ s1, s.resolve x { size := size, read := read, write := true, peer := !near, near := near
                       sync := if f.ord != 0 then some f.ssc else none } (x.accessors.map fun j => (j, s.ea x f j)) = (s1, .ok accs) ∧
    (if f.releases then s1.drainPlies uid plies f.ssc else s1).drainLines (s.cable uid).coreD x mem = (s2, true)) ∧
  s2.unackRoom x accs = true ∧ (f.releases = true → s2.releaseHolds uid plies x.ordered f.ssc = true) ∧
  s2.freeEntries (s.cable uid).coreD accs.length = true ∧
  (if f.ord != 0 then s2.scopeChecks x f.ssc true mem else .ok s2) = .ok t

/-- Room for commands: their counter, the 256 commands of a cable (R381), the engine. -/
def State.commandRoom (s : State) (x : Issue) (f : FmtE) (path : Path) (limit n : Nat) : Prop :=
  let c := s.cable x.e.uid
  (f.ce = true → (c.counter f.cnt.toNat).val + n ≤ 65535) ∧ c.cmds.length + n ≤ 256 ∧ s.engineLoad c.coreD path + n ≤ limit

/-! ### Invariants -/

/-- Memory, and every cable's scratchpad, in canonical form. -/
abbrev State.memWf (s : State) : Prop := s.mem.wf ∧ ∀ e ∈ s.cables, Memory.wf e.2.spad

/-- A step is safe when it gives a next state. -/
def safeStep (s : State) : Prop := ∃ s', step s = .next s'

end Sys2Proof.Machine
end

