-- ==== Sys2Proof/Certificates/Slice0/Obligations.lean ====
section
/-! DEFINITION. The statements for the provers. Each cites the rules it formalises in OBLIGATIONS.json. -/
open Sys2Proof Sys2Proof.Machine

/-! ### Encoding (03 R59 to R81) -/

/-- The word of every well-formed instruction decodes, in a clause of its class, to that instruction. -/
def Obligations.DecodeOfEncode : Prop :=
  ∀ (i : Instr) (c : Cls), i.cls = some c → i.WellFormed → decodeWord c (encode i) = .ok i

/-- A word that decodes is the word of what it decodes to: every bit of it is read, and it is well formed. Headers: decoding
and encoding are inverse to one another on the headers without defect. -/
def Obligations.EncodeOfDecode : Prop :=
  (∀ (c : Cls) (w : W64) (i : Instr), decodeWord c w = .ok i → encode i = w ∧ i.cls = some c ∧ i.WellFormed) ∧
  (∀ h : Header, h.ok = true → Header.decode h.encode = some h) ∧
  ∀ (w : W64) (h : Header), Header.decode w = some h → h.encode = w ∧ h.ok = true

/-- Words written out from the encodings of 03 and from the listings of the programs of 10, 14 and 18 decode to the
instructions they stand for. -/
def Obligations.PublishedWordsDecode : Prop :=
  (decodeWord .alu 0x8060_07FF_FFF8_0060).toOption.map Instr.row = some (some (.alu, 0x060)) ∧
  decodeWord .alu 0x8100_1006_0200_0208 = .ok (.fma .f32 0
    { c := { pinv := false, pmask := 0, lay := 0, scope := .strand }, dst := 8, sa := 2, sb := 3, sc := 4
      lra := false, lrb := false, lrc := false }) ∧
  decodeWord .mem 0x8120_B000_0000_000C = .ok (.stG .b32
    { c := { pinv := false, pmask := 0, lay := 0, scope := .strand }, data := 9, base := 22, lrd := false, lrbs := false
      ord := 0, ssc := 0, split := false, off := 0 }) ∧
  decodeWord .sync 0x8000_0130_0000_0000 = .ok (.fence
    { c := { pinv := false, pmask := 0, lay := 0, scope := .strand }, data := 0, base := 0, lrd := false, lrbs := false
      ord := 2, ssc := 3, split := false, off := 0 }) ∧
  decodeWord .srch 0xE0E0_0000_0000_0112 = .ok (.heapPop
    { c := { pinv := false, pmask := 0, lay := 0, scope := .strand }, opd := 0x307, opa := 0, opb := 0, ce := false, cnt := 0
      te := false, tok := 0, var := 0 }) ∧
  decodeWord .sys 0x8000_0000_0000_0031 = .ok (.exit
    { c := { pinv := false, pmask := 0, lay := 0, scope := .strand }, dst := 0, sa := 0, sb := 0, nega := false, absa := false
      lra := false, negb := false, absb := false, lrb := false, clamp := 0, scale := 0 })

/-- 01 R18. Bit 63 is 1 in the word of every instruction and 0 in every header; a group that runs, and whose next word
has bit 63 clear, takes the illegal-instruction fault at that word, which nothing else of its turn precedes. -/
def Obligations.BitSixtyThree : Prop :=
  (∀ i : Instr, i.HasWord → (encode i).getLsbD 63 = true) ∧
  (∀ h : Header, h.encode.getLsbD 63 = false) ∧ (∀ w : W64, w.getLsbD 63 = true → Header.decode w = none) ∧
  ∀ (s : State) (uid p gid : Nat) (g : Group) (cl : Clause), s.turn = .instr uid p → ((s.cable uid).ply p).running = some gid →
    s.group? uid p gid = some g → g.clause = some cl → cl.word.getLsbD 63 = false →
    ((s.cable uid).ply p).stopped = false → (s.cable uid).debugTrouble p cl = none → cl.skip = false →
    step s = .next (State.raisePly { s.begun with cur := .group uid p gid } { uid := uid, ply := p, gid := gid } g.next cl.word
      { cause := 1 })

/-! ### Steps -/

/-- A step executes the instruction that the word of the agent's clause decodes to, at the state as time has left it; a
step of the device is its meaning at that state; firmware's `crd` and `cwr` are executed at machine level. A group's turn takes
in what it leaves due, the instructions that an exit has left signed by all: where it leaves none it ends there, and the first
that it leaves is executed by the group that signed it last, the ply at a stop point for its length running again, and the
rest after it. -/
def Obligations.StepRunsDecoded : Prop :=
  (∀ (s : State) (uid p gid : Nat) (g : Group) (cl : Clause) (i : Instr), s.turn = .instr uid p →
    ((s.cable uid).ply p).running = some gid → s.group? uid p gid = some g → g.clause = some cl →
    decodeWord cl.hdr.cls cl.word = .ok i → step s = withDue (exec i { s.begun with cur := .group uid p gid })) ∧
  (∀ t : State, t.due = [] → withDue (.next t) = .next t) ∧
  (∀ (s t : State) (uid p gid n : Nat) (rest : List (Nat × Nat × Nat)) (g : Group) (cl : Clause) (i : Instr),
    s.due = (uid, p, gid) :: rest → s.group? uid p gid = some g → g.clause = some cl → decodeWord cl.hdr.cls cl.word = .ok i →
    (((s.cable uid).ply p).stopped = false → exec i { s with due := rest, cur := .group uid p gid } = .next t →
      s.issueDue (n + 1) = t.issueDue n) ∧
    (((s.cable uid).ply p).stopped = true →
      exec i { State.setStopped { s with due := rest } uid p false with cur := .group uid p gid } = .next t →
      s.issueDue (n + 1) = (t.setStopped uid p true).issueDue n)) ∧
  (∀ (s : State) (uid cmd w : Nat) (k : Walker) (cl : Clause) (i : Instr), s.turn = .walker uid cmd w →
    s.walker? uid cmd w = some k → k.clause = some cl → decodeWord cl.hdr.cls cl.word = .ok i →
    step s = exec i { s.begun with cur := .walker uid cmd w }) ∧
  (∀ (s : State) (i : Instr), s.turn = .event i → i.row = none → (∀ why, i ≠ .illegalInstruction why) →
    step s = exec i s.begun) ∧
  (∀ (s : State) (f : FmtI) (v : W64), s.turn = .firmware (.crd f) v →
    step s = exec (.crd f) { s.begun with cur := .firmware v }) ∧
  ∀ (s : State) (f : FmtI) (v : W64), s.turn = .firmware (.cwr f) v →
    step s = exec (.cwr f) { s.begun with cur := .firmware v }

/-- No state stops the machine: every step answers a next state. The meaning of no instruction faults or refuses: a step of
the device always answers a next state, and every instruction does wherever the agent that performs it exists. -/
def Obligations.EveryStepAnswers : Prop :=
  (∀ s : State, ∃ t, step s = .next t) ∧
  (∀ (i : Instr) (s : State), i.row = none → (∀ why, i ≠ .illegalInstruction why) → ∃ t, exec i s = .next t) ∧
  ∀ (i : Instr) (s : State), s.hasAgent = true → ∃ t, exec i s = .next t

/-! ### Arithmetic of strands (04) -/

/-- The integer instructions of 04 R95: the type, the type of the second source, and the exact result. -/
def integerOp : Instr → Option (IntTy × IntTy × FmtA × (Int → Int → Int))
  | .addInt t f => some (t, t, f, fun a b => a + b)
  | .subInt t f => some (t, t, f, fun a b => a - b)
  | .mulInt t f => some (t, t, f, fun a b => a * b)
  | .mulhi t f => some (t, t, f, fun a b => (a * b) / (2 ^ t.fmt.w : Nat))
  | .minInt t f => some (t, t, f, fun a b => min a b)
  | .maxInt t f => some (t, t, f, fun a b => max a b)
  | .divInt t f => some (t, t, f, fun a b => if b = 0 then (if t.fmt.signed then -1 else t.fmt.max) else a.tdiv b)
  | .rem t f => some (t, t, f, fun a b => if b = 0 then a else a.tmod b)
  | .shl t f => some (t, .n32, f, fun a b => a * (2 ^ min b.toNat 256 : Nat))
  | .shr t f => some (t, .n32, f, fun a b => a / (2 ^ min b.toNat 256 : Nat))
  | _ => none

/-- R95, R29: `add sub mul mulhi min max div rem shl shr` complete wherever they issue, and give every contributor the
exact result on its sources after their modifiers, scaled, clamped or wrapped, with the overflow flag of a saturation. A
shift count beyond 256 shifts as 256 does. R96, R97: `mad` gives a × b + c, and `addi.i32` and `addi.i64`
a + SignExtend(IMM), modulo 2 to the width, without a flag. -/
def Obligations.IntegerArithmetic : Prop :=
  (∀ (i : Instr) (t b : IntTy) (f : FmtA) (g : Int → Int → Int), integerOp i = some (t, b, f, g) →
    Computes i f.c (asks [f.useA t.oty, f.useB b.oty] (some (f.dest t.oty)) (scaleOk f.clamp f.scale t.oty)) (f.dest t.oty)
      fun s x j =>
        let v := finishInt t.fmt (g (t.fmt.decode (s.src x j (f.useA t.oty))) (b.fmt.decode (s.src x j (f.useB b.oty))))
          f.clamp (scaleOf f.scale)
        { val := t.oty.extend v.1, flags := v.2 }) ∧
  (∀ (t : IntTy) (f : FmtB), Computes (.mad t f) f.c
    (asks [f.useA t.oty, f.useB t.oty, f.useC t.oty] (some (f.dest t.oty))) (f.dest t.oty) fun s x j =>
      { val := t.oty.extend (t.fmt.wrap (t.fmt.decode (s.src x j (f.useA t.oty)) * t.fmt.decode (s.src x j (f.useB t.oty))
          + t.fmt.decode (s.src x j (f.useC t.oty)))) }) ∧
  (∀ f : FmtI, Computes (.addiI32 f) f.c (asks [f.useA IntTy.i32.oty] (some (f.dest IntTy.i32.oty))) (f.dest IntTy.i32.oty)
    fun s x j => { val := (BitVec.ofNat 32 (s.src x j (f.useA IntTy.i32.oty)) + f.imm.signExtend 32).setWidth 64 }) ∧
  ∀ f : FmtI, Computes (.addiI64 f) f.c (asks [f.useA IntTy.i64.oty] (some (f.dest IntTy.i64.oty))) (f.dest IntTy.i64.oty)
    fun s x j => { val := BitVec.ofNat 64 (s.src x j (f.useA IntTy.i64.oty)) + f.imm.signExtend 64 }

/-- The bit operations of 04 Table 4.3: common fields, sources, destination, the condition on the modifiers, the width, and
bit `k` of the result from the sources' patterns. -/
def bitOp : Instr → Option (Common × List Use × Dest × Bool × Nat × (List Nat → Nat → Bool))
  | .and w f => some (f.c, [f.useA w.oty, f.useB w.oty], f.dest w.oty, scaleOk f.clamp f.scale w.oty, widthBits w,
      fun l k => (src1 l).testBit k && (src2 l).testBit k)
  | .or w f => some (f.c, [f.useA w.oty, f.useB w.oty], f.dest w.oty, scaleOk f.clamp f.scale w.oty, widthBits w,
      fun l k => (src1 l).testBit k || (src2 l).testBit k)
  | .xor w f => some (f.c, [f.useA w.oty, f.useB w.oty], f.dest w.oty, scaleOk f.clamp f.scale w.oty, widthBits w,
      fun l k => (src1 l).testBit k ^^ (src2 l).testBit k)
  | .andn w f => some (f.c, [f.useA w.oty, f.useB w.oty], f.dest w.oty, scaleOk f.clamp f.scale w.oty, widthBits w,
      fun l k => (src1 l).testBit k && !(src2 l).testBit k)
  | .not w f => some (f.c, [f.useA w.oty], f.dest w.oty, scaleOk f.clamp f.scale w.oty, widthBits w,
      fun l k => !(src1 l).testBit k)
  | .brev w f => some (f.c, [f.useA w.oty], f.dest w.oty, scaleOk f.clamp f.scale w.oty, widthBits w,
      fun l k => (src1 l).testBit (widthBits w - 1 - k))
  | .bfe w f => some (f.c, [f.useA w.oty, f.useB (.raw false)], f.dest w.oty, scaleOk f.clamp f.scale w.oty, widthBits w,
      fun l k => decide (k < src2 l / 256 % 256) && (src1 l).testBit (src2 l % 256 + k))
  | .bfi w f => some (f.c, [f.useA w.oty, f.useB (.raw false), f.useC w.oty], f.dest w.oty, true, widthBits w,
      fun l k => if src2 l % 256 ≤ k ∧ k < src2 l % 256 + src2 l / 256 % 256 then (src1 l).testBit (k - src2 l % 256)
        else (src3 l).testBit k)
  | _ => none

/-- R98: the bit operations complete wherever they issue; bit k of the result is that of Table 4.3, and no flag is
raised. `popc`, `clz` and `ctz` give the number of ones, of zeros above the highest one, and of zeros below the lowest one
of the source, the width where it is zero, in one register. -/
def Obligations.BitOperations : Prop :=
  (∀ (i : Instr) (c : Common) (l : List Use) (d : Dest) (ok : Bool) (w : Nat) (g : List Nat → Nat → Bool),
    bitOp i = some (c, l, d, ok, w, g) →
    ∃ val : State → Issue → Nat → Val, Computes i c (asks l (some d) ok) d val ∧ ∀ s x j,
      (∀ k, (val s x j).val.getLsbD k = (decide (k < w) && g (l.map fun u => s.src x j u) k)) ∧
      (val s x j).flags = 0 ∧ (val s x j).sr = none ∧ (val s x j).p0 = false ∧ (val s x j).p1 = false) ∧
  ∀ (w : Width) (f : FmtA),
    let W := widthBits w
    let r := asks [f.useA w.oty] (some (f.dest (.raw false))) (scaleOk f.clamp f.scale w.oty)
    ∃ p z t : State → Issue → Nat → Nat,
      Computes (.popc w f) f.c r (f.dest (.raw false)) (fun s x j => { val := BitVec.ofNat 64 (p s x j) }) ∧
      Computes (.clz w f) f.c r (f.dest (.raw false)) (fun s x j => { val := BitVec.ofNat 64 (z s x j) }) ∧
      Computes (.ctz w f) f.c r (f.dest (.raw false)) (fun s x j => { val := BitVec.ofNat 64 (t s x j) }) ∧
      ∀ s x j,
        let a := s.src x j (f.useA w.oty)
        p s x j = ((List.range W).filter fun k => a.testBit k).length ∧
        (z s x j ≤ W ∧ (∀ k, k < W → W - z s x j ≤ k → a.testBit k = false) ∧
          (z s x j < W → a.testBit (W - 1 - z s x j) = true)) ∧
        t s x j ≤ W ∧ (∀ k, k < t s x j → a.testBit k = false) ∧ (t s x j < W → a.testBit (t s x j) = true)

/-- R99, R101, R102: `mov` and the chosen source of `sel` are copied bit for bit, with the poison of each register; `li`
gives SignExtend(IMM), and `lih` IMM[15:0] above a[15:0]. -/
def Obligations.Moves : Prop :=
  (∀ (w : Width) (f : FmtA), Computes (.mov w f) f.c
    (asks [{ f.useA w.oty with carry := true }] (some (f.dest w.oty)) (scaleOk f.clamp f.scale w.oty)) (f.dest w.oty)
    fun s x j =>
      let p := s.readPoison x.e j x.lay (.ofField f.sa) w.oty.wide
      { val := BitVec.ofNat 64 (s.readOp x.e j x.lay (.ofField f.sa) w.oty).1, p0 := p.1, p1 := p.2 }) ∧
  (∀ (w : Width) (f : FmtB), Computes (.sel w f) f.c
    (asks [{ f.useA w.oty with carry := true }, { f.useB w.oty with carry := true }] (some (f.dest w.oty))) (f.dest w.oty)
    fun s x j =>
      let op := Operand.ofField (if s.maskBit x.e j (maskField f.sc) = true then f.sa else f.sb)
      let p := s.readPoison x.e j x.lay op w.oty.wide
      { val := BitVec.ofNat 64 (s.readOp x.e j x.lay op w.oty).1, p0 := p.1, p1 := p.2 }) ∧
  (∀ f : FmtI, Computes (.li f) f.c (asks [] (some (f.dest (.raw false)))) (f.dest (.raw false))
    fun _ _ _ => { val := (f.imm.signExtend 32).setWidth 64 }) ∧
  ∀ f : FmtI, Computes (.lih f) f.c (asks [f.useA (.raw false)] (some (f.dest (.raw false)))) (f.dest (.raw false))
    fun s x j => { val := (f.imm.extractLsb' 0 16 ++ BitVec.ofNat 16 (s.src x j (f.useA (.raw false)))).setWidth 64 }

/-- 01 R12. A `v` name that holds no physical register reads as zero with poison clear: every name of a strand that has just been
placed, and every name that a last-read mark has freed. An instruction that reads it gets zero without poison, and the
name still holds none afterwards. -/
def Obligations.UnheldNamesReadZero : Prop :=
  (∀ (s : State) (e : Env) (j lay n : Nat), e.walker = false → ((s.cable e.uid).strand j).v.find? n = none →
    n ∉ ((s.cable e.uid).strand j).spilled →
    s.readOne e j lay (.v n) 0 = { val := 0, psn := false } ∧ s.readOp e j lay (.v n) (.raw false) = (0, false)) ∧
  (∀ (s : State) (id core j n : Nat) (k : Coil), s.coils.find? id = some k →
    ((((s.placeNew id core).cable s.nextUid).strand j).v.find? n = none ∧
      (((s.placeNew id core).cable s.nextUid).strand j).spilled = [])) ∧
  ∀ (f : FmtA) (n d : Nat) (s s1 : State) (x : Issue),
    let r := asks [{ f.useA Width.b32.oty with carry := true }] (some (f.dest Width.b32.oty)) (scaleOk f.clamp f.scale Width.b32.oty)
    Operand.ofField f.sa = .v n → Operand.ofField f.dst = .v d → d ≠ n → s.issues (.mov .b32 f) f.c r = some (x, s1) →
    x.Contributes → x.e.walker = false → x.scope = .strand →
    ∃ t, exec (.mov .b32 f) s = .next t ∧ ∀ j ∈ x.contrib,
      let before := (s1.cable x.e.uid).strand j
      let after := (t.cable x.e.uid).strand j
      (before.v.find? n = none → after.v.find? d = some { val := 0, psn := false } ∧ after.v.find? n = none) ∧
      (f.lra = true → after.v.find? n = none ∧ n ∉ after.spilled)

/-- 04 R100. `nop` is of class ALU with OP 0x058, and well formed only with every field but the common ones zero; it has no
effect beyond its retirement, and leaves every member of it without a latch; a strand without a latch may not read it. -/
def Obligations.NopDoesNothing : Prop :=
  (∀ f : FmtA, (Instr.nop f).cls = some .alu ∧ (encode (.nop f)).extractLsb' 0 10 = 0x058) ∧
  (∀ (s : State) (e : Env) (sc : Scope) (lay j : Nat) (lanes : List Nat) (r : OpRule), e.walker = false → r.dest = false → j ∈ lanes →
    ((s.cable e.uid).strand (32 * e.ply + j)).latch = none → s.operandOk e sc lay lanes r .lat = false) ∧
  (∀ f : FmtA, (Instr.nop f).WellFormed → f = { c := f.c, dst := 0, sa := 0, sb := 0, nega := false, absa := false, lra := false
                                                negb := false, absb := false, lrb := false, clamp := 0, scale := 0 }) ∧
  ∀ (f : FmtA) (s s1 : State) (x : Issue), s.issues (.nop f) f.c { asks [] none with latch := .clear } = some (x, s1) →
    exec (.nop f) s = .next (s1.retire x { asks [] none with latch := .clear } []) ∧
    (x.e.walker = false → ∀ j, ((s1.latchRest x { asks [] none with latch := .clear }).cable x.e.uid).strand j =
      if j ∈ x.members then { (s1.cable x.e.uid).strand j with latch := none } else (s1.cable x.e.uid).strand j)

/-- The floating-point instructions of 04 R104 and R106 with two sources and with one, that are rounded from an exact
result: the exact result, with the flags its operation raises. -/
def floatOp : Instr → Option (FloatTy × BitVec 3 × FmtA × Bool × (XVal → XVal → XVal × Flags))
  | .addFloat t rm f => some (t, rm, f, true, fun a b => a.add b (decide (rm = 3)))
  | .subFloat t rm f => some (t, rm, f, true, fun a b => a.add b.neg (decide (rm = 3)))
  | .mulFloat t rm f => some (t, rm, f, true, fun a b => a.mul b)
  | .divFloat t rm f => some (t, rm, f, true, fun a b => a.div b)
  | .minFloat t rm f => some (t, rm, f, true, fun a b => (a.least b, 0))
  | .maxFloat t rm f => some (t, rm, f, true, fun a b => (a.greatest b, 0))
  | .sqrt t rm f => some (t, rm, f, false, fun a _ => a.sqrt t.fmt)
  | .rsqrt t rm f => some (t, rm, f, false, fun a _ => a.rsqrt t.fmt)
  | .rint t rm f => some (t, rm, f, false, fun a _ => a.rint (RMode.ofCode rm 0))
  | _ => none

/-- R104, R29: they complete wherever they issue, and give the exact result on the sources after their modifiers, rounded
once under the mode, scaled and clamped, with the flags of the operation and of the rounding. -/
def Obligations.FloatArithmetic : Prop :=
  ∀ (i : Instr) (t : FloatTy) (rm : BitVec 3) (f : FmtA) (two : Bool) (g : XVal → XVal → XVal × Flags),
    floatOp i = some (t, rm, f, two, g) →
    Computes i f.c (asks ([f.useA t.oty] ++ if two then [f.useB t.oty] else []) (some (f.dest t.oty))) (f.dest t.oty)
      fun s x j =>
        let e := g (t.fmt.decode (s.src x j (f.useA t.oty))) (t.fmt.decode (if two then s.src x j (f.useB t.oty) else 0))
        let v := finishFloat t.fmt e.1 (RMode.ofCode rm 0) f.clamp (scaleOf f.scale)
        { val := t.oty.extend v.1, flags := e.2 ||| v.2 }

/-- The fused instructions of 04 R105: whether the product and the addend are negated. -/
def fusedOp : Instr → Option (FloatTy × BitVec 3 × FmtB × Bool × Bool)
  | .fma t rm f => some (t, rm, f, false, false)
  | .fms t rm f => some (t, rm, f, false, true)
  | .fnma t rm f => some (t, rm, f, true, false)
  | .fnms t rm f => some (t, rm, f, true, true)
  | _ => none

/-- R105: `fma fms fnma fnms` give (±a) × b ± c rounded once. -/
def Obligations.FusedMultiplyAdd : Prop :=
  ∀ (i : Instr) (t : FloatTy) (rm : BitVec 3) (f : FmtB) (np nc : Bool), fusedOp i = some (t, rm, f, np, nc) →
    Computes i f.c (asks [f.useA t.oty, f.useB t.oty, f.useC t.oty] (some (f.dest t.oty))) (f.dest t.oty) fun s x j =>
      let a := t.fmt.decode (s.src x j (f.useA t.oty))
      let c := t.fmt.decode (s.src x j (f.useC t.oty))
      let e := XVal.fma (if np then a.neg else a) (t.fmt.decode (s.src x j (f.useB t.oty))) (if nc then c.neg else c)
        (decide (rm = 3))
      let v := finishFloat t.fmt e.1 (RMode.ofCode rm 0) 0 0
      { val := t.oty.extend v.1, flags := e.2 ||| v.2 }

/-- The transcendental instructions of 04 R106. -/
def functionOp : Instr → Option (Fn × FloatTy × BitVec 3 × FmtA)
  | .exp2 t rm f => some (.exp2, t, rm, f)
  | .log2 t rm f => some (.log2, t, rm, f)
  | .tanh t rm f => some (.tanh, t, rm, f)
  | .sin t rm f => some (.sin, t, rm, f)
  | .cos t rm f => some (.cos, t, rm, f)
  | _ => none

/-- R106, Table 4.6: `exp2 log2 tanh sin cos` complete wherever they issue, and give the function's value rounded once. Of a NaN, a
zero and an infinity the value is what Table 4.6 says. Of another argument it is the rational that the model takes for the exact
value because no rounding tells the two apart (the model's reading, log 7), marked as R106 marks it: NV for `log2` of a
negative number, with the NaN. -/
def Obligations.TranscendentalFunctions : Prop :=
  ∀ (i : Instr) (h : Fn) (t : FloatTy) (rm : BitVec 3) (f : FmtA), functionOp i = some (h, t, rm, f) →
    (Computes i f.c (asks [f.useA t.oty] (some (f.dest t.oty))) (f.dest t.oty) fun s x j =>
      let e := h.exact (t.fmt.decode (s.src x j (f.useA t.oty)))
      let v := finishFloat t.fmt e.1 (RMode.ofCode rm 0) f.clamp (scaleOf f.scale)
      { val := t.oty.extend v.1, flags := e.2 ||| v.2 }) ∧
    h.exact .nan = (.nan, 0) ∧
    (∀ neg, h.exact (.zero neg) = match h with
      | .exp2 | .cos => (XVal.ofInt 1, 0)
      | .log2 => (.inf true, Flags.dz)
      | .tanh | .sin => (.zero neg, 0)) ∧
    (∀ neg, h.exact (.inf neg) = match h with
      | .exp2 => (if neg then .zero false else .inf false, 0)
      | .log2 => if neg then (.nan, Flags.nv) else (.inf false, 0)
      | .tanh => ((XVal.ofInt 1).withSign neg, 0)
      | .sin | .cos => (.nan, Flags.nv)) ∧
    ∀ neg n d, h.exact (.fin neg n d) = match h with
      | .log2 => if neg then (.nan, Flags.nv) else (h.surrogate false n d, 0)
      | .cos => (h.surrogate false n d, 0)
      | _ => (h.surrogate neg n d, 0)

/-- R107: `cvt` gives the exact value of its source rounded to the destination type; under stochastic rounding each
contributor draws once from its own generator, and keeps the state drawn. -/
def Obligations.Conversions : Prop :=
  ∀ (d : CvtTy) (rm : BitVec 3) (f : FmtA) (src : CvtTy), CvtTy.ofCode (maskField f.sb) = some src →
    Computes (.cvt d rm f) f.c (asks [f.useA src.oty] (some (f.dest d.oty))) (f.dest d.oty) fun s x j =>
      let next := s.nextDraw x.e j
      let v := convert d.oty (src.oty.decode (s.src x j (f.useA src.oty))) (RMode.ofCode rm (srDraw next)) f.clamp (scaleOf f.scale)
      { val := d.oty.extend v.1, flags := v.2, sr := if rm = 4 then some next else none }

/-- The comparisons of 04 Table 4.4: the operands' type, and the outcome on their patterns. -/
def compareOp : Instr → Option (OTy × FmtA × (Nat → Nat → Bool))
  | .cmpEqInt t f => some (t.oty, f, fun a b => decide (t.fmt.decode a = t.fmt.decode b))
  | .cmpNeInt t f => some (t.oty, f, fun a b => decide (t.fmt.decode a ≠ t.fmt.decode b))
  | .cmpLtInt t f => some (t.oty, f, fun a b => decide (t.fmt.decode a < t.fmt.decode b))
  | .cmpLeInt t f => some (t.oty, f, fun a b => decide (t.fmt.decode a ≤ t.fmt.decode b))
  | .cmpGtInt t f => some (t.oty, f, fun a b => decide (t.fmt.decode b < t.fmt.decode a))
  | .cmpGeInt t f => some (t.oty, f, fun a b => decide (t.fmt.decode b ≤ t.fmt.decode a))
  | .cmpEqFloat t f => some (t.oty, f, fun a b => (t.fmt.decode a).eqNum (t.fmt.decode b))
  | .cmpNeFloat t f => some (t.oty, f, fun a b => !(t.fmt.decode a).eqNum (t.fmt.decode b))
  | .cmpLtFloat t f => some (t.oty, f, fun a b => (t.fmt.decode a).ltNum (t.fmt.decode b))
  | .cmpLeFloat t f => some (t.oty, f, fun a b => (t.fmt.decode a).ltNum (t.fmt.decode b) || (t.fmt.decode a).eqNum (t.fmt.decode b))
  | .cmpGtFloat t f => some (t.oty, f, fun a b => (t.fmt.decode b).ltNum (t.fmt.decode a))
  | .cmpGeFloat t f => some (t.oty, f, fun a b => (t.fmt.decode b).ltNum (t.fmt.decode a) || (t.fmt.decode a).eqNum (t.fmt.decode b))
  | .cmpNum t f => some (t.oty, f, fun a b => !(t.fmt.decode a).isNaN && !(t.fmt.decode b).isNaN)
  | .cmpNan t f => some (t.oty, f, fun a b => (t.fmt.decode a).isNaN || (t.fmt.decode b).isNaN)
  | _ => none

/-- R103: a comparison completes wherever it issues, and writes the outcome into each contributor's bit of its mask. -/
def Obligations.Comparisons : Prop :=
  ∀ (i : Instr) (ty : OTy) (f : FmtA) (g : Nat → Nat → Bool), compareOp i = some (ty, f, g) →
    Tests i f.c { asks [f.useA ty, f.useB ty] none with latch := .own } (maskField f.dst) fun s x j =>
      g (s.src x j (f.useA ty)) (s.src x j (f.useB ty))

/-! ### Parallel instructions (06) -/

/-- A source and a destination that every member has of its own, or that the scope shares (06 Table 6.1). -/
def everyMember (u : Use) : Use := { u with perStrand := true }
def ofEveryMember (d : Dest) : Dest := { d with perStrand := true }

/-- The musters of 06 R167: the value, from the contributors with their sources, in ascending order. -/
def musterOp : Instr → Option (FmtA × (List (Nat × Nat) → Nat))
  | .musterCnt f => some (f, fun l => (l.filter fun e => decide (e.2 ≠ 0)).length + 65536 * l.length)
  | .musterFirst f => some (f, fun l => ((l.find? fun e => decide (e.2 ≠ 0)).map Prod.fst).getD 0xFFFFFFFF)
  | .musterSame f => some (f, fun l => if ∀ e ∈ l, ∀ e' ∈ l, e.2 = e'.2 then 1 else 0)
  | .musterLanes f => some (f, fun l => (l.filter fun e => decide (e.2 ≠ 0)).foldl (fun m e => m + 2 ^ (e.1 % 32)) 0)
  | _ => none

/-- R167: a muster completes wherever it issues with a contributor, and gives every contributor the one value. -/
def Obligations.Musters : Prop :=
  ∀ (i : Instr) (f : FmtA) (g : List (Nat × Nat) → Nat), musterOp i = some (f, g) →
    let u := everyMember (f.useA (.raw false))
    let d := ofEveryMember (f.dest (.raw false))
    Gathers i f.c (asks [u] (some d)) d fun s x _ => { val := BitVec.ofNat 64 (g (x.contrib.map fun j => (j, s.src x j u))) }

/-- The source lane of 06 Table 6.4 for lane `j` and the selector `b`: within the segment of 2 to the b[10:8] lanes, at most
32, that holds `j`. -/
def laneOp : Instr → Option (FmtA × (Nat → Nat → Option Nat))
  | .xlaneAt f => some (f, fun j b => let g := 2 ^ min (b / 256 % 8) 5; some (j / g * g + b % 32 % g))
  | .xlaneBelow f => some (f, fun j b => let g := 2 ^ min (b / 256 % 8) 5; if b % 32 ≤ j % g then some (j - b % 32) else none)
  | .xlaneAbove f => some (f, fun j b => let g := 2 ^ min (b / 256 % 8) 5; if j % g + b % 32 < g then some (j + b % 32) else none)
  | .xlaneFlip f => some (f, fun j b => let g := 2 ^ min (b / 256 % 8) 5; some (j / g * g + Nat.xor (j % g) (b % 32 % g)))
  | _ => none

/-- R168: a cross-lane move completes wherever it issues with a contributor; each contributor takes the value and the poison
of its source lane where that lane contributes, else its own. -/
def Obligations.LaneMoves : Prop :=
  ∀ (i : Instr) (f : FmtA) (g : Nat → Nat → Option Nat), laneOp i = some (f, g) →
    let a := { everyMember (f.useA (.raw false)) with carry := true }
    let b := everyMember (f.useB (.raw false))
    let d := { ofEveryMember (f.dest (.raw false)) with only := Operand.perStrand }
    Gathers i f.c (asks [a, b] (some d)) d fun s x j =>
      let from_ := match g (j % 32) (s.src x j b) with
        | some l => if j / 32 * 32 + l ∈ x.contrib then j / 32 * 32 + l else j
        | none => j
      { val := BitVec.ofNat 64 (s.readOp x.e from_ x.lay a.op a.ty).1, p0 := (s.readOp x.e from_ x.lay a.op a.ty).2 }

/-- The reductions of 06 R169: the source type, and the result with its flags from the contributors' patterns. -/
def reduceOp : Instr → Option (OTy × FmtA × (List Nat → Nat × Flags))
  | .redAdd t f => some (t.oty, f, redSum t.oty)
  | .redMin t f => some (t.oty, f, fun l => (redExtreme false t.oty l, 0))
  | .redMax t f => some (t.oty, f, fun l => (redExtreme true t.oty l, 0))
  | .redAnd w f => some (w.oty, f, fun l => (match l with | [] => 0 | a :: r => r.foldl Nat.land a, 0))
  | .redOr w f => some (w.oty, f, fun l => (l.foldl Nat.lor 0, 0))
  | .redXor w f => some (w.oty, f, fun l => (l.foldl Nat.xor 0, 0))
  | _ => none

/-- R169, R170: a reduction completes wherever it issues with a contributor, and gives all of them the value combined in
ascending order of strands; `scan.add` gives each the sum of the values up to its own, with the flags of the whole sum. -/
def Obligations.Reductions : Prop :=
  (∀ (i : Instr) (ty : OTy) (f : FmtA) (g : List Nat → Nat × Flags), reduceOp i = some (ty, f, g) →
    let u := everyMember (f.useA ty)
    let d := ofEveryMember (f.dest ty)
    Gathers i f.c (asks [u] (some d)) d fun s x _ =>
      let v := g (x.contrib.map fun j => s.src x j u)
      { val := ty.extend v.1, flags := v.2 }) ∧
  ∀ (t : RedTy) (f : FmtA),
    let u := everyMember (f.useA t.oty)
    let d := { ofEveryMember (f.dest t.oty) with only := Operand.perStrand }
    Gathers (.scanAdd t f) f.c (asks [u] (some d)) d fun s x j =>
      { val := t.oty.extend (redSum t.oty ((x.contrib.filter fun k => decide (k ≤ j)).map fun k => s.src x k u)).1
        flags := (redSum t.oty (x.contrib.map fun k => s.src x k u)).2 }

/-- The mask instructions of 06 Table 6.5 with a mask destination: the sources, and the 32 bits from the state, the issue and
the strand that reads them. -/
def maskOp : Instr → Option (FmtA × List Use × (State → Issue → Nat → W32))
  | .mand f => some (f, [], fun s x j => s.readMask x.e j (maskField f.sa) &&& s.readMask x.e j (maskField f.sb))
  | .mor f => some (f, [], fun s x j => s.readMask x.e j (maskField f.sa) ||| s.readMask x.e j (maskField f.sb))
  | .mxor f => some (f, [], fun s x j => s.readMask x.e j (maskField f.sa) ^^^ s.readMask x.e j (maskField f.sb))
  | .mandn f => some (f, [], fun s x j => s.readMask x.e j (maskField f.sa) &&& ~~~s.readMask x.e j (maskField f.sb))
  | .mnot f => some (f, [], fun s x j => ~~~s.readMask x.e j (maskField f.sa))
  | .vtom f => some (f, [f.useA (.raw false)], fun s x j => BitVec.ofNat 32 (s.readOp x.e j x.lay (.ofField f.sa) (.raw false)).1)
  | .mlive f => some (f, [], fun s x j => (s.cable x.e.uid).liveLanes (j / 32))
  | _ => none

/-- The mask instructions with a register destination: the value from the mask. -/
def maskOutOp : Instr → Option (FmtA × (W32 → Nat))
  | .mpop f => some (f, fun m => ((List.range 32).filter fun k => m.getLsbD k).length)
  | .mfirst f => some (f, fun m => ((List.range 32).find? fun k => m.getLsbD k).getD 32)
  | .mtov f => some (f, fun m => m.toNat)
  | _ => none

/-- R172: the mask instructions complete wherever they issue; those with a mask destination change the lanes in which the
predicate holds, contributor or not, and those with a register destination give it the value formed from the mask. -/
def Obligations.MaskOperations : Prop :=
  (∀ (i : Instr) (f : FmtA) (l : List Use) (g : State → Issue → Nat → W32), maskOp i = some (f, l, g) →
    ∀ (s s1 : State) (x : Issue), s.issues i f.c { asks l none with latch := .own, always := true } = some (x, s1) →
      x.e.walker = false → ∃ u, exec i s = .next (u.retire x { asks l none with latch := .own, always := true } []) ∧
        Masked s1 u x (maskField f.dst) (s1.predicateLanes x (x.members.headD 0)) (g s1 x (x.members.headD 0))) ∧
  ∀ (i : Instr) (f : FmtA) (g : W32 → Nat), maskOutOp i = some (f, g) →
    let d := { f.dest (.raw false) with
      only := fun op => match op with | .s _ => true | .y _ => true | .k _ => true | _ => false }
    Computes i f.c (asks [] (some d)) d fun s x j => { val := BitVec.ofNat 64 (g (s.readMask x.e j (maskField f.sa))) }

/-! ### Control transfer (04 R108 to R121; 06 R174, R178 to R180) -/

/-- R108, R109, R22: a branch whose target may be a header completes and sends every contributor there: `br` to the header's
address plus SignExtend(IMM) × 8, `brx` to the address in its source. -/
def Obligations.Branches : Prop :=
  (∀ (f : FmtI) (s s1 s2 : State) (x : Issue),
    let r : Row := { asks [] none with latch := .clear, transfer := true }
    let a := (BitVec.ofNat 64 x.hdr + f.imm.signExtend 64 * 8).toNat
    s.issues (.br f) f.c r = some (x, s1) → x.Contributes → s1.acquiring x.e.uid x.contrib = false →
    s1.targetBad x false a = (s2, some false) →
    exec (.br f) s = .next (s2.retire x r (x.contrib.map fun j => (j, a)))) ∧
  ∀ (f : FmtA) (s s1 s2 : State) (x : Issue),
    let r : Row := { asks [f.useA (.raw true)] none with latch := .clear, transfer := true }
    let l := x.contrib.map fun j =>
      (j, (s1.readOp x.e (if x.scope = .strand then j else x.lead) x.lay (.ofField f.sa) (.raw true)).1)
    s.issues (.brx f) f.c r = some (x, s1) → x.Contributes → s1.acquiring x.e.uid x.contrib = false →
    s1.targets x true l = (s2, none) →
    exec (.brx f) s = .next (s2.retire x r l)

/-- R110, R111: where the stack of every contributor is reachable and the target may be a header, `call` buffers the address
of the word after it eight bytes below the stack pointer, and gives that address as the new one; `ret` goes to the address
read at the stack pointer, and gives the pointer plus eight. -/
def Obligations.CallsAndReturns : Prop :=
  (∀ (f : FmtI) (s s1 s2 s3 s4 : State) (x : Issue) (accs : List Acc),
    let r : Row := { asks [f.useA (.raw true)] (some (f.dest (.raw true))) with transfer := true }
    let sp := fun j => BitVec.ofNat 64 (s1.readOp x.e j x.lay (.ofField f.sa) (.raw true)).1 - 8
    let a := (BitVec.ofNat 64 x.hdr + f.imm.signExtend 64 * 8).toNat
    s.issues (.call f) f.c r = some (x, s1) → x.Contributes → s1.acquiring x.e.uid x.contrib = false →
    s1.resolve x { size := 8, read := false, write := true } (x.contrib.map fun j => (j, (sp j).toNat)) = (s2, .ok accs) →
    s2.acquiring x.e.uid x.contrib = false → s2.targetBad x false a = (s3, some false) → s3.unackRoom x accs = true →
    s3.bufferAll (s1.cable x.e.uid).coreD x (accs.map fun b => (b, (leBytes (x.addr + 8) 8).map fun b => (b, false)))
      = some s4 →
    exec (.call f) s = .next ((s4.depositEach x (f.dest (.raw true)) fun j => { val := sp j }).retire x r
      (x.contrib.map fun j => (j, a)))) ∧
  ∀ (f : FmtI) (s s1 s2 s3 s4 : State) (x : Issue) (accs : List Acc) (vs : List (Acc × List (Byte × Bool))),
    let r : Row := { asks [f.useA (.raw true)] (some (f.dest (.raw true))) with transfer := true }
    let sp := fun j => BitVec.ofNat 64 (s1.readOp x.e j x.lay (.ofField f.sa) (.raw true)).1
    let l := vs.map fun v => (v.1.strand, leNat (v.2.map Prod.fst))
    s.issues (.ret f) f.c r = some (x, s1) → x.Contributes → s1.acquiring x.e.uid x.contrib = false →
    s1.resolve x { size := 8 } (x.contrib.map fun j => (j, (sp j).toNat)) = (s2, .ok accs) →
    s2.loadStacks x accs = .ok (s3, vs) → (∀ v ∈ vs, ∀ b ∈ v.2, b.2 = false) → s3.acquiring x.e.uid x.contrib = false →
    s3.targets x true l = (s4, none) →
    exec (.ret f) s = .next ((s4.depositEach x (f.dest (.raw true)) fun j => { val := sp j + 8 }).retire x r l)

/-- R118 to R121. At user level, where nothing stops the ply, no strand of another ply comes first, and every other ply has
stopped, a trap vector that is set and may be a header: `trap` takes the lowest contributor to the vector at supervisor
level, with `CBL_TRAP_PC` the address after it and `CBL_TRAP_INFO` the strand, the code and ACTIVE; at the end of its clause the
strand stands alone at the vector. With a trap active and above user level, `rft` takes the strand to `CBL_TRAP_PC`, the cable
is at user level, and ACTIVE is clear. At which level the word there is tested is the model's choice (logs 100, 101). -/
def Obligations.TrapsAndReturns : Prop :=
  (∀ (f : FmtI) (s s1 s2 : State) (x : Issue),
    let r : Row := { asks [] none with latch := .clear, transfer := true }
    let c := s1.cable x.e.uid
    let vec := (s1.clauseOf x.e.uid x.lead).readCreg x.lead 0x102
    s.issues (.trap f) f.c r = some (x, s1) → x.Contributes → c.trapStopped x s1.cycle = false → s1.acquiring x.e.uid x.contrib = false →
    c.priv = 0 → vec ≠ 0 → s1.badTarget x vec.toNat = (s2, some false) → s2.lowerTrap x = false →
    (∀ e ∈ c.plies, e.1 ≠ x.e.ply → e.2.running = none) →
    let done := x.members.filter fun j => j == x.lead || !x.contrib.contains j
    let s3 := done.foldl (fun s j => s.setLatch x.e j none) ((s2.beginTrap x.e.uid x.e.ply x.lead).ownLatch x.e done)
    exec (.trap f) s = .next ((s3.takeTrap x x.lead (f.imm.toNat % 65536) vec).stepped x.e.uid x.e.ply x.e.gid false)) ∧
  (∀ (s : State) (x : Issue) (strand code : Nat) (vec : W64) (g : Group) (cl : Clause),
    s.group? x.e.uid x.e.ply x.e.gid = some g → g.clause = some cl → (∀ j v b, .creg 0x103 j v b ∉ cl.log) →
    let c := (s.takeTrap x strand code vec).cable x.e.uid
    c.priv = 1 ∧ c.trapping = none ∧ c.trapPc = cregFix 0x103 (BitVec.ofNat 64 (x.addr + 8)) ∧
    (strand < 1024 → code < 65536 → c.trapInfo = BitVec.ofNat 32 (2 ^ 31 + strand * 65536 + code)) ∧
    ((∀ j ∈ x.contrib, j / 32 = x.e.ply) → strand / 32 = x.e.ply → g.lanes.getLsbD (strand % 32) = true →
      ((s.cable x.e.uid).strand strand).live = true → cl.words.length ≤ cl.pos + 1 → cl.splits = [] → cl.sleeps = [] →
      (∀ h ∈ ((s.cable x.e.uid).ply x.e.ply).groups, h.gid = x.e.gid ∨ h.lanes.getLsbD (strand % 32) = true → h = g) →
      ∃ h ∈ (c.ply x.e.ply).groups, h.lanes = 1 <<< (strand % 32) ∧ h.clause = none ∧ h.pc = vec.toNat)) ∧
  ∀ (f : FmtI) (s s1 s2 : State) (x : Issue),
    let r : Row := { asks [] none with latch := .clear, transfer := true, priv := fun s e => (s.cable e.uid).priv != 0 }
    let pc := ((s1.clauseOf x.e.uid x.lead).readCreg x.lead 0x103).toNat
    s.issues (.rft f) f.c r = some (x, s1) → x.Contributes → s1.acquiring x.e.uid x.contrib = false →
    (s1.cable x.e.uid).trapActive = true → s1.badTarget x pc = (s2, some false) →
    exec (.rft f) s = .next ((s2.returnTrap x.e.uid).retire x r (x.contrib.map fun j => (j, pc))) ∧
    ((s2.returnTrap x.e.uid).cable x.e.uid).trapActive = false ∧ ((s2.returnTrap x.e.uid).cable x.e.uid).priv = 0

/-- R178 to R180, R174: `exit` of strands whose loads have returned, with no trap active, ends them and lets what waited for
them go on; with the cable's last strands, it does so once the stores of its plies have left the write-combining buffer (the
model's reading, log 113). `bar` completes when nothing of a member ply is outstanding; `yield` ranks its ply as a header with
YIELD does. -/
def Obligations.ExitsBarriersYields : Prop :=
  (∀ (f : FmtA) (s s1 : State) (x : Issue),
    let r : Row := { asks [] none with latch := .clear, transfer := true }
    let core := (s1.cable x.e.uid).coreD
    let last := (s1.cable x.e.uid).lastOut x.contrib
    let s2 := if last then s1.drainCable core x.e.uid else s1
    let u := x.contrib.foldl (fun s j => s.endStrand x.e.uid j) s2
    s.issues (.exit f) f.c r = some (x, s1) → x.e.walker = false → x.Contributes → (s1.cable x.e.uid).trapActive = false →
    s1.loadsOf x.e.uid x.contrib = [] →
    (last = true → ∀ e ∈ (s2.core core).wc, ∀ a ∈ e.stores, a.1 ≠ x.e.uid) →
    exec (.exit f) s = .next ((u.afterExit x.e.uid).retire x r []) ∧
    ∀ j ∈ x.contrib, ((u.cable x.e.uid).strand j).live = false ∧ ((u.cable x.e.uid).strand j).v = []) ∧
  (∀ (f : FmtA) (s s1 : State) (x : Issue),
    let r : Row := { asks [] none with latch := .clear, always := true }
    let plies := distinct (x.members.map (· / 32))
    s.issues (.bar f) f.c r = some (x, s1) → (s1.drainPlies x.e.uid plies).releaseHolds x.e.uid plies x.members 1 = true →
    exec (.bar f) s = .next ((s1.drainPlies x.e.uid plies).retire x r [])) ∧
  ∀ (f : FmtA) (s s1 : State) (x : Issue),
    let r : Row := { asks [] none with latch := .clear, always := true }
    s.issues (.yield f) f.c r = some (x, s1) →
    exec (.yield f) s = .next ((x.groups.foldl (fun s g => s.updClause x.e.uid g.1 g.2 fun cl =>
      { cl with hdr := { cl.hdr with yield := true } }) s1).retire x r [])

/-- 06 R173. A group that executes `join` with an instance at hand, and whose arrival makes every live strand of J held or
here, goes on as one with the groups held there, its strands without a latch, and the instance is closed; J is what the
instance holds, or the group's own reading of the mask. Groups that wait for a free instance may then open theirs. -/
def Obligations.JoinsMeet : Prop :=
  ∀ (f : FmtA) (s s1 : State) (x : Issue) (g : Group) (cl : Clause),
    let r : Row := { asks [] none with latch := .clear, always := true }
    let c := s1.cable x.e.uid
    let y := c.ply x.e.ply
    let J := match y.joinAt x.addr with | some i => i.lanes | none => cl.readMask (maskField f.sa)
    let z := (y.closeInst x.addr).mergeGroups x.e.gid ((y.groups.filter fun h => h.hold == .join x.addr).map Group.gid)
    s.issues (.join f) f.c r = some (x, s1) → x.e.walker = false → y.group? x.e.gid = some g → g.clause = some cl → g.hold = .none →
    (∀ h ∈ y.groups, h.gid = x.e.gid → h = g) → ((y.joinAt x.addr).isSome = true ∨ y.joins.length < 16) →
    g.lanes &&& c.liveLanes x.e.ply &&& J ≠ 0 →
    c.liveLanes x.e.ply &&& J &&& ~~~(y.heldAt x.addr ||| (g.lanes &&& c.liveLanes x.e.ply &&& J)) = 0 →
    z.joinAt x.addr = none ∧ ∃ h, z.group? x.e.gid = some h ∧
      (y.groups.Pairwise (fun a b => a.gid ≠ b.gid) → h.lanes = g.lanes ||| y.heldAt x.addr) ∧
      let t := ((c.updPly x.e.ply fun _ => z).groupStrands x.e.ply h).foldl (fun s j => s.setLatch x.e j none)
        (s1.updPly x.e.uid x.e.ply fun _ => z)
      ∃ u, (u = t ∨ u = t.openAll x.e.uid x.e.ply) ∧ exec (.join f) s = .next (u.retire x r [])

/-- 05 R140, R142. At the end of a clause that has no split load and no sleeping `wtq`, every live strand of the group stands
at the header of its target, or, without a transfer, at the word after the clause. -/
def Obligations.ClauseEndDivides : Prop :=
  ∀ (s : State) (uid q gid : Nat) (g : Group) (cl : Clause) (goto : List (Nat × Nat)),
    s.group? uid q gid = some g → g.clause = some cl → cl.splits = [] → cl.sleeps = [] →
    (∀ h ∈ ((s.cable uid).ply q).groups, h.gid = gid → h = g) →
    ∀ j < 32, g.lanes.getLsbD j = true → ((s.cable uid).strand (32 * q + j)).live = true →
      ∃ h ∈ (((s.endGroup uid q gid goto).cable uid).ply q).groups, h.lanes.getLsbD j = true ∧ h.clause = none ∧
        h.pc = ((goto.find? fun t => t.1 == 32 * q + j).map Prod.snd).getD (cl.addr + 8 * (cl.words.length + 1))

/-- The frame of a retirement (04 R94): where no single step is in force, only the cable changes and, of its core, the
write-combining buffer and the issue slots: entries leave the buffer as fresh writes, and a clause end frees a slot. Memory
and its poison, every other cable and core, the writes already under way, the contexts, the partitions and the devices stay.
The registers of a strand keep their values, but for names that a marked source releases. -/
def Obligations.RetirementFrame : Prop :=
  ∀ (u : State) (x : Issue) (r : Row) (goto : List (Nat × Nat)), x.e.walker = false → (u.cable x.e.uid).unstepped = true →
    let t := u.retire x r goto
    t = { u with cables := t.cables, cores := t.cores, txns := t.txns, nextOp := t.nextOp } ∧
    (∀ v, v ≠ x.e.uid → t.cable v = u.cable v) ∧ (∀ i, i < u.nextOp → t.txns.find? i = u.txns.find? i) ∧
    (let home := (u.cable x.e.uid).coreD
     (∀ k, k ≠ home → t.core k = u.core k) ∧ (∀ e ∈ (t.core home).wc, e ∈ (u.core home).wc) ∧
     t.core home = { u.core home with wc := (t.core home).wc, slots := (t.core home).slots }) ∧
    ∀ j, ((t.cable x.e.uid).strand j).o = ((u.cable x.e.uid).strand j).o ∧
      ((t.cable x.e.uid).strand j).fflags = ((u.cable x.e.uid).strand j).fflags ∧
      ((t.cable x.e.uid).strand j).sr = ((u.cable x.e.uid).strand j).sr ∧
      ((t.cable x.e.uid).strand j).live = ((u.cable x.e.uid).strand j).live ∧
      ∀ n, (∀ a ∈ r.srcs, a.mark = true → ∀ m, a.op = .v m → n < m ∨ m + max a.span (if a.ty.wide then 2 else 1) ≤ n) →
        ((t.cable x.e.uid).strand j).v.find? n = ((u.cable x.e.uid).strand j).v.find? n

/-! ### Faults (16 R362 to R368; 03 R83) -/

/-- R83, 14 R352: a word that is no instruction takes the illegal-instruction fault where its group stands; in walker code its walker
faults, with cause 1 of Table 14.9 for a word or opcode that is none of Table 14.8's, with cause 2 for a defect of its fields. -/
def Obligations.IllegalWordsFault : Prop :=
  (∀ (why : Reject) (s : State) (uid p gid : Nat) (g : Group) (cl : Clause), s.cur = .group uid p gid →
    s.group? uid p gid = some g → g.clause = some cl → ((s.cable uid).ply p).stopped = false →
    (s.cable uid).debugTrouble p cl = none → cl.skip = false →
    exec (.illegalInstruction why) s
      = .next (s.raisePly { uid := uid, ply := p, gid := gid } g.next cl.word { cause := 1 })) ∧
  ∀ (why : Reject) (s : State) (uid cmd w : Nat) (m : Cmd) (k : Walker) (cl : Clause), s.cur = .walker uid cmd w →
    (s.cable uid).cmd? cmd = some m → s.walker? uid cmd w = some k → k.clause = some cl → k.state = .run →
    k.count < m.walkLimit →
    ∃ t, exec (.illegalInstruction why) s = .next t ∧ State.OnlyCable uid s t ∧ t.walker? uid cmd w = some { k with
      count := k.count + 1
      state := .faulted (if why = .notAnInstruction ∨ why = .unassignedOp ∨ why = .rounding ∨ why = .cvtTypes ∨
        walkerOp (some (cl.hdr.cls, (cl.word.extractLsb' 0 10).toNat)) = false then 1 else 2) (cl.addr + 8 * (cl.pos + 1)) }

/-- R364, R367, R368, R377, R383. Taking a synchronous event of a ply: during a save nothing is posted; for a page whose record is
unanswered the ply joins that record's agents; otherwise one record gets the next handle, and joins the context's unanswered
ones (its sequence number is one more, unless the wake of a handler fills the replay log too). The cable is halted, or, while
the record waits for room in its queue, its ply alone (R366); the ply stands stopped, and gives up its issue slot. A `trap`
that has not taken effect does not (04 R119). -/
def Obligations.FaultsAreTaken : Prop :=
  ∀ (s : State) (e : Env) (pc : Nat) (word : W64) (tr : Trouble) (c : Cable) (y : Ply),
    s.cables.find? e.uid = some c → c.plies.find? e.ply = some y →
    let t := s.raisePly e pc word tr
    let me := Stopped.group e.uid e.ply e.gid
    let s0 := s.updCable e.uid fun c => { c with trapping := none }
    let s1 := { s0 with nextHandle := s.nextHandle + 1 }.postFor (s0.cable e.uid) (s0.plyRecord e pc word tr s.nextHandle)
    (c.saving.isSome = true → t = s0.stopHere e.uid e.ply) ∧
    (∀ h, c.saving = none → tr.page.bind (s.pageHandle c.ctx) = some h →
      t.mem = s.mem ∧ t.nextHandle = s.nextHandle ∧
      (t.ctx c.ctx).handles = ((s.ctx c.ctx).handles.map fun k => if k.h = h.h then
        { k with agents := k.agents ++ [me], pages := k.pages ++ tr.pages } else k) ∧
      (t.cable e.uid).halts = c.halts ++ [⟨h.h, if s.recordWaiting c.ctx h.h = true then [e.ply] else []⟩]) ∧
    (c.saving = none → tr.page.bind (s.pageHandle c.ctx) = none →
      t.nextHandle = s.nextHandle + 1 ∧
      (∃ k : Handle, (t.ctx c.ctx).handles = (s.ctx c.ctx).handles ++ [k] ∧ k.h = s.nextHandle ∧ k.cause = tr.cause ∧
        k.page = tr.page ∧ k.pages = tr.pages ∧ k.agents = [me] ∧ k.toFirmware = c.superLaunch) ∧
      (t.cable e.uid).halts = c.halts ++ [⟨s.nextHandle, if s1.recordWaiting c.ctx s.nextHandle = true then [e.ply] else []⟩] ∧
      ((s.ctx c.ctx).rlogMode ≠ 1 → ((t.cable e.uid).ply e.ply).seq = y.seq + 1)) ∧
    (t.cable e.uid).trapping = none ∧
    ((t.cable e.uid).ply e.ply).stopped = true ∧ ((t.cable e.uid).ply e.ply).running = none

/-- Tables 16.1, 16.2: the eight words of a record give back every field of it, and it is 64 bytes long. -/
def Obligations.RecordLayout : Prop :=
  ∀ r : FRec, r.bytes.length = 64 ∧ r.bytes = (r.words.flatMap fun w => leBytes w 8).map (fun b => (b, false)) ∧
    (r.seq < 2 ^ 32 → r.words.getD 0 0 % 2 ^ 32 = r.seq) ∧
    (r.issuer < 2 ^ 16 → r.words.getD 0 0 / 2 ^ 32 % 2 ^ 16 = r.issuer) ∧
    (r.cause < 2 ^ 8 → r.words.getD 0 0 / 2 ^ 48 % 2 ^ 8 = r.cause) ∧
    ((r.words.getD 0 0).testBit 63 = r.restart ∧ (r.words.getD 0 0).testBit 62 = r.coal ∧
      (r.words.getD 0 0).testBit 61 = r.write ∧ (r.words.getD 0 0).testBit 60 = r.fetch ∧
      (r.words.getD 0 0).testBit 59 = r.super ∧ (r.words.getD 0 0).testBit 58 = r.halt) ∧
    (r.cid < 2 ^ 24 → r.words.getD 1 0 % 2 ^ 24 = r.cid) ∧ (r.ply < 32 → r.words.getD 1 0 / 2 ^ 24 % 32 = r.ply) ∧
    (r.strand < 1024 → r.words.getD 1 0 / 2 ^ 29 % 1024 = r.strand) ∧
    (r.count < 2048 → r.words.getD 1 0 / 2 ^ 52 % 2048 = r.count) ∧
    (r.skid < 16 → r.words.getD 1 0 / 2 ^ 48 % 16 = r.skid) ∧ (r.words.getD 1 0).testBit 47 = r.ce ∧
    (r.cnt < 16 → r.words.getD 1 0 / 2 ^ 43 % 16 = r.cnt) ∧ (r.part < 16 → r.words.getD 1 0 / 2 ^ 39 % 16 = r.part) ∧
    (r.pc < 2 ^ 60 → r.pc % 8 = 0 → r.words.getD 2 0 = r.pc) ∧ (r.addr < 2 ^ 64 → r.words.getD 3 0 = r.addr) ∧
    (r.progress < 2 ^ 64 → r.words.getD 4 0 = r.progress) ∧ (r.detail < 2 ^ 64 → r.words.getD 5 0 = r.detail) ∧
    r.words.getD 6 0 = r.instr.toNat ∧ (r.handle < 2 ^ 32 → r.words.getD 7 0 = r.handle)

/-! ### Control registers (04 R113 to R116) -/

/-- What a control-register instruction asks: the level of the register, that it exists, that it may be written where it is,
and a scope no wider than its own. -/
def asksReg (srcs : List Use) (dst : Option Dest) (f : FmtI) (write : Bool) : Row :=
  let n := (f.imm.extractLsb' 0 16).toNat
  let i := (regInfo n).getD {}
  { asks srcs dst with
    priv := fun s e => match regInfo n with | some i => i.level ≤ (s.cable e.uid).priv.toNat | none => true
    legal := fun _ _ _ => (regInfo n).isSome && (!write || i.writable) && decide (Scope.rank f.c.scope ≤ i.scope)
    extra := fun j => if n = 0x11 then [.fflags j] else [] }

/-- R113, R115, 16 R365, R387: `crd` gives the value of the register; of `%clock` and `%tick` the value, and of `CBL_LA_FLAGS` each
strand's own value, that the replay log lets it give; reading `CTX_FQ_TAIL` is an acquire first. Firmware's `crd` reads a
context's or the module's register, once no write of its own waits, while `BOOT_STATUS` is RUN (19 R436, R425; that it does so at
a step of its own, that what it reads stands in `fwResult`, and that a number that names no register shows as a fault cause
there, are the model's choice, log 5). -/
def Obligations.ControlRegisterReads : Prop :=
  (∀ f : FmtI,
    let n := (f.imm.extractLsb' 0 16).toNat
    let d := f.dest (.raw ((regInfo n).getD {}).wide)
    let r := asksReg [] (some d) f false
    (n ≠ 7 → n ≠ 8 → n ≠ 0x108 → n ≠ 0x184 →
      Computes (.crd f) f.c r d fun s x j => { val := BitVec.ofNat 64 (s.readReg x.e.uid j n) }) ∧
    (∀ (s s1 : State) (x : Issue), n = 0x184 → s.issues (.crd f) f.c r = some (x, s1) → x.Contributes →
      ∃ u, exec (.crd f) s = .next (u.retire x r []) ∧ Computed (s1.acquireTail x.e.uid) u x d
        fun j => { val := BitVec.ofNat 64 ((s1.acquireTail x.e.uid).readReg x.e.uid j n) }) ∧
    (∀ (s s1 s2 : State) (x : Issue) (v : Nat), n = 7 ∨ n = 8 → s.issues (.crd f) f.c r = some (x, s1) →
      x.Contributes →
      let c := s1.cable x.e.uid
      s1.logEvent c { ctx := c.ctx, cid := c.cid, ply := x.lead / 32, ic := (c.ply (x.lead / 32)).ic.toNat, kind := 1
                      word1 := s1.readReg x.e.uid x.lead n } = .go s2 v →
      ∃ u, exec (.crd f) s = .next (u.retire x r []) ∧ Computed s2 u x d fun _ => { val := BitVec.ofNat 64 v }) ∧
    ∀ (s s1 s2 : State) (x : Issue) (l : List (Nat × Nat)), n = 0x108 → s.issues (.crd f) f.c r = some (x, s1) →
      x.Contributes → s1.readEach x (fun j => s1.readReg x.e.uid j n) x.accessors (fun t l => .done t l) = .done s2 l →
      (∃ u, exec (.crd f) s = .next (u.retire x r []) ∧ Computed s2 u x d fun j =>
        { val := BitVec.ofNat 64 (((l.find? fun e => e.1 == j).map Prod.snd).getD 0) }) ∧
      ((s1.ctx (s1.cable x.e.uid).ctx).rlogMode = 0 →
        s2 = s1 ∧ l = x.accessors.map fun j => (j, s1.readReg x.e.uid j n))) ∧
  (∀ (s : State) (uid j : Nat), s.readReg uid j 0 = j ∧ s.readReg uid j 1 = j / 32 ∧ s.readReg uid j 8 = s.cycle / 3) ∧
  ∀ (f : FmtI) (s : State) (v : W64), s.cur = .firmware v →
    let n := (f.imm.extractLsb' 0 16).toNat
    let s0 := s.fwRetry.1
    (s.fwLaunch = none → s0 = s ∧ s.fwRetry.2 = true) ∧
    exec (.crd f) s = .next (if s.boot ≠ .run then s else if s.fwRetry.2 = false then s0 else
      { s0 with
        fwFault := if regInfo n = none then 2 else 0
        fwResult := if 0x180 ≤ n ∧ n ≤ 0x191 then BitVec.ofNat 64 (s0.readCtx s0.ctxSel n)
          else if 0x200 ≤ n ∧ n ≤ 0x213 then BitVec.ofNat 64 (s0.readDev n)
          else if n = 8 then BitVec.ofNat 64 s0.clock else s0.fwResult })

/-- R113, R114: `cwr` writes the register for every contributor in ascending order, or once at a wider scope with the lowest
contributor's value; the writer sees the value at once, and the flags and the generator change only for it. A write of
`CTX_RESUME` with action 0 or 4 first waits as a device-scope release fence (17 R390). Firmware's `cwr` writes a context's or the
module's register (19 R436), once no write of its own waits, while `BOOT_STATUS` is RUN (log 5, DESIGN CHOICE, as is the fault
cause shown); a register that no level may write faults and stays (01 R16). -/
def Obligations.ControlRegisterWrites : Prop :=
  (∀ (f : FmtI) (s s1 : State) (x : Issue),
    let n := (f.imm.extractLsb' 0 16).toNat
    let u := f.useA (.raw ((regInfo n).getD {}).wide)
    let r := { asksReg [u] none f true with latch := .clear }
    let one := decide (x.scope = .strand)
    let vals := fun s1 : State => x.contrib.map fun j =>
      (j, BitVec.ofNat 64 (s1.readOp x.e (if one then j else x.lead) x.lay u.op u.ty).1)
    s.issues (.cwr f) f.c r = some (x, s1) → x.Contributes → (s1.cwrBegin x n (vals s1)).2 = true →
    exec (.cwr f) s = .next (((vals s1).foldl (fun t e => t.writeReg x.e.uid e.1 n e.2 (one || e.1 == x.lead))
      (s1.cwrBegin x n (vals s1)).1).retire x r [])) ∧
  (∀ (s : State) (x : Issue) (n : Nat) (vals : List (Nat × W64)),
    ((n ≠ 0x185 ∨ ∀ e ∈ vals, e.2.toNat / 2 ^ 32 % 16 ≠ 0 ∧ e.2.toNat / 2 ^ 32 % 16 ≠ 4) → s.cwrBegin x n vals = (s, true)) ∧
    let s1 := s.drainPlies x.e.uid (distinct (x.ordered.map (· / 32)))
    ((n = 0x185 ∧ ∃ e ∈ vals, e.2.toNat / 2 ^ 32 % 16 = 0 ∨ e.2.toNat / 2 ^ 32 % 16 = 4) → (s.cwrBegin x n vals).1 = s1 ∧
      ((s.cwrBegin x n vals).2 = true ↔ s1.releaseHolds x.e.uid (distinct (x.ordered.map (· / 32))) x.ordered 3 = true))) ∧
  (∀ (s : State) (uid j n : Nat) (v : W64) (pub : Bool), n = 0x11 ∨ n = 0x12 →
    State.OnlyCable uid s (s.writeReg uid j n v pub) ∧
    ∀ i, ((s.writeReg uid j n v pub).cable uid).strand i = if i = j ∧ (s.cable uid).strands.find? j ≠ none then
        (if n = 0x11 then { (s.cable uid).strand j with fflags := v.setWidth 5 }
         else { (s.cable uid).strand j with sr := srFix (v.setWidth 32) })
      else (s.cable uid).strand i) ∧
  (∀ (s : State) (uid j n : Nat) (v : W64) (pub : Bool), 0x100 ≤ n → n < 0x180 → n ≠ 0x108 → s.inClause uid j = true →
    State.OnlyCable uid s (s.writeReg uid j n v pub) ∧
    ((s.writeReg uid j n v pub).clauseOf uid j).readCreg j n = cregFix n v) ∧
  ∀ (f : FmtI) (s : State) (v : W64), s.cur = .firmware v →
    let n := (f.imm.extractLsb' 0 16).toNat
    let bad := match regInfo n with | some i => !i.writable | none => true
    let s0 := { s.fwRetry.1 with fwFault := if bad then 2 else 0 }
    exec (.cwr f) s = .next (if s.boot ≠ .run then s else if s.fwRetry.2 = false then s.fwRetry.1
      else if bad then s0
      else if 0x180 ≤ n ∧ n ≤ 0x191 then s0.writeCtx s0.ctxSel n v
      else if 0x200 ≤ n ∧ n ≤ 0x213 then s0.writeDev n v else s0)

/-! ### Memory instructions (09 R244 to R257) -/

/-- Global loads: whether it is `ld.k`, the size, the fields, the destinations that it accepts. -/
def loadOp : Instr → Option (Bool × SizeZ × FmtM × (Operand → Bool))
  | .ldG z f => some (false, z, f, fun _ => true)
  | .ldK z f => some (true, z, f, fun op => match op with | .s _ => true | .k _ => true | _ => false)
  | _ => none

/-- R241, R245, R246, 07 R193: a global load whose addresses are good, whose requests have entries of the table, and which
finds its lines performed where it synchronises, completes: every line's lanes take their values from the core's own
copies, or are asked for in one request, and an access of a peer is sent. An acquire that found all its lines raises P.
While the replay log is off, it changes no byte of memory, and one that does not synchronise never does. For the lanes of
one line: where the core's copies give every lane its bytes, no request is sent; otherwise one request is, under the next
name, of one aligned block of the line, and each lane's destination waits for it on the scoreboard. -/
def Obligations.GlobalLoads : Prop :=
  (∀ (i : Instr) (k : Bool) (z : SizeZ) (f : FmtM) (only : Operand → Bool) (s s0 s1 s2 s3 s4 : State) (x : Issue)
    (accs : List Acc) (ids : List Nat), loadOp i = some (k, z, f, only) →
    let d : Dest := { f.dest z.oty with only := only }
    let r : Row := { asks [f.useBase] (some d) with
      latch := if f.c.scope = .strand then .value else .own
      legal := fun _ e _ => k || !e.walker || (f.ord == 0 && !f.split) }
    let sync := f.ord != 0
    s.issues i f.c r = some (x, s0) → x.e.walker = false → x.Contributes → s0.acquiring x.e.uid x.ordered = false →
    s0.resolve x { size := z.bytes, peer := !k, sync := if sync then some f.ssc else none }
      (x.accessors.map fun j => (j, s0.ea x f j)) = (s1, .ok accs) →
    s1.freeEntries (s0.cable x.e.uid).coreD (s1.loadNeed x z k accs) = true →
    (if sync then s1.scopeChecks x f.ssc false (accs.filter fun a => !a.peer) else .ok s1) = .ok s2 →
    s2.loadLines x d z f k (accs.filter fun a => !a.peer) = (s3, ids) →
    s0.performNow s3 (s3.homeNow sync ids) State.performLoad = .ok s4 →
    let peers := accs.filter fun a => a.peer
    let u := peers.foldl (fun s a => s.loadPeer x d z f a) s4
    exec i s = .next ((if f.acquires && ids.isEmpty && peers.isEmpty then u.raiseFt x.e.uid f.ssc else u).retire x r []) ∧
    (sync = false ∨ (s1.ctx (s1.cable x.e.uid).ctx).rlogMode = 0 → u.mem = s1.mem) ∧ (sync = false → u.psn = s1.psn)) ∧
  ∀ (s : State) (x : Issue) (d : Dest) (z : SizeZ) (f : FmtM) (k : Bool) (line : Nat) (accs : List Acc),
    let t := s.loadLine x d z f k line accs
    t.1.mem = s.mem ∧ t.1.psn = s.psn ∧ t.1.lines = s.lines ∧
    ((s.lineHit x z.bytes k accs).isSome = true → t.2 = none ∧ t.1.txns = s.txns) ∧
    (s.lineHit x z.bytes k accs = none → t.2 = some s.nextOp ∧ t.1.nextOp = s.nextOp + 1 ∧
      (∀ n, n ≠ s.nextOp → t.1.txns.find? n = s.txns.find? n) ∧
      ∃ q off len inst parts, t.1.txns.find? s.nextOp = some q ∧
        q.kind = .load line off len (if k then 0 else (accs.headD default).lease) k inst f.acquires parts ∧
        q.uid = x.e.uid ∧ q.core = (s.cable x.e.uid).coreD ∧ q.state = .asked ∧
        parts.map LoadPart.strand = accs.map Acc.strand ∧ parts.map LoadPart.pa = accs.map Acc.pa ∧
        (∀ p ∈ parts, p.z = z) ∧
        (accs ≠ [] → (∀ a ∈ accs, a.pa / 128 = line ∧ a.pa % z.bytes = 0) → off + len ≤ 128 ∧ off % len = 0 ∧
          ∀ a ∈ accs, off ≤ a.pa % 128 ∧ a.pa % 128 + z.bytes ≤ off + len) ∧
        ((s.cables.find? x.e.uid).isSome = true → ∀ p ∈ parts, ∀ ks ∈ p.dests, ∀ key ∈ ks,
          (∀ j, key ≠ .lat j) → (key, s.nextOp) ∈ (t.1.cable x.e.uid).board))

/-- R245, 07 R189: a global store whose addresses are good completes. A relaxed one puts every lane's bytes in the
write-combining buffer of its core, where they find room; a release waits until Table 8.3 lets it go, and is performed at
the home slices at once (the model's choice, log 13). 01 R38, 07 R189, 08 R216: the bytes that a store of plies has put in
the write-combining buffer are what those plies' own loads of those addresses get, whatever another ply has stored there; what
other plies get of their own stores stays. Nothing in memory has changed. -/
def Obligations.GlobalStores : Prop :=
  (∀ (z : SizeZ) (f : FmtM) (s s0 s1 : State) (x : Issue) (accs : List Acc),
    let u : Use := { f.useData z.oty with carry := true }
    let r : Row := { asks [f.useBase, u] none with latch := .clear }
    let core := (s0.cable x.e.uid).coreD
    let mem := accs.filter fun a => !a.peer
    let peers := accs.filter fun a => a.peer
    let data := fun a : Acc =>
      let v := s0.readOp x.e a.strand x.lay u.op u.ty
      (leBytes v.1 z.bytes).map fun b => (b, v.2)
    s.issues (.stG z f) f.c r = some (x, s0) → x.Contributes → s0.acquiring x.e.uid x.ordered = false →
    s0.resolve x { size := z.bytes, read := false, write := true, peer := true, sync := if f.ord != 0 then some f.ssc else none }
      (x.accessors.map fun j => (j, s0.ea x f j)) = (s1, .ok accs) →
    s1.unackRoom x accs = true →
    (∀ s2, f.releases = false → s1.freeEntries core peers.length = true →
      s1.bufferAll core x (mem.map fun a => (a, data a)) = some s2 →
      exec (.stG z f) s = .next ((s2.sendPeerWrites x f data peers).retire x r []) ∧ s2.mem = s1.mem ∧ s2.psn = s1.psn) ∧
    ∀ s3 s4 s5 ids, f.releases = true →
      let plies := distinct (x.ordered.map (· / 32))
      let s2 := s1.drainPlies x.e.uid plies f.ssc
      s2.releaseHolds x.e.uid plies x.ordered f.ssc = true →
      s2.freeEntries core ((linesOf mem).length + peers.length) = true → s2.scopeChecks x f.ssc true mem = .ok s3 → s3.sendWrites x f data mem = (s4, ids) →
      s2.performNow s4 (s4.homeNow true ids) State.performWrite = .ok s5 →
      exec (.stG z f) s = .next ((s5.sendPeerWrites x f data peers).retire x r [])) ∧
  ∀ (s t : State) (core uid pa : Nat) (plies loads : List Nat) (bytes : List (Byte × Bool)) (esr : Bool),
    s.bufferStore core uid plies loads pa bytes esr = some t → pa % 128 + bytes.length ≤ 128 →
    (∀ qs q, q ∈ plies → q ∈ qs → ∀ i < bytes.length, t.ownByte core uid qs (pa + i) = bytes[i]?) ∧
    (∀ qs, (∀ q ∈ qs, q ∉ plies) → (s.core core).wc.length < 64 → ∀ a, t.ownByte core uid qs a = s.ownByte core uid qs a) ∧
    t.mem = s.mem ∧ t.psn = s.psn ∧ (∀ c, c ≠ core → t.core c = s.core c) ∧
    ∀ q, (s.cable uid).plies.find? q ≠ none → s.cables.find? uid ≠ none →
      ((t.cable uid).ply q).unack = ((s.cable uid).ply q).unack + (plies.filter fun p => p == q).length

/-- R247, 07 R184: scratchpad accesses whose offsets are good complete when the queues of their banks let every lane in: a
load enters one access for each 8-byte word, a store one for each lane, with its bytes; a store to an owned segment is a
write of the subscribed range. A load's segment is current. A lane whose queue has room enters at its tail, and the others
stay out; without room nothing enters. R184, R205, 12 R307, 16 R372: a bank serves its oldest access unless its section is
waking or it is a store behind loads that have not returned. A store's bytes are then in the scratchpad, and no other byte
of it changes; an access of loads delivers to each of its lanes what the scratchpad holds. A bank without accesses only
applies writes of engines (the model's choice, log 35). -/
def Obligations.ScratchpadAccesses : Prop :=
  ((∀ (z : SizeZ) (f : FmtM) (s s0 : State) (x : Issue),
    let d : Dest := f.dest z.oty
    let r : Row := { asks [f.useBase] (some d) with latch := if f.c.scope = .strand then .value else .own }
    let l := x.accessors.map fun j => (j, s0.ea x f j)
    let out := s0.padLoads x d z f (l.map fun e => ⟨e.1, e.2, none⟩)
    s.issues (.ldP z f) f.c r = some (x, s0) → s0.goesOn x.e = false → x.Contributes → s0.acquiring x.e.uid x.ordered = false →
    s0.padTroubles x z.bytes false l = none → (∀ e ∈ l, s0.segWaits x.e.uid (x.accPlies e.1) e.2 = false) → out.2 = [] →
    exec (.ldP z f) s = .next (out.1.retire x r [])) ∧
  (∀ (z : SizeZ) (f : FmtM) (s s0 s2 : State) (x : Issue),
    let u : Use := { f.useData z.oty with carry := true }
    let r : Row := { asks [f.useBase, u] none with latch := .clear }
    let c := s0.cable x.e.uid
    let l := x.accessors.map fun j => (j, s0.ea x f j)
    let plies := distinct (x.ordered.map (· / 32))
    let s1 := if f.releases then s0.drainPlies x.e.uid plies else s0
    let own := c.ownedAccs l
    let out := (s2.padWrites x u z f c l).padStores x ((l.filter fun e => (c.segAt e.2).isNone).map fun e =>
      ⟨e.1, e.2, some (s0.storeBytes x u z.bytes e.1)⟩)
    s.issues (.stP z f) f.c r = some (x, s0) → s0.goesOn x.e = false → x.Contributes → s0.acquiring x.e.uid x.ordered = false →
    s0.padTroubles x z.bytes true l = none →
    (∀ e ∈ l, ∀ g, c.segAt e.2 = some g → g.state = .current ∧ g.owned = true) →
    (f.releases = true → s1.releaseHolds x.e.uid plies x.ordered (padSsc f.ssc) = true) →
    s1.drainLines c.coreD x own = (s2, true) → s2.unackRoom x own = true → s2.freeEntries c.coreD own.length = true → out.2 = [] →
    exec (.stP z f) s = .next (out.1.retire x r [])) ∧
  (∀ (s : State) (x : Issue) (e : PadLane), let core := (s.cable x.e.uid).coreD
    (16 ≤ ((s.core core).bank (e.off / 8 % 32)).length → s.padStores x [e] = (s, [e])) ∧
    (((s.core core).bank (e.off / 8 % 32)).length < 16 → ∃ (t : State) (q : BankReq), s.padStores x [e] = (t, []) ∧
      t = { s with cores := t.cores } ∧ (∀ c, c ≠ core → t.core c = s.core c) ∧
      (∀ b, (t.core core).bank b = (s.core core).bank b ++ if b = e.off / 8 % 32 then [q] else []) ∧
      q.uid = x.e.uid ∧ q.plies = x.accPlies e.strand ∧ q.off = e.off ∧ q.store = e.store ∧ q.strands = [e.strand])) ∧
  ∀ (s : State) (x : Issue) (d : Dest) (z : SizeZ) (f : FmtM) (e : PadLane), let core := (s.cable x.e.uid).coreD
    (16 ≤ ((s.core core).bank (e.off / 8 % 32)).length → s.padLoads x d z f [e] = (s, [e])) ∧
    (((s.core core).bank (e.off / 8 % 32)).length < 16 → ∃ (t : State) (q : BankReq), s.padLoads x d z f [e] = (t, []) ∧
      t.mem = s.mem ∧ (∀ c, c ≠ core → t.core c = s.core c) ∧
      (∀ b, (t.core core).bank b = (s.core core).bank b ++ if b = e.off / 8 % 32 then [q] else []) ∧
      q.uid = x.e.uid ∧ q.op = s.nextOp ∧ q.off = e.off / 8 * 8 ∧ q.store = none ∧
      q.parts.map (fun p => (p.strand, p.pa, p.z)) = [(e.strand, e.off, z)])) ∧
  (∀ (s : State) (core b : Nat) (q : BankReq) (rest : List BankReq), (s.core core).bank b = q :: rest →
    s.bankWaits core q = false →
    ∃ t, exec (.bankAccess core b) s = .next t ∧ (t.core core).bank b = rest ∧ t.mem = s.mem ∧
      (q.store = none → ∃ s1 : State, s1 = { s with cores := s1.cores } ∧
        t = q.parts.foldl (fun s p => s.deliverPart q.uid q.op p ((s.cable q.uid).padRead p.pa p.z.bytes)) s1) ∧
      ∀ bytes, q.store = some bytes → s.cables.find? q.uid ≠ none → (t.cable q.uid).spad = ((s.cable q.uid).padWriteAt q.off bytes).spad) ∧
  (∀ (s : State) (core b : Nat), (s.core core).bank b = [] →
    ∃ t, exec (.bankAccess core b) s = .next t ∧ t = { s with cables := t.cables } ∧
      ∀ uid, (s.cable uid).late = [] ∨ (s.cable uid).coreD ≠ core → t.cable uid = s.cable uid) ∧
  ∀ (c : Cable) (off : Nat) (bytes : List (Byte × Bool)), c.spad.wf →
    (c.padWriteAt off bytes).spad.wf ∧
    ∀ a, (c.padWriteAt off bytes).spad.read a
      = if off ≤ a ∧ a < off + bytes.length then ((bytes.getD (a - off) default).1) else c.spad.read a

/-- The atomics that return the old value. -/
def atomOp : Instr → Option (AtomOp × IntTy × FmtM)
  | .atomAdd t f => some (.add, t, f) | .atomMin t f => some (.min, t, f) | .atomMax t f => some (.max, t, f)
  | .atomAnd t f => some (.and, t, f) | .atomOr t f => some (.or, t, f) | .atomXor t f => some (.xor, t, f)
  | .atomXchg t f => some (.xchg, t, f) | .atomCas t f => some (.cas, t, f) | .atomAddF32 f => some (.addF32, .i32, f)
  | _ => none

/-- The reductions that return nothing. -/
def aredOp : Instr → Option (AtomOp × IntTy × FmtM)
  | .aredAdd t f => some (.add, t, f) | .aredMin t f => some (.min, t, f) | .aredMax t f => some (.max, t, f)
  | .aredAnd t f => some (.and, t, f) | .aredOr t f => some (.or, t, f) | .aredXor t f => some (.xor, t, f)
  | .aredAddF32 f => some (.addF32, .i32, f)
  | _ => none

/-- The near-memory reductions. -/
def nredOp : Instr → Option (Bool × FmtM)
  | .nredAddI32 f => some (false, f) | .nredAddF32 f => some (true, f) | _ => none

/-- R248 to R252: an atomic or reduction whose accesses may leave the core completes, with one transaction for each of them,
in ascending order of strands; an atomic's destination waits for the old value on the scoreboard (01 R26). A synchronising one is
performed at the home slices at once (the model's choice, log 13). A near-memory reduction counts on the counter that its cable
names. What is sent leaves memory as it is, takes the next names in order, and counts each access in UNACK (07 R187): of its
strand's ply, and at a wider scope, as the model reads the rule, of each member ply (log 37). -/
def Obligations.Atomics : Prop :=
  ((∀ (i : Instr) (op : AtomOp) (ty : IntTy) (f : FmtM), atomOp i = some (op, ty, f) →
    let oty := atomTy op ty
    let n := if oty.wide then 2 else 1
    let u : Use := { f.useData oty with carry := true, span := if op = .cas then 2 * n else n }
    let r : Row := { asks [f.useBase, u] (some (f.dest oty)) with
      latch := if f.c.scope = .strand then .value else .own
      legal := fun s e _ => !decide (op = .cas) || (u.op.aligned (2 * n) && s.groupOk e u.op (2 * n)) }
    let late := fun x a => some (lateOld x (f.dest oty) oty.wide a)
    ∀ (s s0 s2 s3 s4 s5 : State) (x : Issue) (accs : List Acc) (ids : List Nat), s.issues i f.c r = some (x, s0) →
      x.Contributes → s0.writesReady x f (if oty.wide then 8 else 4) false true accs s2 s3 →
      s3.sendEach x f (s0.atomKind x op ty u (late x)) (late x) (fun j => s2.loadsOf x.e.uid (x.sharers j)) accs = (s4, ids) →
      s2.performNow s4 (s4.homeNow (f.ord != 0) ids) State.performAtom = .ok s5 → exec i s = .next (s5.retire x r [])) ∧
  (∀ (i : Instr) (op : AtomOp) (ty : IntTy) (f : FmtM), aredOp i = some (op, ty, f) →
    let oty := atomTy op ty
    let u : Use := { f.useData oty with carry := true }
    let r : Row := { asks [f.useBase, u] none with latch := .clear }
    ∀ (s s0 s2 s3 s4 s5 : State) (x : Issue) (accs : List Acc) (ids : List Nat), s.issues i f.c r = some (x, s0) →
      x.Contributes → s0.writesReady x f (if oty.wide then 8 else 4) false true accs s2 s3 →
      s3.sendEach x f (s0.atomKind x op ty u fun _ => none) (fun _ => none) (fun j => s2.loadsOf x.e.uid (x.sharers j)) accs = (s4, ids) →
      s2.performNow s4 (s4.homeNow (f.ord != 0) ids) State.performAtom = .ok s5 → exec i s = .next (s5.retire x r [])) ∧
  ∀ (i : Instr) (float : Bool) (f : FmtM), nredOp i = some (float, f) →
    let u : Use := { f.useData (if float then .float .f32 else .int ⟨32, true⟩) with carry := true }
    let r : Row := { asks [f.useBase, u] none with latch := .clear }
    ∀ (s s0 s2 s3 s4 s5 : State) (x : Issue) (accs : List Acc) (ids : List Nat), s.issues i f.c r = some (x, s0) →
      x.Contributes →
      (let used := x.accessors.filterMap fun j => s0.nredCounter x.e.uid j
       ∀ n ∈ used, (s0.cable x.e.uid).counterRoom n (used.filter fun m => m == n).length = true) →
      s0.writesReady x f 4 true true accs s2 s3 →
      s3.sendEach x f (s0.nredKind x float u) (fun _ => none) (fun j => s2.loadsOf x.e.uid (x.sharers j)) accs = (s4, ids) →
      s2.performNow s4 (s4.homeNow (f.ord != 0) ids) State.performAtom = .ok s5 →
      exec i s = .next ((s5.countNreds s0.nextOp).retire x r [])) ∧
  ∀ (s : State) (x : Issue) (f : FmtM) (kind : Acc → TxnKind) (late : Acc → Option LoadPart) (loads : Nat → List Nat)
    (accs : List Acc),
    let t := s.sendEach x f kind late loads accs
    t.1.mem = s.mem ∧ t.1.psn = s.psn ∧ t.1.lines = s.lines ∧ t.1.nextOp = s.nextOp + accs.length ∧
    t.2 = (List.range accs.length).map (s.nextOp + ·) ∧
    (∀ n < s.nextOp, t.1.txns.find? n = s.txns.find? n) ∧
    (∀ i < accs.length, ∃ q, t.1.txns.find? (s.nextOp + i) = some q ∧ some q.kind = (accs[i]?).map kind ∧ q.uid = x.e.uid ∧
      q.state = .asked) ∧
    (s.cables.find? x.e.uid ≠ none → ∀ i a part, accs[i]? = some a → late a = some part → ∀ k ∈ part.dests.flatten, (∀ j, k ≠ .lat j) →
      (k, s.nextOp + i) ∈ (t.1.cable x.e.uid).board) ∧
    ∀ p, s.cables.find? x.e.uid ≠ none → (s.cable x.e.uid).plies.find? p ≠ none →
      ((t.1.cable x.e.uid).ply p).unack
        = ((s.cable x.e.uid).ply p).unack + ((accs.flatMap fun a => x.accPlies a.strand).filter fun q => q == p).length

/-- R255, R256: a prefetch that meets no watchpoint (the model's reading of R385, log 130) completes wherever it issues, one
request for each line or page of its accesses. R257: `sub` and
`unsub` with a segment of the cable, reserved bits clear, and a page that translates, send their request to the home slice
of the range under the next name. -/
def Obligations.PrefetchesAndSubscriptions : Prop :=
  (∀ (i : Instr) (level : Nat) (f : FmtM), [(Instr.pfhL1 f, 0), (.pfhLlc f, 1), (.pfhNode0 f, 2)].contains (i, level) = true →
    let r : Row := { asks [{ f.useBase with carry := true }] none with latch := .clear }
    ∀ (s s1 : State) (x : Issue), s.issues i f.c r = some (x, s1) → x.Contributes → s1.acquiring x.e.uid x.ordered = false →
      let l := s1.prefetchers x f (if level = 2 then 4096 else 128)
      (∀ j ∈ l, s1.prefetchTrouble x f j = none) →
        exec i s = .next ((l.foldl (fun t j => t.prefetchOne x f level j) s1).retire x r []) ∧ ∀ j ∈ l, j ∈ x.accessors) ∧
  ∀ (un : Bool) (f : FmtM) (s s0 s1 : State) (x : Issue) (a : Acc),
    let i := if un then Instr.unsub f else .sub f
    let only : Operand → Bool := fun op => match op with | .s _ => true | .k _ => true | .y _ => true | _ => false
    let u : Use := { f.useData (.raw false) with only := only }
    let d : Dest := { f.dest (.raw false) with only := only }
    let r : Row := { asks [f.useBase, u] (some d) with latch := .own }
    let v := (s0.readOp x.e x.lead x.lay u.op (.raw false)).1
    s.issues i f.c r = some (x, s0) → x.Contributes → v / 2 % 2048 = 0 → v < 2 ^ 20 →
    v / 4096 < (s0.cable x.e.uid).spadUnits → (un = true → v % 2 = 0) → s0.acquiring x.e.uid x.ordered = false →
    s0.resolve x { size := 4096, watched := false } [(x.lead, s0.ea x f x.lead)] = (s1, .ok [a]) →
    ∃ (t : State) (q : Txn), exec i s = .next (t.retire x r []) ∧ t.mem = s1.mem ∧ t.nextOp = s1.nextOp + 1 ∧
      (∀ n, n ≠ s1.nextOp → t.txns.find? n = s1.txns.find? n) ∧ t.txns.find? s1.nextOp = some q ∧
      q.kind = (if un then .unsub (a.pa / 4096) (v / 4096) (x.part d .b32 x.lead a.pa [])
        else .sub (a.pa / 4096) a.ea (v / 4096) (v % 2 == 1) a.esr (x.part d .b32 x.lead a.pa []))

/-! ### Synchronisation (09 R253 to R266; 11 R275 to R278; 05 R157 to R160) -/

/-- R253, R254: a fence completes once what Table 8.3 asks of a release holds and, for an acquire, the loads before it have
returned; `xfence` from memory once the writes and loads of its plies are back. From an engine it completes at once: every
scratchpad write of the path has then taken effect, and, toward memory, P has reached the engine's posted time. Memory does not
change. -/
def Obligations.Fences : Prop :=
  (∀ (f : FmtM) (s s1 : State) (x : Issue),
    let r := { asks [] none with latch := .clear }
    let plies := distinct (x.ordered.map (· / 32))
    let t := s1.drainPlies x.e.uid plies (if f.releases then f.ssc else 0)
    s.issues (.fence f) f.c r = some (x, s1) → x.Contributes →
    (f.releases = true → t.releaseHolds x.e.uid plies x.ordered f.ssc = true) →
    (f.acquires = true → t.loadsBack x.e.uid x.ordered = true) →
    exec (.fence f) s = .next ((if f.acquires then t.raiseFt x.e.uid f.ssc else t).retire x r []) ∧ t.mem = s1.mem) ∧
  (∀ (b : Path) (f : FmtA) (s s1 : State) (x : Issue),
    let r := { asks [] none with latch := .clear }
    let plies := if x.scope = .strand then [x.e.ply] else distinct (x.members.map (· / 32))
    let t := s1.drainPlies x.e.uid plies
    s.issues (.xfence .mem b f) f.c r = some (x, s1) → x.Contributes →
    t.releaseHolds x.e.uid plies (plies.flatMap (s1.cable x.e.uid).livePly) 0 = true →
    exec (.xfence .mem b f) s = .next (t.retire x r []) ∧ t.mem = s1.mem) ∧
  ∀ (a b : Path) (n : Nat) (f : FmtA) (s s1 : State) (x : Issue),
    let r := { asks [] none with latch := .clear }
    let c := s1.cable x.e.uid
    let s2 := s1.landPath x.e.uid a
    [(Path.copy, 0), (.la, 1), (.srch, 2), (.fab, 3)].contains (a, n) = true →
    s.issues (.xfence a b f) f.c r = some (x, s1) → x.Contributes →
    exec (.xfence a b f) s = .next ((if b = .mem then s2.raiseP c.coreD (c.ept.getD n 0) else s2).retire x r []) ∧
    s2 = { s1 with cables := s2.cables } ∧ (∀ w ∈ (s2.cable x.e.uid).late, w.path ≠ a) ∧
    ((s1.raiseP c.coreD (c.ept.getD n 0)).core c.coreD).p = max (s1.core c.coreD).p (c.ept.getD n 0)

/-- R258, R259: `wtq` sends one request for each accessing strand, for the key its address translates to, and the strand
sleeps; the home slice appends the waiter, or answers 3 where 65536 of the partition wait. `wake` completes once the home
slices have performed its requests; one that is performed there writes status 0 to the first waiters of its key, in the
order in which they came. A waiter whose time is up takes status 1. -/
def Obligations.WaitQueues : Prop :=
  (∀ (f : FmtM) (s s0 s1 : State) (x : Issue) (accs : List Acc),
    let d : Dest := f.dest (.raw false)
    let r : Row := asks [f.useBase] (some d)
    s.issues (.wtq f) f.c r = some (x, s0) → x.Contributes → s0.acquiring x.e.uid x.ordered = false →
    s0.resolve x { size := 8, watched := false } (x.accessors.map fun j => (j, s0.ea x f j)) = (s1, .ok accs) →
    ∃ t : State, exec (.wtq f) s = .next (t.retire x r []) ∧ t.mem = s1.mem ∧ t.nextOp = s1.nextOp + accs.length ∧
      ∀ i a, accs[i]? = some a →
        (∃ q : Txn, t.txns.find? (s1.nextOp + i) = some q ∧ q.state = .asked ∧
          q.kind = .wtq a.pa a.ea (x.part d .b32 a.strand a.pa [])) ∧
        (s1.inClause x.e.uid a.strand = true →
          (t.clauseOf x.e.uid a.strand).sleeps.contains (a.strand, s1.nextOp + i) = true)) ∧
  (∀ (f : FmtM) (s s1 : State) (x : Issue),
    let r := { asks [f.useBase, f.useData (.raw false)] none with latch := .clear }
    let out := s1.wakesOf x
    s.issues (.wake f) f.c r = some (x, s1) → x.Contributes → out ≠ [] → (∀ t ∈ out, t.state.isAsked = false) →
    exec (.wake f) s = .next (State.retire { s1 with txns := s1.txns.filter fun e => !(out.any fun t => t.id == e.1) } x r [])) ∧
  (∀ (n key va : Nat) (p : LoadPart) (s : State) (q : Txn), s.txns.find? n = some q → q.id = n →
    q.kind = .wtq key va p → s.homeReady q = true → s.unreachable q = false → (s.ctx (s.cable q.uid).ctx).rlogMode = 0 →
    let tmo := s.wtqTmoOf q.uid p.strand
    let w := q.waiter s key tmo p
    let s1 := { s.dropTxn n with waiters := s.waiters ++ [w] }
    exec (.wtqAppend n) s = .next (if (s.waiters.filter fun y => y.part == (s.cable q.uid).part).length < 65536 then s1
      else s1.releaseWaiter w 3 none) ∧ w.key = key ∧ w.uid = q.uid ∧ w.strand = p.strand ∧ w.t0 = s.clock ∧ w.tmo = tmo) ∧
  (∀ (n key count : Nat) (s : State) (q : Txn), s.txns.find? n = some q → q.id = n → q.kind = .wake key count →
    s.homeReady q = true → s.unreachable q = false → (s.ctx (s.cable q.uid).ctx).rlogMode = 0 →
    let part := (s.cable q.uid).part
    ∃ t, exec (.wakeAtHome n) s = .next t ∧
      t = (((s.waiters.filter fun w => w.key == key && w.part == part && w.status.isNone).take count).foldl
        (fun s w => s.releaseWaiter w 0 (some (s.core q.core).p)) s).setTxn
          { q with state := .performed 0 0 [] 0, entry := false, done := s.stepCount }) ∧
  (∀ (n : Nat) (s : State) (w : Waiter), s.waiters.find? (fun v => v.id == n) = some w → w.status = none → w.tmo ≠ 0 →
    w.t0 + w.tmo * 1000 ≤ s.clock → exec (.wtqTimeout n) s = .next (s.releaseWaiter w 1 none)) ∧
  ∀ (s : State) (w : Waiter) (st : Nat), (s.ctx (s.cable w.uid).ctx).rlogMode = 0 →
    s.releaseWaiter w st none = { s with waiters := s.waiters.filter fun v => v.id != w.id }.deliver w.uid w.id w.strand false
      [w.dest] [w.strand] (BitVec.ofNat 64 st) false

/-- R263 to R265: `send` and `recv` complete when each of their strands finds a partner or room. A `send` whose header, buffer
and length are good, and whose receiver is there, is taken by the oldest posted receive for it, or joins the overflow queue;
a `recv` takes the oldest message for it, or is posted. A message that is moved puts its bytes, up to the limit, in the
receiver's scratchpad, once its banks have served what arrived before and the loads that the `recv` follows have returned (08 R214),
and changes no other byte of it. -/
def Obligations.Messages : Prop :=
  (∀ (f : FmtE) (s s1 u : State) (x : Issue) (g : List (Nat × Nat)),
    let r := { asks [f.useD (.raw true), f.useA (.raw false), f.useB (.raw false)] none with latch := .clear }
    s.issues (.send f) f.c r = some (x, s1) → x.Contributes → s1.acquiring x.e.uid x.ordered = false →
    s1.roomFor x.e.uid f x.accessors.length = true → (∀ p ∈ x.plies, s1.padStoring x.e.uid p = false) →
    s1.eachOf x.accessors (fun before s j => before.sendOne s x f j) = .done u g → exec (.send f) s = .next (u.retire x r g)) ∧
  (∀ (f : FmtE) (s s1 u : State) (x : Issue) (g : List (Nat × Nat)),
    let r := { asks [f.useD (.raw false), f.useA (.raw true), f.useB (.raw false)] none with
      latch := .clear, extra := fun j => if f.te then [.s (j / 32) f.tok.toNat] else [] }
    s.issues (.recv f) f.c r = some (x, s1) → x.Contributes → s1.acquiring x.e.uid x.ordered = false →
    s1.roomFor x.e.uid f x.accessors.length = true →
    s1.eachOf x.accessors (fun before s j => before.recvOne s x f j) = .done u g → exec (.recv f) s = .next (u.retire x r g)) ∧
  (∀ (f : FmtE) (before s : State) (x : Issue) (j : Nat) (to_ : Cable),
    let c := s.cable x.e.uid
    let hdr := s.valueOf x (f.useD (.raw true)) j
    let buf := s.valueOf x (f.useA (.raw false)) j
    let len := s.valueOf x (f.useB (.raw false)) j
    let tag := hdr % 2 ^ 16
    let cl := c.coreD / 8
    let mine := s.posted.getD cl []
    let fits := fun q : Recv => q.uid == to_.uid && q.scid == c.cid && q.tag == tag
    hdr < 2 ^ 40 → buf % 16 = 0 → 16 ≤ len → len ≤ 256 → len % 16 = 0 → buf + len ≤ c.spadBytes →
    s.namedBy cl c.part (hdr / 2 ^ 16) = some to_ → s.watchTrouble x j buf { size := len } = none → (s.ctx c.ctx).rlogMode = 0 →
    (∀ q ∈ mine, (s.ctx (s.cable q.uid).ctx).rlogMode = 0) →
    (∀ q, mine.find? fits = some q → ∃ (t : State) (m : Msg), before.sendOne s x f j = .done t [] ∧
      m.scid = c.cid ∧ m.tag = tag ∧ m.sender = x.e.uid ∧ m.to_ = to_.uid ∧ m.bytes = c.padRead buf len ∧ m.taken = some q ∧
      t.deliveries = s.deliveries ++ [m] ∧ t.posted.getD cl [] = mine.filter (fun v => v.id != q.id) ∧ t.mem = s.mem) ∧
    (mine.find? fits = none → (s.overflow.getD cl []).length < 256 → ∃ (t : State) (m : Msg), before.sendOne s x f j = .done t [] ∧
      m.scid = c.cid ∧ m.tag = tag ∧ m.sender = x.e.uid ∧ m.to_ = to_.uid ∧ m.bytes = c.padRead buf len ∧ m.taken = none ∧
      t.overflow.getD cl [] = s.overflow.getD cl [] ++ [m] ∧ t.deliveries = s.deliveries ∧ t.mem = s.mem)) ∧
  (∀ (f : FmtE) (before s : State) (x : Issue) (j : Nat),
    let c := s.cable x.e.uid
    let buf := s.valueOf x (f.useD (.raw false)) j
    let hdr := s.valueOf x (f.useA (.raw true)) j
    let max_ := s.valueOf x (f.useB (.raw false)) j
    let tag := hdr % 2 ^ 16
    let scid := hdr / 2 ^ 16
    let cl := c.coreD / 8
    let queue := s.overflow.getD cl []
    let fits := fun m : Msg => m.to_ == x.e.uid && m.scid == scid && m.tag == tag
    hdr < 2 ^ 40 → buf % 16 = 0 → 16 ≤ max_ → max_ ≤ 256 → max_ % 16 = 0 → buf + max_ ≤ c.spadBytes →
    s.watchTrouble x j buf { size := max_, read := false, write := true } = none → (s.ctx c.ctx).rlogMode = 0 →
    (∀ m, queue.find? fits = some m → ∃ (t : State) (q : Recv), before.recvOne s x f j = .done t [] ∧ q.uid = x.e.uid ∧
      q.scid = scid ∧ q.tag = tag ∧ q.buf = buf ∧ q.max = max_ ∧ t.deliveries = s.deliveries ++ [{ m with taken := some q }] ∧
      t.overflow.getD cl [] = queue.filter (fun n => n.id != m.id) ∧ t.mem = s.mem) ∧
    (queue.find? fits = none → ((s.posted.getD cl []).filter fun q => q.uid == x.e.uid).length < 64 →
      ∃ (t : State) (q : Recv), before.recvOne s x f j = .done t [] ∧ q.uid = x.e.uid ∧ q.scid = scid ∧ q.tag = tag ∧ q.buf = buf ∧
        q.max = max_ ∧ t.posted.getD cl [] = s.posted.getD cl [] ++ [q] ∧ t.deliveries = s.deliveries ∧ t.mem = s.mem)) ∧
  ∀ (n : Nat) (s : State) (m : Msg) (q : Recv) (c : Cable), s.deliveries.find? (fun v => v.id == n) = some m → m.taken = some q →
    s.cables.find? q.uid = some c → c.isPlaced = true → c.saving = none →
    s.loadsReturned c.coreD q.after = true → s.padBusy q.uid q.buf (min m.bytes.length q.max) = false → c.spad.wf →
    ∃ t, exec (.messageDelivery n) s = .next t ∧ t.deliveries = s.deliveries.filter (fun d => d.id != m.id) ∧ t.mem = s.mem ∧
      ∀ a, (t.cable q.uid).spad.read a
        = if q.buf ≤ a ∧ a < q.buf + min m.bytes.length q.max then (m.bytes.getD (a - q.buf) default).1 else c.spad.read a

/-- R157 to R160, R175: with a good descriptor on this side and no load of theirs on its way, `ring.put` and `ring.get` let go the
slot they hold, and take the next one where it is free, with its address as their result. R276 to R278: `cnt.wait` completes
once the counter is at or below its threshold, `cnt.mode` sets the order of an idle counter, `cnt.rd` gives the counter's
value. -/
def Obligations.RingsAndCounters : Prop :=
  (∀ (put : Bool) (f : FmtE) (s s1 : State) (x : Issue) (g : List (Nat × Nat)) (u : State),
    let i := if put then Instr.ringPut f else .ringGet f
    let mode := ringMode f
    let take := decide (2 ≤ mode)
    let src := f.useA (.raw false)
    let d : Dest := { op := .ofField f.opd, ty := .raw false
                      only := fun op => match op with | .s _ => true | .y _ => true | .k _ => true | _ => false }
    let r : Row := { asks [src] (if take then some d else none) with
      latch := if take then .value else .clear
      legal := fun _ _ _ => 1 ≤ mode && mode ≤ 3 && (take || f.opd == 0)
      more := [.ofField f.opb, .ofField f.opd] }
    s.issues i f.c r = some (x, s1) → x.Contributes → s1.ringAct x f put src d = .done u g → exec i s = .next (u.retire x r g)) ∧
  (∀ (f : FmtE) (put : Bool) (s : State) (x : Issue) (u : Use) (d : Dest) (q : RingDesc),
    let c := s.cable x.e.uid
    let off := s.valueOf x u x.lead
    let mode := ringMode f
    let plies := distinct (x.members.map (· / 32))
    let s1 := if put && mode % 2 == 1 then s.drainPlies x.e.uid plies else s
    let q1 := if mode % 2 = 1 then q.letGo put else q
    let s2 := if mode % 2 = 1 then (s1.putRing x.e.uid off q1).wakeRings x.e.uid off else s1
    off % 16 = 0 → off + 16 ≤ c.spadBytes → s.acquiring x.e.uid x.ordered = false →
    s.padBusy x.e.uid off 16 = false → (∀ b ∈ c.padRead off 16, b.2 = false) →
    RingDesc.ofWords (leNat ((c.padRead off 8).map Prod.fst)) (leNat ((c.padRead (off + 8) 8).map Prod.fst)) c.spadBytes = some q →
    (if put then q.prod else q.cons) = x.ringSide → (s.clauseOf x.e.uid x.lead).begun = false →
    (mode % 2 = 1 → q.holds put = true) → (2 ≤ mode → q1.holds put = false ∧ q1.free put = true) →
    (put = true → mode % 2 = 1 → s1.releaseHolds x.e.uid plies x.members 1 = true) →
    (0 < mode → s1.loadsOf x.e.uid x.members = []) → s.watchTrouble x x.lead off { size := 16, write := true } = none →
    s.ringAct x f put u d = if 2 ≤ mode then
        ((s2.putRing x.e.uid off (q1.take put)).wakeRings x.e.uid off).compute x d fun _ =>
          { val := BitVec.ofNat 64 (q1.base + q1.ix put * q1.slotsz) }
      else .done s2 []) ∧
  (∀ (f : FmtI) (s s1 : State) (x : Issue),
    let r := { asks [] none with latch := .clear }
    let n := (f.imm.extractLsb' 16 4).toNat
    let k := (s1.cable x.e.uid).counter n
    (s.issues (.cntWait f) f.c r = some (x, s1) → x.Contributes → k.val ≤ (f.imm.extractLsb' 0 16).toNat →
      exec (.cntWait f) s = .next (s1.retire x r [])) ∧
    (s.issues (.cntMode f) f.c r = some (x, s1) → x.Contributes → k.val = 0 →
      exec (.cntMode f) s = .next ((s1.updCable x.e.uid fun c =>
        { c with counters := c.counters.insert n { k with strict := f.imm.getLsbD 0 } }).retire x r []))) ∧
  ∀ (f : FmtI) (s s1 s2 : State) (x : Issue) (v : Nat),
    let d := f.dest (.raw false)
    let r := asks [] (some d)
    let c := s1.cable x.e.uid
    s.issues (.cntRd f) f.c r = some (x, s1) → x.Contributes →
    s1.logEvent c { ctx := c.ctx, cid := c.cid, ply := x.lead / 32, ic := (c.ply (x.lead / 32)).ic.toNat, kind := 1
                    word1 := (c.counter (f.imm.extractLsb' 16 4).toNat).val } = .go s2 v →
    ∃ u, exec (.cntRd f) s = .next (u.retire x r []) ∧ Computed s2 u x d fun _ => { val := BitVec.ofNat 64 (v % 2 ^ 32) }

/-! ### Home slices, replies, subscribed ranges (07 R193 to R208; 09 R257) -/

/-- What stands in the way of a transaction at its home slice is clear: its turn has come, its node is reached, and the
replay log of its context lets it go. -/
def homeGoes (s s1 : State) (n : Nat) (q : Txn) : Prop :=
  s.txns.find? n = some q ∧ q.id = n ∧ s.homeReady q = true ∧ s.unreachable q = false ∧
  (if q.logged = true then ∃ v, s.logEvent (s.cable q.uid) (q.logEvent (s.cable q.uid)) = .go s1 v else s1 = s)

/-- R193, R194, R248 to R252, 08 R232. A line request leaves memory as it is, and its reply carries the bytes of its block. A
write puts its bytes in memory, and changes no other byte. An atomic combines the value at its address with its operand,
and no other byte changes; its reply carries the old bytes and the new ones. A near-memory reduction combines as an atomic
does, its sum standing with its timestamp (the model's choice, log 111); to a range that is not subscribed its acknowledgement
waits for the Capstan die, whose step leaves memory as it is. -/
def Obligations.HomeSlicesPerform : Prop :=
  (∀ (n : Nat) (evict : List Nat) (s s1 : State) (q : Txn) (line lo size lease : Nat) (k inst acq : Bool) (parts : List LoadPart),
    homeGoes s s1 n q → q.kind = .load line lo size lease k inst acq parts →
    ∃ (t : State) (w r : Nat) (v : Option Nat), exec (.homeRead n evict) s = .next t ∧ t.mem = s1.mem ∧
      t.txns.find? n = some { q with state := .performed w r (t.fetchBytes (line * 128 + lo) size) 0, ver := v, done := s.stepCount } ∧
      (s1.cacheable (line * 128) = true → v = some (t.line line).ver) ∧
      (s1.cacheable (line * 128) = true → (t.lines.find? line).map (fun m => (m.inLlc, m.w, m.r)) = some (true, w, r))) ∧
  (∀ (n : Nat) (s s1 : State) (q : Txn) (bytes : List (Nat × WcByte)) (rel : Bool) (seg : Option Nat),
    homeGoes s s1 n q → q.kind = .write bytes rel seg → s1.mem.wf →
    ∃ (t : State) (w : Nat) (v : Option Nat), exec (.homeWrite n) s = .next t ∧
      (∀ a, t.mem.read a = match bytes.reverse.find? fun b => b.1 == a with | some b => b.2.val | none => s1.mem.read a) ∧
      (∃ u, t.txns.find? n = some { q with state := .performed w 0 [] 0, upd := u, ver := v, done := s.stepCount }) ∧
      ∀ b rest, bytes = b :: rest → s1.cacheable b.1 = true →
        let k := blockOf (b.1 % 128) ((bytes.getLastD b).1 % 128)
        let m := (s1.touchBlock (b.1 / 128) k.1 k.2).line (b.1 / 128)
        v = some (t.line (b.1 / 128)).ver ∧
        (t.lines.find? (b.1 / 128)).map (fun m => (m.inLlc, m.w, m.r, m.dirty)) = some (true, w, w, true) ∧
        (max (s1.core q.core).p (m.r + 1) ≤ maxTime → w = max (s1.core q.core).p (m.r + 1) ∧ (t.line (b.1 / 128)).ver = m.ver + 1)) ∧
  (∀ (n : Nat) (s s1 : State) (q : Txn) (op : AtomOp) (ty : IntTy) (pa : Nat) (val cmp : W64) (psn : Bool) (part : Option LoadPart),
    homeGoes s s1 n q → q.kind = .atom op ty pa val cmp psn part → s1.mem.wf →
    let m := 8 * (if op = .addF32 then 4 else ty.fmt.w / 8)
    let size := if op = .addF32 then 4 else ty.fmt.w / 8
    let s2 := if s1.cacheable pa then s1.touchBlock (pa / 128) (pa % 128) size else s1
    let old := s2.fetchBytes pa size
    let v := atomResult op ty.fmt (leNat (old.map Prod.fst)) (val.toNat % 2 ^ m) (cmp.toNat % 2 ^ m)
    ∃ (t : State) (w : Nat) (u : Option (Nat × Nat)) (ver : Option Nat), exec (.homeAtomic n) s = .next t ∧
      (∀ a, t.mem.read a = if pa ≤ a ∧ a < pa + size then (leBytes v.1 size).getD (a - pa) 0 else s1.mem.read a) ∧
      t.txns.find? n = some { q with state := .performed w 0 (old ++ (leBytes v.1 size).map fun b => (b, psn)) v.2, upd := u,
                                      ver := ver, done := s.stepCount }) ∧
  (∀ (n : Nat) (s s1 : State) (q : Txn) (fl : Bool) (pa : Nat) (val : W32) (psn : Bool) (cnt : Option Nat),
    homeGoes s s1 n q → q.kind = .nred fl pa val psn cnt → s1.mem.wf →
    let v := atomResult (if fl then .addF32 else .add) ⟨32, true⟩ (leNat (s1.mem.readN pa 4)) val.toNat 0
    ∃ (t : State) (w : Nat) (u : Option (Nat × Nat)), exec (.homeAtomic n) s = .next t ∧
      (∀ a, t.mem.read a = if pa ≤ a ∧ a < pa + 4 then (leBytes v.1 4).getD (a - pa) 0 else s1.mem.read a) ∧
      t.txns.find? n = some { q with state := .performed w 0 (if s1.subscribed pa then [(0, false)] else []) 0,
                                      upd := u, done := s.stepCount }) ∧
  ∀ (n : Nat) (s : State) (q : Txn) (fl : Bool) (pa : Nat) (val : W32) (psn : Bool) (cnt : Option Nat) (w r : Nat) (g : Flags),
    s.txns.find? n = some q → q.id = n → q.kind = .nred fl pa val psn cnt → q.state = .performed w r [] g →
    ∃ t, exec (.capstanNred n) s = .next t ∧ t.mem = s.mem ∧
      t.txns.find? n = some { q with state := .performed w r [(0, false)] g }

/-- R186, R187, R193, R194, R199, R208: a reply that none of its slice precedes takes the request out of the table, raises P, and
releases every register that waited for it; memory stays. An acknowledgement comes once every subscriber has applied the
write; it takes the transaction out of the table, raises P and lowers UNACK. A value delivered to a register of a live strand
is what it then holds. -/
def Obligations.RepliesArrive : Prop :=
  (∀ (n : Nat) (s : State) (q : Txn) (line lo size lease : Nat) (k inst acq : Bool) (parts : List LoadPart) (w r : Nat)
    (bytes : List (Byte × Bool)) (fl : Flags), s.txns.find? n = some q → q.kind = .load line lo size lease k inst acq parts →
    q.state = .performed w r bytes fl → s.replyNext q = true →
    ∃ t, exec (.loadReply n) s = .next t ∧ t.txns.find? n = none ∧ t.mem = s.mem ∧ t.psn = s.psn ∧ t.lines = s.lines ∧
      ((q.acquires = true → q.sync.ssc ≠ 4) → (t.core q.core).p = max (s.core q.core).p w) ∧
      ∀ p ∈ parts, ∀ ks ∈ p.dests, ∀ key ∈ ks, (key, n) ∉ (t.cable q.uid).board) ∧
  (∀ (n : Nat) (s : State) (q : Txn) (bytes : List (Nat × WcByte)) (rel : Bool) (seg : Option Nat) (w old : Nat)
    (bs : List (Byte × Bool)) (fl : Flags), s.txns.find? n = some q → q.id = n → q.kind = .write bytes rel seg →
    q.state = .performed w old bs fl → s.applied q.upd = true → s.replyNext q = true →
    ∃ t, exec (.writeAck n) s = .next t ∧ t.txns.find? n = none ∧ t.mem = s.mem ∧ t.psn = s.psn ∧ t.lines = s.lines ∧
      ((q.acquires = true → q.sync.ssc ≠ 4) → (t.core q.core).p = max (s.core q.core).p w) ∧
      ∀ uid p, ((t.cable uid).ply p).unack = ((s.cable uid).ply p).unack - (q.acks.filter fun a => a == (uid, p)).length) ∧
  (∀ (c : Cable) (now op who j m : Nat) (lats : List Nat) (val : W64) (psn : Bool), (c.strand j).live = true →
    ((c.deliver now op who false [[.v j m]] lats val psn).strand j).v.find? m = some ⟨val.lo, psn⟩ ∧
    ∀ i, i ≠ j → ((c.deliver now op who false [[.v j m]] lats val psn).strand i).v = (c.strand i).v) ∧
  ∀ (c : Cable) (now op who j m : Nat) (lats : List Nat) (val : W64) (psn : Bool), (c.strand j).live = true →
    let t := (c.deliver now op who true [[.v j m, .v j (m + 1)]] lats val psn).strand j
    t.v.find? m = some ⟨val.lo, psn⟩ ∧ t.v.find? (m + 1) = some ⟨val.hi, psn⟩

/-- R206, R207, R257. The home slice answers a `sub` with the first status of Table 9.6 that applies: 1 the segment is not empty,
2 no directory entry is free, 3 the range has 16 subscribers, 4 another owns it; else 0, and the segment is in transit with a
snapshot of the range. An `unsub` is answered 1 where the segment is empty, 5 where it holds another range, and otherwise, once it
is current and, if owned, no store that its cable has sent to the range is under way, 0, and it is empty. The snapshot
and the updates of a range, each of which is its next number, come on the reply mesh after what the range's slice sent to the core
before them (07 R199), bring the segment's bytes to what they say, and change no other byte of the scratchpad. -/
def Obligations.SubscribedRanges : Prop :=
  (∀ (n : Nat) (s : State) (q : Txn) (range va seg : Nat) (own esr : Bool) (p : LoadPart), s.txns.find? n = some q →
    q.kind = .sub range va seg own esr p → (s.cable q.uid).copyWrites seg = false →
    let (s1, st) := s.subscribe q.uid range va seg own esr
    exec (.homeSubscribe n) s = .next ((s1.dropTxn q.id).deliver q.uid q.id p.strand false p.dests p.lats (BitVec.ofNat 64 st) false) ∧
    let subs := ((s.dirs.find? range).map Dir.subs).getD []
    s1.mem = s.mem ∧
    st = (if ((s.cable q.uid).segs.find? seg).isSome = true then 1
      else if s.dirs.find? range = none ∧ 2 ≤ (s.dirs.filter fun e =>
        sliceOf (e.1 * 4096) == sliceOf (range * 4096) && e.2.part == (s.cable q.uid).part).length then 2
      else if 16 ≤ subs.length then 3 else if own = true ∧ (∃ b ∈ subs, b.owned = true) then 4 else 0) ∧
    (st = 0 → (s.cables.find? q.uid).isSome = true → ∃ g, (s1.cable q.uid).segs.find? seg = some g ∧ g.state = .inTransit ∧
      g.owned = own ∧ g.range = range ∧
      g.snapshot.map (fun v => v.2.1) = some (s.mem.readN (range * 4096) 4096))) ∧
  (∀ (n : Nat) (s : State) (q : Txn) (range seg : Nat) (p : LoadPart) (s1 : State) (st : Nat), s.txns.find? n = some q →
    q.kind = .unsub range seg p → s.unsubscribe q.uid range seg = some (s1, st) →
    exec (.homeSubscribe n) s = .next ((s1.dropTxn q.id).deliver q.uid q.id p.strand false p.dests p.lats (BitVec.ofNat 64 st) false) ∧
    s1.mem = s.mem ∧
    (st = 0 → (s1.cable q.uid).segs.find? seg = none)) ∧
  (∀ (s : State) (uid range seg : Nat), ((s.cable uid).segs.find? seg = none → s.unsubscribe uid range seg = some (s, 1)) ∧
    ∀ g, (s.cable uid).segs.find? seg = some g →
      (g.range ≠ range → s.unsubscribe uid range seg = some (s, 5)) ∧
      (g.range = range → g.state = .current → (g.owned = true → ∀ e ∈ s.txns, e.2.uid = uid →
          ∀ bytes rel sg, e.2.kind = .write bytes rel (some sg) → ∀ b ∈ bytes, b.1 / 4096 ≠ range) →
        ∃ t, s.unsubscribe uid range seg = some (t, 0) ∧ (t.cable uid).segs.find? seg = none ∧ t.mem = s.mem)) ∧
  (∀ (uid seg : Nat) (s : State) (c : Cable) (g : Seg) (last : Nat) (bytes : List Byte) (psn : List Nat),
    s.cables.find? uid = some c → c.segs.find? seg = some g → g.state = .inTransit → g.snapshot = some (last, bytes, psn) →
    s.rangeNext c.coreD g.range g.sent = true → c.spad.wf →
    ∃ t, exec (.segmentSnapshot uid seg) s = .next t ∧ State.OnlyCable uid s t ∧
      (∃ h, (t.cable uid).segs.find? seg = some h ∧ h.state = .current ∧ h.last = last ∧ h.inbox = g.inbox) ∧
      ∀ a, (t.cable uid).spad.read a = if seg * 4096 ≤ a ∧ a < seg * 4096 + bytes.length then bytes.getD (a - seg * 4096) 0
        else c.spad.read a) ∧
  ∀ (uid seg : Nat) (s : State) (c : Cable) (g : Seg) (u : Update) (rest : List Update), s.cables.find? uid = some c →
    c.segs.find? seg = some g → g.inbox = u :: rest → g.snapshot = none → g.state ≠ .saved → c.isPlaced = true →
    s.rangeNext c.coreD g.range u.sent = true → c.spad.wf →
    ∃ t, exec (.segmentUpdate uid seg) s = .next t ∧ State.OnlyCable uid s t ∧
      (∃ h, (t.cable uid).segs.find? seg = some h ∧ h.inbox = rest ∧ h.last = u.num) ∧
      ∀ a, (t.cable uid).spad.read a = match u.bytes.reverse.find? fun b => seg * 4096 + b.1 == a with
        | some b => b.2.1 | none => c.spad.read a

/-! ### Engine commands (11 R279 to R290; 12 R293; 13; 14 R343; 18 R406 to R415) -/

/-- The rows that issue one command for each accessing strand: the path and the commands its engine holds on a core, the
fields, the operands with their counts of registers, the check of a command, and whether user level is refused. -/
def engineOp (i : Instr) : Option (Path × Nat × FmtE × List (Use × Nat) × (State → Cable → Cmd → Option Trouble) × Bool) :=
  match i with
  | .cp1d f => some (.copy, 64, f, [pairD f, pairA f, wordB f], moveCheck, false)
  | .cp2d f => some (.copy, 64, f, [pairD f, pairA f, groupB f], moveCheck, false)
  | .cpGth f => some (.copy, 64, f, [pairD f, pairA f, groupB f], moveCheck, false)
  | .cpSct f => some (.copy, 64, f, [pairD f, pairA f, groupB f], moveCheck, false)
  | .cpZero f => some (.copy, 64, f, [pairD f, noneA f, wordB f], moveCheck, false)
  | .cpFillRaw f => some (.copy, 64, f, [pairD f, pairA f, wordB f], fillCheck, true)
  | .cpFillEsr f => some (.copy, 64, f, [pairD f, pairA f, wordB f], fillCheck, true)
  | .cpFillN4e f => some (.copy, 64, f, [pairD f, pairA f, wordB f], fillCheck, true)
  | .cpSeg f => some (.copy, 64, f, [(f.useD (.raw false), 1)], segCheck, false)
  | .tbinv f => some (.la, 32, f, [scalarD f], laCheck, false)
  | .tbspill f => some (.la, 32, f, [scalarD f, laPairA f], laCheck, false)
  | .tbfill f => some (.la, 32, f, [scalarD f, laPairA f], laCheck, false)
  | .lmmT8 _ _ f => some (.la, 32, f, [scalarD f, laGroupA f, laGroupB f 4], laCheck, false)
  | .lmmT4 _ f => some (.la, 32, f, [scalarD f, laGroupA f], laCheck, false)
  | .lmmT4Rb _ f => some (.la, 32, f, [scalarD f, laGroupA f], laCheck, false)
  | .lmmG4 _ f => some (.la, 32, f, [scalarD f, laGroupA f], laCheck, false)
  | .lmmG4Rb _ f => some (.la, 32, f, [scalarD f, laGroupA f], laCheck, false)
  | .dmm _ f => some (.la, 32, f, [scalarD f, laGroupA f, laGroupB f 4], laCheck, false)
  | .saccMx f => some (.la, 32, f, [scalarD f, laGroupA f] ++ (if f.opb = 0 then [] else [laGroupB f 8]), laCheck, false)
  | .saccQ16 f => some (.la, 32, f, [scalarD f, laGroupA f, laGroupB f 8], laCheck, false)
  | .zld f => some (.la, 32, f, [scalarD f, laPairA f, scalarB f], laCheck, false)
  | .zst f => some (.la, 32, f, [scalarD f, laPairA f, scalarB f], laCheck, false)
  | .zzero f => some (.la, 32, f, [scalarD f], laCheck, false)
  | .zmov f => some (.la, 32, f, [scalarD f, scalarA f], laCheck, false)
  | _ => none

/-- The search commands: their fields, and whether they carry a query. -/
def searchOp : Instr → Option (FmtE × Bool)
  | .srchDist f => some (f, true) | .srchKnn f => some (f, true) | .srchWalk f => some (f, true) | .srchIns f => some (f, true)
  | .srchDel f => some (f, false) | .srchSnap f => some (f, false) | .srchRel f => some (f, false)
  | .srchHeap f => some (f, false) | .srchReclaim f => some (f, false)
  | _ => none

/-- The builds of table registers. -/
def buildOp : Instr → Option (FmtE × List (Use × Nat))
  | .tbldT4 _ _ f => some (f, [scalarD f, laPairA f]) | .tbldG4 _ f => some (f, [scalarD f, laPairA f, scalarB f]) | _ => none

/-- The fabric commands: their fields, their operands, whether they are collective, and whether they drain the
write-combining buffer first. -/
def fabricOp : Instr → Option (FmtE × List (Use × Nat) × Bool × Bool)
  | .fabRedAdd _ f => some (f, redUses f, true, false) | .fabRedMin _ f => some (f, redUses f, true, false)
  | .fabRedMax _ f => some (f, redUses f, true, false) | .fabTopk f => some (f, redUses f, true, false)
  | .fabPut f => some (f, [fabPairD f, laPairA f, scalarB f], false, false)
  | .fabGet f => some (f, [fabPairD f, laPairA f, scalarB f], false, false)
  | .fabBar f => some (f, [laGroupB f 4], true, true)
  | .fabSig f => some (f, [laPairA f, scalarB f], false, true)
  | _ => none

/-- What an engine command asks of its issue. -/
def asksEngine (f : FmtE) (srcs : List Use) (privileged : Bool) : Row :=
  { asks srcs none with
    latch := .clear, priv := fun s e => !privileged || (s.cable e.uid).priv != 0
    extra := fun j => if f.te then [.s (j / 32) f.tok.toNat] else [] }

/-- R279 to R290, R293, R299, R343, R411: a command instruction whose operands pass their checks and find room completes, and
its commands enter their engine in ascending order of strands. A build from registers takes their bytes along. A
collective enters its instance with what its crew says, unless one of its crew and number is in flight in its own partition (18 R411
speaks of the module: that a partition's crews are its own is the model's reading, log 68). `cp.cancel` marks the copy commands of its counter. -/
def Obligations.CommandsIssue : Prop :=
  (∀ (i : Instr) (path : Path) (limit : Nat) (f : FmtE) (uses : List (Use × Nat))
    (check : State → Cable → Cmd → Option Trouble) (privileged : Bool) (s s1 : State) (x : Issue),
    engineOp i = some (path, limit, f, uses, check, privileged) →
    let r := asksEngine f (uses.map Prod.fst) privileged
    let cmds := s1.engineCmds x path i f uses
    s.issues i f.c r = some (x, s1) → x.Contributes → (∀ m ∈ cmds, check s1 (s1.cable x.e.uid) m.2 = none) →
    s1.commandRoom x f path limit cmds.length →
    exec i s = .next ((s1.enterAll x f (cmds.map Prod.snd)).retire x r [])) ∧
  (∀ (i : Instr) (f : FmtE) (q : Bool) (s s1 s2 : State) (x : Issue) (cmds : List Cmd), searchOp i = some (f, q) →
    let r := asksEngine f (if q then [srchD f, srchA f, srchG f] else [srchD f, srchG f]) false
    s.issues i f.c r = some (x, s1) → x.Contributes → s1.srchPlans x i f q = (s2, [], cmds) →
    s2.commandRoom x f .srch (2 ^ 32) cmds.length → exec i s = .next ((s2.enterAll x f cmds).retire x r [])) ∧
  (∀ (i : Instr) (f : FmtE) (uses : List (Use × Nat)) (s s1 : State) (x : Issue), buildOp i = some (f, uses) →
    let r := asksEngine f (uses.map Prod.fst) false
    let regs := fun k => match uses[k]? with | some u => s1.regsOf x u.1 x.lead u.2 | none => []
    let m := s1.newCmd x f i .la x.lead (regs 0) (regs 1) (regs 2)
    let t := m.buildTag
    s.issues i f.c r = some (x, s1) → x.Contributes → laCheck s1 (s1.cable x.e.uid) m = none →
    (t.kind = 1 → s1.commandRoom x f .la 32 1 → exec i s = .next ((s1.enterAll x f [m]).retire x r [])) ∧
    ∀ s2, t.kind ≠ 1 →
      let lanes := (List.range t.m).map (32 * t.ply + ·)
      let names := (List.range t.vcnt).map (t.vlo + ·)
      let c := s1.cable x.e.uid
      let want := lanes.flatMap fun j => (names.filter fun n => (c.strand j).spilled.contains n).map fun n => (j, n)
      (∀ b ∈ c.board, ∀ j n, b.1 = .v j n → j ∈ lanes → n ∈ names → False) → c.buildsInFlight < 8 →
      s1.poolUse c.coreD + want.length ≤ Config.physRegs → s1.unspill x.e.uid x.lead want = .ok s2 →
      s2.commandRoom x f .la 32 1 →
      let bytes := lanes.flatMap fun j => names.flatMap fun n =>
        let v := ((s2.cable x.e.uid).strand j).v.getD n {}
        (leBytes v.val.toNat 4).map fun b => (b, v.psn)
      exec i s = .next ((s2.enterAll x f [{ m with build := bytes, srcReg := some (t.ply, t.vlo, t.vcnt) }]).retire x r [])) ∧
  (∀ (i : Instr) (f : FmtE) (uses : List (Use × Nat)) (coll drain : Bool) (s s1 : State) (x : Issue),
    fabricOp i = some (f, uses, coll, drain) →
    let r := asksEngine f (uses.map Prod.fst) false
    let m := s1.fabCmd x i f uses
    let c := s1.cable x.e.uid
    let drained := fun t : State => if drain then t.drainPlies x.e.uid (distinct (x.members.map (· / 32))) else t
    s.issues i f.c r = some (x, s1) → x.Contributes → s1.fabCheck c m = none →
    (coll = false → (drained s1).commandRoom x f .fab (2 ^ 32) 1 →
      exec i s = .next (((drained s1).enterAll x f [m]).retire x r [])) ∧
    ∀ s2 k, coll = true → s1.readCrew c m = (s2, .ok k) →
      (∀ q ∈ s2.collectives, ¬ (q.part = c.part ∧ q.crew = k.crew ∧ q.seq = m.crewSeq)) →
      (s2.collectives.filter fun q => q.part == c.part).length < 64 → (drained s2).commandRoom x f .fab (2 ^ 32) 1 →
      let t := (drained s2).enterAll x f [m]
      exec i s = .next (State.retire { t with collectives := t.collectives ++ [m.opening x c.part k (drained s2).nextOp] } x r [])) ∧
  (∀ (f : FmtE) (s s1 : State) (x : Issue),
    let u := f.useA (.raw false)
    let r : Row := { asks [u] none with latch := .clear }
    s.issues (.cpCancel f) f.c r = some (x, s1) → x.Contributes → (∀ j ∈ x.accessors, s1.valueOf x u j ≤ 15) →
    exec (.cpCancel f) s = .next ((x.accessors.foldl (fun t j => t.cancelCopies x.e.uid (s1.valueOf x u j)) s1).retire x r [])) ∧
  ∀ (s : State) (x : Issue) (f : FmtE) (m : Cmd) (c : Cable), s.cables.find? x.e.uid = some c →
    let t := s.enterCmd x f m
    let k := c.counter f.cnt.toNat
    t.mem = s.mem ∧ t.nextOp = s.nextOp + 1 ∧ (t.cable x.e.uid).cmds = c.cmds ++ [{ m with id := s.nextOp }] ∧
    (f.ce = true → (t.cable x.e.uid).counter f.cnt.toNat = { k with val := k.val + 1 }) ∧
    (f.te = true → ∀ key ∈ x.tokens f m.strand, (key, s.nextOp) ∈ (t.cable x.e.uid).board) ∧
    ∀ v, v ≠ x.e.uid → t.cable v = s.cable v

/-! ### Walkers (14 R349 to R352) -/

/-- The walker instructions that travel to the home die: their common fields, and what they ask. -/
def homeOp : Instr → Option (Common × Row)
  | .heapPush f => some (f.c, { asks [{ sUse (f.useA (.raw true)) with carry := true }, { sUse (f.useB (.raw true)) with carry := true }]
      none with latch := .clear })
  | .heapTop f => some (f.c, asks [] (some (sDest f.opd)))
  | .heapPop f => some (f.c, asks [] (some (sDest f.opd)))
  | .visit f => some (f.c, asks [sUse (f.useA (.raw true))] (some (sDest f.opd)))
  | _ => none

/-- 14 R351: what a walker asks of its own die, or of another that has answered, is done: `dist` gives the distance and the visible
bit of a node, `heap.push` offers an entry, `heap.top` and `heap.pop` give the bound and the best candidate, `visit` what it
finds of an edge; `hop` and `walk.end` leave the clause. Where another die must answer, the walker waits for it, at the same
instruction. -/
def Obligations.WalkerInstructions : Prop :=
  (∀ (i : Instr) (c : Common) (r : Row) (s s1 : State) (x : Issue), homeOp i = some (c, r) → s.issues i c r = some (x, s1) →
    x.Contributes → x.e.walker = true → (s1.walker? x.e.uid x.e.cmd x.e.w).isSome = true →
    s1.atDie x (s1.walkOf x.e).srch.home = false →
    exec i s = .next (s1.updWalker x.e.uid x.e.cmd x.e.w fun y => { y with state := .asking 0 })) ∧
  (∀ (f : FmtE) (s s1 : State) (x : Issue),
    let u : Use := { sUse (f.useA (.raw true)) with carry := true }
    let r : Row := { asks [u] (some (sDest f.opd)) with legal := fun s e _ => f.var.toNat == (s.walkOf e).metric }
    let id := (s1.wsrc x u).1 % 2 ^ 32
    s.issues (.dist f) f.c r = some (x, s1) → x.Contributes → x.e.walker = true →
    s1.idOk (s1.descAt (s1.walkOf x.e).srch.desc) id = true → (s1.walker? x.e.uid x.e.cmd x.e.w).isSome = true →
    s1.atDie x (id / 2 ^ 28) = false →
    exec (.dist f) s = .next (s1.updWalker x.e.uid x.e.cmd x.e.w fun y => { y with state := .asking (BitVec.ofNat 32 id) })) ∧
  (∀ (f : FmtE) (s s1 : State) (x : Issue),
    let u : Use := { sUse (f.useA (.raw true)) with carry := true }
    let d := sDest f.opd
    let r : Row := { asks [u] (some d) with legal := fun s e _ => f.var.toNat == (s.walkOf e).metric }
    let m := s1.walkOf x.e
    let id := (s1.wsrc x u).1 % 2 ^ 32
    s.issues (.dist f) f.c r = some (x, s1) → x.Contributes → s1.idOk (s1.descAt m.srch.desc) id = true →
    s1.atDie x (id / 2 ^ 28) = true →
    let s2 := s1.asked x
    let (s3, n) := s2.findNode (s1.descAt m.srch.desc) m.srch m.metric id
    exec (.dist f) s = .next (((s3.updWalk x fun k => k.met n.bad).deposit x d 0
      { val := BitVec.ofNat 64 (n.d + bit1 n.visible 32), flags := n.flags, p0 := (s1.wsrc x u).2 || n.psn }).retire x r [])) ∧
  (∀ (f : FmtE) (s s1 : State) (x : Issue),
    let a : Use := { sUse (f.useA (.raw true)) with carry := true }
    let b : Use := { sUse (f.useB (.raw true)) with carry := true }
    let r : Row := { asks [a, b] none with latch := .clear }
    let m := s1.walkOf x.e
    let (d, p) := s1.wsrc x a
    let (id, q) := s1.wsrc x b
    s.issues (.heapPush f) f.c r = some (x, s1) → x.Contributes → s1.atDie x m.srch.home = true →
    exec (.heapPush f) s = .next ((if d.testBit 32 then (s1.asked x).updWalk x fun k => { k with
        heap := heapPush m.k k.heap { d := BitVec.ofNat 32 d, id := BitVec.ofNat 32 id, psn := p || q } }
      else s1.asked x).retire x r [])) ∧
  (∀ (pop : Bool) (f : FmtE) (s s1 : State) (x : Issue),
    let i := if pop then Instr.heapPop f else .heapTop f
    let d := sDest f.opd
    let r := asks [] (some d)
    let m := s1.walkOf x.e
    let e := if pop then heapPop m.srch.heap else (m.srch.heap, heapTop m.k m.srch.heap)
    s.issues i f.c r = some (x, s1) → x.Contributes → s1.atDie x m.srch.home = true →
    exec i s = .next ((((s1.asked x).updWalk x fun k => { k with heap := e.1 }).deposit x d 0
      { val := e.2.word, p0 := e.2.psn }).retire x r [])) ∧
  (∀ (f : FmtE) (s s1 : State) (x : Issue),
    let a := sUse (f.useA (.raw true))
    let d := sDest f.opd
    let r := asks [a] (some d)
    let m := s1.walkOf x.e
    let e := (s1.wsrc x a).1
    s.issues (.visit f) f.c r = some (x, s1) → x.Contributes → s1.atDie x m.srch.home = true →
    let found := m.srch.filter.contains (BitVec.ofNat 32 e)
    let hidden := decide (e % 2 ^ 32 = 0xFFFFFFFF) || decide (m.srch.snap < e / 2 ^ 32)
    ∃ t : State, exec (.visit f) s = .next (t.retire x r []) ∧
      t = (((s1.asked x).updWalk x fun k => { k with
        filter := if hidden || found || decide (16384 ≤ m.srch.filter.length) then m.srch.filter
          else m.srch.filter ++ [BitVec.ofNat 32 e]
        vfull := m.srch.vfull || (!hidden && !found && decide (16384 ≤ m.srch.filter.length)) }).deposit x d 0
          { val := if hidden then 0 else if found then 2 else if 16384 ≤ m.srch.filter.length then 3 else 1 })) ∧
  (∀ (f : FmtE) (s s1 : State) (x : Issue),
    let a := sUse (f.useA (.raw false))
    let r : Row := { asks [a] none with latch := .clear, transfer := true }
    let id := (s1.wsrc x a).1
    s.issues (.hop f) f.c r = some (x, s1) → x.Contributes → s1.idOk (s1.descAt (s1.walkOf x.e).srch.desc) id = true →
    exec (.hop f) s = .next ((s1.updWalker x.e.uid x.e.cmd x.e.w fun w =>
      { w with state := .hopping (id / 2 ^ 28), clause := none, pc := x.addr + 8 }).retire x r [])) ∧
  (∀ (f : FmtE) (s s1 : State) (x : Issue),
    let r : Row := { asks [] none with latch := .clear, transfer := true }
    s.issues (.walkEnd f) f.c r = some (x, s1) → x.Contributes →
    exec (.walkEnd f) s = .next ((s1.updWalker x.e.uid x.e.cmd x.e.w fun w =>
      { w with state := .ended, clause := none, pc := x.addr + 8 }).retire x r [])) ∧
  ∀ (s s1 : State) (x : Issue) (z : SizeZ) (f : FmtM),
    let d : Dest := f.dest z.oty
    let r : Row := { asks [f.useBase] (some d) with
      latch := if f.c.scope = .strand then .value else .own, legal := fun _ e _ => !e.walker || (f.ord == 0 && !f.split) }
    let pa := s1.ea x f 0
    ∀ m k, s.issues (.ldG z f) f.c r = some (x, s1) → x.e.walker = true → x.Contributes →
      (s1.cable x.e.uid).cmd? x.e.cmd = some m → s1.walker? x.e.uid x.e.cmd x.e.w = some k → pa % z.bytes = 0 →
      s1.inShard (s1.descAt m.srch.desc) k.stack pa z.bytes = true →
      let bs := (s1.touchSpan pa z.bytes).fetchBytes pa z.bytes
      ∃ t : State, exec (.ldG z f) s = .next (t.retire x r []) ∧ t.mem = s1.mem ∧
        (t.walker? x.e.uid x.e.cmd x.e.w).map (fun w => (w.s, w.m)) = some (
          (k.given (.ofField f.data) z.oty.wide { val := z.oty.extend (leNat (bs.map Prod.fst)), p0 := bs.any Prod.snd }).s, k.m)

/-! ### Clauses, time, launches (01 R17; 03 R63, R64; 05 R149 to R156; 07 R191) -/

/-- The groups that a scheduler tries, in order: those of its candidates (R156), of each ply as its path slots take turns
(R141). -/
def triedBy (s : State) (core slot : Nat) : List (Nat × Nat × Group) :=
  (s.candidates core slot).flatMap fun u => ((s.cable u.1).nextGroups u.2).map fun g => (u.1, u.2, g)

/-- A group that cannot begin a clause now: an acquire of its strands is under way, a table entry for its fetch is wanting, or a
wait of its header does not hold. -/
def heldBack (s : State) (core : Nat) (u : Nat × Nat × Group) : Prop :=
  u.2.2.clause = none ∧ (s.acquiring u.1 ((s.cable u.1).groupStrands u.2.1 u.2.2) = true ∨
    match (s.fetchClause core u.1 u.2.1 u.2.2.pc).2 with
    | .full => True
    | .bad _ _ => False
    | .clause h _ => (s.cable u.1).waitHolds h.wa = false ∨ (s.cable u.1).waitHolds h.wb = false)

/-- 01 R17, 03 R63, R64, 05 R141, R156, 14 R350. A scheduler with a free slot runs the first group of its candidates that can begin
or go on, those before it being held back: a ply whose fetch fails takes the fault of its header; one whose header and words are
there, and whose waits hold, runs the clause from its first word; one inside a clause goes on with it; where all are held back
nothing happens. A walker whose header and words are in its stack's image begins it. -/
def Obligations.ClausesBegin : Prop :=
  (∀ (core slot : Nat) (s : State) (uid p : Nat) (g : Group) (before after : List (Nat × Nat × Group)) (s1 : State)
    (h : Header) (ws : List W64), core < 704 → slot < 4 → (s.core core).slots.getD slot none = none →
    triedBy s core slot = before ++ (uid, p, g) :: after → (∀ u ∈ before, heldBack s core u) → g.clause = none →
    s.acquiring uid ((s.cable uid).groupStrands p g) = false → s.fetchClause core uid p g.pc = (s1, .clause h ws) →
    (s.cable uid).waitHolds h.wa = true → (s.cable uid).waitHolds h.wb = true → (s1.core core).slots.length = 4 →
    (∃ y, (s1.cable uid).plies.find? p = some y ∧ y.groups.find? (fun k => k.gid == g.gid) = some g) →
    ∃ t : State, exec (.clauseBegin (.sched core slot)) s = .next t ∧ t.mem = s1.mem ∧
      ((t.cable uid).ply p).running = some g.gid ∧ (t.core core).slots.getD slot none = some (uid, p) ∧
      ∃ k cl, t.group? uid p g.gid = some k ∧ k.clause = some cl ∧ k.lanes = g.lanes ∧ cl.addr = g.pc ∧ cl.hdr = h ∧
        cl.words = ws ∧ cl.pos = 0 ∧ cl.log = []) ∧
  (∀ (core slot : Nat) (s : State) (uid p : Nat) (g : Group) (before after : List (Nat × Nat × Group)) (cl : Clause),
    core < 704 → slot < 4 → (s.core core).slots.getD slot none = none → (s.core core).slots.length = 4 →
    triedBy s core slot = before ++ (uid, p, g) :: after → (∀ u ∈ before, heldBack s core u) → g.clause = some cl →
    (∃ y, (s.cable uid).plies.find? p = some y ∧ y.groups.find? (fun k => k.gid == g.gid) = some g) →
    ∃ t : State, exec (.clauseBegin (.sched core slot)) s = .next t ∧ t.mem = s.mem ∧ t.group? uid p g.gid = some g ∧
      ((t.cable uid).ply p).running = some g.gid ∧ (t.core core).slots.getD slot none = some (uid, p)) ∧
  (∀ (core slot : Nat) (s : State), (∀ u ∈ triedBy s core slot, heldBack s core u) →
    exec (.clauseBegin (.sched core slot)) s = .next s) ∧
  (∀ (core slot : Nat) (s : State) (uid p : Nat) (g : Group) (before after : List (Nat × Nat × Group)) (s1 : State)
    (w : W64) (tr : Trouble), core < 704 → slot < 4 → (s.core core).slots.getD slot none = none →
    triedBy s core slot = before ++ (uid, p, g) :: after → (∀ u ∈ before, heldBack s core u) → g.clause = none →
    s.acquiring uid ((s.cable uid).groupStrands p g) = false → s.fetchClause core uid p g.pc = (s1, .bad w tr) →
    exec (.clauseBegin (.sched core slot)) s = .next (s1.raisePly { uid := uid, ply := p, gid := g.gid } g.pc w tr)) ∧
  (∀ (h : Header) (c : Cable), (c.waitHolds h.wa = true ↔ h.wa.en = false ∨ (c.counter h.wa.cnt.toNat).val ≤ h.wa.thr.toNat)) ∧
  ∀ (s : State) (uid cmd w : Nat) (c : Cable) (m : Cmd) (k : Walker) (v : Nat) (h : Header) (ws : List Nat),
    s.srchTurn uid cmd = some (c, m) → s.walker? uid cmd w = some k → k.state = .run → k.clause = none → m.cancel = false →
    s.imageWord uid cmd w k.pc = some (v, false) → walkerHeader v = some h → ws.length = h.len.toNat + 1 →
    (∀ i < ws.length, s.imageWord uid cmd w (k.pc + 8 * (i + 1)) = some (ws.getD i 0, false)) →
    ∃ t cl, exec (.clauseBegin (.walker uid cmd w)) s = .next t ∧ t.mem = s.mem ∧
      t.walker? uid cmd w = some { k with clause := some cl } ∧ cl.addr = k.pc ∧ cl.hdr = h ∧
      cl.words = ws.map (fun v => BitVec.ofNat 64 v) ∧ cl.pos = 0

/-- R149 to R154, R176: `launch` whose releases hold and whose records are good and find room adds a coil for each of them; a
coil whose dependences hold stands at the tail of its priority's queue. A cable without a live strand, outstanding commands or
counts leaves only its names; the waiters that named it are gone. -/
def Obligations.LaunchesAndEnds : Prop :=
  (∀ (f : FmtA) (s s1 s2 : State) (x : Issue) (rs : List (List W64 × List W32)),
    let u := f.useA (.raw true)
    let r : Row := { asks [u] none with latch := .clear }
    let c := s1.cable x.e.uid
    let plies := distinct (x.ordered.map (· / 32))
    s.issues (.launch f) f.c r = some (x, s1) → x.Contributes → s1.acquiring x.e.uid x.ordered = false →
    (s1.drainPlies x.e.uid plies).releaseHolds x.e.uid plies x.ordered 3 = true →
    (s1.drainPlies x.e.uid plies).readRecords c.ctx (c.priv == 0) (x.accessors.map fun j => (j, s1.valueOf x u j)) = (s2, .ok rs) →
    c.launchRoom rs = true → s2.launchesOf c.ctx + rs.length ≤ 4096 →
    exec (.launch f) s = .next ((rs.foldl (fun t q => t.applyLaunch c.ctx (some x.e.uid) q.1 q.2 (x.lead / 32)) s2).retire x r [])) ∧
  (∀ (s : State) (ctx : Nat) (who : Option Nat) (rec_ : List W64) (ks : List W32) (ply : Nat),
    let t := s.applyLaunch ctx who rec_ ks ply
    t.mem = s.mem ∧ t.nextOp = s.nextOp + 1 ∧
    ∃ k, t.coils.find? s.nextOp = some k ∧ k.id = s.nextOp ∧ k.ctx = ctx ∧ k.part = ctx / 16 ∧ k.lrec = rec_ ∧ k.kargs = ks ∧
      k.launcher = who ∧ k.placedCables = 0 ∧ k.endedCables = 0) ∧
  (∀ (n : Nat) (s : State) (k : Coil), s.coils.find? n = some k → k.queued = false → s.depsHold k = true → k.cycle < s.cycle →
    (∀ d ∈ s.coils.vals, d.ctx = k.ctx → d.before k = true → d.queued = false → s.depsHold d = false) →
    (s.ctx k.ctx).queues.length = 8 →
    ∃ t, exec (.launchEnter n) s = .next t ∧ t.coils.find? n = some { k with queued := true } ∧
      (t.ctx k.ctx).queues.getD (recPrio k.lrec) [] = (s.ctx k.ctx).queues.getD (recPrio k.lrec) [] ++ [.coil n] ∧
      ∀ q, q ≠ recPrio k.lrec → (t.ctx k.ctx).queues.getD q [] = (s.ctx k.ctx).queues.getD q []) ∧
  ∀ (uid : Nat) (s : State) (c : Cable), s.cables.find? uid = some c → c.uid = uid → c.isPlaced = true → c.live = [] →
    c.saving = none → c.cmds = [] → (∀ k ∈ c.counters.vals, k.val = 0) → c.cntOps = [] →
    (∀ l ∈ s.posted.vals, ∀ q ∈ l, q.uid ≠ uid) → (∀ k, s.coils.find? c.coil = some k → k.launcher ≠ some uid) →
    (∀ m ∈ s.deliveries, ∀ q, m.taken = some q → q.uid ≠ uid) →
    ∃ t, exec (.cableEnd uid) s = .next t ∧ t.mem = s.mem ∧
      t.cables.find? uid = some { uid := uid, cid := c.cid, part := c.part, ctx := c.ctx, coil := c.coil
                                  lastCore := c.lastCore, state := .ended } ∧
      t.waiters = s.waiters.filter (fun w => w.uid != uid) ∧ ∀ h ∈ (t.ctx c.ctx).handles, ∀ a ∈ h.agents, a.uid ≠ uid

/-! ### Steps of the device (05, 07, 11 to 14, 16, 18, 19) -/

/-- 01 R33 to R35, 07 R191, R198, R203, 16 R376. A tick that is due raises every core's logical time by one, where none would
pass the largest value; a refresh window that is over clears the trackers; an epoch names its golden packet; a page walk that
finds a leaf whose A is set, which allows the access and leads to the partition's memory, fills the TLB, and none writes memory: A
and D are left to the access. A spill stores a register and its poison to its slot, as a store of its strand, and takes
the name away; where no ply of a core can progress, a waiting strand's group goes on after it. -/
def Obligations.TimeAndSpills : Prop :=
  (∀ s : State, s.nextTick ≤ s.cycle → (∀ c < 704, (s.core c).p < maxTime) →
    ∃ t, exec .tick s = .next t ∧ t.nextTick = s.nextTick + s.tickDiv ∧ t.mem = s.mem ∧
      ∀ c < 704, (t.core c).p = (s.core c).p + 1) ∧
  (∀ s : State, s.refreshStart + 96000000 ≤ s.cycle →
    exec .refreshWindow s = .next { s with trackers := [], refreshStart := s.cycle / 96000000 * 96000000 }) ∧
  (∀ s : State, exec .meshEpoch s = .next { s with epoch := s.cycle / 4096, golden := (s.cycle / 4096 % 100, s.cycle / 409600 % 8) }) ∧
  (∀ (core ctx : Nat) (va : W64) (write fetch : Bool) (s : State),
    (∃ t, exec (.pageWalk core ctx va write fetch) s = .next t ∧ t.mem = s.mem ∧ t.psn = s.psn ∧ t.lines = s.lines) ∧
    ∀ lf, (s.ctx ctx).en = true → va.toNat < 2 ^ 60 → va.toNat / 2 ^ 56 % 16 ≠ 15 →
      s.walk va.toNat ((s.ctx ctx).ptbr.toNat) 5 = .ok lf →
      leafAllows lf.pte (if write then .write else if fetch then .fetch else .read) false = true → lf.pte.testBit 5 = true →
      s.checkPhys (ctx / 16) (lf.phys va.toNat) = none →
      exec (.pageWalk core ctx va write fetch) s = .next (s.fillTlb core ctx va.toNat lf)) ∧
  (∀ (s s1 s2 : State) (uid j k n : Nat) (reads : List Nat) (c : Cable) (p : Phys), s.cables.find? uid = some c →
    c.victim j reads = some (k, n) → c.spillSlot k n + 7 < c.spillBaseNow + c.spillSizeNow * 4096 →
    s.slotAt uid (c.spillSlot k n) .write = (s1, some p) → s1.unackFull uid (k / 32) 1 = false →
    s1.acquiring uid [k] = false → p.pa % 128 ≤ 120 →
    let r := (c.strand k).v.getD n {}
    let bytes := (leBytes (r.val.toNat + if r.psn then 2 ^ 32 else 0) 8).map fun b => (b, false)
    s1.bufferStore c.coreD uid [k / 32] (s1.loadsOf uid [k]) p.pa bytes p.esr = some s2 →
    ∃ t, s.spillFor uid j reads = .done t ∧ t.mem = s1.mem ∧
      (∀ i < 8, t.ownByte c.coreD uid [k / 32] (p.pa + i) = bytes[i]?) ∧
      ((t.cable uid).strand k).v.find? n = none ∧ n ∈ ((t.cable uid).strand k).spilled) ∧
  ∀ (core : Nat) (s s1 : State) (uid p j : Nat) (g : Group) (cl : Clause),
    (s.runningOn core).filter (fun e => !e.2.2.2.allocs.1.isEmpty) = [(uid, p, g, cl)] → cl.allocs.1 = [j] →
    s.coreStuck core = true → s.spillWatched uid cl j = none → s.spillFor uid j cl.allocs.2 = .done s1 →
    exec (.spill core) s = .next (s1.updClause uid p g.gid fun cl => { cl with blocked := none, allocs := ([], []) })

/-- The walker instructions that another die answers. -/
def askingOp : Instr → Bool
  | .dist _ => true | .heapPush _ => true | .heapTop _ => true | .heapPop _ => true | .visit _ => true | _ => false

/-- 11 R282 to R286, 12 R305 to R310, 14 R335, R345 to R351. An engine performs a unit of a command that may go on, the copy
engine of a core for its cables in turn; writes of the command that its home slices have still to perform, and for the array
those of its path that wait for their banks, are performed first (07 R184, 08 R231; when is the model's free choice, logs 35
and 135). A command that is over, its writes performed, its records posted and its updates applied, completes with the token
of its table, which reaches its registers, and raises EPT; a `tbfill` cancelled when some of its image has been read leaves its table
register empty (the model's reading of 13 R321, log 56). A search first comes to its control die, which then starts it (the
model's two steps, log 60); a version is committed once it is the next, in a step after the change (the model's reading, log 62); an answer lets a walker's instruction go on (the
model's step, log 65); a walker that has hopped runs at its new stack. -/
def Obligations.EngineSteps : Prop :=
  (∀ (uid cmd : Nat) (s : State) (c : Cable) (m : Cmd), s.engineTurn uid cmd .copy = some (c, m) → m.state ≠ .suspended →
    m.state ≠ .done →
    (m.cancel = false → s.copyNext c.coreD = some uid →
      (m.held ≠ [] → exec (.copyUnit uid cmd) s = .next (s.landCmd uid m)) ∧
      (m.held = [] → exec (.copyUnit uid cmd) s
        = .next ((s.copyTurn uid c m).updCore c.coreD fun k => { k with copyLast := uid }))) ∧
    (((m.cancel = true ∧ m.copyBegun = false) ∨ m.copyOver c = true) → s.recordsWait c (copyIssuer c) = false → s.updatesApplied m = true →
      exec (.copyComplete uid cmd) s = .next (s.finishCmd uid m m.copyToken))) ∧
  (∀ (uid cmd : Nat) (s : State) (c : Cable) (m : Cmd), s.engineTurn uid cmd .la = some (c, m) → c.laFirst = some cmd →
    m.state ≠ .suspended →
    (m.cancel = false → m.progress < m.laTotal →
      (m.held ≠ [] → exec (.laUnit uid cmd) s = .next (s.landCmd uid m)) ∧
      (m.held = [] → exec (.laUnit uid cmd) s = .next (if c.late = [] then s.laTurn uid c m else
        let s1 := s.landPath uid .la
        s1.laTurn uid (s1.cable uid) m))) ∧
    ((m.cancel = true ∨ m.laTotal ≤ m.progress) → s.recordsWait c (laIssuer c) = false → s.updatesApplied m = true →
      let ended := fun s : State => (s.updCable uid fun c => c.orLaFlags (m.flags.setWidth 32)).finishCmd uid m m.laToken
      ((∀ f, m.instr ≠ .tbfill f) ∨ m.progress = 0 ∨ imageBytes ≤ m.progress → exec (.laComplete uid cmd) s = .next (ended s)) ∧
      ∀ f, m.instr = .tbfill f → 0 < m.progress → m.progress < imageBytes →
        exec (.laComplete uid cmd) s = .next (ended (s.updCable uid fun c => c.setTable m.table {})))) ∧
  (∀ m : Cmd, m.copyToken.toNat % 2 ^ 30 = m.written / 4 % 2 ^ 30 ∧ m.copyToken.getLsbD 30 = m.psn ∧
    m.copyToken.getLsbD 31 = m.cancel ∧ m.laToken.toNat % 2 ^ 16 = m.progress % 2 ^ 16 ∧ m.laToken.getLsbD 29 = m.rb ∧
    m.laToken.getLsbD 30 = m.ixr ∧ m.laToken.getLsbD 31 = m.psn) ∧
  (∀ (s : State) (uid : Nat) (m : Cmd) (token : W32) (c : Cable), s.cables.find? uid = some c →
    let t := s.finishCmd uid m token
    t.mem = s.mem ∧ (c.state ≠ .ended → (t.cable uid).ept = c.ept.modify (m.path.code - 1) (max m.wmax)) ∧
    (∀ key ∈ m.tok, (key, m.id) ∉ (t.cable uid).board) ∧
    (m.ce = false → ∀ k ∈ (t.cable uid).cmds, k.id ≠ m.id) ∧ (∀ v, v ≠ uid → t.cable v = s.cable v) ∧
    (c.state ≠ .ended → (∀ e ∈ c.plies, ∀ g ∈ e.2.groups, g.clause = none) → ∀ p n, .s p n ∈ m.tok → (c.plies.find? p).isSome = true →
      (((t.cable uid).ply p).s.find? n) = some { val := token, psn := false })) ∧
  (∀ (uid cmd : Nat) (s : State) (c : Cable) (m : Cmd), s.srchTurn uid cmd = some (c, m) →
    (m.srch.started = false → m.srch.finished = false → m.cancel = false →
      (m.srch.arrived = 0 → exec (.srchStart uid cmd) s
        = .next (s.updSrch uid cmd fun k => { k with arrived := s.stepCount + 1 })) ∧
      (m.srch.arrived ≠ 0 → exec (.srchStart uid cmd) s = .next (s.startSrch uid c m))) ∧
    (m.srchOp = .ins ∨ m.srchOp = .del → m.srch.started = true → m.srch.finished = false →
      (s.descAt m.srch.desc).ver + 1 = m.srch.version →
      let d := s.descAt m.srch.desc
      exec (.versionCommit uid cmd) s
        = .next (((s.descWrite uid m.id d.at_ (m.srch.version + d.next * 2 ^ 32) 8).setLow uid m.id d.at_).updSrch uid m.id
            fun k => { k with finished := true })) ∧
    (m.srch.finished = true → exec (.srchFinish uid cmd) s = .next (s.closeSrch uid m))) ∧
  (∀ (uid cmd w : Nat) (s : State) (c : Cable) (m : Cmd) (k : Walker) (cl : Clause) (key : W32) (i : Instr),
    s.srchTurn uid cmd = some (c, m) → s.walker? uid cmd w = some k → k.state = .asking key → k.clause = some cl →
    decodeWord cl.hdr.cls cl.word = .ok i → askingOp i = true →
    ∃ t, exec (.walkerReply uid cmd w) s = .next t ∧ exec i { s.updWalker uid cmd w fun x =>
      { x with state := .run, answered := true } with cur := .walker uid cmd w } = .next t) ∧
  ∀ (uid cmd w st : Nat) (s : State) (c : Cable) (m : Cmd) (k : Walker), s.srchTurn uid cmd = some (c, m) →
    s.walker? uid cmd w = some k → k.state = .hopping st →
    let d := s.descAt m.srch.desc
    ∃ t, exec (.hopArrival uid cmd w) s = .next t ∧ State.OnlyCable uid s t ∧ ∃ x, t.walker? uid cmd w = some x ∧
      x.stack = st ∧ x.state = .run ∧ x.latch = none ∧ x.m = k.m ∧ x.count = k.count ∧
      (x.s.find? 30).map (fun r => r.val) = some (BitVec.ofNat 64 d.recSize) ∧
      (x.s.find? 31).map (fun r => r.val) = some (BitVec.ofNat 64 (s.shardBase d st)) ∧
      ∀ n < 16, x.s.find? n = k.s.find? n

/-- 05 R152, R153, 16 R379, 19 R432 to R434. A placement serves the first head that fits. A save that is ready writes its slot and
puts the cable away. A power window within the limit ends shedding; an eleventh one over it saves the cable that is shed;
then the migrations that found no slot are tried again (this order is the model's, log 145), none where no core has one. A
core at MIG migrates its cable where there is a core for it. A device save makes the record of a preemption of its cable in the same
cycle, which was to say that no slot was free or mapped, that of a cable being saved (R435). A section of an idle core that serves no L1 way with a copy is
gated after GIDLE (that a way in use is one with a copy is read from the rule, log 20), and one that has woken is awake. -/
def Obligations.PlacementAndPower : Prop :=
  (∀ (part : Nat) (s : State) (prio ctx k : Nat) (q : QItem) (rest : List (Nat × Nat × QItem)) (r : List W64) (c : Option Cable),
    s.ready = true → part < 16 → (s.part part).en = true → s.pwrShed = false → s.heads part = (prio, ctx, q) :: rest →
    s.headOf q = some (r, c) → s.bestCore part (fun k => s.mayTake c k && s.fits k r) = some k →
    exec (.placement part) s = .next ((s.placeHead q k).popHead prio ctx q)) ∧
  (∀ (s : State) (id core : Nat) (k : Coil), s.coils.find? id = some k →
    let t := s.placeNew id core
    t.mem = s.mem ∧ t.nextUid = s.nextUid + 1 ∧ t.coils.find? id = some { k with placedCables := k.placedCables + 1 } ∧
    ∃ c, t.cables.find? s.nextUid = some c ∧ c.state = .placed core ∧ c.lrec = k.lrec ∧ c.ctx = k.ctx ∧ c.lin = k.placedCables ∧
      c.cid = (s.part k.part).cidNext ∧ c.priv = BitVec.ofNat 2 (recPriv k.lrec) ∧
      ∀ j < 32 * recPlies k.lrec, (c.strand j).live = true ∧ (c.strand j).v = [] ∧ (c.strand j).fflags = 0) ∧
  (∀ (uid : Nat) (s : State) (v : Saving),
    let s0 := s.postUnsaved uid
    let s1 := s0.drainPlies uid (List.range (s0.cable uid).plyCount)
    let s2 := s1.landCable uid
    let c := s2.cable uid
    (s0.cable uid).saving = some v → (s0.cable uid).isPlaced = true → s1.saveReady (s1.cable uid) = true →
    exec (.saveComplete uid) s = .next (((s2.writeSlot c.part c.slotMap (slotPieces c (s2.core c.coreD).p
      ((s2.waiters.filter fun w => w.uid == uid && w.status.isNone).map Waiter.strand))).putAway c v).afterSave c v)) ∧
  (∀ (s : State) (c : Cable) (v : Saving), s.cables.find? c.uid = some c →
    let t := s.putAway c v
    (t.cable c.uid).state = .saved v.slot v.device ∧ (t.cable c.uid).saving = none ∧ t.mem = s.mem ∧
    (∀ w ∈ t.waiters, w.uid ≠ c.uid) ∧ ∀ u, u ≠ c.uid → t.cable u = s.cable u) ∧
  (∀ (watts : Nat) (s : State), s.nextWindow ≤ s.cycle → watts < 8192 → s.boot ≠ .failed →
    (watts ≤ s.pwrLimit → exec (.powerWindow watts) s = .next (State.migrateAgain
      { s with nextWindow := s.nextWindow + 3000000, pwrWatts := watts, pwrOver := 0, pwrShed := false })) ∧
    (s.pwrLimit < watts → s.pwrOver < 10 → exec (.powerWindow watts) s = .next (State.migrateAgain
      { s with nextWindow := s.nextWindow + 3000000, pwrWatts := watts, pwrOver := s.pwrOver + 1 })) ∧
    ∀ c, s.pwrLimit < watts → 10 ≤ s.pwrOver → s.shedVictim = some c →
      let s1 := { s with nextWindow := s.nextWindow + 3000000, pwrWatts := watts }
      exec (.powerWindow watts) s = .next (State.migrateAgain { (s1.deviceSave c.uid none true).1 with pwrShed := true })) ∧
  (∀ (s : State) (uid : Nat) (to_ : Option Nat) (again : Bool) (u : Unsaved), u ∈ s.unsaved →
    (s.deviceSave uid to_ again).2 = true →
    (if u.uid = uid ∧ u.at_ = s.cycle then { u with addr := 0, detail := 3 } else u) ∈ (s.deviceSave uid to_ again).1.unsaved) ∧
  (∀ (watts : Nat) (s : State), s.nextWindow ≤ s.cycle → s.boot = .failed →
    exec (.powerWindow watts) s = .next { s with nextWindow := s.nextWindow + 3000000 }) ∧
  (∀ s : State, ((∀ k < 704, (s.core k).migrating = false) → s.migrateAgain = s) ∧
    ∀ core < 704, (s.core core).migrating = true → (∀ k, k ≠ core → (s.core k).migrating = false) →
      s.coreTemps.getD core 0 < s.thermMig → s.migrateAgain = s.updCore core fun x => { x with migrating := false }) ∧
  (∀ (core temp : Nat) (temps : List Nat) (s : State),
    let s1 := { s with coreTemps :=
      (((List.range temps.length).zip temps).foldl (fun (m : SMap Nat) e => m.insert e.1 e.2) s.coreTemps).insert core temp }
    (temp < s.thermMig → exec (.thermalMigration core temp temps) s = .next s1) ∧
    ∀ c k s2, s.thermMig ≤ temp → core < 704 → s1.migrant core = some c → (s1.core core).lastMigration = none →
      s1.coolest c core = some k → s1.deviceSave c.uid (some k) false = (s2, true) →
      exec (.thermalMigration core temp temps) s
        = .next (s2.updCore core fun x => { x with lastMigration := some s.clock, migrating := false })) ∧
  (∀ (core n : Nat) (s : State), core < 704 → n < 10 → (s.placedOn core).isEmpty = true →
    (s.core core).idleSince + s.thermGidle * 1000 ≤ s.clock → (s.core core).waking.contains n = false →
    exec (.gateIdle core n) s = .next (if (s.core core).l1.any (fun e => e.2.way == n) then s
      else s.updCore core fun k => { k with gated := setInsert n k.gated })) ∧
  ∀ (core n : Nat) (s : State), (s.core core).waking.contains n = true →
    exec (.powerWakeComplete core n) s
      = .next (s.updCore core fun k => { k with waking := setErase n k.waking, gated := setErase n k.gated })

/-- 18 R399 to R408, R420, R423. A fibre serves each of its slots once; the flits of a block's corrected codewords are taken in
order; a message for another module is relayed once (R402; the bound of one hop is the model's, log 126). A request of another
module is performed at the home slices, unless it has grown too old while it waited (R403; log 123), and answered once its
updates are applied (07 R208), or refused with the detail of its first defect (before firmware has put the module in service
no partition is bound to its domain: the model's choice, log 124); an answer in time settles the message it answers, and one
that does not come in time is lost; a command whose parts are done and whose messages have left completes. A port that does
not answer goes offline, and the flushes that wait there end with it (the model's choice, log 159); its link that trains again has a width; a flush that completes clears its busy bit and leaves no
line of the port dirty. -/
def Obligations.FabricAndPorts : Prop :=
  (∀ (fibre : Nat) (relays : List (Nat × Nat × Nat)) (s : State), fibre < 48 → s.ready = true →
    s.fibreSlot.getD fibre 0 ≤ s.cycle / 15000 →
    exec (.fabricSlot fibre relays) s
      = .next { s.serveSlot fibre relays with fibreSlot := s.fibreSlot.insert fibre (s.cycle / 15000 + 1) }) ∧
  (∀ (fibre : Nat) (header flits check : List Nat) (s : State), fibre < 48 → header.length = 8 → flits.length = 2048 →
    check.length = 120 →
    let block := fecDecode (codewords (header ++ flits) check)
    exec (.fecBlockReceive fibre header flits check) s
      = .next ((blockFlits block.1).foldl (fun t f => t.takeFlit fibre (!block.2) f) s) ∧ (blockFlits block.1).length = 10) ∧
  (∀ (s : State) (h : NetHead) (data : List (Byte × Bool)), h.dst ≠ s.fabId →
    s.arriveMsg h data = if h.hops = 0 ∧ h.age < h.limit ∧ s.relayRoom h = true then
      { s with relayed := s.relayed ++ [{ head := { h with hops := h.hops + 1, age := h.age + 1 }, data := data, at_ := s.cycle }] }
      else s) ∧
  (∀ (n : Nat) (s : State) (m : InMsg), s.inMsgs.find? (fun m => m.id == n) = some m → m.performed = none →
    m.head.age + (s.cycle - m.at_ + 2999) / 3000 < m.head.limit →
    (s.ready = false ∨ s.domainPart m.head.dom = none → ∃ (t : State) (o : OutMsg), exec (.peerAccessTarget n) s = .next t ∧
      t.outMsgs = s.outMsgs ++ [o] ∧ o.head.op = .ack (some 2) ∧ o.head.mseq = m.head.mseq ∧ t.mem = s.mem) ∧
    (∀ part d, s.ready = true → s.domainPart m.head.dom = some part → (∀ a b c, m.head.op ≠ .coll a b c) →
      s.refusal part m.head.off (netReach m.head.op) = some d →
      ∃ (t : State) (o : OutMsg), exec (.peerAccessTarget n) s = .next t ∧ t.outMsgs = s.outMsgs ++ [o] ∧
        o.head.op = .ack (some d) ∧ o.head.mseq = m.head.mseq ∧ t.mem = s.mem) ∧
    ∀ part, s.ready = true → s.domainPart m.head.dom = some part → (∀ a b c, m.head.op ≠ .coll a b c) →
      s.refusal part m.head.off (netReach m.head.op) = none →
      let r := s.performRemote part m.head m.data
      (r.2.2 = [] → ∃ (t : State) (o : OutMsg), exec (.peerAccessTarget n) s = .next t ∧ t.mem = r.1.mem ∧
        t.outMsgs = r.1.outMsgs ++ [o] ∧ o.head.op = .ack none ∧ o.head.mseq = m.head.mseq ∧ o.data = r.2.1) ∧
      (r.2.2 ≠ [] → exec (.peerAccessTarget n) s = .next { r.1 with inMsgs := r.1.inMsgs.map fun x =>
        if x.id = m.id then { x with performed := some (part, r.2.1, r.2.2) } else x })) ∧
  (∀ (n : Nat) (s : State) (m : InMsg) (part : Nat) (data : List (Byte × Bool)) (us : List (Nat × Nat)),
    s.inMsgs.find? (fun m => m.id == n) = some m → m.performed = some (part, data, us) →
    ((∃ u ∈ us, s.applied (some u) = false) → exec (.peerAccessTarget n) s = .next s) ∧
    ((∀ u ∈ us, s.applied (some u) = true) → ∃ (t : State) (o : OutMsg), exec (.peerAccessTarget n) s = .next t ∧ t.mem = s.mem ∧
      t.outMsgs = s.outMsgs ++ [o] ∧ o.head.op = .ack none ∧ o.head.mseq = m.head.mseq ∧ o.data = data ∧
      ∀ x ∈ t.inMsgs, x.id ≠ n)) ∧
  (∀ (n : Nat) (s : State) (o : OutMsg), s.sentMsg n = some o →
    (∀ (refused : Option Nat) (data : List Byte) (psn : Bool), exec (.peerAck n refused data psn) s
      = .next (if o.sentAt.any fun t => t + s.fabTmo * 3000 ≤ s.cycle then s
        else s.settleMsg o (match refused with | some d => .refused d | none => .done (data.map fun b => (b, psn))))) ∧
    ∀ t, o.sentAt = some t → t + s.fabTmo * 3000 ≤ s.cycle → exec (.messageLost n) s = .next (s.settleMsg o .lost)) ∧
  (∀ (uid cmd : Nat) (l : List Contribution) (s : State) (c : Cable) (m : Cmd), s.engineTurn uid cmd .fab = some (c, m) →
    m.state ≠ .done → m.state ≠ .suspended → m.cancel = false →
    (m.fabOp.collective = false → m.fabTotal ≤ m.progress → exec (.fabComplete uid cmd l) s = .next (s.closeFab uid cmd)) ∧
    ∀ q mine, m.fabOp.collective = true → m.fail = false → m.fabTotal ≤ m.progress → s.instanceOf uid cmd = some q → q.got = [mine] →
      q.completeWith l = true → (∀ o ∈ s.outMsgs, o.cmd = some (uid, cmd) → o.sentAt.isSome = true) →
      exec (.fabComplete uid cmd l) s
        = .next ((s.updInstance uid cmd fun q => { q with got := q.got.take 1 ++ l }).finishCollective uid m q l)) ∧
  (∀ (port : Nat) (s : State), port < 2 → (s.port port).online = true →
    (s.overdue port = true → exec (.cxlCompletionTimeout port) s = .next (s.goOffline port 36 fun w => w)) ∧
    ((port = 0 → (s.port 0).mode ≠ 1) → exec (.cxlLinkDown port) s = .next (s.goOffline port 35 fun _ => 0)) ∧
    (s.ports.length = 2 → ∀ cause width, ((s.goOffline port cause width).port port).online = false ∧
      ((s.goOffline port cause width).port port).width = width (s.port port).width ∧
      ((s.goOffline port cause width).port port).gpf = [])) ∧
  (∀ (port ctx : Nat) (rest : List Nat) (s : State), port < s.ports.length → (s.port port).gpf = ctx :: rest →
    ∃ t, exec (.gpfComplete port) s = .next t ∧ (t.port port).gpf = rest ∧ t.mem = s.mem ∧
      (t.ctx ctx).gpfBusy = (s.ctx ctx).gpfBusy &&& ~~~((1 : BitVec 2) <<< port) ∧
      ∀ e ∈ t.lines, onPort port (e.1 * 128) = true → e.2.dirty = false) ∧
  ∀ (port : Nat) (s : State), s.boot = .run → s.fwLaunch = none → port < s.ports.length →
    exec (.portOnline port) s = .next (s.trainedPort port) ∧ ((s.trainedPort port).port port).online = true ∧
    ((s.port port).online = false → 2 ≤ ((s.trainedPort port).port port).width ∧ ((s.trainedPort port).port port).width ≤ 4)

/-- 16 R369, R370. An answer to a record is accepted where its action is one of Tables 16.1 and 18.6 for the cause, and closes
the record; otherwise only RESULT changes: 1 for a handle that is not there, 2 for an action that is not accepted. What it
resumes observes what its writer observes (17 R390): the logical times of its cores rise to the writer's, the pages of the
record are translated anew, and what its copy commands have written has landed. For an answer that no cable writes, the writer's time is that of the context's placed cables (the
model's choice, log 122). A handle whose record has reached an event page is answered by an answer request alone (19 R441); that
another writer finds it as one that is not there is the model's choice (log 146). -/
def Obligations.ResumesAnswer : Prop :=
  (∀ (ctx h : Nat) (s : State), h < 2 ^ 32 → (s.ctx ctx).en = true →
    exec (.resumeRetry ctx h) s = .next (s.writeResumeAt ctx (BitVec.ofNat 64 h) (s.observedIn ctx)) ∧
    exec (.resumeSkip ctx h) s = .next (s.writeResumeAt ctx (BitVec.ofNat 64 (h + 2 ^ 32)) (s.observedIn ctx)) ∧
    exec (.resumeTerminate ctx h) s = .next (s.writeResumeAt ctx (BitVec.ofNat 64 (h + 2 * 2 ^ 32)) (s.observedIn ctx)) ∧
    exec (.resumeCancel ctx h) s = .next (s.writeResumeAt ctx (BitVec.ofNat 64 (h + 3 * 2 ^ 32)) (s.observedIn ctx)) ∧
    (∀ n < 2 ^ 24, exec (.resumeRetrySpill ctx h n) s
      = .next (s.writeResumeAt ctx (BitVec.ofNat 64 (h + 4 * 2 ^ 32 + n * 2 ^ 40)) (s.observedIn ctx))) ∧
    ∀ a, 5 ≤ a → a ≤ 15 → exec (.resumeActionReserved ctx h a) s
      = .next (s.writeResumeAt ctx (BitVec.ofNat 64 (h + a * 2 ^ 32)) (s.observedIn ctx))) ∧
  (∀ (s : State) (ctx time : Nat) (v : W64),
    let a := v.toNat / 2 ^ 32 % 16
    let t := s.resumeSees ctx v time
    let shut := (s.handle? ctx (v.toNat % 2 ^ 32)).any fun k => k.atEvent && decide (a ≤ 4)
    (shut = true → s.writeResumeAt ctx v time = s.giveResult ctx v 1 ∧
      ((s.ctx ctx).en = true → ((s.giveResult ctx v 1).ctx ctx).resume.toNat / 2 ^ 36 % 16 = 1)) ∧
    (shut = false → s.writeResumeAt ctx v time = t.writeResume ctx v) ∧
    t.mem = s.mem ∧ (∀ c, t.ctx c = s.ctx c) ∧
    (¬ (a = 0 ∨ a = 4) → t = s) ∧
    ∀ k, s.handle? ctx (v.toNat % 2 ^ 32) = some k → a = 0 ∨ a = 4 → (causeActions k.cause k.engine).contains a = true →
      (∀ u ∈ k.uids, ∀ core, (s.cable u).core? = some core → (t.core core).p = max (s.core core).p time ∧
        (∀ p ∈ k.page.toList ++ k.pages, t.findTlb core ctx (4096 * p) = none) ∧ ∀ w ∈ (t.cable u).late, w.path ≠ .copy) ∧
      ∀ core, (∀ u ∈ k.uids, (s.cable u).core? ≠ some core) → (t.core core).p = (s.core core).p) ∧
  (∀ (s : State) (uid strand : Nat) (v : W64), (s.ctx (s.cable uid).ctx).en = true →
    s.writeReg uid strand 0x185 v true = s.writeResumeAt (s.cable uid).ctx v (s.observed uid)) ∧
  ∀ (s : State) (ctx : Nat) (v : W64),
    let a := v.toNat / 2 ^ 32 % 16
    let t := s.writeResume ctx v
    let result := fun (t : State) => (t.ctx ctx).resume.toNat / 2 ^ 36 % 16
    (4 < a → result t = 2 ∧ t.mem = s.mem ∧ t.cables = s.cables) ∧
    (a ≤ 4 → s.handle? ctx (v.toNat % 2 ^ 32) = none → result t = 1 ∧ t.mem = s.mem ∧ t.cables = s.cables) ∧
    ∀ k, a ≤ 4 → s.handle? ctx (v.toNat % 2 ^ 32) = some k →
      (((causeActions k.cause k.engine).contains a = false ∨ (a = 1 ∧ k.atHeader = true)) →
        result t = 2 ∧ t.mem = s.mem ∧ t.cables = s.cables) ∧
      ((causeActions k.cause k.engine).contains a = true → ¬ (a = 1 ∧ k.atHeader = true) → result t = 0 ∧
        ∃ u, u = s.answer ctx k a (v.toNat / 2 ^ 40) ∧ t.cables = u.cables ∧ t.mem = u.mem)

/-- 16 R365, R374 to R383, 18 R422, R423. The registers of an enabled context: a read after a write gives what the register keeps;
`CTX_FQ_CTL` moves HEAD forward and never past TAIL, `CTX_NOTIFY` sends its vector (the list of vectors sent is the model's,
log 97), `CTX_GPF` starts flushes, which a port serves in turn (log 144); reading `CTX_FQ_TAIL` is an acquire. A preemption begins
a save in the lowest free slot, or posts cause 26 with the reason of R378 why not; where there is no free slot, or none that is
mapped, the record waits for the end of its cycle, in which a device save may still take its place (19 R435; that the collector
posts it at its next turn for the cable is the model's, log 162). A restore queues the cable of its slot. -/
def Obligations.ContextRegisters : Prop :=
  (∀ (s : State) (ctx : Nat) (v : W64), (s.ctx ctx).en = true →
    (s.writeCtx ctx 0x180 v).readCtx ctx 0x180 = max 2000 (v.toNat % 2 ^ 24) ∧
    (s.writeCtx ctx 0x181 v).readCtx ctx 0x181 = max 1 (v.toNat % 2 ^ 8) ∧
    (s.writeCtx ctx 0x182 v).readCtx ctx 0x182 = v.toNat % 2 ^ 60 / 2 ^ 12 * 2 ^ 12 ∧
    (s.writeCtx ctx 0x186 v).readCtx ctx 0x186 = v.toNat % 2 ^ 48 / 2 ^ 12 * 2 ^ 12 ∧
    (s.writeCtx ctx 0x188 v).readCtx ctx 0x188 = v.toNat % 2 ^ 60 / 2 ^ 22 * 2 ^ 22 ∧
    (s.writeCtx ctx 0x18F v).readCtx ctx 0x18F = v.toNat % 2) ∧
  (∀ (s : State) (ctx n : Nat) (v : W64), (s.ctx ctx).en = false → s.readCtx ctx n = 0 ∧ s.writeCtx ctx n v = s) ∧
  (∀ (ctx : Nat) (s : State), (s.ctx ctx).en = true →
    (∀ v, exec (.ctxTlbinv ctx v) s = .next (s.tlbInvalidate ctx v)) ∧
    (∀ v : W32, ∃ t, exec (.ctxFqCtl ctx v) s = .next t ∧
      ((s.ctx ctx).fqWaiting = [] → t.mem = s.mem ∧
        (t.ctx ctx).fqHead = if ((v.setWidth 16) - (s.ctx ctx).fqHead).toNat ≤ ((s.ctx ctx).fqTail - (s.ctx ctx).fqHead).toNat
          then v.setWidth 16 else (s.ctx ctx).fqHead)) ∧
    (∀ v : W32, exec (.ctxNotify ctx v) s = .next { s with msix := s.msix ++ [v.toNat % 2 ^ 11] }) ∧
    (∀ v : W32, ∃ t, exec (.ctxGpfStart ctx v) s = .next t ∧ t.mem = s.mem ∧ ∀ n < 2, s.ports.length = 2 →
      (t.port n).gpf = if v.getLsbD n = true ∧ (s.port n).mode = 2 ∧ (s.port n).online = true ∧ ctx ∉ (s.port n).gpf
        then (s.port n).gpf ++ [ctx] else (s.port n).gpf) ∧
    (∀ cid c i s1 map, s.cableOf ctx (cid % 2 ^ 24) = some c → c.saving = none → c.isPlaced = true →
      freeSlot (s.ctx ctx).slots (s.ctx ctx).nslot = some i → s.mapSlot ctx ((s.ctx ctx).slotVa i) = some (s1, map) →
      exec (.ctxPreempt ctx cid) s = .next (s1.beginSave c.uid map { slot := i, device := false })) ∧
    (∀ cid, let n := cid % 2 ^ 24
      let c := s.cableOf ctx n
      let core := (c.map Cable.lastCore).getD 0
      let free := freeSlot (s.ctx ctx).slots (s.ctx ctx).nslot
      let va := (s.ctx ctx).slotVa (free.getD 0)
      let report := fun addr detail => exec (.ctxPreempt ctx cid) s = .next (s.postCollector ctx core 26 n addr detail c)
      (c = none → report 0 2) ∧
      (c.any (fun c => c.saving.isSome || !c.isPlaced) = true → report 0 3) ∧
      (c.any (fun c => c.saving.isNone && c.isPlaced) = true →
        let later := fun addr detail => ∀ d, c = some d → exec (.ctxPreempt ctx cid) s = .next { s with
          unsaved := s.unsaved ++ [{ ctx := ctx, uid := d.uid, addr := addr, detail := detail, at_ := s.cycle }] }
        (free = none → later 0 1) ∧ (free.isSome = true → s.mapSlot ctx va = none → later va 4))) ∧
    ∀ slot uid, (s.ctx ctx).slots.find? (slot % 2 ^ 16) = some uid → exec (.ctxRestore ctx slot) s = .next (s.requeue uid)) ∧
  (∀ (s : State) (uid : Nat), let c := s.cable uid
    ((∀ u ∈ s.unsaved, u.uid = uid → s.cycle ≤ u.at_) → s.postUnsaved uid = s) ∧
    ∀ u, s.unsaved = [u] → u.uid = uid → u.at_ < s.cycle → s.postUnsaved uid
      = State.postCollector { s with unsaved := [] } u.ctx c.lastCore 26 c.cid u.addr u.detail (some c)) ∧
  (∀ (uid : Nat) (s : State) (core : Nat), (s.cable uid).core? = some core →
    ∃ t, exec (.ctxFqTailRead uid) s = .next t ∧ t.mem = s.mem ∧
      (t.core core).p = max (s.core core).p (s.ctx (s.cable uid).ctx).fqW) ∧
  ∀ (s : State) (uid n : Nat) (d : Bool) (c : Cable), s.cables.find? uid = some c → c.state = .saved n d →
    (s.ctx c.ctx).queues.length = 8 →
    ((s.requeue uid).cable uid).state = .requeued n d ∧
    ((s.requeue uid).ctx c.ctx).queues.getD c.prio [] = (s.ctx c.ctx).queues.getD c.prio [] ++ [.restore uid]

/-- 19 R424. What ends everything but the contents of nodes 2 and 3 and the fuses: a reset by firmware, power, a hot reset or the
loss of port 0 as a host link, a temperature at the trip point. Every other part of the state is as after reset; the dirty lines
of the caches are lost, so that their bytes in nodes 2 and 3 are those that the devices there hold. -/
def Obligations.ResetsDiscard : Prop :=
  ∀ (i : Instr) (s : State), s.mem.wf →
    (i = .powerOn ∨ (i = .devReset ∧ s.boot = .run) ∨ ((i = .port0HotReset ∨ i = .cxlLinkDown 0) ∧ (s.port 0).mode = 1) ∨
      ∃ temp, i = .thermalTrip temp ∧ s.thermTrip ≤ temp) →
    ((∀ e ∈ s.lines, e.2.far = none) → s.dropDirty = s) ∧
    (∀ l bytes psn, (s.lines.getD l {}).far = some (bytes, psn) → ∀ a, (s.revertLine l).mem.read a =
      if l * 128 ≤ a ∧ a < l * 128 + bytes.length then bytes.getD (a - l * 128) 0 else s.mem.read a) ∧
    ∃ t, exec i s = .next t ∧ t.mem.wf ∧ (∀ a, t.mem.read a = if 0x100000000000 ≤ a then s.dropDirty.mem.read a else 0) ∧
      t = { State.reset with agenda := s.agenda, stepCount := s.stepCount, mem := t.mem, psn := t.psn, svn := s.svn } ∧
      ∀ g, g ∈ t.psn ↔ g ∈ s.dropDirty.psn ∧ 0x10000000000 ≤ g

/-- 19 R425 to R429, 18 R421. SCRUB ends in AWAIT with port 0 as trained; BOOT_DOOR verifies the staged image once; LOAD copies its
body and starts the controller; in RUN firmware makes the module ready; the host reads the state, the error and READY in
BOOT_STATUS at offset 0 of BAR 0. A report carries the nonce, the measurement, the image's version and the fused version, at most the image's (that the
field is so bounded is the model's choice, log 160). The host writes
what is exposed to it, and reads it; elsewhere it reads ones with poison. -/
def Obligations.BootAndHost : Prop :=
  (∀ (trained : Bool) (width : Nat) (s : State), s.boot = .scrub → s.ports.length = 2 → width < 8 →
    ∃ t, exec (.scrubComplete trained width) s = .next t ∧ t.boot = .await ∧ t.mem = s.mem ∧ (t.port 0).mode = 1 ∧
      (t.port 1).mode = 0 ∧ (t.port 0).online = ((s.port 0).online || trained) ∧
      (t.port 0).width = if trained then width else (s.port 0).width) ∧
  (∀ (s : State), s.boot = .await ∨ s.boot = .failed → exec (.bootDoor 1) s
    = .next { s with boot := if s.verifyImage = 0 then .load else .failed, bootError := s.verifyImage }) ∧
  (∀ (s : State), s.boot = .load → s.mem.wf →
    let body := s.mem.readN (0xFC0000000 + 0x25400000 + 0x8000) (leNat (s.mem.readN (0xFC0000000 + 0x25400000 + 0x08) 8))
    ∃ t, exec .firmwareLoad s = .next t ∧ t.boot = .run ∧
      ∀ a, t.mem.read a = if 0xFC0000000 + 0x21400000 ≤ a ∧ a < 0xFC0000000 + 0x21400000 + body.length then
        body.getD (a - (0xFC0000000 + 0x21400000)) 0 else s.mem.read a) ∧
  (∀ (s : State), s.boot = .run → s.ready = false → ∃ t, exec .firmwareLoad s = .next t ∧ t.ready = true ∧ t.mem = s.mem ∧
    t.cables = s.cables) ∧
  (∀ s : State, (∀ i < 4, s.bar0 i = some (BitVec.ofNat 8 (s.bootStatus.toNat / 2 ^ (8 * i)))) ∧
    s.bootStatus.toNat / 2 ^ 28 = (match s.boot with
      | .scrub => 0 | .await => 1 | .verify => 2 | .load => 3 | .run => 4 | .failed => 15) ∧
    s.bootStatus.toNat / 2 ^ 20 % 2 ^ 8 = s.bootError % 2 ^ 8 ∧ s.bootStatus.toNat % 2 ^ 20 = if s.ready then 1 else 0) ∧
  (∀ (nonce : List Byte) (s : State), s.boot = .run → nonce.length = 64 → s.svn ≤ 64 → s.imageSvn < 2 ^ 32 →
    ∃ t, exec (.attestationRequest nonce) s = .next t ∧ t.attDone = true ∧ t.nonce = nonce ∧
      (t.attReport.take 64 = nonce) ∧ ((t.attReport.drop 64).take 48 = leBytes s.measured 48) ∧
      leNat ((t.attReport.drop 0x70).take 4) = s.imageSvn ∧ leNat ((t.attReport.drop 0x74).take 4) = min s.svn s.imageSvn) ∧
  (∀ (off : Nat) (bytes : List Byte) (s : State) (pa : Nat), s.hostThere = true → bytes ≠ [] →
    (∀ i < bytes.length, (s.hdm (off + i)).isSome = true) → s.hdm off = some pa → s.mem.wf →
    ∃ t, exec (.hostMemWrite off bytes) s = .next t ∧
      ∀ a, (∀ p, p ∈ s.ports → p.mboxEn = false) →
        t.mem.read a = if pa ≤ a ∧ a < pa + bytes.length then bytes.getD (a - pa) 0 else s.mem.read a) ∧
  ∀ (off n : Nat) (s : State), s.hostThere = true →
    (∀ pa, (∀ i < n, (s.hdm (off + i)).isSome = true) → s.hdm off = some pa →
      ∃ t, exec (.hostMemRead off n) s = .next t ∧ t.hostRead.1 = s.mem.readN pa n ∧ t.mem = s.mem) ∧
    ∀ i < n, s.hdm (off + i) = none → exec (.hostMemRead off n) s = .next { s with hostRead := (List.replicate n 0xFF, true) }

/-- 19 R427, R431, R437, R438, R440, R441, 06 R177. Firmware's registers while its controller runs: the version fuses only rise, and
to 64 at most; a partition's configuration and a core's place change only while no cable or context holds them, and the result
says why not (that a core number above 703 is a constraint broken is read from the rule, log 78); a context is enabled,
disabled once nothing of it is left, or terminated; its launch, and its queue's service. A launch that finds its context full
waits, and firmware with it. -/
def Obligations.FirmwareRegisters : Prop :=
  (∀ (s : State) (ctx : Nat) (v : W64) (w : W32), s.boot = .run → s.fwLaunch = some (ctx, v) →
    (s.launchIn ctx (v.toNat / 128 % 2 ^ 53 * 128) = none → exec (.devSvnWrite w) s = .next s) ∧
    ∀ s1 n, s.launchIn ctx (v.toNat / 128 % 2 ^ 53 * 128) = some (s1, n) →
      ∃ t, exec (.devSvnWrite w) s = .next t ∧ t.fwLaunch = none ∧ t.ctxResult = n ∧ t.mem = s1.mem ∧ t.coils = s1.coils) ∧
  ∀ s : State, s.boot = .run → s.fwLaunch = none →
    (∀ v : W32, exec (.devSvnWrite v) s = .next { s with svn := max s.svn (min 64 (v.toNat % 128)) }) ∧
    (∀ v : W64, s.partBusy s.partSel = true → exec (.devPartCfgWrite v) s = .next { s with partResult := 1 }) ∧
    (∀ v : W64, s.partBusy s.partSel = false →
      let new := fun q : Partition => { q with
        en := v.getLsbD 63, domain := v.toNat / 2 ^ 56 % 16, hbm := v.toNat / 2 ^ 49 % 128
        ways := BitVec.ofNat 16 (v.toNat / 2 ^ 32), fab := v.toNat / 2 ^ 24 % 128 }
      let ok := partsOk ((List.range 16).map fun i => if i = s.partSel then new (s.part i) else s.part i)
      (ok = false → exec (.devPartCfgWrite v) s = .next { s with partResult := 2 }) ∧
      (ok = true → ∃ t, exec (.devPartCfgWrite v) s = .next t ∧ t.partResult = 0 ∧ t.mem = s.mem ∧
        (t.part s.partSel).en = v.getLsbD 63 ∧ (t.part s.partSel).domain = v.toNat / 2 ^ 56 % 16 ∧
        (t.part s.partSel).ways = BitVec.ofNat 16 (v.toNat / 2 ^ 32))) ∧
    (∀ v : W64,
      let core := v.toNat / 2 ^ 32 % 1024
      let busy := (v.getLsbD 4 && s.partBusy (v.toNat % 16)) || (match s.corePart core with | some p => s.partBusy p | none => false)
      ∃ t, exec (.devCoreMapWrite v) s = .next t ∧ t.mem = s.mem ∧
        t.partResult = (if 704 ≤ core then 2 else if busy then 1 else 0) ∧
        t.coreMap = (if core < 704 ∧ busy = false then s.coreMap.insert core (v.toNat % 32) else s.coreMap) ∧
        t.coreMapReg = if core < 704 ∧ busy = false then BitVec.ofNat 64 (core * 2 ^ 32) else s.coreMapReg) ∧
    (∀ (en term : Bool) (i : Instr), (i, en, term) ∈ [(Instr.ctxEnable, true, false), (.ctxDisable, false, false), (.ctxTerm, true, true)] →
      exec i s = .next { (s.configCtx s.ctxSel en term).1 with ctxResult := (s.configCtx s.ctxSel en term).2 }) ∧
    (∀ ctx, (s.ctx ctx).en = false → (s.part (ctx / 16)).en = true →
      (s.configCtx ctx true false).2 = 0 ∧ ((s.configCtx ctx true false).1.ctx ctx).en = true ∧
      (s.configCtx ctx true false).1.mem = s.mem) ∧
    (∀ ctx, (s.ctx ctx).en = true →
      s.configCtx ctx false false = (if s.ctxIdle ctx then (s.setCtx ctx false, 0) else (s, 1)) ∧
      (s.ctxIdle ctx = true ↔ (∀ c ∈ s.cables.vals, c.ctx = ctx → c.state = .ended) ∧ s.launchesOf ctx = 0 ∧
        (s.ctx ctx).handles = []) ∧
      ((s.setCtx ctx false).ctx ctx).en = false ∧ (s.setCtx ctx false).mem = s.mem) ∧
    (∀ v : W64, (∀ s1 n, s.launchIn s.ctxSel (v.toNat / 128 % 2 ^ 53 * 128) = some (s1, n) →
        exec (.devCtxLaunch v) s = .next { s1 with ctxResult := n }) ∧
      (s.launchIn s.ctxSel (v.toNat / 128 % 2 ^ 53 * 128) = none →
        exec (.devCtxLaunch v) s = .next { s with fwLaunch := some (s.ctxSel, v) })) ∧
    (∀ v : W64, exec (.devFwqWrite v) s = .next (s.writeFwq s.partSel v)) ∧
    ∀ part, exec (.fwqService part) s = .next ((s.updPart part fun q => { q with fwIrq := false }).serveFwq part)

/-- 19 R439. A request of the host, while the module is ready and none is in progress, is recorded with its result: status 4 where it
is not well formed; a creation enables the lowest context that is free, with its page table and event page, launches in
it and gives its number, and status 1 or 3 where there is none or its launch fails; a destruction terminates its context, and is
done when the context can be disabled; it and a termination have status 2 for a context that is not enabled; an answer carries the
result of `CTX_RESUME`, and what it resumes sees the greatest time that the context's placed cables observe (the model's choice,
log 122). -/
def Obligations.HostRequests : Prop :=
  ∀ (i : Instr) (op : Nat) (q a0 a1 a2 : W64) (s : State),
    (i, op) ∈ [(Instr.ctxCreate q a0 a1 a2, 1), (.ctxDestroy q a0 a1 a2, 2), (.ctxAnswer q a0 a1 a2, 3), (.ctxTerminate q a0 a1 a2, 4)] ∨
      (i = .badRequest q a0 a1 a2 ∧ (op = 0 ∨ (5 ≤ op ∧ op ≤ 15))) →
    q.toNat / 2 ^ 60 % 16 = op → s.ready = true →
    let ctx := q.toNat / 2 ^ 48 % 256
    (s.hostBusy = none →
      let r := s.request q a0 a1 a2
      exec i s = .next { r.1 with creq := q, cargs := [a0, a1, a2], cresult := r.2.getD 0 } ∧
      (s.badRequest q a0 a1 a2 = true → r = (s, some (BitVec.ofNat 64 (1 + 4 * 2 ^ 8)))) ∧
      (op = 1 → s.badRequest q a0 a1 a2 = false →
        let part := q.toNat / 2 ^ 56 % 16
        (((s.part part).en = false ∨ ∀ i < 16, (s.ctx (16 * part + i)).en = true) → r = (s, some 0x101)) ∧
        ∀ i < 16, (s.part part).en = true → (s.ctx (16 * part + i)).en = false → (∀ j < i, (s.ctx (16 * part + j)).en = true) →
          let n := 16 * part + i
          let s1 := (s.setCtx n true).updCtx n fun x => { x with
            ptbr := BitVec.ofNat 64 (a1.toNat / 2 ^ 12 % 2 ^ 36 * 2 ^ 12), evPage := some (a2.toNat / 2 ^ 12 % 2 ^ 36 * 4096)
            evVec := a2.toNat % 2 ^ 11 }
          (s1.ctx n).en = true ∧
          match s1.launchIn n (a0.toNat / 128 % 2 ^ 53 * 128) with
          | some (s2, 0) => r = (s2, some (BitVec.ofNat 64 (1 + n * 2 ^ 16)))
          | some (s2, _) => r = (s2.setCtx n false, some 0x301)
          | none => r = (s, none)) ∧
      (op = 3 → s.badRequest q a0 a1 a2 = false → (s.ctx ctx).en = true →
        let s1 := s.answerAt ctx a0 (s.observedIn ctx)
        r = (s1, some (BitVec.ofNat 64 (1 + s1.readCtx ctx 0x185 / 2 ^ 36 % 16 * 2 ^ 24)))) ∧
      (op = 2 ∨ op = 4 → s.badRequest q a0 a1 a2 = false → (s.ctx ctx).en = false → r = (s, some 0x201)) ∧
      (op = 4 → s.badRequest q a0 a1 a2 = false → (s.ctx ctx).en = true → r = (s.termCtx ctx, some 1)) ∧
      (op = 2 → s.badRequest q a0 a1 a2 = false → (s.ctx ctx).en = true →
        r = ({ s.termCtx ctx with hostBusy := some ctx }, none))) ∧
    ∀ c, s.hostBusy = some c → op = 2 → s.ctxIdle c = true →
      exec i s = .next { s.setCtx c false with hostBusy := none, cresult := 1 }

/-! ### Reset and invariants -/

/-- 19 R424 and the registers' own tables (07 R191, R203, 18 R403, R420, 19 R431 to R433, R437, R440): after reset no cable, coil or
transaction is there, memory reads as zero, contexts and partitions are disabled, the device is in SCRUB, and every module
register has its reset value; the context registers of a disabled context read zero. -/
def Obligations.ResetState : Prop :=
  State.reset.memWf ∧ (∀ a, State.reset.mem.read a = 0) ∧ State.reset.cables = [] ∧ State.reset.coils = [] ∧
  State.reset.txns = [] ∧ State.reset.boot = .scrub ∧ State.reset.ready = false ∧
  (∀ c, (State.reset.ctx c).en = false) ∧ (∀ p, (State.reset.part p).en = false) ∧
  (∀ c n, State.reset.readCtx c n = 0) ∧ State.reset.readDev 0x200 = 4096 ∧ State.reset.readDev 0x201 = 1024 + 2 * 2 ^ 16 ∧
  State.reset.readDev 0x203 = 10000 ∧ State.reset.readDev 0x204 = 2000 ∧ State.reset.readDev 0x205 = 2000 ∧
  State.reset.readDev 0x20B = 5800 ∧ State.reset.readDev 0x20C = 100 + 95 * 2 ^ 16 + 110 * 2 ^ 24 ∧
  ∀ n ∈ [0x202, 0x206, 0x207, 0x208, 0x209, 0x20A, 0x20D, 0x20E, 0x20F, 0x210, 0x211, 0x212, 0x213], State.reset.readDev n = 0

/-- Memory keeps its canonical form: from every state in which memory and the scratchpads have it, a step gives one in which they
have it. -/
def Obligations.MemoryStaysCanonical : Prop := ∀ s t : State, s.memWf → step s = .next t → t.memWf
end

