-- ==== Sys2Proof/Laws/Store.lean ====
section
/-! SUPPORT. Sparse maps and memory: reading what was written, and the canonical forms kept. -/
namespace Sys2Proof.Machine

/-! ### Sparse maps -/

theorem SMap.find?_update {α : Type} (m : SMap α) (k j : Nat) (f : α → α) :
    (m.update k f).find? j = if j = k then (m.find? k).map f else m.find? j := by
  induction m with
  | nil => simp [SMap.update, SMap.find?]
  | cons e l ih =>
    obtain ⟨a, x⟩ := e
    simp only [SMap.update, List.map_cons] at ih ⊢
    by_cases hk : a = k
    · subst hk
      by_cases hj : j = a
      · subst hj; simp [SMap.find?]
      · have : ¬ a = j := fun h => hj h.symm
        simp [SMap.find?, this, hj, ih]
    · by_cases hj : j = k
      · subst hj; simp [SMap.find?, hk, ih]
      · by_cases ha : a = j
        · subst ha; simp [SMap.find?, hk]
        · simp [SMap.find?, hk, ha, ih, hj]

theorem SMap.find?_insert {α : Type} (m : SMap α) (k j : Nat) (v : α) :
    (SMap.insert k v m).find? j = if j = k then some v else m.find? j := by
  induction m with
  | nil =>
    by_cases h : j = k
    · simp [SMap.insert, SMap.find?, h]
    · have : ¬ k = j := fun e => h e.symm
      simp [SMap.insert, SMap.find?, h, this]
  | cons e l ih =>
    obtain ⟨a, x⟩ := e
    unfold SMap.insert
    by_cases h : j = k
    · subst h
      split
      · simp [SMap.find?]
      · split
        · simp [SMap.find?]
        · have : ¬ a = j := fun e => by simp_all
          simp [SMap.find?, this, ih]
    · have hk : ¬ k = j := fun e => h e.symm
      split
      · simp [SMap.find?, hk]
      · split
        · rename_i ha; subst ha; simp [SMap.find?, hk]
        · simp [SMap.find?, ih, h]

theorem SMap.find?_erase {α : Type} (m : SMap α) (k j : Nat) :
    (SMap.erase k m).find? j = if j = k then none else m.find? j := by
  induction m with
  | nil => simp [SMap.erase, SMap.find?]
  | cons e l ih =>
    obtain ⟨a, x⟩ := e
    simp only [SMap.erase, List.filter_cons] at ih ⊢
    by_cases ha : a = k
    · subst ha
      by_cases hj : j = a
      · subst hj; simp [ih]
      · have : ¬ a = j := fun h => hj h.symm
        simp [SMap.find?, ih, hj, this]
    · by_cases hj : j = k
      · subst hj; simp [SMap.find?, ih, ha]
      · simp [SMap.find?, ih, ha, hj]

theorem SMap.getD_update {α : Type} (m : SMap α) (k j : Nat) (f : α → α) (d : α) :
    (m.update k f).getD j d = if j = k then ((m.find? k).map f).getD d else m.getD j d := by
  unfold SMap.getD; rw [SMap.find?_update]; split <;> rfl

theorem SMap.getD_insert {α : Type} (m : SMap α) (k j : Nat) (v d : α) :
    (SMap.insert k v m).getD j d = if j = k then v else m.getD j d := by
  unfold SMap.getD; rw [SMap.find?_insert]; split <;> rfl

theorem SMap.update_wf {α : Type} {m : SMap α} (h : m.wf) (k : Nat) (f : α → α) : (m.update k f).wf := by
  unfold SMap.wf SMap.update at *
  rw [List.pairwise_map]
  exact h.imp fun {a b} hab => by
    by_cases ha : a.1 = k <;> by_cases hb : b.1 = k <;> simp_all

theorem SMap.mem_insert {α : Type} {m : SMap α} {k : Nat} {v : α} {e : Nat × α} (h : e ∈ SMap.insert k v m) :
    e = (k, v) ∨ e ∈ m := by
  induction m with
  | nil => simp [SMap.insert] at h; exact .inl h
  | cons a l ih =>
    obtain ⟨a, x⟩ := a
    unfold SMap.insert at h
    split at h
    · rcases List.mem_cons.mp h with h | h
      · exact .inl h
      · exact .inr h
    · split at h
      · rcases List.mem_cons.mp h with h | h
        · exact .inl h
        · exact .inr (List.mem_cons_of_mem _ h)
      · rcases List.mem_cons.mp h with rfl | h
        · exact .inr (List.mem_cons_self ..)
        · rcases ih h with h | h
          · exact .inl h
          · exact .inr (List.mem_cons_of_mem _ h)

theorem SMap.insert_wf {α : Type} {m : SMap α} (h : m.wf) (k : Nat) (v : α) : (SMap.insert k v m).wf := by
  induction m with
  | nil => simp [SMap.insert]
  | cons e l ih =>
    obtain ⟨a, x⟩ := e
    have hl := List.pairwise_cons.mp h
    unfold SMap.insert
    split
    · rename_i hk
      refine List.pairwise_cons.mpr ⟨fun b hb => ?_, h⟩
      rcases List.mem_cons.mp hb with rfl | hb
      · exact hk
      · exact Nat.lt_trans hk (hl.1 b hb)
    · split
      · rename_i hk; subst hk
        exact List.pairwise_cons.mpr ⟨hl.1, hl.2⟩
      · rename_i h1 h2
        refine List.pairwise_cons.mpr ⟨fun b hb => ?_, ih hl.2⟩
        rcases SMap.mem_insert hb with rfl | hb
        · simp only; omega
        · exact hl.1 b hb

theorem SMap.erase_wf {α : Type} {m : SMap α} (h : m.wf) (k : Nat) : (SMap.erase k m).wf :=
  List.Pairwise.filter _ h

/-! ### Memory -/

theorem Memory.wf_nil : Memory.wf [] := by simp [Memory.wf]

theorem Memory.mem_write {m : Memory} {x : Nat} {v : Byte} {c : Host.Cell} (h : c ∈ Memory.write x v m) :
    c ∈ m ∨ (c = (x, v) ∧ v ≠ Memory.unlisted) := by
  induction m with
  | nil =>
    unfold Memory.write at h
    split at h
    · exact .inl h
    · rename_i hv; simp at h; exact .inr ⟨h, hv⟩
  | cons a l ih =>
    obtain ⟨a, b⟩ := a
    unfold Memory.write at h
    split at h
    · split at h
      · exact .inl h
      · rename_i hv
        rcases List.mem_cons.mp h with rfl | h
        · exact .inr ⟨rfl, hv⟩
        · exact .inl h
    · split at h
      · split at h
        · exact .inl (List.mem_cons_of_mem _ h)
        · rename_i hv
          rcases List.mem_cons.mp h with rfl | h
          · exact .inr ⟨rfl, hv⟩
          · exact .inl (List.mem_cons_of_mem _ h)
      · rcases List.mem_cons.mp h with rfl | h
        · exact .inl (List.mem_cons_self ..)
        · rcases ih h with h | h
          · exact .inl (List.mem_cons_of_mem _ h)
          · exact .inr h

/-- A write keeps the canonical form. -/
theorem Memory.write_wf {m : Memory} (h : m.wf) (x : Nat) (v : Byte) : (Memory.write x v m).wf := by
  refine ⟨?_, fun c hc => ?_⟩
  · obtain ⟨hs, -⟩ := h
    induction m with
    | nil => unfold Memory.write; split <;> simp
    | cons a l ih =>
      obtain ⟨a, b⟩ := a
      have hl := List.pairwise_cons.mp hs
      unfold Memory.write
      split
      · rename_i hx
        split
        · exact hs
        · refine List.pairwise_cons.mpr ⟨fun c hc => ?_, hs⟩
          rcases List.mem_cons.mp hc with rfl | hc
          · exact hx
          · exact Nat.lt_trans hx (hl.1 c hc)
      · split
        · rename_i hx; subst hx
          split
          · exact hl.2
          · exact List.pairwise_cons.mpr ⟨hl.1, hl.2⟩
        · refine List.pairwise_cons.mpr ⟨fun c hc => ?_, ih hl.2⟩
          rcases Memory.mem_write hc with hc | ⟨rfl, -⟩
          · exact hl.1 c hc
          · simp only; omega
  · rcases Memory.mem_write hc with hc | ⟨rfl, hv⟩
    · exact h.2 c hc
    · exact hv

theorem Memory.read_of_lt {m : Memory} {x : Nat} (h : ∀ c ∈ m, x < c.1) : m.read x = Memory.unlisted := by
  cases m with
  | nil => rfl
  | cons a l =>
    obtain ⟨a, b⟩ := a
    have ha := h (a, b) (List.mem_cons_self ..)
    simp only at ha
    unfold Memory.read
    rw [if_neg (by omega), if_pos ha]

/-- A read after a write: the byte at the address written, and every other byte as before. -/
theorem Memory.read_write {m : Memory} (h : m.wf) (x y : Nat) (v : Byte) :
    (Memory.write x v m).read y = if y = x then v else m.read y := by
  obtain ⟨hs, -⟩ := h
  induction m with
  | nil =>
    unfold Memory.write
    split
    · rename_i hv; split <;> simp_all [Memory.read]
    · by_cases hy : y = x
      · subst hy; simp [Memory.read]
      · have hx : ¬ x = y := fun e => hy e.symm
        simp [Memory.read, hy, hx]
  | cons a l ih =>
    obtain ⟨a, b⟩ := a
    have hl := List.pairwise_cons.mp hs
    unfold Memory.write
    split
    · rename_i hx
      have hlow : Memory.read ((a, b) :: l) x = Memory.unlisted := by
        refine Memory.read_of_lt fun c hc => ?_
        rcases List.mem_cons.mp hc with rfl | hc
        · exact hx
        · exact Nat.lt_trans hx (hl.1 c hc)
      split
      · rename_i hv
        by_cases hy : y = x
        · subst hy; simp [hlow, hv]
        · simp [hy]
      · by_cases hy : y = x
        · subst hy; simp [Memory.read]
        · rw [if_neg hy]
          show (if x = y then v else if y < x then Memory.unlisted else Memory.read ((a, b) :: l) y) = _
          rw [if_neg fun e => hy e.symm]
          split
          · rename_i hyx
            refine (Memory.read_of_lt fun c hc => ?_).symm
            rcases List.mem_cons.mp hc with rfl | hc
            · exact Nat.lt_trans hyx hx
            · exact Nat.lt_trans hyx (Nat.lt_trans hx (hl.1 c hc))
          · rfl
    · split
      · rename_i hx; subst hx
        split
        · rename_i hv
          by_cases hy : y = x
          · subst hy; rw [if_pos rfl, hv]; exact Memory.read_of_lt hl.1
          · rw [if_neg hy]
            conv => rhs; unfold Memory.read
            rw [if_neg fun e => hy e.symm]
            split
            · rename_i hyx; exact Memory.read_of_lt fun c hc => Nat.lt_trans hyx (hl.1 c hc)
            · rfl
        · unfold Memory.read
          by_cases hy : y = x
          · simp [hy]
          · have : ¬ x = y := fun e => hy e.symm
            simp [hy, this]
      · rename_i h1 h2
        conv => lhs; unfold Memory.read
        conv => rhs; rhs; unfold Memory.read
        by_cases hay : a = y
        · have : ¬ y = x := by omega
          simp [hay, this]
        · rw [if_neg hay, if_neg hay]
          by_cases hya : y < a
          · have : ¬ y = x := by omega
            simp [hya, this]
          · rw [if_neg hya, if_neg hya]
            exact ih hl.2

theorem Memory.writeN_wf {m : Memory} (h : m.wf) (x : Nat) (bs : List Byte) : (Memory.writeN x bs m).wf := by
  induction bs generalizing x m with
  | nil => exact h
  | cons b bs ih => exact ih (Memory.write_wf h x b) (x + 1)

/-- A read after the write of a byte string. -/
theorem Memory.read_writeN {m : Memory} (h : m.wf) (x y : Nat) (bs : List Byte) :
    (Memory.writeN x bs m).read y = if x ≤ y then bs.getD (y - x) (m.read y) else m.read y := by
  induction bs generalizing x m with
  | nil => simp [Memory.writeN]
  | cons b bs ih =>
    show (Memory.writeN (x + 1) bs (m.write x b)).read y = _
    rw [ih (Memory.write_wf h x b), Memory.read_write h]
    by_cases hy : y = x
    · subst hy
      have : ¬ y + 1 ≤ y := by omega
      simp [this]
    · by_cases hx : x ≤ y
      · have h1 : x + 1 ≤ y := by omega
        have h2 : y - x = (y - (x + 1)) + 1 := by omega
        rw [if_pos h1, if_pos hx, if_neg hy, h2, List.getD_cons_succ]
      · have h1 : ¬ x + 1 ≤ y := by omega
        simp [hx, h1, hy]

theorem Memory.filter_wf {m : Memory} (h : m.wf) (p : Host.Cell → Bool) : Memory.wf (m.filter p) :=
  ⟨h.1.filter _, fun c hc => h.2 c (List.mem_filter.mp hc).1⟩

theorem Memory.zeroRange_wf {m : Memory} (h : m.wf) (x n : Nat) : (Memory.zeroRange x n m).wf := Memory.filter_wf h _

end Sys2Proof.Machine
end

