-- ==== Sys2Proof/Laws/State.lean ====
section
/-! SUPPORT. The updates of the state, field by field: what each leaves as it was, and what it changes. -/
namespace Sys2Proof.Machine

/-! ### `State.updCable` -/

@[simp] theorem State.updCable_agenda (s : State) (u : Nat) (f : Cable → Cable) : (s.updCable u f).agenda = s.agenda := rfl
@[simp] theorem State.updCable_stepCount (s : State) (u : Nat) (f : Cable → Cable) : (s.updCable u f).stepCount = s.stepCount := rfl
@[simp] theorem State.updCable_cur (s : State) (u : Nat) (f : Cable → Cable) : (s.updCable u f).cur = s.cur := rfl
@[simp] theorem State.updCable_fwResult (s : State) (u : Nat) (f : Cable → Cable) : (s.updCable u f).fwResult = s.fwResult := rfl
@[simp] theorem State.updCable_fwLaunch (s : State) (u : Nat) (f : Cable → Cable) : (s.updCable u f).fwLaunch = s.fwLaunch := rfl
@[simp] theorem State.updCable_fwFault (s : State) (u : Nat) (f : Cable → Cable) : (s.updCable u f).fwFault = s.fwFault := rfl
@[simp] theorem State.updCable_due (s : State) (u : Nat) (f : Cable → Cable) : (s.updCable u f).due = s.due := rfl
@[simp] theorem State.updCable_unsaved (s : State) (u : Nat) (f : Cable → Cable) : (s.updCable u f).unsaved = s.unsaved := rfl
@[simp] theorem State.updCable_egress (s : State) (u : Nat) (f : Cable → Cable) : (s.updCable u f).egress = s.egress := rfl
@[simp] theorem State.updCable_nextUid (s : State) (u : Nat) (f : Cable → Cable) : (s.updCable u f).nextUid = s.nextUid := rfl
@[simp] theorem State.updCable_nextOp (s : State) (u : Nat) (f : Cable → Cable) : (s.updCable u f).nextOp = s.nextOp := rfl
@[simp] theorem State.updCable_nextHandle (s : State) (u : Nat) (f : Cable → Cable) : (s.updCable u f).nextHandle = s.nextHandle := rfl
@[simp] theorem State.updCable_cycle (s : State) (u : Nat) (f : Cable → Cable) : (s.updCable u f).cycle = s.cycle := rfl
@[simp] theorem State.updCable_coils (s : State) (u : Nat) (f : Cable → Cable) : (s.updCable u f).coils = s.coils := rfl
@[simp] theorem State.updCable_cores (s : State) (u : Nat) (f : Cable → Cable) : (s.updCable u f).cores = s.cores := rfl
@[simp] theorem State.updCable_txns (s : State) (u : Nat) (f : Cable → Cable) : (s.updCable u f).txns = s.txns := rfl
@[simp] theorem State.updCable_l2tlb (s : State) (u : Nat) (f : Cable → Cable) : (s.updCable u f).l2tlb = s.l2tlb := rfl
@[simp] theorem State.updCable_mem (s : State) (u : Nat) (f : Cable → Cable) : (s.updCable u f).mem = s.mem := rfl
@[simp] theorem State.updCable_psn (s : State) (u : Nat) (f : Cable → Cable) : (s.updCable u f).psn = s.psn := rfl
@[simp] theorem State.updCable_esr (s : State) (u : Nat) (f : Cable → Cable) : (s.updCable u f).esr = s.esr := rfl
@[simp] theorem State.updCable_pageOwner (s : State) (u : Nat) (f : Cable → Cable) : (s.updCable u f).pageOwner = s.pageOwner := rfl
@[simp] theorem State.updCable_lines (s : State) (u : Nat) (f : Cable → Cable) : (s.updCable u f).lines = s.lines := rfl
@[simp] theorem State.updCable_wayWake (s : State) (u : Nat) (f : Cable → Cable) : (s.updCable u f).wayWake = s.wayWake := rfl
@[simp] theorem State.updCable_trackers (s : State) (u : Nat) (f : Cable → Cable) : (s.updCable u f).trackers = s.trackers := rfl
@[simp] theorem State.updCable_refreshStart (s : State) (u : Nat) (f : Cable → Cable) : (s.updCable u f).refreshStart = s.refreshStart := rfl
@[simp] theorem State.updCable_epoch (s : State) (u : Nat) (f : Cable → Cable) : (s.updCable u f).epoch = s.epoch := rfl
@[simp] theorem State.updCable_golden (s : State) (u : Nat) (f : Cable → Cable) : (s.updCable u f).golden = s.golden := rfl
@[simp] theorem State.updCable_dirs (s : State) (u : Nat) (f : Cable → Cable) : (s.updCable u f).dirs = s.dirs := rfl
@[simp] theorem State.updCable_waiters (s : State) (u : Nat) (f : Cable → Cable) : (s.updCable u f).waiters = s.waiters := rfl
@[simp] theorem State.updCable_posted (s : State) (u : Nat) (f : Cable → Cable) : (s.updCable u f).posted = s.posted := rfl
@[simp] theorem State.updCable_overflow (s : State) (u : Nat) (f : Cable → Cable) : (s.updCable u f).overflow = s.overflow := rfl
@[simp] theorem State.updCable_deliveries (s : State) (u : Nat) (f : Cable → Cable) : (s.updCable u f).deliveries = s.deliveries := rfl
@[simp] theorem State.updCable_ctxs (s : State) (u : Nat) (f : Cable → Cable) : (s.updCable u f).ctxs = s.ctxs := rfl
@[simp] theorem State.updCable_parts (s : State) (u : Nat) (f : Cable → Cable) : (s.updCable u f).parts = s.parts := rfl
@[simp] theorem State.updCable_evPending (s : State) (u : Nat) (f : Cable → Cable) : (s.updCable u f).evPending = s.evPending := rfl
@[simp] theorem State.updCable_hostBusy (s : State) (u : Nat) (f : Cable → Cable) : (s.updCable u f).hostBusy = s.hostBusy := rfl
@[simp] theorem State.updCable_tickDiv (s : State) (u : Nat) (f : Cable → Cable) : (s.updCable u f).tickDiv = s.tickDiv := rfl
@[simp] theorem State.updCable_nextTick (s : State) (u : Nat) (f : Cable → Cable) : (s.updCable u f).nextTick = s.nextTick := rfl
@[simp] theorem State.updCable_rdmBlast (s : State) (u : Nat) (f : Cable → Cable) : (s.updCable u f).rdmBlast = s.rdmBlast := rfl
@[simp] theorem State.updCable_rdmThresh (s : State) (u : Nat) (f : Cable → Cable) : (s.updCable u f).rdmThresh = s.rdmThresh := rfl
@[simp] theorem State.updCable_fabId (s : State) (u : Nat) (f : Cable → Cable) : (s.updCable u f).fabId = s.fabId := rfl
@[simp] theorem State.updCable_fabTmo (s : State) (u : Nat) (f : Cable → Cable) : (s.updCable u f).fabTmo = s.fabTmo := rfl
@[simp] theorem State.updCable_ports (s : State) (u : Nat) (f : Cable → Cable) : (s.updCable u f).ports = s.ports := rfl
@[simp] theorem State.updCable_partSel (s : State) (u : Nat) (f : Cable → Cable) : (s.updCable u f).partSel = s.partSel := rfl
@[simp] theorem State.updCable_partResult (s : State) (u : Nat) (f : Cable → Cable) : (s.updCable u f).partResult = s.partResult := rfl
@[simp] theorem State.updCable_coreMap (s : State) (u : Nat) (f : Cable → Cable) : (s.updCable u f).coreMap = s.coreMap := rfl
@[simp] theorem State.updCable_coreMapReg (s : State) (u : Nat) (f : Cable → Cable) : (s.updCable u f).coreMapReg = s.coreMapReg := rfl
@[simp] theorem State.updCable_pwrLimit (s : State) (u : Nat) (f : Cable → Cable) : (s.updCable u f).pwrLimit = s.pwrLimit := rfl
@[simp] theorem State.updCable_thermTrip (s : State) (u : Nat) (f : Cable → Cable) : (s.updCable u f).thermTrip = s.thermTrip := rfl
@[simp] theorem State.updCable_thermMig (s : State) (u : Nat) (f : Cable → Cable) : (s.updCable u f).thermMig = s.thermMig := rfl
@[simp] theorem State.updCable_thermGidle (s : State) (u : Nat) (f : Cable → Cable) : (s.updCable u f).thermGidle = s.thermGidle := rfl
@[simp] theorem State.updCable_pwrShed (s : State) (u : Nat) (f : Cable → Cable) : (s.updCable u f).pwrShed = s.pwrShed := rfl
@[simp] theorem State.updCable_pwrNoslot (s : State) (u : Nat) (f : Cable → Cable) : (s.updCable u f).pwrNoslot = s.pwrNoslot := rfl
@[simp] theorem State.updCable_pwrWatts (s : State) (u : Nat) (f : Cable → Cable) : (s.updCable u f).pwrWatts = s.pwrWatts := rfl
@[simp] theorem State.updCable_coreTemps (s : State) (u : Nat) (f : Cable → Cable) : (s.updCable u f).coreTemps = s.coreTemps := rfl
@[simp] theorem State.updCable_pwrOver (s : State) (u : Nat) (f : Cable → Cable) : (s.updCable u f).pwrOver = s.pwrOver := rfl
@[simp] theorem State.updCable_nextWindow (s : State) (u : Nat) (f : Cable → Cable) : (s.updCable u f).nextWindow = s.nextWindow := rfl
@[simp] theorem State.updCable_svn (s : State) (u : Nat) (f : Cable → Cable) : (s.updCable u f).svn = s.svn := rfl
@[simp] theorem State.updCable_ctxSel (s : State) (u : Nat) (f : Cable → Cable) : (s.updCable u f).ctxSel = s.ctxSel := rfl
@[simp] theorem State.updCable_ctxResult (s : State) (u : Nat) (f : Cable → Cable) : (s.updCable u f).ctxResult = s.ctxResult := rfl
@[simp] theorem State.updCable_boot (s : State) (u : Nat) (f : Cable → Cable) : (s.updCable u f).boot = s.boot := rfl
@[simp] theorem State.updCable_bootError (s : State) (u : Nat) (f : Cable → Cable) : (s.updCable u f).bootError = s.bootError := rfl
@[simp] theorem State.updCable_ready (s : State) (u : Nat) (f : Cable → Cable) : (s.updCable u f).ready = s.ready := rfl
@[simp] theorem State.updCable_measured (s : State) (u : Nat) (f : Cable → Cable) : (s.updCable u f).measured = s.measured := rfl
@[simp] theorem State.updCable_imageSvn (s : State) (u : Nat) (f : Cable → Cable) : (s.updCable u f).imageSvn = s.imageSvn := rfl
@[simp] theorem State.updCable_nonce (s : State) (u : Nat) (f : Cable → Cable) : (s.updCable u f).nonce = s.nonce := rfl
@[simp] theorem State.updCable_attDone (s : State) (u : Nat) (f : Cable → Cable) : (s.updCable u f).attDone = s.attDone := rfl
@[simp] theorem State.updCable_attReport (s : State) (u : Nat) (f : Cable → Cable) : (s.updCable u f).attReport = s.attReport := rfl
@[simp] theorem State.updCable_creq (s : State) (u : Nat) (f : Cable → Cable) : (s.updCable u f).creq = s.creq := rfl
@[simp] theorem State.updCable_cargs (s : State) (u : Nat) (f : Cable → Cable) : (s.updCable u f).cargs = s.cargs := rfl
@[simp] theorem State.updCable_cresult (s : State) (u : Nat) (f : Cable → Cable) : (s.updCable u f).cresult = s.cresult := rfl
@[simp] theorem State.updCable_msix (s : State) (u : Nat) (f : Cable → Cable) : (s.updCable u f).msix = s.msix := rfl
@[simp] theorem State.updCable_hostRead (s : State) (u : Nat) (f : Cable → Cable) : (s.updCable u f).hostRead = s.hostRead := rfl
@[simp] theorem State.updCable_matching (s : State) (u : Nat) (f : Cable → Cable) : (s.updCable u f).matching = s.matching := rfl
@[simp] theorem State.updCable_fibreSlot (s : State) (u : Nat) (f : Cable → Cable) : (s.updCable u f).fibreSlot = s.fibreSlot := rfl
@[simp] theorem State.updCable_nextMseq (s : State) (u : Nat) (f : Cable → Cable) : (s.updCable u f).nextMseq = s.nextMseq := rfl
@[simp] theorem State.updCable_outMsgs (s : State) (u : Nat) (f : Cable → Cable) : (s.updCable u f).outMsgs = s.outMsgs := rfl
@[simp] theorem State.updCable_relayed (s : State) (u : Nat) (f : Cable → Cable) : (s.updCable u f).relayed = s.relayed := rfl
@[simp] theorem State.updCable_inMsgs (s : State) (u : Nat) (f : Cable → Cable) : (s.updCable u f).inMsgs = s.inMsgs := rfl
@[simp] theorem State.updCable_partial_ (s : State) (u : Nat) (f : Cable → Cable) : (s.updCable u f).partial_ = s.partial_ := rfl
@[simp] theorem State.updCable_collectives (s : State) (u : Nat) (f : Cable → Cable) : (s.updCable u f).collectives = s.collectives := rfl
@[simp] theorem State.updCable_fabSeq (s : State) (u : Nat) (f : Cable → Cable) : (s.updCable u f).fabSeq = s.fabSeq := rfl
@[simp] theorem State.updCable_engSeq (s : State) (u : Nat) (f : Cable → Cable) : (s.updCable u f).engSeq = s.engSeq := rfl

/-! ### `State.updCore` -/

@[simp] theorem State.updCore_agenda (s : State) (u : Nat) (f : Core → Core) : (s.updCore u f).agenda = s.agenda := rfl
@[simp] theorem State.updCore_stepCount (s : State) (u : Nat) (f : Core → Core) : (s.updCore u f).stepCount = s.stepCount := rfl
@[simp] theorem State.updCore_cur (s : State) (u : Nat) (f : Core → Core) : (s.updCore u f).cur = s.cur := rfl
@[simp] theorem State.updCore_fwResult (s : State) (u : Nat) (f : Core → Core) : (s.updCore u f).fwResult = s.fwResult := rfl
@[simp] theorem State.updCore_fwLaunch (s : State) (u : Nat) (f : Core → Core) : (s.updCore u f).fwLaunch = s.fwLaunch := rfl
@[simp] theorem State.updCore_fwFault (s : State) (u : Nat) (f : Core → Core) : (s.updCore u f).fwFault = s.fwFault := rfl
@[simp] theorem State.updCore_due (s : State) (u : Nat) (f : Core → Core) : (s.updCore u f).due = s.due := rfl
@[simp] theorem State.updCore_unsaved (s : State) (u : Nat) (f : Core → Core) : (s.updCore u f).unsaved = s.unsaved := rfl
@[simp] theorem State.updCore_egress (s : State) (u : Nat) (f : Core → Core) : (s.updCore u f).egress = s.egress := rfl
@[simp] theorem State.updCore_nextUid (s : State) (u : Nat) (f : Core → Core) : (s.updCore u f).nextUid = s.nextUid := rfl
@[simp] theorem State.updCore_nextOp (s : State) (u : Nat) (f : Core → Core) : (s.updCore u f).nextOp = s.nextOp := rfl
@[simp] theorem State.updCore_nextHandle (s : State) (u : Nat) (f : Core → Core) : (s.updCore u f).nextHandle = s.nextHandle := rfl
@[simp] theorem State.updCore_cycle (s : State) (u : Nat) (f : Core → Core) : (s.updCore u f).cycle = s.cycle := rfl
@[simp] theorem State.updCore_cables (s : State) (u : Nat) (f : Core → Core) : (s.updCore u f).cables = s.cables := rfl
@[simp] theorem State.updCore_coils (s : State) (u : Nat) (f : Core → Core) : (s.updCore u f).coils = s.coils := rfl
@[simp] theorem State.updCore_txns (s : State) (u : Nat) (f : Core → Core) : (s.updCore u f).txns = s.txns := rfl
@[simp] theorem State.updCore_l2tlb (s : State) (u : Nat) (f : Core → Core) : (s.updCore u f).l2tlb = s.l2tlb := rfl
@[simp] theorem State.updCore_mem (s : State) (u : Nat) (f : Core → Core) : (s.updCore u f).mem = s.mem := rfl
@[simp] theorem State.updCore_psn (s : State) (u : Nat) (f : Core → Core) : (s.updCore u f).psn = s.psn := rfl
@[simp] theorem State.updCore_esr (s : State) (u : Nat) (f : Core → Core) : (s.updCore u f).esr = s.esr := rfl
@[simp] theorem State.updCore_pageOwner (s : State) (u : Nat) (f : Core → Core) : (s.updCore u f).pageOwner = s.pageOwner := rfl
@[simp] theorem State.updCore_lines (s : State) (u : Nat) (f : Core → Core) : (s.updCore u f).lines = s.lines := rfl
@[simp] theorem State.updCore_wayWake (s : State) (u : Nat) (f : Core → Core) : (s.updCore u f).wayWake = s.wayWake := rfl
@[simp] theorem State.updCore_trackers (s : State) (u : Nat) (f : Core → Core) : (s.updCore u f).trackers = s.trackers := rfl
@[simp] theorem State.updCore_refreshStart (s : State) (u : Nat) (f : Core → Core) : (s.updCore u f).refreshStart = s.refreshStart := rfl
@[simp] theorem State.updCore_epoch (s : State) (u : Nat) (f : Core → Core) : (s.updCore u f).epoch = s.epoch := rfl
@[simp] theorem State.updCore_golden (s : State) (u : Nat) (f : Core → Core) : (s.updCore u f).golden = s.golden := rfl
@[simp] theorem State.updCore_dirs (s : State) (u : Nat) (f : Core → Core) : (s.updCore u f).dirs = s.dirs := rfl
@[simp] theorem State.updCore_waiters (s : State) (u : Nat) (f : Core → Core) : (s.updCore u f).waiters = s.waiters := rfl
@[simp] theorem State.updCore_posted (s : State) (u : Nat) (f : Core → Core) : (s.updCore u f).posted = s.posted := rfl
@[simp] theorem State.updCore_overflow (s : State) (u : Nat) (f : Core → Core) : (s.updCore u f).overflow = s.overflow := rfl
@[simp] theorem State.updCore_deliveries (s : State) (u : Nat) (f : Core → Core) : (s.updCore u f).deliveries = s.deliveries := rfl
@[simp] theorem State.updCore_ctxs (s : State) (u : Nat) (f : Core → Core) : (s.updCore u f).ctxs = s.ctxs := rfl
@[simp] theorem State.updCore_parts (s : State) (u : Nat) (f : Core → Core) : (s.updCore u f).parts = s.parts := rfl
@[simp] theorem State.updCore_evPending (s : State) (u : Nat) (f : Core → Core) : (s.updCore u f).evPending = s.evPending := rfl
@[simp] theorem State.updCore_hostBusy (s : State) (u : Nat) (f : Core → Core) : (s.updCore u f).hostBusy = s.hostBusy := rfl
@[simp] theorem State.updCore_tickDiv (s : State) (u : Nat) (f : Core → Core) : (s.updCore u f).tickDiv = s.tickDiv := rfl
@[simp] theorem State.updCore_nextTick (s : State) (u : Nat) (f : Core → Core) : (s.updCore u f).nextTick = s.nextTick := rfl
@[simp] theorem State.updCore_rdmBlast (s : State) (u : Nat) (f : Core → Core) : (s.updCore u f).rdmBlast = s.rdmBlast := rfl
@[simp] theorem State.updCore_rdmThresh (s : State) (u : Nat) (f : Core → Core) : (s.updCore u f).rdmThresh = s.rdmThresh := rfl
@[simp] theorem State.updCore_fabId (s : State) (u : Nat) (f : Core → Core) : (s.updCore u f).fabId = s.fabId := rfl
@[simp] theorem State.updCore_fabTmo (s : State) (u : Nat) (f : Core → Core) : (s.updCore u f).fabTmo = s.fabTmo := rfl
@[simp] theorem State.updCore_ports (s : State) (u : Nat) (f : Core → Core) : (s.updCore u f).ports = s.ports := rfl
@[simp] theorem State.updCore_partSel (s : State) (u : Nat) (f : Core → Core) : (s.updCore u f).partSel = s.partSel := rfl
@[simp] theorem State.updCore_partResult (s : State) (u : Nat) (f : Core → Core) : (s.updCore u f).partResult = s.partResult := rfl
@[simp] theorem State.updCore_coreMap (s : State) (u : Nat) (f : Core → Core) : (s.updCore u f).coreMap = s.coreMap := rfl
@[simp] theorem State.updCore_coreMapReg (s : State) (u : Nat) (f : Core → Core) : (s.updCore u f).coreMapReg = s.coreMapReg := rfl
@[simp] theorem State.updCore_pwrLimit (s : State) (u : Nat) (f : Core → Core) : (s.updCore u f).pwrLimit = s.pwrLimit := rfl
@[simp] theorem State.updCore_thermTrip (s : State) (u : Nat) (f : Core → Core) : (s.updCore u f).thermTrip = s.thermTrip := rfl
@[simp] theorem State.updCore_thermMig (s : State) (u : Nat) (f : Core → Core) : (s.updCore u f).thermMig = s.thermMig := rfl
@[simp] theorem State.updCore_thermGidle (s : State) (u : Nat) (f : Core → Core) : (s.updCore u f).thermGidle = s.thermGidle := rfl
@[simp] theorem State.updCore_pwrShed (s : State) (u : Nat) (f : Core → Core) : (s.updCore u f).pwrShed = s.pwrShed := rfl
@[simp] theorem State.updCore_pwrNoslot (s : State) (u : Nat) (f : Core → Core) : (s.updCore u f).pwrNoslot = s.pwrNoslot := rfl
@[simp] theorem State.updCore_pwrWatts (s : State) (u : Nat) (f : Core → Core) : (s.updCore u f).pwrWatts = s.pwrWatts := rfl
@[simp] theorem State.updCore_coreTemps (s : State) (u : Nat) (f : Core → Core) : (s.updCore u f).coreTemps = s.coreTemps := rfl
@[simp] theorem State.updCore_pwrOver (s : State) (u : Nat) (f : Core → Core) : (s.updCore u f).pwrOver = s.pwrOver := rfl
@[simp] theorem State.updCore_nextWindow (s : State) (u : Nat) (f : Core → Core) : (s.updCore u f).nextWindow = s.nextWindow := rfl
@[simp] theorem State.updCore_svn (s : State) (u : Nat) (f : Core → Core) : (s.updCore u f).svn = s.svn := rfl
@[simp] theorem State.updCore_ctxSel (s : State) (u : Nat) (f : Core → Core) : (s.updCore u f).ctxSel = s.ctxSel := rfl
@[simp] theorem State.updCore_ctxResult (s : State) (u : Nat) (f : Core → Core) : (s.updCore u f).ctxResult = s.ctxResult := rfl
@[simp] theorem State.updCore_boot (s : State) (u : Nat) (f : Core → Core) : (s.updCore u f).boot = s.boot := rfl
@[simp] theorem State.updCore_bootError (s : State) (u : Nat) (f : Core → Core) : (s.updCore u f).bootError = s.bootError := rfl
@[simp] theorem State.updCore_ready (s : State) (u : Nat) (f : Core → Core) : (s.updCore u f).ready = s.ready := rfl
@[simp] theorem State.updCore_measured (s : State) (u : Nat) (f : Core → Core) : (s.updCore u f).measured = s.measured := rfl
@[simp] theorem State.updCore_imageSvn (s : State) (u : Nat) (f : Core → Core) : (s.updCore u f).imageSvn = s.imageSvn := rfl
@[simp] theorem State.updCore_nonce (s : State) (u : Nat) (f : Core → Core) : (s.updCore u f).nonce = s.nonce := rfl
@[simp] theorem State.updCore_attDone (s : State) (u : Nat) (f : Core → Core) : (s.updCore u f).attDone = s.attDone := rfl
@[simp] theorem State.updCore_attReport (s : State) (u : Nat) (f : Core → Core) : (s.updCore u f).attReport = s.attReport := rfl
@[simp] theorem State.updCore_creq (s : State) (u : Nat) (f : Core → Core) : (s.updCore u f).creq = s.creq := rfl
@[simp] theorem State.updCore_cargs (s : State) (u : Nat) (f : Core → Core) : (s.updCore u f).cargs = s.cargs := rfl
@[simp] theorem State.updCore_cresult (s : State) (u : Nat) (f : Core → Core) : (s.updCore u f).cresult = s.cresult := rfl
@[simp] theorem State.updCore_msix (s : State) (u : Nat) (f : Core → Core) : (s.updCore u f).msix = s.msix := rfl
@[simp] theorem State.updCore_hostRead (s : State) (u : Nat) (f : Core → Core) : (s.updCore u f).hostRead = s.hostRead := rfl
@[simp] theorem State.updCore_matching (s : State) (u : Nat) (f : Core → Core) : (s.updCore u f).matching = s.matching := rfl
@[simp] theorem State.updCore_fibreSlot (s : State) (u : Nat) (f : Core → Core) : (s.updCore u f).fibreSlot = s.fibreSlot := rfl
@[simp] theorem State.updCore_nextMseq (s : State) (u : Nat) (f : Core → Core) : (s.updCore u f).nextMseq = s.nextMseq := rfl
@[simp] theorem State.updCore_outMsgs (s : State) (u : Nat) (f : Core → Core) : (s.updCore u f).outMsgs = s.outMsgs := rfl
@[simp] theorem State.updCore_relayed (s : State) (u : Nat) (f : Core → Core) : (s.updCore u f).relayed = s.relayed := rfl
@[simp] theorem State.updCore_inMsgs (s : State) (u : Nat) (f : Core → Core) : (s.updCore u f).inMsgs = s.inMsgs := rfl
@[simp] theorem State.updCore_partial_ (s : State) (u : Nat) (f : Core → Core) : (s.updCore u f).partial_ = s.partial_ := rfl
@[simp] theorem State.updCore_collectives (s : State) (u : Nat) (f : Core → Core) : (s.updCore u f).collectives = s.collectives := rfl
@[simp] theorem State.updCore_fabSeq (s : State) (u : Nat) (f : Core → Core) : (s.updCore u f).fabSeq = s.fabSeq := rfl
@[simp] theorem State.updCore_engSeq (s : State) (u : Nat) (f : Core → Core) : (s.updCore u f).engSeq = s.engSeq := rfl

/-! ### `State.updCtx` -/

@[simp] theorem State.updCtx_agenda (s : State) (u : Nat) (f : Context → Context) : (s.updCtx u f).agenda = s.agenda := rfl
@[simp] theorem State.updCtx_stepCount (s : State) (u : Nat) (f : Context → Context) : (s.updCtx u f).stepCount = s.stepCount := rfl
@[simp] theorem State.updCtx_cur (s : State) (u : Nat) (f : Context → Context) : (s.updCtx u f).cur = s.cur := rfl
@[simp] theorem State.updCtx_fwResult (s : State) (u : Nat) (f : Context → Context) : (s.updCtx u f).fwResult = s.fwResult := rfl
@[simp] theorem State.updCtx_fwLaunch (s : State) (u : Nat) (f : Context → Context) : (s.updCtx u f).fwLaunch = s.fwLaunch := rfl
@[simp] theorem State.updCtx_fwFault (s : State) (u : Nat) (f : Context → Context) : (s.updCtx u f).fwFault = s.fwFault := rfl
@[simp] theorem State.updCtx_due (s : State) (u : Nat) (f : Context → Context) : (s.updCtx u f).due = s.due := rfl
@[simp] theorem State.updCtx_unsaved (s : State) (u : Nat) (f : Context → Context) : (s.updCtx u f).unsaved = s.unsaved := rfl
@[simp] theorem State.updCtx_egress (s : State) (u : Nat) (f : Context → Context) : (s.updCtx u f).egress = s.egress := rfl
@[simp] theorem State.updCtx_nextUid (s : State) (u : Nat) (f : Context → Context) : (s.updCtx u f).nextUid = s.nextUid := rfl
@[simp] theorem State.updCtx_nextOp (s : State) (u : Nat) (f : Context → Context) : (s.updCtx u f).nextOp = s.nextOp := rfl
@[simp] theorem State.updCtx_nextHandle (s : State) (u : Nat) (f : Context → Context) : (s.updCtx u f).nextHandle = s.nextHandle := rfl
@[simp] theorem State.updCtx_cycle (s : State) (u : Nat) (f : Context → Context) : (s.updCtx u f).cycle = s.cycle := rfl
@[simp] theorem State.updCtx_cables (s : State) (u : Nat) (f : Context → Context) : (s.updCtx u f).cables = s.cables := rfl
@[simp] theorem State.updCtx_coils (s : State) (u : Nat) (f : Context → Context) : (s.updCtx u f).coils = s.coils := rfl
@[simp] theorem State.updCtx_cores (s : State) (u : Nat) (f : Context → Context) : (s.updCtx u f).cores = s.cores := rfl
@[simp] theorem State.updCtx_txns (s : State) (u : Nat) (f : Context → Context) : (s.updCtx u f).txns = s.txns := rfl
@[simp] theorem State.updCtx_l2tlb (s : State) (u : Nat) (f : Context → Context) : (s.updCtx u f).l2tlb = s.l2tlb := rfl
@[simp] theorem State.updCtx_mem (s : State) (u : Nat) (f : Context → Context) : (s.updCtx u f).mem = s.mem := rfl
@[simp] theorem State.updCtx_psn (s : State) (u : Nat) (f : Context → Context) : (s.updCtx u f).psn = s.psn := rfl
@[simp] theorem State.updCtx_esr (s : State) (u : Nat) (f : Context → Context) : (s.updCtx u f).esr = s.esr := rfl
@[simp] theorem State.updCtx_pageOwner (s : State) (u : Nat) (f : Context → Context) : (s.updCtx u f).pageOwner = s.pageOwner := rfl
@[simp] theorem State.updCtx_lines (s : State) (u : Nat) (f : Context → Context) : (s.updCtx u f).lines = s.lines := rfl
@[simp] theorem State.updCtx_wayWake (s : State) (u : Nat) (f : Context → Context) : (s.updCtx u f).wayWake = s.wayWake := rfl
@[simp] theorem State.updCtx_trackers (s : State) (u : Nat) (f : Context → Context) : (s.updCtx u f).trackers = s.trackers := rfl
@[simp] theorem State.updCtx_refreshStart (s : State) (u : Nat) (f : Context → Context) : (s.updCtx u f).refreshStart = s.refreshStart := rfl
@[simp] theorem State.updCtx_epoch (s : State) (u : Nat) (f : Context → Context) : (s.updCtx u f).epoch = s.epoch := rfl
@[simp] theorem State.updCtx_golden (s : State) (u : Nat) (f : Context → Context) : (s.updCtx u f).golden = s.golden := rfl
@[simp] theorem State.updCtx_dirs (s : State) (u : Nat) (f : Context → Context) : (s.updCtx u f).dirs = s.dirs := rfl
@[simp] theorem State.updCtx_waiters (s : State) (u : Nat) (f : Context → Context) : (s.updCtx u f).waiters = s.waiters := rfl
@[simp] theorem State.updCtx_posted (s : State) (u : Nat) (f : Context → Context) : (s.updCtx u f).posted = s.posted := rfl
@[simp] theorem State.updCtx_overflow (s : State) (u : Nat) (f : Context → Context) : (s.updCtx u f).overflow = s.overflow := rfl
@[simp] theorem State.updCtx_deliveries (s : State) (u : Nat) (f : Context → Context) : (s.updCtx u f).deliveries = s.deliveries := rfl
@[simp] theorem State.updCtx_parts (s : State) (u : Nat) (f : Context → Context) : (s.updCtx u f).parts = s.parts := rfl
@[simp] theorem State.updCtx_evPending (s : State) (u : Nat) (f : Context → Context) : (s.updCtx u f).evPending = s.evPending := rfl
@[simp] theorem State.updCtx_hostBusy (s : State) (u : Nat) (f : Context → Context) : (s.updCtx u f).hostBusy = s.hostBusy := rfl
@[simp] theorem State.updCtx_tickDiv (s : State) (u : Nat) (f : Context → Context) : (s.updCtx u f).tickDiv = s.tickDiv := rfl
@[simp] theorem State.updCtx_nextTick (s : State) (u : Nat) (f : Context → Context) : (s.updCtx u f).nextTick = s.nextTick := rfl
@[simp] theorem State.updCtx_rdmBlast (s : State) (u : Nat) (f : Context → Context) : (s.updCtx u f).rdmBlast = s.rdmBlast := rfl
@[simp] theorem State.updCtx_rdmThresh (s : State) (u : Nat) (f : Context → Context) : (s.updCtx u f).rdmThresh = s.rdmThresh := rfl
@[simp] theorem State.updCtx_fabId (s : State) (u : Nat) (f : Context → Context) : (s.updCtx u f).fabId = s.fabId := rfl
@[simp] theorem State.updCtx_fabTmo (s : State) (u : Nat) (f : Context → Context) : (s.updCtx u f).fabTmo = s.fabTmo := rfl
@[simp] theorem State.updCtx_ports (s : State) (u : Nat) (f : Context → Context) : (s.updCtx u f).ports = s.ports := rfl
@[simp] theorem State.updCtx_partSel (s : State) (u : Nat) (f : Context → Context) : (s.updCtx u f).partSel = s.partSel := rfl
@[simp] theorem State.updCtx_partResult (s : State) (u : Nat) (f : Context → Context) : (s.updCtx u f).partResult = s.partResult := rfl
@[simp] theorem State.updCtx_coreMap (s : State) (u : Nat) (f : Context → Context) : (s.updCtx u f).coreMap = s.coreMap := rfl
@[simp] theorem State.updCtx_coreMapReg (s : State) (u : Nat) (f : Context → Context) : (s.updCtx u f).coreMapReg = s.coreMapReg := rfl
@[simp] theorem State.updCtx_pwrLimit (s : State) (u : Nat) (f : Context → Context) : (s.updCtx u f).pwrLimit = s.pwrLimit := rfl
@[simp] theorem State.updCtx_thermTrip (s : State) (u : Nat) (f : Context → Context) : (s.updCtx u f).thermTrip = s.thermTrip := rfl
@[simp] theorem State.updCtx_thermMig (s : State) (u : Nat) (f : Context → Context) : (s.updCtx u f).thermMig = s.thermMig := rfl
@[simp] theorem State.updCtx_thermGidle (s : State) (u : Nat) (f : Context → Context) : (s.updCtx u f).thermGidle = s.thermGidle := rfl
@[simp] theorem State.updCtx_pwrShed (s : State) (u : Nat) (f : Context → Context) : (s.updCtx u f).pwrShed = s.pwrShed := rfl
@[simp] theorem State.updCtx_pwrNoslot (s : State) (u : Nat) (f : Context → Context) : (s.updCtx u f).pwrNoslot = s.pwrNoslot := rfl
@[simp] theorem State.updCtx_pwrWatts (s : State) (u : Nat) (f : Context → Context) : (s.updCtx u f).pwrWatts = s.pwrWatts := rfl
@[simp] theorem State.updCtx_coreTemps (s : State) (u : Nat) (f : Context → Context) : (s.updCtx u f).coreTemps = s.coreTemps := rfl
@[simp] theorem State.updCtx_pwrOver (s : State) (u : Nat) (f : Context → Context) : (s.updCtx u f).pwrOver = s.pwrOver := rfl
@[simp] theorem State.updCtx_nextWindow (s : State) (u : Nat) (f : Context → Context) : (s.updCtx u f).nextWindow = s.nextWindow := rfl
@[simp] theorem State.updCtx_svn (s : State) (u : Nat) (f : Context → Context) : (s.updCtx u f).svn = s.svn := rfl
@[simp] theorem State.updCtx_ctxSel (s : State) (u : Nat) (f : Context → Context) : (s.updCtx u f).ctxSel = s.ctxSel := rfl
@[simp] theorem State.updCtx_ctxResult (s : State) (u : Nat) (f : Context → Context) : (s.updCtx u f).ctxResult = s.ctxResult := rfl
@[simp] theorem State.updCtx_boot (s : State) (u : Nat) (f : Context → Context) : (s.updCtx u f).boot = s.boot := rfl
@[simp] theorem State.updCtx_bootError (s : State) (u : Nat) (f : Context → Context) : (s.updCtx u f).bootError = s.bootError := rfl
@[simp] theorem State.updCtx_ready (s : State) (u : Nat) (f : Context → Context) : (s.updCtx u f).ready = s.ready := rfl
@[simp] theorem State.updCtx_measured (s : State) (u : Nat) (f : Context → Context) : (s.updCtx u f).measured = s.measured := rfl
@[simp] theorem State.updCtx_imageSvn (s : State) (u : Nat) (f : Context → Context) : (s.updCtx u f).imageSvn = s.imageSvn := rfl
@[simp] theorem State.updCtx_nonce (s : State) (u : Nat) (f : Context → Context) : (s.updCtx u f).nonce = s.nonce := rfl
@[simp] theorem State.updCtx_attDone (s : State) (u : Nat) (f : Context → Context) : (s.updCtx u f).attDone = s.attDone := rfl
@[simp] theorem State.updCtx_attReport (s : State) (u : Nat) (f : Context → Context) : (s.updCtx u f).attReport = s.attReport := rfl
@[simp] theorem State.updCtx_creq (s : State) (u : Nat) (f : Context → Context) : (s.updCtx u f).creq = s.creq := rfl
@[simp] theorem State.updCtx_cargs (s : State) (u : Nat) (f : Context → Context) : (s.updCtx u f).cargs = s.cargs := rfl
@[simp] theorem State.updCtx_cresult (s : State) (u : Nat) (f : Context → Context) : (s.updCtx u f).cresult = s.cresult := rfl
@[simp] theorem State.updCtx_msix (s : State) (u : Nat) (f : Context → Context) : (s.updCtx u f).msix = s.msix := rfl
@[simp] theorem State.updCtx_hostRead (s : State) (u : Nat) (f : Context → Context) : (s.updCtx u f).hostRead = s.hostRead := rfl
@[simp] theorem State.updCtx_matching (s : State) (u : Nat) (f : Context → Context) : (s.updCtx u f).matching = s.matching := rfl
@[simp] theorem State.updCtx_fibreSlot (s : State) (u : Nat) (f : Context → Context) : (s.updCtx u f).fibreSlot = s.fibreSlot := rfl
@[simp] theorem State.updCtx_nextMseq (s : State) (u : Nat) (f : Context → Context) : (s.updCtx u f).nextMseq = s.nextMseq := rfl
@[simp] theorem State.updCtx_outMsgs (s : State) (u : Nat) (f : Context → Context) : (s.updCtx u f).outMsgs = s.outMsgs := rfl
@[simp] theorem State.updCtx_relayed (s : State) (u : Nat) (f : Context → Context) : (s.updCtx u f).relayed = s.relayed := rfl
@[simp] theorem State.updCtx_inMsgs (s : State) (u : Nat) (f : Context → Context) : (s.updCtx u f).inMsgs = s.inMsgs := rfl
@[simp] theorem State.updCtx_partial_ (s : State) (u : Nat) (f : Context → Context) : (s.updCtx u f).partial_ = s.partial_ := rfl
@[simp] theorem State.updCtx_collectives (s : State) (u : Nat) (f : Context → Context) : (s.updCtx u f).collectives = s.collectives := rfl
@[simp] theorem State.updCtx_fabSeq (s : State) (u : Nat) (f : Context → Context) : (s.updCtx u f).fabSeq = s.fabSeq := rfl
@[simp] theorem State.updCtx_engSeq (s : State) (u : Nat) (f : Context → Context) : (s.updCtx u f).engSeq = s.engSeq := rfl

/-! ### `State.updPart` -/

@[simp] theorem State.updPart_agenda (s : State) (u : Nat) (f : Partition → Partition) : (s.updPart u f).agenda = s.agenda := rfl
@[simp] theorem State.updPart_stepCount (s : State) (u : Nat) (f : Partition → Partition) : (s.updPart u f).stepCount = s.stepCount := rfl
@[simp] theorem State.updPart_cur (s : State) (u : Nat) (f : Partition → Partition) : (s.updPart u f).cur = s.cur := rfl
@[simp] theorem State.updPart_fwResult (s : State) (u : Nat) (f : Partition → Partition) : (s.updPart u f).fwResult = s.fwResult := rfl
@[simp] theorem State.updPart_fwLaunch (s : State) (u : Nat) (f : Partition → Partition) : (s.updPart u f).fwLaunch = s.fwLaunch := rfl
@[simp] theorem State.updPart_fwFault (s : State) (u : Nat) (f : Partition → Partition) : (s.updPart u f).fwFault = s.fwFault := rfl
@[simp] theorem State.updPart_due (s : State) (u : Nat) (f : Partition → Partition) : (s.updPart u f).due = s.due := rfl
@[simp] theorem State.updPart_unsaved (s : State) (u : Nat) (f : Partition → Partition) : (s.updPart u f).unsaved = s.unsaved := rfl
@[simp] theorem State.updPart_egress (s : State) (u : Nat) (f : Partition → Partition) : (s.updPart u f).egress = s.egress := rfl
@[simp] theorem State.updPart_nextUid (s : State) (u : Nat) (f : Partition → Partition) : (s.updPart u f).nextUid = s.nextUid := rfl
@[simp] theorem State.updPart_nextOp (s : State) (u : Nat) (f : Partition → Partition) : (s.updPart u f).nextOp = s.nextOp := rfl
@[simp] theorem State.updPart_nextHandle (s : State) (u : Nat) (f : Partition → Partition) : (s.updPart u f).nextHandle = s.nextHandle := rfl
@[simp] theorem State.updPart_cycle (s : State) (u : Nat) (f : Partition → Partition) : (s.updPart u f).cycle = s.cycle := rfl
@[simp] theorem State.updPart_cables (s : State) (u : Nat) (f : Partition → Partition) : (s.updPart u f).cables = s.cables := rfl
@[simp] theorem State.updPart_coils (s : State) (u : Nat) (f : Partition → Partition) : (s.updPart u f).coils = s.coils := rfl
@[simp] theorem State.updPart_cores (s : State) (u : Nat) (f : Partition → Partition) : (s.updPart u f).cores = s.cores := rfl
@[simp] theorem State.updPart_txns (s : State) (u : Nat) (f : Partition → Partition) : (s.updPart u f).txns = s.txns := rfl
@[simp] theorem State.updPart_l2tlb (s : State) (u : Nat) (f : Partition → Partition) : (s.updPart u f).l2tlb = s.l2tlb := rfl
@[simp] theorem State.updPart_mem (s : State) (u : Nat) (f : Partition → Partition) : (s.updPart u f).mem = s.mem := rfl
@[simp] theorem State.updPart_psn (s : State) (u : Nat) (f : Partition → Partition) : (s.updPart u f).psn = s.psn := rfl
@[simp] theorem State.updPart_esr (s : State) (u : Nat) (f : Partition → Partition) : (s.updPart u f).esr = s.esr := rfl
@[simp] theorem State.updPart_pageOwner (s : State) (u : Nat) (f : Partition → Partition) : (s.updPart u f).pageOwner = s.pageOwner := rfl
@[simp] theorem State.updPart_lines (s : State) (u : Nat) (f : Partition → Partition) : (s.updPart u f).lines = s.lines := rfl
@[simp] theorem State.updPart_wayWake (s : State) (u : Nat) (f : Partition → Partition) : (s.updPart u f).wayWake = s.wayWake := rfl
@[simp] theorem State.updPart_trackers (s : State) (u : Nat) (f : Partition → Partition) : (s.updPart u f).trackers = s.trackers := rfl
@[simp] theorem State.updPart_refreshStart (s : State) (u : Nat) (f : Partition → Partition) : (s.updPart u f).refreshStart = s.refreshStart := rfl
@[simp] theorem State.updPart_epoch (s : State) (u : Nat) (f : Partition → Partition) : (s.updPart u f).epoch = s.epoch := rfl
@[simp] theorem State.updPart_golden (s : State) (u : Nat) (f : Partition → Partition) : (s.updPart u f).golden = s.golden := rfl
@[simp] theorem State.updPart_dirs (s : State) (u : Nat) (f : Partition → Partition) : (s.updPart u f).dirs = s.dirs := rfl
@[simp] theorem State.updPart_waiters (s : State) (u : Nat) (f : Partition → Partition) : (s.updPart u f).waiters = s.waiters := rfl
@[simp] theorem State.updPart_posted (s : State) (u : Nat) (f : Partition → Partition) : (s.updPart u f).posted = s.posted := rfl
@[simp] theorem State.updPart_overflow (s : State) (u : Nat) (f : Partition → Partition) : (s.updPart u f).overflow = s.overflow := rfl
@[simp] theorem State.updPart_deliveries (s : State) (u : Nat) (f : Partition → Partition) : (s.updPart u f).deliveries = s.deliveries := rfl
@[simp] theorem State.updPart_ctxs (s : State) (u : Nat) (f : Partition → Partition) : (s.updPart u f).ctxs = s.ctxs := rfl
@[simp] theorem State.updPart_evPending (s : State) (u : Nat) (f : Partition → Partition) : (s.updPart u f).evPending = s.evPending := rfl
@[simp] theorem State.updPart_hostBusy (s : State) (u : Nat) (f : Partition → Partition) : (s.updPart u f).hostBusy = s.hostBusy := rfl
@[simp] theorem State.updPart_tickDiv (s : State) (u : Nat) (f : Partition → Partition) : (s.updPart u f).tickDiv = s.tickDiv := rfl
@[simp] theorem State.updPart_nextTick (s : State) (u : Nat) (f : Partition → Partition) : (s.updPart u f).nextTick = s.nextTick := rfl
@[simp] theorem State.updPart_rdmBlast (s : State) (u : Nat) (f : Partition → Partition) : (s.updPart u f).rdmBlast = s.rdmBlast := rfl
@[simp] theorem State.updPart_rdmThresh (s : State) (u : Nat) (f : Partition → Partition) : (s.updPart u f).rdmThresh = s.rdmThresh := rfl
@[simp] theorem State.updPart_fabId (s : State) (u : Nat) (f : Partition → Partition) : (s.updPart u f).fabId = s.fabId := rfl
@[simp] theorem State.updPart_fabTmo (s : State) (u : Nat) (f : Partition → Partition) : (s.updPart u f).fabTmo = s.fabTmo := rfl
@[simp] theorem State.updPart_ports (s : State) (u : Nat) (f : Partition → Partition) : (s.updPart u f).ports = s.ports := rfl
@[simp] theorem State.updPart_partSel (s : State) (u : Nat) (f : Partition → Partition) : (s.updPart u f).partSel = s.partSel := rfl
@[simp] theorem State.updPart_partResult (s : State) (u : Nat) (f : Partition → Partition) : (s.updPart u f).partResult = s.partResult := rfl
@[simp] theorem State.updPart_coreMap (s : State) (u : Nat) (f : Partition → Partition) : (s.updPart u f).coreMap = s.coreMap := rfl
@[simp] theorem State.updPart_coreMapReg (s : State) (u : Nat) (f : Partition → Partition) : (s.updPart u f).coreMapReg = s.coreMapReg := rfl
@[simp] theorem State.updPart_pwrLimit (s : State) (u : Nat) (f : Partition → Partition) : (s.updPart u f).pwrLimit = s.pwrLimit := rfl
@[simp] theorem State.updPart_thermTrip (s : State) (u : Nat) (f : Partition → Partition) : (s.updPart u f).thermTrip = s.thermTrip := rfl
@[simp] theorem State.updPart_thermMig (s : State) (u : Nat) (f : Partition → Partition) : (s.updPart u f).thermMig = s.thermMig := rfl
@[simp] theorem State.updPart_thermGidle (s : State) (u : Nat) (f : Partition → Partition) : (s.updPart u f).thermGidle = s.thermGidle := rfl
@[simp] theorem State.updPart_pwrShed (s : State) (u : Nat) (f : Partition → Partition) : (s.updPart u f).pwrShed = s.pwrShed := rfl
@[simp] theorem State.updPart_pwrNoslot (s : State) (u : Nat) (f : Partition → Partition) : (s.updPart u f).pwrNoslot = s.pwrNoslot := rfl
@[simp] theorem State.updPart_pwrWatts (s : State) (u : Nat) (f : Partition → Partition) : (s.updPart u f).pwrWatts = s.pwrWatts := rfl
@[simp] theorem State.updPart_coreTemps (s : State) (u : Nat) (f : Partition → Partition) : (s.updPart u f).coreTemps = s.coreTemps := rfl
@[simp] theorem State.updPart_pwrOver (s : State) (u : Nat) (f : Partition → Partition) : (s.updPart u f).pwrOver = s.pwrOver := rfl
@[simp] theorem State.updPart_nextWindow (s : State) (u : Nat) (f : Partition → Partition) : (s.updPart u f).nextWindow = s.nextWindow := rfl
@[simp] theorem State.updPart_svn (s : State) (u : Nat) (f : Partition → Partition) : (s.updPart u f).svn = s.svn := rfl
@[simp] theorem State.updPart_ctxSel (s : State) (u : Nat) (f : Partition → Partition) : (s.updPart u f).ctxSel = s.ctxSel := rfl
@[simp] theorem State.updPart_ctxResult (s : State) (u : Nat) (f : Partition → Partition) : (s.updPart u f).ctxResult = s.ctxResult := rfl
@[simp] theorem State.updPart_boot (s : State) (u : Nat) (f : Partition → Partition) : (s.updPart u f).boot = s.boot := rfl
@[simp] theorem State.updPart_bootError (s : State) (u : Nat) (f : Partition → Partition) : (s.updPart u f).bootError = s.bootError := rfl
@[simp] theorem State.updPart_ready (s : State) (u : Nat) (f : Partition → Partition) : (s.updPart u f).ready = s.ready := rfl
@[simp] theorem State.updPart_measured (s : State) (u : Nat) (f : Partition → Partition) : (s.updPart u f).measured = s.measured := rfl
@[simp] theorem State.updPart_imageSvn (s : State) (u : Nat) (f : Partition → Partition) : (s.updPart u f).imageSvn = s.imageSvn := rfl
@[simp] theorem State.updPart_nonce (s : State) (u : Nat) (f : Partition → Partition) : (s.updPart u f).nonce = s.nonce := rfl
@[simp] theorem State.updPart_attDone (s : State) (u : Nat) (f : Partition → Partition) : (s.updPart u f).attDone = s.attDone := rfl
@[simp] theorem State.updPart_attReport (s : State) (u : Nat) (f : Partition → Partition) : (s.updPart u f).attReport = s.attReport := rfl
@[simp] theorem State.updPart_creq (s : State) (u : Nat) (f : Partition → Partition) : (s.updPart u f).creq = s.creq := rfl
@[simp] theorem State.updPart_cargs (s : State) (u : Nat) (f : Partition → Partition) : (s.updPart u f).cargs = s.cargs := rfl
@[simp] theorem State.updPart_cresult (s : State) (u : Nat) (f : Partition → Partition) : (s.updPart u f).cresult = s.cresult := rfl
@[simp] theorem State.updPart_msix (s : State) (u : Nat) (f : Partition → Partition) : (s.updPart u f).msix = s.msix := rfl
@[simp] theorem State.updPart_hostRead (s : State) (u : Nat) (f : Partition → Partition) : (s.updPart u f).hostRead = s.hostRead := rfl
@[simp] theorem State.updPart_matching (s : State) (u : Nat) (f : Partition → Partition) : (s.updPart u f).matching = s.matching := rfl
@[simp] theorem State.updPart_fibreSlot (s : State) (u : Nat) (f : Partition → Partition) : (s.updPart u f).fibreSlot = s.fibreSlot := rfl
@[simp] theorem State.updPart_nextMseq (s : State) (u : Nat) (f : Partition → Partition) : (s.updPart u f).nextMseq = s.nextMseq := rfl
@[simp] theorem State.updPart_outMsgs (s : State) (u : Nat) (f : Partition → Partition) : (s.updPart u f).outMsgs = s.outMsgs := rfl
@[simp] theorem State.updPart_relayed (s : State) (u : Nat) (f : Partition → Partition) : (s.updPart u f).relayed = s.relayed := rfl
@[simp] theorem State.updPart_inMsgs (s : State) (u : Nat) (f : Partition → Partition) : (s.updPart u f).inMsgs = s.inMsgs := rfl
@[simp] theorem State.updPart_partial_ (s : State) (u : Nat) (f : Partition → Partition) : (s.updPart u f).partial_ = s.partial_ := rfl
@[simp] theorem State.updPart_collectives (s : State) (u : Nat) (f : Partition → Partition) : (s.updPart u f).collectives = s.collectives := rfl
@[simp] theorem State.updPart_fabSeq (s : State) (u : Nat) (f : Partition → Partition) : (s.updPart u f).fabSeq = s.fabSeq := rfl
@[simp] theorem State.updPart_engSeq (s : State) (u : Nat) (f : Partition → Partition) : (s.updPart u f).engSeq = s.engSeq := rfl

/-! ### `State.setTxn` -/

@[simp] theorem State.setTxn_agenda (s : State) (t : Txn) : (s.setTxn t).agenda = s.agenda := rfl
@[simp] theorem State.setTxn_stepCount (s : State) (t : Txn) : (s.setTxn t).stepCount = s.stepCount := rfl
@[simp] theorem State.setTxn_cur (s : State) (t : Txn) : (s.setTxn t).cur = s.cur := rfl
@[simp] theorem State.setTxn_fwResult (s : State) (t : Txn) : (s.setTxn t).fwResult = s.fwResult := rfl
@[simp] theorem State.setTxn_fwLaunch (s : State) (t : Txn) : (s.setTxn t).fwLaunch = s.fwLaunch := rfl
@[simp] theorem State.setTxn_fwFault (s : State) (t : Txn) : (s.setTxn t).fwFault = s.fwFault := rfl
@[simp] theorem State.setTxn_due (s : State) (t : Txn) : (s.setTxn t).due = s.due := rfl
@[simp] theorem State.setTxn_unsaved (s : State) (t : Txn) : (s.setTxn t).unsaved = s.unsaved := rfl
@[simp] theorem State.setTxn_egress (s : State) (t : Txn) : (s.setTxn t).egress = s.egress := rfl
@[simp] theorem State.setTxn_nextUid (s : State) (t : Txn) : (s.setTxn t).nextUid = s.nextUid := rfl
@[simp] theorem State.setTxn_nextOp (s : State) (t : Txn) : (s.setTxn t).nextOp = s.nextOp := rfl
@[simp] theorem State.setTxn_nextHandle (s : State) (t : Txn) : (s.setTxn t).nextHandle = s.nextHandle := rfl
@[simp] theorem State.setTxn_cycle (s : State) (t : Txn) : (s.setTxn t).cycle = s.cycle := rfl
@[simp] theorem State.setTxn_cables (s : State) (t : Txn) : (s.setTxn t).cables = s.cables := rfl
@[simp] theorem State.setTxn_coils (s : State) (t : Txn) : (s.setTxn t).coils = s.coils := rfl
@[simp] theorem State.setTxn_cores (s : State) (t : Txn) : (s.setTxn t).cores = s.cores := rfl
@[simp] theorem State.setTxn_l2tlb (s : State) (t : Txn) : (s.setTxn t).l2tlb = s.l2tlb := rfl
@[simp] theorem State.setTxn_mem (s : State) (t : Txn) : (s.setTxn t).mem = s.mem := rfl
@[simp] theorem State.setTxn_psn (s : State) (t : Txn) : (s.setTxn t).psn = s.psn := rfl
@[simp] theorem State.setTxn_esr (s : State) (t : Txn) : (s.setTxn t).esr = s.esr := rfl
@[simp] theorem State.setTxn_pageOwner (s : State) (t : Txn) : (s.setTxn t).pageOwner = s.pageOwner := rfl
@[simp] theorem State.setTxn_lines (s : State) (t : Txn) : (s.setTxn t).lines = s.lines := rfl
@[simp] theorem State.setTxn_wayWake (s : State) (t : Txn) : (s.setTxn t).wayWake = s.wayWake := rfl
@[simp] theorem State.setTxn_trackers (s : State) (t : Txn) : (s.setTxn t).trackers = s.trackers := rfl
@[simp] theorem State.setTxn_refreshStart (s : State) (t : Txn) : (s.setTxn t).refreshStart = s.refreshStart := rfl
@[simp] theorem State.setTxn_epoch (s : State) (t : Txn) : (s.setTxn t).epoch = s.epoch := rfl
@[simp] theorem State.setTxn_golden (s : State) (t : Txn) : (s.setTxn t).golden = s.golden := rfl
@[simp] theorem State.setTxn_dirs (s : State) (t : Txn) : (s.setTxn t).dirs = s.dirs := rfl
@[simp] theorem State.setTxn_waiters (s : State) (t : Txn) : (s.setTxn t).waiters = s.waiters := rfl
@[simp] theorem State.setTxn_posted (s : State) (t : Txn) : (s.setTxn t).posted = s.posted := rfl
@[simp] theorem State.setTxn_overflow (s : State) (t : Txn) : (s.setTxn t).overflow = s.overflow := rfl
@[simp] theorem State.setTxn_deliveries (s : State) (t : Txn) : (s.setTxn t).deliveries = s.deliveries := rfl
@[simp] theorem State.setTxn_ctxs (s : State) (t : Txn) : (s.setTxn t).ctxs = s.ctxs := rfl
@[simp] theorem State.setTxn_parts (s : State) (t : Txn) : (s.setTxn t).parts = s.parts := rfl
@[simp] theorem State.setTxn_evPending (s : State) (t : Txn) : (s.setTxn t).evPending = s.evPending := rfl
@[simp] theorem State.setTxn_hostBusy (s : State) (t : Txn) : (s.setTxn t).hostBusy = s.hostBusy := rfl
@[simp] theorem State.setTxn_tickDiv (s : State) (t : Txn) : (s.setTxn t).tickDiv = s.tickDiv := rfl
@[simp] theorem State.setTxn_nextTick (s : State) (t : Txn) : (s.setTxn t).nextTick = s.nextTick := rfl
@[simp] theorem State.setTxn_rdmBlast (s : State) (t : Txn) : (s.setTxn t).rdmBlast = s.rdmBlast := rfl
@[simp] theorem State.setTxn_rdmThresh (s : State) (t : Txn) : (s.setTxn t).rdmThresh = s.rdmThresh := rfl
@[simp] theorem State.setTxn_fabId (s : State) (t : Txn) : (s.setTxn t).fabId = s.fabId := rfl
@[simp] theorem State.setTxn_fabTmo (s : State) (t : Txn) : (s.setTxn t).fabTmo = s.fabTmo := rfl
@[simp] theorem State.setTxn_ports (s : State) (t : Txn) : (s.setTxn t).ports = s.ports := rfl
@[simp] theorem State.setTxn_partSel (s : State) (t : Txn) : (s.setTxn t).partSel = s.partSel := rfl
@[simp] theorem State.setTxn_partResult (s : State) (t : Txn) : (s.setTxn t).partResult = s.partResult := rfl
@[simp] theorem State.setTxn_coreMap (s : State) (t : Txn) : (s.setTxn t).coreMap = s.coreMap := rfl
@[simp] theorem State.setTxn_coreMapReg (s : State) (t : Txn) : (s.setTxn t).coreMapReg = s.coreMapReg := rfl
@[simp] theorem State.setTxn_pwrLimit (s : State) (t : Txn) : (s.setTxn t).pwrLimit = s.pwrLimit := rfl
@[simp] theorem State.setTxn_thermTrip (s : State) (t : Txn) : (s.setTxn t).thermTrip = s.thermTrip := rfl
@[simp] theorem State.setTxn_thermMig (s : State) (t : Txn) : (s.setTxn t).thermMig = s.thermMig := rfl
@[simp] theorem State.setTxn_thermGidle (s : State) (t : Txn) : (s.setTxn t).thermGidle = s.thermGidle := rfl
@[simp] theorem State.setTxn_pwrShed (s : State) (t : Txn) : (s.setTxn t).pwrShed = s.pwrShed := rfl
@[simp] theorem State.setTxn_pwrNoslot (s : State) (t : Txn) : (s.setTxn t).pwrNoslot = s.pwrNoslot := rfl
@[simp] theorem State.setTxn_pwrWatts (s : State) (t : Txn) : (s.setTxn t).pwrWatts = s.pwrWatts := rfl
@[simp] theorem State.setTxn_coreTemps (s : State) (t : Txn) : (s.setTxn t).coreTemps = s.coreTemps := rfl
@[simp] theorem State.setTxn_pwrOver (s : State) (t : Txn) : (s.setTxn t).pwrOver = s.pwrOver := rfl
@[simp] theorem State.setTxn_nextWindow (s : State) (t : Txn) : (s.setTxn t).nextWindow = s.nextWindow := rfl
@[simp] theorem State.setTxn_svn (s : State) (t : Txn) : (s.setTxn t).svn = s.svn := rfl
@[simp] theorem State.setTxn_ctxSel (s : State) (t : Txn) : (s.setTxn t).ctxSel = s.ctxSel := rfl
@[simp] theorem State.setTxn_ctxResult (s : State) (t : Txn) : (s.setTxn t).ctxResult = s.ctxResult := rfl
@[simp] theorem State.setTxn_boot (s : State) (t : Txn) : (s.setTxn t).boot = s.boot := rfl
@[simp] theorem State.setTxn_bootError (s : State) (t : Txn) : (s.setTxn t).bootError = s.bootError := rfl
@[simp] theorem State.setTxn_ready (s : State) (t : Txn) : (s.setTxn t).ready = s.ready := rfl
@[simp] theorem State.setTxn_measured (s : State) (t : Txn) : (s.setTxn t).measured = s.measured := rfl
@[simp] theorem State.setTxn_imageSvn (s : State) (t : Txn) : (s.setTxn t).imageSvn = s.imageSvn := rfl
@[simp] theorem State.setTxn_nonce (s : State) (t : Txn) : (s.setTxn t).nonce = s.nonce := rfl
@[simp] theorem State.setTxn_attDone (s : State) (t : Txn) : (s.setTxn t).attDone = s.attDone := rfl
@[simp] theorem State.setTxn_attReport (s : State) (t : Txn) : (s.setTxn t).attReport = s.attReport := rfl
@[simp] theorem State.setTxn_creq (s : State) (t : Txn) : (s.setTxn t).creq = s.creq := rfl
@[simp] theorem State.setTxn_cargs (s : State) (t : Txn) : (s.setTxn t).cargs = s.cargs := rfl
@[simp] theorem State.setTxn_cresult (s : State) (t : Txn) : (s.setTxn t).cresult = s.cresult := rfl
@[simp] theorem State.setTxn_msix (s : State) (t : Txn) : (s.setTxn t).msix = s.msix := rfl
@[simp] theorem State.setTxn_hostRead (s : State) (t : Txn) : (s.setTxn t).hostRead = s.hostRead := rfl
@[simp] theorem State.setTxn_matching (s : State) (t : Txn) : (s.setTxn t).matching = s.matching := rfl
@[simp] theorem State.setTxn_fibreSlot (s : State) (t : Txn) : (s.setTxn t).fibreSlot = s.fibreSlot := rfl
@[simp] theorem State.setTxn_nextMseq (s : State) (t : Txn) : (s.setTxn t).nextMseq = s.nextMseq := rfl
@[simp] theorem State.setTxn_outMsgs (s : State) (t : Txn) : (s.setTxn t).outMsgs = s.outMsgs := rfl
@[simp] theorem State.setTxn_relayed (s : State) (t : Txn) : (s.setTxn t).relayed = s.relayed := rfl
@[simp] theorem State.setTxn_inMsgs (s : State) (t : Txn) : (s.setTxn t).inMsgs = s.inMsgs := rfl
@[simp] theorem State.setTxn_partial_ (s : State) (t : Txn) : (s.setTxn t).partial_ = s.partial_ := rfl
@[simp] theorem State.setTxn_collectives (s : State) (t : Txn) : (s.setTxn t).collectives = s.collectives := rfl
@[simp] theorem State.setTxn_fabSeq (s : State) (t : Txn) : (s.setTxn t).fabSeq = s.fabSeq := rfl
@[simp] theorem State.setTxn_engSeq (s : State) (t : Txn) : (s.setTxn t).engSeq = s.engSeq := rfl

/-! ### `State.dropTxn` -/

@[simp] theorem State.dropTxn_agenda (s : State) (u : Nat) : (s.dropTxn u).agenda = s.agenda := rfl
@[simp] theorem State.dropTxn_stepCount (s : State) (u : Nat) : (s.dropTxn u).stepCount = s.stepCount := rfl
@[simp] theorem State.dropTxn_cur (s : State) (u : Nat) : (s.dropTxn u).cur = s.cur := rfl
@[simp] theorem State.dropTxn_fwResult (s : State) (u : Nat) : (s.dropTxn u).fwResult = s.fwResult := rfl
@[simp] theorem State.dropTxn_fwLaunch (s : State) (u : Nat) : (s.dropTxn u).fwLaunch = s.fwLaunch := rfl
@[simp] theorem State.dropTxn_fwFault (s : State) (u : Nat) : (s.dropTxn u).fwFault = s.fwFault := rfl
@[simp] theorem State.dropTxn_due (s : State) (u : Nat) : (s.dropTxn u).due = s.due := rfl
@[simp] theorem State.dropTxn_unsaved (s : State) (u : Nat) : (s.dropTxn u).unsaved = s.unsaved := rfl
@[simp] theorem State.dropTxn_egress (s : State) (u : Nat) : (s.dropTxn u).egress = s.egress := rfl
@[simp] theorem State.dropTxn_nextUid (s : State) (u : Nat) : (s.dropTxn u).nextUid = s.nextUid := rfl
@[simp] theorem State.dropTxn_nextOp (s : State) (u : Nat) : (s.dropTxn u).nextOp = s.nextOp := rfl
@[simp] theorem State.dropTxn_nextHandle (s : State) (u : Nat) : (s.dropTxn u).nextHandle = s.nextHandle := rfl
@[simp] theorem State.dropTxn_cycle (s : State) (u : Nat) : (s.dropTxn u).cycle = s.cycle := rfl
@[simp] theorem State.dropTxn_cables (s : State) (u : Nat) : (s.dropTxn u).cables = s.cables := rfl
@[simp] theorem State.dropTxn_coils (s : State) (u : Nat) : (s.dropTxn u).coils = s.coils := rfl
@[simp] theorem State.dropTxn_cores (s : State) (u : Nat) : (s.dropTxn u).cores = s.cores := rfl
@[simp] theorem State.dropTxn_l2tlb (s : State) (u : Nat) : (s.dropTxn u).l2tlb = s.l2tlb := rfl
@[simp] theorem State.dropTxn_mem (s : State) (u : Nat) : (s.dropTxn u).mem = s.mem := rfl
@[simp] theorem State.dropTxn_psn (s : State) (u : Nat) : (s.dropTxn u).psn = s.psn := rfl
@[simp] theorem State.dropTxn_esr (s : State) (u : Nat) : (s.dropTxn u).esr = s.esr := rfl
@[simp] theorem State.dropTxn_pageOwner (s : State) (u : Nat) : (s.dropTxn u).pageOwner = s.pageOwner := rfl
@[simp] theorem State.dropTxn_lines (s : State) (u : Nat) : (s.dropTxn u).lines = s.lines := rfl
@[simp] theorem State.dropTxn_wayWake (s : State) (u : Nat) : (s.dropTxn u).wayWake = s.wayWake := rfl
@[simp] theorem State.dropTxn_trackers (s : State) (u : Nat) : (s.dropTxn u).trackers = s.trackers := rfl
@[simp] theorem State.dropTxn_refreshStart (s : State) (u : Nat) : (s.dropTxn u).refreshStart = s.refreshStart := rfl
@[simp] theorem State.dropTxn_epoch (s : State) (u : Nat) : (s.dropTxn u).epoch = s.epoch := rfl
@[simp] theorem State.dropTxn_golden (s : State) (u : Nat) : (s.dropTxn u).golden = s.golden := rfl
@[simp] theorem State.dropTxn_dirs (s : State) (u : Nat) : (s.dropTxn u).dirs = s.dirs := rfl
@[simp] theorem State.dropTxn_waiters (s : State) (u : Nat) : (s.dropTxn u).waiters = s.waiters := rfl
@[simp] theorem State.dropTxn_posted (s : State) (u : Nat) : (s.dropTxn u).posted = s.posted := rfl
@[simp] theorem State.dropTxn_overflow (s : State) (u : Nat) : (s.dropTxn u).overflow = s.overflow := rfl
@[simp] theorem State.dropTxn_deliveries (s : State) (u : Nat) : (s.dropTxn u).deliveries = s.deliveries := rfl
@[simp] theorem State.dropTxn_ctxs (s : State) (u : Nat) : (s.dropTxn u).ctxs = s.ctxs := rfl
@[simp] theorem State.dropTxn_parts (s : State) (u : Nat) : (s.dropTxn u).parts = s.parts := rfl
@[simp] theorem State.dropTxn_evPending (s : State) (u : Nat) : (s.dropTxn u).evPending = s.evPending := rfl
@[simp] theorem State.dropTxn_hostBusy (s : State) (u : Nat) : (s.dropTxn u).hostBusy = s.hostBusy := rfl
@[simp] theorem State.dropTxn_tickDiv (s : State) (u : Nat) : (s.dropTxn u).tickDiv = s.tickDiv := rfl
@[simp] theorem State.dropTxn_nextTick (s : State) (u : Nat) : (s.dropTxn u).nextTick = s.nextTick := rfl
@[simp] theorem State.dropTxn_rdmBlast (s : State) (u : Nat) : (s.dropTxn u).rdmBlast = s.rdmBlast := rfl
@[simp] theorem State.dropTxn_rdmThresh (s : State) (u : Nat) : (s.dropTxn u).rdmThresh = s.rdmThresh := rfl
@[simp] theorem State.dropTxn_fabId (s : State) (u : Nat) : (s.dropTxn u).fabId = s.fabId := rfl
@[simp] theorem State.dropTxn_fabTmo (s : State) (u : Nat) : (s.dropTxn u).fabTmo = s.fabTmo := rfl
@[simp] theorem State.dropTxn_ports (s : State) (u : Nat) : (s.dropTxn u).ports = s.ports := rfl
@[simp] theorem State.dropTxn_partSel (s : State) (u : Nat) : (s.dropTxn u).partSel = s.partSel := rfl
@[simp] theorem State.dropTxn_partResult (s : State) (u : Nat) : (s.dropTxn u).partResult = s.partResult := rfl
@[simp] theorem State.dropTxn_coreMap (s : State) (u : Nat) : (s.dropTxn u).coreMap = s.coreMap := rfl
@[simp] theorem State.dropTxn_coreMapReg (s : State) (u : Nat) : (s.dropTxn u).coreMapReg = s.coreMapReg := rfl
@[simp] theorem State.dropTxn_pwrLimit (s : State) (u : Nat) : (s.dropTxn u).pwrLimit = s.pwrLimit := rfl
@[simp] theorem State.dropTxn_thermTrip (s : State) (u : Nat) : (s.dropTxn u).thermTrip = s.thermTrip := rfl
@[simp] theorem State.dropTxn_thermMig (s : State) (u : Nat) : (s.dropTxn u).thermMig = s.thermMig := rfl
@[simp] theorem State.dropTxn_thermGidle (s : State) (u : Nat) : (s.dropTxn u).thermGidle = s.thermGidle := rfl
@[simp] theorem State.dropTxn_pwrShed (s : State) (u : Nat) : (s.dropTxn u).pwrShed = s.pwrShed := rfl
@[simp] theorem State.dropTxn_pwrNoslot (s : State) (u : Nat) : (s.dropTxn u).pwrNoslot = s.pwrNoslot := rfl
@[simp] theorem State.dropTxn_pwrWatts (s : State) (u : Nat) : (s.dropTxn u).pwrWatts = s.pwrWatts := rfl
@[simp] theorem State.dropTxn_coreTemps (s : State) (u : Nat) : (s.dropTxn u).coreTemps = s.coreTemps := rfl
@[simp] theorem State.dropTxn_pwrOver (s : State) (u : Nat) : (s.dropTxn u).pwrOver = s.pwrOver := rfl
@[simp] theorem State.dropTxn_nextWindow (s : State) (u : Nat) : (s.dropTxn u).nextWindow = s.nextWindow := rfl
@[simp] theorem State.dropTxn_svn (s : State) (u : Nat) : (s.dropTxn u).svn = s.svn := rfl
@[simp] theorem State.dropTxn_ctxSel (s : State) (u : Nat) : (s.dropTxn u).ctxSel = s.ctxSel := rfl
@[simp] theorem State.dropTxn_ctxResult (s : State) (u : Nat) : (s.dropTxn u).ctxResult = s.ctxResult := rfl
@[simp] theorem State.dropTxn_boot (s : State) (u : Nat) : (s.dropTxn u).boot = s.boot := rfl
@[simp] theorem State.dropTxn_bootError (s : State) (u : Nat) : (s.dropTxn u).bootError = s.bootError := rfl
@[simp] theorem State.dropTxn_ready (s : State) (u : Nat) : (s.dropTxn u).ready = s.ready := rfl
@[simp] theorem State.dropTxn_measured (s : State) (u : Nat) : (s.dropTxn u).measured = s.measured := rfl
@[simp] theorem State.dropTxn_imageSvn (s : State) (u : Nat) : (s.dropTxn u).imageSvn = s.imageSvn := rfl
@[simp] theorem State.dropTxn_nonce (s : State) (u : Nat) : (s.dropTxn u).nonce = s.nonce := rfl
@[simp] theorem State.dropTxn_attDone (s : State) (u : Nat) : (s.dropTxn u).attDone = s.attDone := rfl
@[simp] theorem State.dropTxn_attReport (s : State) (u : Nat) : (s.dropTxn u).attReport = s.attReport := rfl
@[simp] theorem State.dropTxn_creq (s : State) (u : Nat) : (s.dropTxn u).creq = s.creq := rfl
@[simp] theorem State.dropTxn_cargs (s : State) (u : Nat) : (s.dropTxn u).cargs = s.cargs := rfl
@[simp] theorem State.dropTxn_cresult (s : State) (u : Nat) : (s.dropTxn u).cresult = s.cresult := rfl
@[simp] theorem State.dropTxn_msix (s : State) (u : Nat) : (s.dropTxn u).msix = s.msix := rfl
@[simp] theorem State.dropTxn_hostRead (s : State) (u : Nat) : (s.dropTxn u).hostRead = s.hostRead := rfl
@[simp] theorem State.dropTxn_matching (s : State) (u : Nat) : (s.dropTxn u).matching = s.matching := rfl
@[simp] theorem State.dropTxn_fibreSlot (s : State) (u : Nat) : (s.dropTxn u).fibreSlot = s.fibreSlot := rfl
@[simp] theorem State.dropTxn_nextMseq (s : State) (u : Nat) : (s.dropTxn u).nextMseq = s.nextMseq := rfl
@[simp] theorem State.dropTxn_outMsgs (s : State) (u : Nat) : (s.dropTxn u).outMsgs = s.outMsgs := rfl
@[simp] theorem State.dropTxn_relayed (s : State) (u : Nat) : (s.dropTxn u).relayed = s.relayed := rfl
@[simp] theorem State.dropTxn_inMsgs (s : State) (u : Nat) : (s.dropTxn u).inMsgs = s.inMsgs := rfl
@[simp] theorem State.dropTxn_partial_ (s : State) (u : Nat) : (s.dropTxn u).partial_ = s.partial_ := rfl
@[simp] theorem State.dropTxn_collectives (s : State) (u : Nat) : (s.dropTxn u).collectives = s.collectives := rfl
@[simp] theorem State.dropTxn_fabSeq (s : State) (u : Nat) : (s.dropTxn u).fabSeq = s.fabSeq := rfl
@[simp] theorem State.dropTxn_engSeq (s : State) (u : Nat) : (s.dropTxn u).engSeq = s.engSeq := rfl

/-! ### `State.updPort` -/

@[simp] theorem State.updPort_agenda (s : State) (u : Nat) (f : Port → Port) : (s.updPort u f).agenda = s.agenda := rfl
@[simp] theorem State.updPort_stepCount (s : State) (u : Nat) (f : Port → Port) : (s.updPort u f).stepCount = s.stepCount := rfl
@[simp] theorem State.updPort_cur (s : State) (u : Nat) (f : Port → Port) : (s.updPort u f).cur = s.cur := rfl
@[simp] theorem State.updPort_fwResult (s : State) (u : Nat) (f : Port → Port) : (s.updPort u f).fwResult = s.fwResult := rfl
@[simp] theorem State.updPort_fwLaunch (s : State) (u : Nat) (f : Port → Port) : (s.updPort u f).fwLaunch = s.fwLaunch := rfl
@[simp] theorem State.updPort_fwFault (s : State) (u : Nat) (f : Port → Port) : (s.updPort u f).fwFault = s.fwFault := rfl
@[simp] theorem State.updPort_due (s : State) (u : Nat) (f : Port → Port) : (s.updPort u f).due = s.due := rfl
@[simp] theorem State.updPort_unsaved (s : State) (u : Nat) (f : Port → Port) : (s.updPort u f).unsaved = s.unsaved := rfl
@[simp] theorem State.updPort_egress (s : State) (u : Nat) (f : Port → Port) : (s.updPort u f).egress = s.egress := rfl
@[simp] theorem State.updPort_nextUid (s : State) (u : Nat) (f : Port → Port) : (s.updPort u f).nextUid = s.nextUid := rfl
@[simp] theorem State.updPort_nextOp (s : State) (u : Nat) (f : Port → Port) : (s.updPort u f).nextOp = s.nextOp := rfl
@[simp] theorem State.updPort_nextHandle (s : State) (u : Nat) (f : Port → Port) : (s.updPort u f).nextHandle = s.nextHandle := rfl
@[simp] theorem State.updPort_cycle (s : State) (u : Nat) (f : Port → Port) : (s.updPort u f).cycle = s.cycle := rfl
@[simp] theorem State.updPort_cables (s : State) (u : Nat) (f : Port → Port) : (s.updPort u f).cables = s.cables := rfl
@[simp] theorem State.updPort_coils (s : State) (u : Nat) (f : Port → Port) : (s.updPort u f).coils = s.coils := rfl
@[simp] theorem State.updPort_cores (s : State) (u : Nat) (f : Port → Port) : (s.updPort u f).cores = s.cores := rfl
@[simp] theorem State.updPort_txns (s : State) (u : Nat) (f : Port → Port) : (s.updPort u f).txns = s.txns := rfl
@[simp] theorem State.updPort_l2tlb (s : State) (u : Nat) (f : Port → Port) : (s.updPort u f).l2tlb = s.l2tlb := rfl
@[simp] theorem State.updPort_mem (s : State) (u : Nat) (f : Port → Port) : (s.updPort u f).mem = s.mem := rfl
@[simp] theorem State.updPort_psn (s : State) (u : Nat) (f : Port → Port) : (s.updPort u f).psn = s.psn := rfl
@[simp] theorem State.updPort_esr (s : State) (u : Nat) (f : Port → Port) : (s.updPort u f).esr = s.esr := rfl
@[simp] theorem State.updPort_pageOwner (s : State) (u : Nat) (f : Port → Port) : (s.updPort u f).pageOwner = s.pageOwner := rfl
@[simp] theorem State.updPort_lines (s : State) (u : Nat) (f : Port → Port) : (s.updPort u f).lines = s.lines := rfl
@[simp] theorem State.updPort_wayWake (s : State) (u : Nat) (f : Port → Port) : (s.updPort u f).wayWake = s.wayWake := rfl
@[simp] theorem State.updPort_trackers (s : State) (u : Nat) (f : Port → Port) : (s.updPort u f).trackers = s.trackers := rfl
@[simp] theorem State.updPort_refreshStart (s : State) (u : Nat) (f : Port → Port) : (s.updPort u f).refreshStart = s.refreshStart := rfl
@[simp] theorem State.updPort_epoch (s : State) (u : Nat) (f : Port → Port) : (s.updPort u f).epoch = s.epoch := rfl
@[simp] theorem State.updPort_golden (s : State) (u : Nat) (f : Port → Port) : (s.updPort u f).golden = s.golden := rfl
@[simp] theorem State.updPort_dirs (s : State) (u : Nat) (f : Port → Port) : (s.updPort u f).dirs = s.dirs := rfl
@[simp] theorem State.updPort_waiters (s : State) (u : Nat) (f : Port → Port) : (s.updPort u f).waiters = s.waiters := rfl
@[simp] theorem State.updPort_posted (s : State) (u : Nat) (f : Port → Port) : (s.updPort u f).posted = s.posted := rfl
@[simp] theorem State.updPort_overflow (s : State) (u : Nat) (f : Port → Port) : (s.updPort u f).overflow = s.overflow := rfl
@[simp] theorem State.updPort_deliveries (s : State) (u : Nat) (f : Port → Port) : (s.updPort u f).deliveries = s.deliveries := rfl
@[simp] theorem State.updPort_ctxs (s : State) (u : Nat) (f : Port → Port) : (s.updPort u f).ctxs = s.ctxs := rfl
@[simp] theorem State.updPort_parts (s : State) (u : Nat) (f : Port → Port) : (s.updPort u f).parts = s.parts := rfl
@[simp] theorem State.updPort_evPending (s : State) (u : Nat) (f : Port → Port) : (s.updPort u f).evPending = s.evPending := rfl
@[simp] theorem State.updPort_hostBusy (s : State) (u : Nat) (f : Port → Port) : (s.updPort u f).hostBusy = s.hostBusy := rfl
@[simp] theorem State.updPort_tickDiv (s : State) (u : Nat) (f : Port → Port) : (s.updPort u f).tickDiv = s.tickDiv := rfl
@[simp] theorem State.updPort_nextTick (s : State) (u : Nat) (f : Port → Port) : (s.updPort u f).nextTick = s.nextTick := rfl
@[simp] theorem State.updPort_rdmBlast (s : State) (u : Nat) (f : Port → Port) : (s.updPort u f).rdmBlast = s.rdmBlast := rfl
@[simp] theorem State.updPort_rdmThresh (s : State) (u : Nat) (f : Port → Port) : (s.updPort u f).rdmThresh = s.rdmThresh := rfl
@[simp] theorem State.updPort_fabId (s : State) (u : Nat) (f : Port → Port) : (s.updPort u f).fabId = s.fabId := rfl
@[simp] theorem State.updPort_fabTmo (s : State) (u : Nat) (f : Port → Port) : (s.updPort u f).fabTmo = s.fabTmo := rfl
@[simp] theorem State.updPort_partSel (s : State) (u : Nat) (f : Port → Port) : (s.updPort u f).partSel = s.partSel := rfl
@[simp] theorem State.updPort_partResult (s : State) (u : Nat) (f : Port → Port) : (s.updPort u f).partResult = s.partResult := rfl
@[simp] theorem State.updPort_coreMap (s : State) (u : Nat) (f : Port → Port) : (s.updPort u f).coreMap = s.coreMap := rfl
@[simp] theorem State.updPort_coreMapReg (s : State) (u : Nat) (f : Port → Port) : (s.updPort u f).coreMapReg = s.coreMapReg := rfl
@[simp] theorem State.updPort_pwrLimit (s : State) (u : Nat) (f : Port → Port) : (s.updPort u f).pwrLimit = s.pwrLimit := rfl
@[simp] theorem State.updPort_thermTrip (s : State) (u : Nat) (f : Port → Port) : (s.updPort u f).thermTrip = s.thermTrip := rfl
@[simp] theorem State.updPort_thermMig (s : State) (u : Nat) (f : Port → Port) : (s.updPort u f).thermMig = s.thermMig := rfl
@[simp] theorem State.updPort_thermGidle (s : State) (u : Nat) (f : Port → Port) : (s.updPort u f).thermGidle = s.thermGidle := rfl
@[simp] theorem State.updPort_pwrShed (s : State) (u : Nat) (f : Port → Port) : (s.updPort u f).pwrShed = s.pwrShed := rfl
@[simp] theorem State.updPort_pwrNoslot (s : State) (u : Nat) (f : Port → Port) : (s.updPort u f).pwrNoslot = s.pwrNoslot := rfl
@[simp] theorem State.updPort_pwrWatts (s : State) (u : Nat) (f : Port → Port) : (s.updPort u f).pwrWatts = s.pwrWatts := rfl
@[simp] theorem State.updPort_coreTemps (s : State) (u : Nat) (f : Port → Port) : (s.updPort u f).coreTemps = s.coreTemps := rfl
@[simp] theorem State.updPort_pwrOver (s : State) (u : Nat) (f : Port → Port) : (s.updPort u f).pwrOver = s.pwrOver := rfl
@[simp] theorem State.updPort_nextWindow (s : State) (u : Nat) (f : Port → Port) : (s.updPort u f).nextWindow = s.nextWindow := rfl
@[simp] theorem State.updPort_svn (s : State) (u : Nat) (f : Port → Port) : (s.updPort u f).svn = s.svn := rfl
@[simp] theorem State.updPort_ctxSel (s : State) (u : Nat) (f : Port → Port) : (s.updPort u f).ctxSel = s.ctxSel := rfl
@[simp] theorem State.updPort_ctxResult (s : State) (u : Nat) (f : Port → Port) : (s.updPort u f).ctxResult = s.ctxResult := rfl
@[simp] theorem State.updPort_boot (s : State) (u : Nat) (f : Port → Port) : (s.updPort u f).boot = s.boot := rfl
@[simp] theorem State.updPort_bootError (s : State) (u : Nat) (f : Port → Port) : (s.updPort u f).bootError = s.bootError := rfl
@[simp] theorem State.updPort_ready (s : State) (u : Nat) (f : Port → Port) : (s.updPort u f).ready = s.ready := rfl
@[simp] theorem State.updPort_measured (s : State) (u : Nat) (f : Port → Port) : (s.updPort u f).measured = s.measured := rfl
@[simp] theorem State.updPort_imageSvn (s : State) (u : Nat) (f : Port → Port) : (s.updPort u f).imageSvn = s.imageSvn := rfl
@[simp] theorem State.updPort_nonce (s : State) (u : Nat) (f : Port → Port) : (s.updPort u f).nonce = s.nonce := rfl
@[simp] theorem State.updPort_attDone (s : State) (u : Nat) (f : Port → Port) : (s.updPort u f).attDone = s.attDone := rfl
@[simp] theorem State.updPort_attReport (s : State) (u : Nat) (f : Port → Port) : (s.updPort u f).attReport = s.attReport := rfl
@[simp] theorem State.updPort_creq (s : State) (u : Nat) (f : Port → Port) : (s.updPort u f).creq = s.creq := rfl
@[simp] theorem State.updPort_cargs (s : State) (u : Nat) (f : Port → Port) : (s.updPort u f).cargs = s.cargs := rfl
@[simp] theorem State.updPort_cresult (s : State) (u : Nat) (f : Port → Port) : (s.updPort u f).cresult = s.cresult := rfl
@[simp] theorem State.updPort_msix (s : State) (u : Nat) (f : Port → Port) : (s.updPort u f).msix = s.msix := rfl
@[simp] theorem State.updPort_hostRead (s : State) (u : Nat) (f : Port → Port) : (s.updPort u f).hostRead = s.hostRead := rfl
@[simp] theorem State.updPort_matching (s : State) (u : Nat) (f : Port → Port) : (s.updPort u f).matching = s.matching := rfl
@[simp] theorem State.updPort_fibreSlot (s : State) (u : Nat) (f : Port → Port) : (s.updPort u f).fibreSlot = s.fibreSlot := rfl
@[simp] theorem State.updPort_nextMseq (s : State) (u : Nat) (f : Port → Port) : (s.updPort u f).nextMseq = s.nextMseq := rfl
@[simp] theorem State.updPort_outMsgs (s : State) (u : Nat) (f : Port → Port) : (s.updPort u f).outMsgs = s.outMsgs := rfl
@[simp] theorem State.updPort_relayed (s : State) (u : Nat) (f : Port → Port) : (s.updPort u f).relayed = s.relayed := rfl
@[simp] theorem State.updPort_inMsgs (s : State) (u : Nat) (f : Port → Port) : (s.updPort u f).inMsgs = s.inMsgs := rfl
@[simp] theorem State.updPort_partial_ (s : State) (u : Nat) (f : Port → Port) : (s.updPort u f).partial_ = s.partial_ := rfl
@[simp] theorem State.updPort_collectives (s : State) (u : Nat) (f : Port → Port) : (s.updPort u f).collectives = s.collectives := rfl
@[simp] theorem State.updPort_fabSeq (s : State) (u : Nat) (f : Port → Port) : (s.updPort u f).fabSeq = s.fabSeq := rfl
@[simp] theorem State.updPort_engSeq (s : State) (u : Nat) (f : Port → Port) : (s.updPort u f).engSeq = s.engSeq := rfl

/-! ### `Cable.updPly` -/

@[simp] theorem Cable.updPly_uid (c : Cable) (u : Nat) (f : Ply → Ply) : (c.updPly u f).uid = c.uid := rfl
@[simp] theorem Cable.updPly_cid (c : Cable) (u : Nat) (f : Ply → Ply) : (c.updPly u f).cid = c.cid := rfl
@[simp] theorem Cable.updPly_part (c : Cable) (u : Nat) (f : Ply → Ply) : (c.updPly u f).part = c.part := rfl
@[simp] theorem Cable.updPly_ctx (c : Cable) (u : Nat) (f : Ply → Ply) : (c.updPly u f).ctx = c.ctx := rfl
@[simp] theorem Cable.updPly_coil (c : Cable) (u : Nat) (f : Ply → Ply) : (c.updPly u f).coil = c.coil := rfl
@[simp] theorem Cable.updPly_lrec (c : Cable) (u : Nat) (f : Ply → Ply) : (c.updPly u f).lrec = c.lrec := rfl
@[simp] theorem Cable.updPly_x (c : Cable) (u : Nat) (f : Ply → Ply) : (c.updPly u f).x = c.x := rfl
@[simp] theorem Cable.updPly_y (c : Cable) (u : Nat) (f : Ply → Ply) : (c.updPly u f).y = c.y := rfl
@[simp] theorem Cable.updPly_z (c : Cable) (u : Nat) (f : Ply → Ply) : (c.updPly u f).z = c.z := rfl
@[simp] theorem Cable.updPly_lin (c : Cable) (u : Nat) (f : Ply → Ply) : (c.updPly u f).lin = c.lin := rfl
@[simp] theorem Cable.updPly_state (c : Cable) (u : Nat) (f : Ply → Ply) : (c.updPly u f).state = c.state := rfl
@[simp] theorem Cable.updPly_lastCore (c : Cable) (u : Nat) (f : Ply → Ply) : (c.updPly u f).lastCore = c.lastCore := rfl
@[simp] theorem Cable.updPly_order (c : Cable) (u : Nat) (f : Ply → Ply) : (c.updPly u f).order = c.order := rfl
@[simp] theorem Cable.updPly_since (c : Cable) (u : Nat) (f : Ply → Ply) : (c.updPly u f).since = c.since := rfl
@[simp] theorem Cable.updPly_priv (c : Cable) (u : Nat) (f : Ply → Ply) : (c.updPly u f).priv = c.priv := rfl
@[simp] theorem Cable.updPly_k (c : Cable) (u : Nat) (f : Ply → Ply) : (c.updPly u f).k = c.k := rfl
@[simp] theorem Cable.updPly_lays (c : Cable) (u : Nat) (f : Ply → Ply) : (c.updPly u f).lays = c.lays := rfl
@[simp] theorem Cable.updPly_counters (c : Cable) (u : Nat) (f : Ply → Ply) : (c.updPly u f).counters = c.counters := rfl
@[simp] theorem Cable.updPly_cntOps (c : Cable) (u : Nat) (f : Ply → Ply) : (c.updPly u f).cntOps = c.cntOps := rfl
@[simp] theorem Cable.updPly_units (c : Cable) (u : Nat) (f : Ply → Ply) : (c.updPly u f).units = c.units := rfl
@[simp] theorem Cable.updPly_spad (c : Cable) (u : Nat) (f : Ply → Ply) : (c.updPly u f).spad = c.spad := rfl
@[simp] theorem Cable.updPly_spadPsn (c : Cable) (u : Nat) (f : Ply → Ply) : (c.updPly u f).spadPsn = c.spadPsn := rfl
@[simp] theorem Cable.updPly_unitCounts (c : Cable) (u : Nat) (f : Ply → Ply) : (c.updPly u f).unitCounts = c.unitCounts := rfl
@[simp] theorem Cable.updPly_tables (c : Cable) (u : Nat) (f : Ply → Ply) : (c.updPly u f).tables = c.tables := rfl
@[simp] theorem Cable.updPly_tiles (c : Cable) (u : Nat) (f : Ply → Ply) : (c.updPly u f).tiles = c.tiles := rfl
@[simp] theorem Cable.updPly_spillBase (c : Cable) (u : Nat) (f : Ply → Ply) : (c.updPly u f).spillBase = c.spillBase := rfl
@[simp] theorem Cable.updPly_spillSize (c : Cable) (u : Nat) (f : Ply → Ply) : (c.updPly u f).spillSize = c.spillSize := rfl
@[simp] theorem Cable.updPly_trapVec (c : Cable) (u : Nat) (f : Ply → Ply) : (c.updPly u f).trapVec = c.trapVec := rfl
@[simp] theorem Cable.updPly_trapPc (c : Cable) (u : Nat) (f : Ply → Ply) : (c.updPly u f).trapPc = c.trapPc := rfl
@[simp] theorem Cable.updPly_trapInfo (c : Cable) (u : Nat) (f : Ply → Ply) : (c.updPly u f).trapInfo = c.trapInfo := rfl
@[simp] theorem Cable.updPly_trapping (c : Cable) (u : Nat) (f : Ply → Ply) : (c.updPly u f).trapping = c.trapping := rfl
@[simp] theorem Cable.updPly_spillNext (c : Cable) (u : Nat) (f : Ply → Ply) : (c.updPly u f).spillNext = c.spillNext := rfl
@[simp] theorem Cable.updPly_nredCnt (c : Cable) (u : Nat) (f : Ply → Ply) : (c.updPly u f).nredCnt = c.nredCnt := rfl
@[simp] theorem Cable.updPly_wtqTmo (c : Cable) (u : Nat) (f : Ply → Ply) : (c.updPly u f).wtqTmo = c.wtqTmo := rfl
@[simp] theorem Cable.updPly_laFlags (c : Cable) (u : Nat) (f : Ply → Ply) : (c.updPly u f).laFlags = c.laFlags := rfl
@[simp] theorem Cable.updPly_dbg (c : Cable) (u : Nat) (f : Ply → Ply) : (c.updPly u f).dbg = c.dbg := rfl
@[simp] theorem Cable.updPly_stop (c : Cable) (u : Nat) (f : Ply → Ply) : (c.updPly u f).stop = c.stop := rfl
@[simp] theorem Cable.updPly_wps (c : Cable) (u : Nat) (f : Ply → Ply) : (c.updPly u f).wps = c.wps := rfl
@[simp] theorem Cable.updPly_ept (c : Cable) (u : Nat) (f : Ply → Ply) : (c.updPly u f).ept = c.ept := rfl
@[simp] theorem Cable.updPly_cmds (c : Cable) (u : Nat) (f : Ply → Ply) : (c.updPly u f).cmds = c.cmds := rfl
@[simp] theorem Cable.updPly_late (c : Cable) (u : Nat) (f : Ply → Ply) : (c.updPly u f).late = c.late := rfl
@[simp] theorem Cable.updPly_segs (c : Cable) (u : Nat) (f : Ply → Ply) : (c.updPly u f).segs = c.segs := rfl
@[simp] theorem Cable.updPly_board (c : Cable) (u : Nat) (f : Ply → Ply) : (c.updPly u f).board = c.board := rfl
@[simp] theorem Cable.updPly_strands (c : Cable) (u : Nat) (f : Ply → Ply) : (c.updPly u f).strands = c.strands := rfl
@[simp] theorem Cable.updPly_halts (c : Cable) (u : Nat) (f : Ply → Ply) : (c.updPly u f).halts = c.halts := rfl
@[simp] theorem Cable.updPly_saving (c : Cable) (u : Nat) (f : Ply → Ply) : (c.updPly u f).saving = c.saving := rfl
@[simp] theorem Cable.updPly_terminated (c : Cable) (u : Nat) (f : Ply → Ply) : (c.updPly u f).terminated = c.terminated := rfl
@[simp] theorem Cable.updPly_savedWaits (c : Cable) (u : Nat) (f : Ply → Ply) : (c.updPly u f).savedWaits = c.savedWaits := rfl
@[simp] theorem Cable.updPly_savedCounters (c : Cable) (u : Nat) (f : Ply → Ply) : (c.updPly u f).savedCounters = c.savedCounters := rfl
@[simp] theorem Cable.updPly_savedRebases (c : Cable) (u : Nat) (f : Ply → Ply) : (c.updPly u f).savedRebases = c.savedRebases := rfl
@[simp] theorem Cable.updPly_slotMap (c : Cable) (u : Nat) (f : Ply → Ply) : (c.updPly u f).slotMap = c.slotMap := rfl
@[simp] theorem Cable.updPly_yEnds (c : Cable) (u : Nat) (f : Ply → Ply) : (c.updPly u f).yEnds = c.yEnds := rfl
@[simp] theorem Cable.updPly_savedEntries (c : Cable) (u : Nat) (f : Ply → Ply) : (c.updPly u f).savedEntries = c.savedEntries := rfl
@[simp] theorem Cable.updPly_resuming (c : Cable) (u : Nat) (f : Ply → Ply) : (c.updPly u f).resuming = c.resuming := rfl

/-! ### `Cable.updStrand` -/

@[simp] theorem Cable.updStrand_uid (c : Cable) (u : Nat) (f : Strand → Strand) : (c.updStrand u f).uid = c.uid := rfl
@[simp] theorem Cable.updStrand_cid (c : Cable) (u : Nat) (f : Strand → Strand) : (c.updStrand u f).cid = c.cid := rfl
@[simp] theorem Cable.updStrand_part (c : Cable) (u : Nat) (f : Strand → Strand) : (c.updStrand u f).part = c.part := rfl
@[simp] theorem Cable.updStrand_ctx (c : Cable) (u : Nat) (f : Strand → Strand) : (c.updStrand u f).ctx = c.ctx := rfl
@[simp] theorem Cable.updStrand_coil (c : Cable) (u : Nat) (f : Strand → Strand) : (c.updStrand u f).coil = c.coil := rfl
@[simp] theorem Cable.updStrand_lrec (c : Cable) (u : Nat) (f : Strand → Strand) : (c.updStrand u f).lrec = c.lrec := rfl
@[simp] theorem Cable.updStrand_x (c : Cable) (u : Nat) (f : Strand → Strand) : (c.updStrand u f).x = c.x := rfl
@[simp] theorem Cable.updStrand_y (c : Cable) (u : Nat) (f : Strand → Strand) : (c.updStrand u f).y = c.y := rfl
@[simp] theorem Cable.updStrand_z (c : Cable) (u : Nat) (f : Strand → Strand) : (c.updStrand u f).z = c.z := rfl
@[simp] theorem Cable.updStrand_lin (c : Cable) (u : Nat) (f : Strand → Strand) : (c.updStrand u f).lin = c.lin := rfl
@[simp] theorem Cable.updStrand_state (c : Cable) (u : Nat) (f : Strand → Strand) : (c.updStrand u f).state = c.state := rfl
@[simp] theorem Cable.updStrand_lastCore (c : Cable) (u : Nat) (f : Strand → Strand) : (c.updStrand u f).lastCore = c.lastCore := rfl
@[simp] theorem Cable.updStrand_order (c : Cable) (u : Nat) (f : Strand → Strand) : (c.updStrand u f).order = c.order := rfl
@[simp] theorem Cable.updStrand_since (c : Cable) (u : Nat) (f : Strand → Strand) : (c.updStrand u f).since = c.since := rfl
@[simp] theorem Cable.updStrand_priv (c : Cable) (u : Nat) (f : Strand → Strand) : (c.updStrand u f).priv = c.priv := rfl
@[simp] theorem Cable.updStrand_k (c : Cable) (u : Nat) (f : Strand → Strand) : (c.updStrand u f).k = c.k := rfl
@[simp] theorem Cable.updStrand_lays (c : Cable) (u : Nat) (f : Strand → Strand) : (c.updStrand u f).lays = c.lays := rfl
@[simp] theorem Cable.updStrand_counters (c : Cable) (u : Nat) (f : Strand → Strand) : (c.updStrand u f).counters = c.counters := rfl
@[simp] theorem Cable.updStrand_cntOps (c : Cable) (u : Nat) (f : Strand → Strand) : (c.updStrand u f).cntOps = c.cntOps := rfl
@[simp] theorem Cable.updStrand_units (c : Cable) (u : Nat) (f : Strand → Strand) : (c.updStrand u f).units = c.units := rfl
@[simp] theorem Cable.updStrand_spad (c : Cable) (u : Nat) (f : Strand → Strand) : (c.updStrand u f).spad = c.spad := rfl
@[simp] theorem Cable.updStrand_spadPsn (c : Cable) (u : Nat) (f : Strand → Strand) : (c.updStrand u f).spadPsn = c.spadPsn := rfl
@[simp] theorem Cable.updStrand_unitCounts (c : Cable) (u : Nat) (f : Strand → Strand) : (c.updStrand u f).unitCounts = c.unitCounts := rfl
@[simp] theorem Cable.updStrand_tables (c : Cable) (u : Nat) (f : Strand → Strand) : (c.updStrand u f).tables = c.tables := rfl
@[simp] theorem Cable.updStrand_tiles (c : Cable) (u : Nat) (f : Strand → Strand) : (c.updStrand u f).tiles = c.tiles := rfl
@[simp] theorem Cable.updStrand_spillBase (c : Cable) (u : Nat) (f : Strand → Strand) : (c.updStrand u f).spillBase = c.spillBase := rfl
@[simp] theorem Cable.updStrand_spillSize (c : Cable) (u : Nat) (f : Strand → Strand) : (c.updStrand u f).spillSize = c.spillSize := rfl
@[simp] theorem Cable.updStrand_trapVec (c : Cable) (u : Nat) (f : Strand → Strand) : (c.updStrand u f).trapVec = c.trapVec := rfl
@[simp] theorem Cable.updStrand_trapPc (c : Cable) (u : Nat) (f : Strand → Strand) : (c.updStrand u f).trapPc = c.trapPc := rfl
@[simp] theorem Cable.updStrand_trapInfo (c : Cable) (u : Nat) (f : Strand → Strand) : (c.updStrand u f).trapInfo = c.trapInfo := rfl
@[simp] theorem Cable.updStrand_trapping (c : Cable) (u : Nat) (f : Strand → Strand) : (c.updStrand u f).trapping = c.trapping := rfl
@[simp] theorem Cable.updStrand_spillNext (c : Cable) (u : Nat) (f : Strand → Strand) : (c.updStrand u f).spillNext = c.spillNext := rfl
@[simp] theorem Cable.updStrand_nredCnt (c : Cable) (u : Nat) (f : Strand → Strand) : (c.updStrand u f).nredCnt = c.nredCnt := rfl
@[simp] theorem Cable.updStrand_wtqTmo (c : Cable) (u : Nat) (f : Strand → Strand) : (c.updStrand u f).wtqTmo = c.wtqTmo := rfl
@[simp] theorem Cable.updStrand_laFlags (c : Cable) (u : Nat) (f : Strand → Strand) : (c.updStrand u f).laFlags = c.laFlags := rfl
@[simp] theorem Cable.updStrand_dbg (c : Cable) (u : Nat) (f : Strand → Strand) : (c.updStrand u f).dbg = c.dbg := rfl
@[simp] theorem Cable.updStrand_stop (c : Cable) (u : Nat) (f : Strand → Strand) : (c.updStrand u f).stop = c.stop := rfl
@[simp] theorem Cable.updStrand_wps (c : Cable) (u : Nat) (f : Strand → Strand) : (c.updStrand u f).wps = c.wps := rfl
@[simp] theorem Cable.updStrand_ept (c : Cable) (u : Nat) (f : Strand → Strand) : (c.updStrand u f).ept = c.ept := rfl
@[simp] theorem Cable.updStrand_cmds (c : Cable) (u : Nat) (f : Strand → Strand) : (c.updStrand u f).cmds = c.cmds := rfl
@[simp] theorem Cable.updStrand_late (c : Cable) (u : Nat) (f : Strand → Strand) : (c.updStrand u f).late = c.late := rfl
@[simp] theorem Cable.updStrand_segs (c : Cable) (u : Nat) (f : Strand → Strand) : (c.updStrand u f).segs = c.segs := rfl
@[simp] theorem Cable.updStrand_board (c : Cable) (u : Nat) (f : Strand → Strand) : (c.updStrand u f).board = c.board := rfl
@[simp] theorem Cable.updStrand_plies (c : Cable) (u : Nat) (f : Strand → Strand) : (c.updStrand u f).plies = c.plies := rfl
@[simp] theorem Cable.updStrand_halts (c : Cable) (u : Nat) (f : Strand → Strand) : (c.updStrand u f).halts = c.halts := rfl
@[simp] theorem Cable.updStrand_saving (c : Cable) (u : Nat) (f : Strand → Strand) : (c.updStrand u f).saving = c.saving := rfl
@[simp] theorem Cable.updStrand_terminated (c : Cable) (u : Nat) (f : Strand → Strand) : (c.updStrand u f).terminated = c.terminated := rfl
@[simp] theorem Cable.updStrand_savedWaits (c : Cable) (u : Nat) (f : Strand → Strand) : (c.updStrand u f).savedWaits = c.savedWaits := rfl
@[simp] theorem Cable.updStrand_savedCounters (c : Cable) (u : Nat) (f : Strand → Strand) : (c.updStrand u f).savedCounters = c.savedCounters := rfl
@[simp] theorem Cable.updStrand_savedRebases (c : Cable) (u : Nat) (f : Strand → Strand) : (c.updStrand u f).savedRebases = c.savedRebases := rfl
@[simp] theorem Cable.updStrand_slotMap (c : Cable) (u : Nat) (f : Strand → Strand) : (c.updStrand u f).slotMap = c.slotMap := rfl
@[simp] theorem Cable.updStrand_yEnds (c : Cable) (u : Nat) (f : Strand → Strand) : (c.updStrand u f).yEnds = c.yEnds := rfl
@[simp] theorem Cable.updStrand_savedEntries (c : Cable) (u : Nat) (f : Strand → Strand) : (c.updStrand u f).savedEntries = c.savedEntries := rfl
@[simp] theorem Cable.updStrand_resuming (c : Cable) (u : Nat) (f : Strand → Strand) : (c.updStrand u f).resuming = c.resuming := rfl

/-! ### What an update changes -/

theorem State.cable_updCable (s : State) (u v : Nat) (f : Cable → Cable) :
    (s.updCable u f).cable v = if v = u then ((s.cables.find? u).map f).getD { uid := v, state := .ended } else s.cable v := by
  unfold State.cable State.updCable; exact SMap.getD_update ..

/-- A cable that the state lists is the function of itself after an update, and every other as before. -/
theorem State.cable_updCable_of_some {s : State} {u : Nat} {c : Cable} (h : s.cables.find? u = some c) (v : Nat)
    (f : Cable → Cable) : (s.updCable u f).cable v = if v = u then f (s.cable u) else s.cable v := by
  rw [State.cable_updCable]
  split
  · unfold State.cable SMap.getD; simp [h]
  · rfl

@[simp] theorem State.cable_updCable_other {s : State} {u v : Nat} (h : v ≠ u) (f : Cable → Cable) :
    (s.updCable u f).cable v = s.cable v := by
  rw [State.cable_updCable, if_neg h]

/-- The cable that an update finds, listed as it is. -/
theorem State.find?_updCable (s : State) (u v : Nat) (f : Cable → Cable) :
    (s.updCable u f).cables.find? v = if v = u then (s.cables.find? u).map f else s.cables.find? v := by
  unfold State.updCable; exact SMap.find?_update ..

@[simp] theorem State.core_updCore (s : State) (u v : Nat) (f : Core → Core) :
    (s.updCore u f).core v = if v = u then f (s.core u) else s.core v := by
  unfold State.updCore; conv => lhs; unfold State.core
  simp only [SMap.getD_insert]; split <;> rfl

@[simp] theorem State.ctx_updCtx (s : State) (u v : Nat) (f : Context → Context) :
    (s.updCtx u f).ctx v = if v = u then f (s.ctx u) else s.ctx v := by
  unfold State.updCtx; conv => lhs; unfold State.ctx
  simp only [SMap.getD_insert]; split <;> rfl

@[simp] theorem State.part_updPart (s : State) (u v : Nat) (f : Partition → Partition) :
    (s.updPart u f).part v = if v = u then f (s.part u) else s.part v := by
  unfold State.updPart; conv => lhs; unfold State.part
  simp only [SMap.getD_insert]; split <;> rfl

@[simp] theorem State.cable_updCore (s : State) (u v : Nat) (f : Core → Core) : (s.updCore u f).cable v = s.cable v := rfl
@[simp] theorem State.cable_updCtx (s : State) (u v : Nat) (f : Context → Context) : (s.updCtx u f).cable v = s.cable v := rfl
@[simp] theorem State.cable_updPart (s : State) (u v : Nat) (f : Partition → Partition) : (s.updPart u f).cable v = s.cable v := rfl
@[simp] theorem State.cable_setTxn (s : State) (t : Txn) (v : Nat) : (s.setTxn t).cable v = s.cable v := rfl
@[simp] theorem State.cable_dropTxn (s : State) (u v : Nat) : (s.dropTxn u).cable v = s.cable v := rfl
@[simp] theorem State.core_updCable (s : State) (u v : Nat) (f : Cable → Cable) : (s.updCable u f).core v = s.core v := rfl
@[simp] theorem State.ctx_updCable (s : State) (u v : Nat) (f : Cable → Cable) : (s.updCable u f).ctx v = s.ctx v := rfl
@[simp] theorem State.part_updCable (s : State) (u v : Nat) (f : Cable → Cable) : (s.updCable u f).part v = s.part v := rfl

theorem Cable.strand_updStrand_of_some {c : Cable} {i : Nat} {t : Strand} (h : c.strands.find? i = some t) (j : Nat)
    (f : Strand → Strand) : (c.updStrand i f).strand j = if j = i then f (c.strand i) else c.strand j := by
  unfold Cable.strand Cable.updStrand SMap.getD
  simp only [SMap.find?_update]
  split <;> simp [h]

@[simp] theorem Cable.strand_updStrand_other {c : Cable} {i j : Nat} (h : j ≠ i) (f : Strand → Strand) :
    (c.updStrand i f).strand j = c.strand j := by
  unfold Cable.strand Cable.updStrand SMap.getD
  simp [SMap.find?_update, h]

/-- A live strand is listed. -/
theorem Cable.strand_listed {c : Cable} {i : Nat} (h : (c.strand i).live = true) : ∃ t, c.strands.find? i = some t := by
  unfold Cable.strand SMap.getD at h
  cases hf : c.strands.find? i with
  | some t => exact ⟨t, rfl⟩
  | none => simp [hf] at h

@[simp] theorem Cable.strand_updPly (c : Cable) (p j : Nat) (f : Ply → Ply) : (c.updPly p f).strand j = c.strand j := rfl
@[simp] theorem Cable.ply_updStrand (c : Cable) (i p : Nat) (f : Strand → Strand) : (c.updStrand i f).ply p = c.ply p := rfl

@[simp] theorem Cable.ply_updPly_other {c : Cable} {p q : Nat} (h : q ≠ p) (f : Ply → Ply) :
    (c.updPly p f).ply q = c.ply q := by
  unfold Cable.ply Cable.updPly SMap.getD
  simp [SMap.find?_update, h]

end Sys2Proof.Machine
end

