-- ==== Sys2Proof/Laws/Results.lean ====
section
/-! SUPPORT. What giving a result to strands does (04 R90 to R93, 05 R130): the strands, and nothing outside the cable. -/
namespace Sys2Proof.Machine

/-! ### Within the cable -/

theorem State.OnlyCable.rfl {uid : Nat} {s : State} : State.OnlyCable uid s s := ⟨by rfl, fun _ _ => by rfl⟩

theorem State.OnlyCable.trans {uid : Nat} {s t u : State} (h : State.OnlyCable uid s t) (g : State.OnlyCable uid t u) :
    State.OnlyCable uid s u := by
  refine ⟨?_, fun v hv => (g.2 v hv).trans (h.2 v hv)⟩
  rw [g.1, h.1]

theorem State.OnlyCable.updCable (s : State) (uid : Nat) (f : Cable → Cable) : State.OnlyCable uid s (s.updCable uid f) :=
  ⟨by rfl, fun v hv => by rw [State.find?_updCable, if_neg hv]⟩

theorem State.OnlyCable.foldl {α : Type} {uid : Nat} (g : State → α → State) (h : ∀ s a, State.OnlyCable uid s (g s a))
    (l : List α) (s : State) : State.OnlyCable uid s (l.foldl g s) := by
  induction l generalizing s with
  | nil => exact .rfl
  | cons a l ih => exact (h s a).trans (ih _)

theorem State.OnlyCable.cable {uid : Nat} {s t : State} (h : State.OnlyCable uid s t) {v : Nat} (hv : v ≠ uid) :
    t.cable v = s.cable v := by
  unfold State.cable SMap.getD; rw [h.2 v hv]

theorem OnlyCable_updClause (s : State) (uid p gid : Nat) (f : Clause → Clause) :
    State.OnlyCable uid s (s.updClause uid p gid f) := .updCable ..

theorem OnlyCable_updWalker (s : State) (uid cmd w : Nat) (f : Walker → Walker) :
    State.OnlyCable uid s (s.updWalker uid cmd w f) := .updCable ..

theorem OnlyCable_writeOne (s : State) (uid j lay : Nat) (op : Operand) (i : Nat) (r : PReg) (who : Nat) :
    State.OnlyCable uid s (s.writeOne uid j lay op i r who) := by
  unfold State.writeOne
  split <;> first | exact .updCable .. | exact .rfl | (dsimp only; split <;> first | exact OnlyCable_updClause .. | exact .rfl)

theorem OnlyCable_writeDst (s : State) (e : Env) (j lay : Nat) (op : Operand) (wide : Bool) (v : W64) (p0 p1 : Bool) (who : Nat) :
    State.OnlyCable e.uid s (s.writeDst e j lay op wide v p0 p1 who) := by
  unfold State.writeDst
  split
  · split <;> first | exact OnlyCable_updWalker .. | exact .rfl
  · dsimp only
    split
    · exact (OnlyCable_writeOne ..).trans (OnlyCable_writeOne ..)
    · exact OnlyCable_writeOne ..

theorem OnlyCable_setLatch (s : State) (e : Env) (j : Nat) (l : Option Latch) :
    State.OnlyCable e.uid s (s.setLatch e j l) := by
  unfold State.setLatch; split <;> exact .updCable ..

theorem OnlyCable_orFlags (s : State) (e : Env) (l : List Nat) (fl : Flags) :
    State.OnlyCable e.uid s (s.orFlags e l fl) := by
  unfold State.orFlags
  split
  · exact .rfl
  · split
    · exact .updCable ..
    · exact .foldl _ (fun s a => .updCable ..) _ _

theorem OnlyCable_putDraw (s : State) (e : Env) (j : Nat) (x : Option W32) :
    State.OnlyCable e.uid s (s.putDraw e j x) := by
  unfold State.putDraw; split
  · exact .rfl
  · exact .updCable ..

theorem OnlyCable_ownLatch (s : State) (e : Env) (l : List Nat) : State.OnlyCable e.uid s (s.ownLatch e l) := by
  unfold State.ownLatch; split
  · exact .rfl
  · exact .updCable ..

theorem OnlyCable_deposit (s : State) (x : Issue) (d : Dest) (j : Nat) (v : Val) :
    State.OnlyCable x.e.uid s (s.deposit x d j v) := by
  unfold State.deposit
  refine State.OnlyCable.trans ?_ (OnlyCable_setLatch _ x.e j _)
  refine State.OnlyCable.trans ?_ (OnlyCable_putDraw _ x.e j _)
  refine State.OnlyCable.trans ?_ (OnlyCable_orFlags _ x.e [j] _)
  exact OnlyCable_writeDst s x.e ..

/-- Each contributor's result changes nothing outside the cable. -/
theorem OnlyCable_depositEach (s : State) (x : Issue) (d : Dest) (f : Nat → Val) :
    State.OnlyCable x.e.uid s (s.depositEach x d f) := by
  unfold State.depositEach
  refine State.OnlyCable.trans ?_ (OnlyCable_ownLatch _ _ _)
  refine State.OnlyCable.foldl (fun s (jv : Nat × Val) => s.deposit x d jv.1 jv.2) ?_ _ _
  intro s a
  exact OnlyCable_deposit s x d a.1 a.2

theorem OnlyCable_putUniform (s : State) (x : Issue) (d : Dest) (v : Val) :
    State.OnlyCable x.e.uid s (s.putUniform x d v) := by
  unfold State.putUniform
  split
  all_goals
    refine State.OnlyCable.foldl _ (fun s a => ?_) _ _
    split
    · exact OnlyCable_writeDst s x.e ..
    · exact .rfl

/-- The one result of a wider scope changes nothing outside the cable. -/
theorem OnlyCable_depositUniform (s : State) (x : Issue) (d : Dest) (v : Val) :
    State.OnlyCable x.e.uid s (s.depositUniform x d v) := by
  unfold State.depositUniform
  refine State.OnlyCable.trans ?_ (State.OnlyCable.foldl _ (fun s j => OnlyCable_setLatch s x.e j _) _ _)
  refine State.OnlyCable.trans ?_ (OnlyCable_putDraw _ x.e _ _)
  refine State.OnlyCable.trans ?_ (OnlyCable_orFlags _ x.e _ _)
  exact OnlyCable_putUniform s x d v

/-! ### The strands -/

theorem State.strand_updStrand {s : State} {uid j : Nat} (h : ((s.cable uid).strand j).live = true) (i : Nat)
    (f : Strand → Strand) :
    ((s.updStrand uid j f).cable uid).strand i = if i = j then f ((s.cable uid).strand j) else (s.cable uid).strand i := by
  have hc : ∃ c, s.cables.find? uid = some c := by
    cases hf : s.cables.find? uid with
    | some c => exact ⟨c, by rfl⟩
    | none =>
      have : s.cable uid = { uid := uid, state := .ended } := by unfold State.cable SMap.getD; rw [hf]; rfl
      rw [this] at h; cases h
  obtain ⟨c, hc⟩ := hc
  obtain ⟨t, ht⟩ := Cable.strand_listed h
  unfold State.updStrand
  rw [State.cable_updCable_of_some hc, if_pos rfl, Cable.strand_updStrand_of_some ht]

/-- An update of a cable that leaves every strand leaves the strands of the state. -/
theorem State.strand_updCable {s : State} {uid : Nat} {f : Cable → Cable} (h : ∀ c i, (f c).strand i = c.strand i) (i : Nat) :
    ((s.updCable uid f).cable uid).strand i = (s.cable uid).strand i := by
  cases hf : s.cables.find? uid with
  | some c => rw [State.cable_updCable_of_some hf, if_pos rfl, h]
  | none =>
    rw [State.cable_updCable, if_pos rfl, hf]
    unfold State.cable SMap.getD; rw [hf]; rfl

theorem Cable.strand_staleReg (c : Cable) (j n i : Nat) : (c.staleReg j n).strand i = c.strand i := by
  unfold Cable.staleReg; split <;> rfl

theorem State.updCable_updCable (s : State) (uid : Nat) (f g : Cable → Cable) :
    (s.updCable uid f).updCable uid g = s.updCable uid fun c => g (f c) := by
  unfold State.updCable SMap.update
  simp only [List.map_map]
  congr 1
  refine List.map_congr_left fun e _ => ?_
  by_cases h : e.1 = uid <;> simp [h]

theorem strand_updClause (s : State) (uid p gid : Nat) (f : Clause → Clause) (i : Nat) :
    ((s.updClause uid p gid f).cable uid).strand i = (s.cable uid).strand i := by
  unfold State.updClause State.updGroup State.updPly
  exact State.strand_updCable (f := fun c => c.updPly p _) (fun _ _ => rfl) i

theorem strand_writeOne_shared {s : State} {uid j lay : Nat} {op : Operand} (h : ∀ n, op ≠ .v n ∧ op ≠ .o n) (i n : Nat)
    (r : PReg) (who : Nat) : ((s.writeOne uid j lay op i r who).cable uid).strand n = (s.cable uid).strand n := by
  unfold State.writeOne
  split
  · exact absurd rfl (h _).1
  · exact absurd rfl (h _).2
  all_goals first | rfl | (dsimp only; split <;> first | rfl | exact strand_updClause ..)

/-- A write of one register of a strand that is live. -/
theorem strand_writeOne_v {s : State} {uid j : Nat} (hl : ((s.cable uid).strand j).live = true) (lay n k i : Nat) (r : PReg)
    (who : Nat) :
    ((s.writeOne uid j lay (.v n) k r who).cable uid).strand i = if i = j then
      { (s.cable uid).strand j with
        v := ((s.cable uid).strand j).v.insert (n + k) r, spilled := setErase (n + k) ((s.cable uid).strand j).spilled }
      else (s.cable uid).strand i := by
  have : s.writeOne uid j lay (.v n) k r who
      = (s.updStrand uid j fun t => if t.live then { t with v := t.v.insert (n + k) r, spilled := setErase (n + k) t.spilled } else t).updCable
          uid fun c => c.staleReg j (n + k) := by
    unfold State.updStrand; rw [State.updCable_updCable]; rfl
  rw [this, State.strand_updCable (fun c i => Cable.strand_staleReg c ..), State.strand_updStrand hl]
  simp [hl]

theorem strand_writeOne_o {s : State} {uid j : Nat} (hl : ((s.cable uid).strand j).live = true) (lay n k i : Nat) (r : PReg)
    (who : Nat) :
    ((s.writeOne uid j lay (.o n) k r who).cable uid).strand i = if i = j then
      { (s.cable uid).strand j with o := ((s.cable uid).strand j).o.insert (n + k) r }
      else (s.cable uid).strand i := by
  have : s.writeOne uid j lay (.o n) k r who
      = s.updStrand uid j fun t => if t.live then { t with o := t.o.insert (n + k) r } else t := rfl
  rw [this, State.strand_updStrand hl]
  simp [hl]

/-- A strand given a result (04 R90, 01 R26): every other strand is as it was. -/
theorem strand_deposit {s : State} {x : Issue} {d : Dest} {j : Nat} (v : Val) (hw : x.e.walker = false)
    (hl : ((s.cable x.e.uid).strand j).live = true) (i : Nat) :
    ((s.deposit x d j v).cable x.e.uid).strand i
      = if i = j then ((s.cable x.e.uid).strand j).given d.op d.ty.wide v else (s.cable x.e.uid).strand i := by
  -- the destination
  have h1 : ∀ i, ((s.writeDst x.e j x.lay d.op d.ty.wide v.val v.p0 v.p1).cable x.e.uid).strand i
      = if i = j then
          { (s.cable x.e.uid).strand j with
            v := (((s.cable x.e.uid).strand j).given d.op d.ty.wide v).v
            spilled := (((s.cable x.e.uid).strand j).given d.op d.ty.wide v).spilled
            o := (((s.cable x.e.uid).strand j).given d.op d.ty.wide v).o }
        else (s.cable x.e.uid).strand i := by
    intro i
    unfold State.writeDst
    rw [if_neg (by simp [hw])]
    cases hop : d.op with
    | v n =>
      have h0 := fun i => strand_writeOne_v hl x.lay n 0 i ⟨v.val.lo, v.p0⟩ j
      by_cases hwide : d.ty.wide = true
      · have hl' : (((s.writeOne x.e.uid j x.lay (.v n) 0 ⟨v.val.lo, v.p0⟩ j).cable x.e.uid).strand j).live = true := by
          rw [h0, if_pos rfl]; exact hl
        dsimp only
        rw [if_pos hwide, strand_writeOne_v hl', h0, h0]
        by_cases hi : i = j <;> simp [hi, Strand.given, givenRegs, hwide]
      · dsimp only
        rw [if_neg hwide, h0]
        by_cases hi : i = j <;> simp [hi, Strand.given, givenRegs, hwide]
    | o n =>
      have h0 := fun i => strand_writeOne_o hl x.lay n 0 i ⟨v.val.lo, v.p0⟩ j
      by_cases hwide : d.ty.wide = true
      · have hl' : (((s.writeOne x.e.uid j x.lay (.o n) 0 ⟨v.val.lo, v.p0⟩ j).cable x.e.uid).strand j).live = true := by
          rw [h0, if_pos rfl]; exact hl
        dsimp only
        rw [if_pos hwide, strand_writeOne_o hl', h0, h0]
        by_cases hi : i = j <;> simp [hi, Strand.given, givenRegs, hwide]
      · dsimp only
        rw [if_neg hwide, h0]
        by_cases hi : i = j <;> simp [hi, Strand.given, givenRegs, hwide]
    | _ =>
      have h0 : ∀ (s : State) (op : Operand), (∀ n, op ≠ .v n ∧ op ≠ .o n) → ∀ k (r : PReg),
          ((s.writeOne x.e.uid j x.lay op k r j).cable x.e.uid).strand i = (s.cable x.e.uid).strand i :=
        fun s op h k r => strand_writeOne_shared h k i r j
      dsimp only
      by_cases hwide : d.ty.wide = true
      · rw [if_pos hwide, h0 _ _ (by simp), h0 _ _ (by simp)]
        by_cases hi : i = j <;> simp [hi, Strand.given]
      · rw [if_neg hwide, h0 _ _ (by simp)]
        by_cases hi : i = j <;> simp [hi, Strand.given]
  -- its flags
  have h2 : ∀ i, (((s.writeDst x.e j x.lay d.op d.ty.wide v.val v.p0 v.p1).orFlags x.e [j] v.flags).cable x.e.uid).strand i
      = if i = j then
          { (s.cable x.e.uid).strand j with
            v := (((s.cable x.e.uid).strand j).given d.op d.ty.wide v).v
            spilled := (((s.cable x.e.uid).strand j).given d.op d.ty.wide v).spilled
            o := (((s.cable x.e.uid).strand j).given d.op d.ty.wide v).o
            fflags := ((s.cable x.e.uid).strand j).fflags ||| v.flags }
        else (s.cable x.e.uid).strand i := by
    intro i
    unfold State.orFlags
    by_cases hf : v.flags = 0
    · rw [if_pos hf, h1]; simp [hf]
    · rw [if_neg hf, if_neg (by simp [hw])]
      simp only [List.foldl_cons, List.foldl_nil]
      rw [State.strand_updStrand (by rw [h1, if_pos rfl]; exact hl), h1, h1]
      by_cases hi : i = j <;> simp [hi]
  -- its generator
  have h3 : ∀ i, ((((s.writeDst x.e j x.lay d.op d.ty.wide v.val v.p0 v.p1).orFlags x.e [j] v.flags).putDraw x.e j v.sr).cable
        x.e.uid).strand i
      = if i = j then
          { (s.cable x.e.uid).strand j with
            v := (((s.cable x.e.uid).strand j).given d.op d.ty.wide v).v
            spilled := (((s.cable x.e.uid).strand j).given d.op d.ty.wide v).spilled
            o := (((s.cable x.e.uid).strand j).given d.op d.ty.wide v).o
            fflags := ((s.cable x.e.uid).strand j).fflags ||| v.flags
            sr := (((s.cable x.e.uid).strand j).given d.op d.ty.wide v).sr }
        else (s.cable x.e.uid).strand i := by
    intro i
    unfold State.putDraw
    cases hs : v.sr with
    | none => dsimp only; rw [h2]; simp [Strand.given, hs]
    | some y =>
      dsimp only
      rw [State.strand_updStrand (by rw [h2, if_pos rfl]; exact hl), h2, h2]
      by_cases hi : i = j <;> simp [hi, Strand.given, hs]
  show ((State.setLatch _ x.e j (some (v.latch d.ty.wide))).cable x.e.uid).strand i = _
  unfold State.setLatch
  rw [if_neg (by simp [hw]), State.strand_updStrand (by rw [h3, if_pos rfl]; exact hl), h3, h3]
  by_cases hi : i = j <;> simp [hi, Strand.given]

theorem strand_ownLatch (s : State) (e : Env) (l : List Nat) (i : Nat) :
    ((s.ownLatch e l).cable e.uid).strand i = (s.cable e.uid).strand i := by
  unfold State.ownLatch; split
  · rfl
  · refine State.strand_updCable ?_ i
    intro c i; rfl

/-- Every contributor is given its own result, and no other strand changes (06 R163). -/
theorem strand_depositEach {s : State} {x : Issue} {d : Dest} (f : Nat → Val) (hw : x.e.walker = false)
    (hl : ∀ j ∈ x.contrib, ((s.cable x.e.uid).strand j).live = true) (hn : x.contrib.Nodup) (i : Nat) :
    ((s.depositEach x d f).cable x.e.uid).strand i
      = if i ∈ x.contrib then ((s.cable x.e.uid).strand i).given d.op d.ty.wide (f i) else (s.cable x.e.uid).strand i := by
  unfold State.depositEach
  rw [strand_ownLatch]
  generalize x.contrib = l at hl hn
  induction l generalizing s with
  | nil => simp
  | cons j l ih =>
    obtain ⟨hj, hn⟩ := List.nodup_cons.mp hn
    have hlj := hl j (List.mem_cons_self ..)
    simp only [List.map_cons, List.foldl_cons]
    rw [ih _ hn]
    · rw [strand_deposit _ hw hlj]
      by_cases hi : i = j
      · subst hi; simp [hj]
      · simp [hi]
    · intro k hk
      have hkj : ¬ k = j := fun e => hj (e ▸ hk)
      rw [strand_deposit _ hw hlj, if_neg hkj]
      exact hl k (List.mem_cons_of_mem _ hk)

end Sys2Proof.Machine
end

