-- ==== Sys2Proof/Laws/Compute.lean ====
section
/-! SUPPORT. What an instruction that computes leaves: the one lemma about `State.compute` (04 R90, R92). -/
namespace Sys2Proof.Machine

/-! ### Shared registers through a clause's log (05 R131) -/

/-- The group that a write of a strand goes to. -/
theorem inClause_group {s : State} {uid j : Nat} (h : s.inClause uid j = true) :
    ∃ g cl, ((s.cable uid).ply (j / 32)).groups.find? (fun g => g.lanes.getLsbD (j % 32)) = some g ∧ g.clause = some cl := by
  unfold State.inClause at h
  split at h
  · rename_i g cl hg; exact ⟨_, _, hg, rfl⟩
  · cases h

theorem ply_updPly {s : State} {uid p : Nat} {g : Group} {q : Group → Bool}
    (h : ((s.cable uid).ply p).groups.find? q = some g) (f : Ply → Ply) :
    ((s.updPly uid p f).cable uid).ply p = f ((s.cable uid).ply p) := by
  have hc : ∃ c, s.cables.find? uid = some c := by
    cases hf : s.cables.find? uid with
    | some c => exact ⟨c, rfl⟩
    | none =>
      have : s.cable uid = { uid := uid, state := .ended } := by unfold State.cable SMap.getD; rw [hf]; rfl
      rw [this] at h; cases h
  obtain ⟨c, hc⟩ := hc
  have hs : s.cable uid = c := by unfold State.cable SMap.getD; rw [hc]; rfl
  unfold State.updPly
  rw [State.cable_updCable_of_some hc, if_pos rfl, hs]
  rw [hs] at h
  cases hy : c.plies.find? p with
  | none =>
    have : c.ply p = {} := by unfold Cable.ply SMap.getD; rw [hy]; rfl
    rw [this] at h; cases h
  | some y =>
    unfold Cable.ply Cable.updPly SMap.getD
    simp [SMap.find?_update, hy]

theorem find?_updGroup {y : Ply} {gid : Nat} {f : Group → Group} {q : Group → Bool} {g : Group}
    (hq : ∀ g, q (f g) = q g) (h : y.groups.find? q = some g) (hg : g.gid = gid) :
    (y.updGroup gid f).groups.find? q = some (f g) := by
  unfold Ply.updGroup
  simp only [List.find?_map]
  have : (q ∘ fun g => if g.gid = gid then f g else g) = q := by
    funext g; simp only [Function.comp]; split <;> simp [hq]
  rw [this, h]; simp [hg]

theorem clauseOf_of_group {s : State} {uid j : Nat} {g : Group} {cl : Clause}
    (h : ((s.cable uid).ply (j / 32)).groups.find? (fun g => g.lanes.getLsbD (j % 32)) = some g) (hc : g.clause = some cl) :
    s.clauseOf uid j = cl := by
  unfold State.clauseOf
  simp only [h]
  obtain ⟨_, _, _, c, _⟩ := g
  simp only at hc; subst hc; rfl

theorem inClause_of_group {s : State} {uid j : Nat} {g : Group} {cl : Clause}
    (h : ((s.cable uid).ply (j / 32)).groups.find? (fun g => g.lanes.getLsbD (j % 32)) = some g) (hc : g.clause = some cl) :
    s.inClause uid j = true := by
  unfold State.inClause
  simp only [h]
  obtain ⟨_, _, _, c, _⟩ := g
  simp only at hc; subst hc; rfl

/-- A strand's clause after its group's clause changed. -/
theorem clauseOf_updClause {s : State} {uid j : Nat} {g : Group} {cl : Clause}
    (h : ((s.cable uid).ply (j / 32)).groups.find? (fun g => g.lanes.getLsbD (j % 32)) = some g) (hc : g.clause = some cl)
    (f : Clause → Clause) :
    (s.updClause uid (j / 32) g.gid f).clauseOf uid j = f cl ∧ (s.updClause uid (j / 32) g.gid f).inClause uid j = true := by
  have hf : (((s.updClause uid (j / 32) g.gid f).cable uid).ply (j / 32)).groups.find? (fun g => g.lanes.getLsbD (j % 32))
      = some { g with clause := some (f cl) } := by
    unfold State.updClause State.updGroup
    rw [ply_updPly h]
    have := find?_updGroup (y := (s.cable uid).ply (j / 32)) (gid := g.gid) (q := fun g => g.lanes.getLsbD (j % 32))
      (f := fun g => { g with clause := g.clause.map f }) (fun _ => rfl) h rfl
    rw [this, hc]; rfl
  exact ⟨clauseOf_of_group hf rfl, inClause_of_group hf rfl⟩

/-- The name of a shared register in a log. -/
def Operand.key (op : Operand) (strand lay i : Nat) : Option RegKey :=
  match op with
  | .s n => some (.s (strand / 32) (n + i)) | .k n => some (.k (n + i)) | .y n => some (.y lay (n + i)) | _ => none

theorem readOne_shared {s : State} {e : Env} {j lay i : Nat} {op : Operand} {key : RegKey} (h : op.key j lay i = some key) :
    s.readOne e j lay op i = (s.clauseOf e.uid j).readReg key := by
  cases op <;> cases h <;> rfl

theorem readReg_append (cl : Clause) (key k : RegKey) (j : Nat) (r : PReg) (p : Option Nat) :
    ({ cl with log := cl.log ++ [.reg k j r p] } : Clause).readReg key = if k = key then r else cl.readReg key := by
  unfold Clause.readReg
  simp only [List.foldl_append, List.foldl_cons, List.foldl_nil]
  by_cases h : k = key <;> simp [h]

theorem writeOne_shared {s : State} {uid j lay i : Nat} {op : Operand} {key : RegKey} (hk : op.key j lay i = some key)
    {g : Group} (h : ((s.cable uid).ply (j / 32)).groups.find? (fun g => g.lanes.getLsbD (j % 32)) = some g) (r : PReg)
    (who : Nat) :
    s.writeOne uid j lay op i r who
      = s.updClause uid (j / 32) g.gid fun cl => { cl with log := cl.log ++ [.reg key who r (some s.stepCount)] } := by
  unfold State.writeOne
  cases op <;> cases hk <;> simp only [h]

/-- A write of a shared register, as the writing strand's clause then reads every shared register. -/
theorem clauseOf_writeOne {s : State} {uid j lay i : Nat} {op : Operand} {key : RegKey} (hk : op.key j lay i = some key)
    (h : s.inClause uid j = true) (r : PReg) (who : Nat) :
    (s.writeOne uid j lay op i r who).inClause uid j = true ∧
    ∀ k, ((s.writeOne uid j lay op i r who).clauseOf uid j).readReg k
      = if key = k then r else (s.clauseOf uid j).readReg k := by
  obtain ⟨g, cl, hg, hc⟩ := inClause_group h
  rw [writeOne_shared hk hg]
  obtain ⟨h1, h2⟩ := clauseOf_updClause hg hc fun cl => { cl with log := cl.log ++ [.reg key who r (some s.stepCount)] }
  refine ⟨h2, fun k => ?_⟩
  rw [h1, clauseOf_of_group hg hc, readReg_append]

theorem Operand.shared_key {op : Operand} (h : op.shared = true) (j lay i : Nat) : ∃ k, op.key j lay i = some k := by
  cases op <;> simp [Operand.shared] at h <;> exact ⟨_, rfl⟩

theorem Operand.key_ne {op : Operand} {j lay : Nat} {a b : RegKey} (ha : op.key j lay 0 = some a)
    (hb : op.key j lay 1 = some b) : b ≠ a := by
  cases op <;> simp [Operand.key] at ha hb <;> subst ha <;> subst hb <;> simp

/-- A strand's write of a shared destination, read back. -/
theorem readOne_writeDst {s : State} {e : Env} {j lay : Nat} {op : Operand} (hw : e.walker = false)
    (hs : op.shared = true) (h : s.inClause e.uid j = true) (wide : Bool) (v : W64) (p0 p1 : Bool) (who : Nat) :
    let t := s.writeDst e j lay op wide v p0 p1 who
    t.inClause e.uid j = true ∧ t.readOne e j lay op 0 = ⟨v.lo, p0⟩ ∧
      (wide = true → t.readOne e j lay op 1 = ⟨v.hi, p1⟩) := by
  obtain ⟨k0, hk0⟩ := Operand.shared_key hs j lay 0
  obtain ⟨k1, hk1⟩ := Operand.shared_key hs j lay 1
  have hne := Operand.key_ne hk0 hk1
  dsimp only
  unfold State.writeDst
  rw [if_neg (by simp [hw])]
  obtain ⟨a1, a2⟩ := clauseOf_writeOne hk0 h ⟨v.lo, p0⟩ who
  cases wide with
  | false =>
    simp only [Bool.false_eq_true, if_false]
    exact ⟨a1, by rw [readOne_shared hk0, a2, if_pos rfl], fun h => by cases h⟩
  | true =>
    simp only [if_true]
    obtain ⟨b1, b2⟩ := clauseOf_writeOne hk1 a1 ⟨v.hi, p1⟩ who
    refine ⟨b1, ?_, fun _ => ?_⟩
    · rw [readOne_shared hk0, b2, if_neg hne, a2, if_pos rfl]
    · rw [readOne_shared hk1, b2, if_pos rfl]

/-! ### What leaves the clauses -/

/-- A change of state that leaves every clause of a cable. -/
def SameClauses (uid : Nat) (s t : State) : Prop :=
  ∀ j, t.clauseOf uid j = s.clauseOf uid j ∧ t.inClause uid j = s.inClause uid j

theorem SameClauses.trans {uid : Nat} {s t u : State} (h : SameClauses uid s t) (g : SameClauses uid t u) :
    SameClauses uid s u := fun j => ⟨(g j).1.trans (h j).1, (g j).2.trans (h j).2⟩

theorem SameClauses.of_plies {uid : Nat} {s : State} {f : Cable → Cable} (h : ∀ c p, (f c).ply p = c.ply p) :
    SameClauses uid s (s.updCable uid f) := by
  have : ∀ p, ((s.updCable uid f).cable uid).ply p = (s.cable uid).ply p := by
    intro p
    cases hf : s.cables.find? uid with
    | some c => rw [State.cable_updCable_of_some hf, if_pos rfl, h]
    | none => rw [State.cable_updCable, if_pos rfl, hf]; unfold State.cable SMap.getD; rw [hf]; rfl
  intro j
  unfold State.clauseOf State.inClause
  simp only [this]
  exact ⟨by trivial, by trivial⟩

theorem SameClauses.foldl {α : Type} {uid : Nat} (g : State → α → State) (h : ∀ s a, SameClauses uid s (g s a))
    (l : List α) (s : State) : SameClauses uid s (l.foldl g s) := by
  induction l generalizing s with
  | nil => exact fun _ => ⟨rfl, rfl⟩
  | cons a l ih => exact (h s a).trans (ih _)

theorem SameClauses.updStrand (s : State) (uid j : Nat) (f : Strand → Strand) :
    SameClauses uid s (s.updStrand uid j f) := by
  unfold State.updStrand
  exact SameClauses.of_plies fun _ _ => rfl

theorem SameClauses_setLatch {s : State} {e : Env} (hw : e.walker = false) (j : Nat) (l : Option Latch) :
    SameClauses e.uid s (s.setLatch e j l) := by
  unfold State.setLatch; rw [if_neg (by simp [hw])]; exact SameClauses.updStrand s e.uid j _

theorem SameClauses_orFlags {s : State} {e : Env} (hw : e.walker = false) (l : List Nat) (fl : Flags) :
    SameClauses e.uid s (s.orFlags e l fl) := by
  unfold State.orFlags
  split
  · exact fun _ => ⟨rfl, rfl⟩
  · rw [if_neg (by simp [hw])]
    refine SameClauses.foldl (fun s j => s.updStrand e.uid j fun t => { t with fflags := t.fflags ||| fl }) ?_ _ _
    intro s j; exact SameClauses.updStrand s e.uid j _

theorem SameClauses_putDraw (s : State) (e : Env) (j : Nat) (x : Option W32) : SameClauses e.uid s (s.putDraw e j x) := by
  unfold State.putDraw; split
  · exact fun _ => ⟨rfl, rfl⟩
  · exact SameClauses.updStrand s e.uid j _

theorem SameClauses_ownLatch (s : State) (e : Env) (l : List Nat) : SameClauses e.uid s (s.ownLatch e l) := by
  unfold State.ownLatch; split
  · exact fun _ => ⟨rfl, rfl⟩
  · exact SameClauses.of_plies fun _ _ => rfl

theorem SameClauses.readOne {uid : Nat} {s t : State} (h : SameClauses uid s t) {e : Env} (he : e.uid = uid) {j lay i : Nat}
    {op : Operand} (hs : op.shared = true) : t.readOne e j lay op i = s.readOne e j lay op i := by
  obtain ⟨k, hk⟩ := Operand.shared_key hs j lay i
  rw [readOne_shared hk, readOne_shared hk, he, (h j).1]

/-- A strand's deposit in a shared register, read back. -/
theorem readOne_deposit {s : State} {x : Issue} {d : Dest} {j : Nat} (v : Val) (hw : x.e.walker = false)
    (hs : d.op.shared = true) (h : s.inClause x.e.uid j = true) :
    (s.deposit x d j v).inClause x.e.uid j = true ∧
    (s.deposit x d j v).readOne x.e j x.lay d.op 0 = ⟨v.val.lo, v.p0⟩ ∧
    (d.ty.wide = true → (s.deposit x d j v).readOne x.e j x.lay d.op 1 = ⟨v.val.hi, v.p1⟩) := by
  obtain ⟨h1, h2, h3⟩ := readOne_writeDst (lay := x.lay) hw hs h d.ty.wide v.val v.p0 v.p1 j
  have hsame : SameClauses x.e.uid (s.writeDst x.e j x.lay d.op d.ty.wide v.val v.p0 v.p1) (s.deposit x d j v) := by
    unfold State.deposit
    refine SameClauses.trans ?_ (SameClauses_setLatch hw j _)
    refine SameClauses.trans ?_ (SameClauses_putDraw _ x.e j _)
    exact SameClauses_orFlags hw [j] _
  refine ⟨(hsame j).2.trans h1, ?_, fun hwide => ?_⟩
  · rw [hsame.readOne rfl hs]; exact h2
  · rw [hsame.readOne rfl hs]; exact h3 hwide

/-- A strand that runs a clause still runs one after a clause changed. -/
theorem inClause_updClause (s : State) (uid p gid : Nat) (f : Clause → Clause) (k : Nat) :
    (s.updClause uid p gid f).inClause uid k = s.inClause uid k := by
  by_cases hp : k / 32 = p
  · subst hp
    unfold State.inClause
    cases hg : ((s.cable uid).ply (k / 32)).groups.find? (fun g => g.lanes.getLsbD (k % 32)) with
    | some g =>
      unfold State.updClause State.updGroup
      rw [ply_updPly hg]
      by_cases he : g.gid = gid
      · rw [find?_updGroup (g := g) (q := fun g => g.lanes.getLsbD (k % 32))
          (f := fun g => { g with clause := g.clause.map f }) (fun _ => rfl) hg he]
        obtain ⟨_, _, _, c, _⟩ := g
        cases c <;> rfl
      · unfold Ply.updGroup
        simp only [List.find?_map]
        have : ((fun g : Group => g.lanes.getLsbD (k % 32)) ∘
            fun g : Group => if g.gid = gid then { g with clause := g.clause.map f } else g)
            = fun g => g.lanes.getLsbD (k % 32) := by
          funext g; simp only [Function.comp]; split <;> rfl
        rw [this, hg]; simp [he]
    | none =>
      have : (((s.updClause uid (k / 32) gid f).cable uid).ply (k / 32)).groups.find? (fun g => g.lanes.getLsbD (k % 32)) = none := by
        unfold State.updClause State.updGroup State.updPly
        cases hf : s.cables.find? uid with
        | none =>
          rw [State.cable_updCable, if_pos rfl, hf]; rfl
        | some c =>
          have hs : s.cable uid = c := by unfold State.cable SMap.getD; rw [hf]; rfl
          rw [State.cable_updCable_of_some hf, if_pos rfl, hs]
          rw [hs] at hg
          unfold Cable.ply Cable.updPly SMap.getD at *
          simp only [SMap.find?_update]
          cases hy : c.plies.find? (k / 32) with
          | none => rfl
          | some y =>
            rw [hy] at hg
            simp only [Option.map_some, Option.getD_some, if_true] at hg ⊢
            unfold Ply.updGroup
            simp only [List.find?_map]
            have : ((fun g : Group => g.lanes.getLsbD (k % 32)) ∘
                fun g : Group => if g.gid = gid then { g with clause := g.clause.map f } else g)
                = fun g => g.lanes.getLsbD (k % 32) := by
              funext g; simp only [Function.comp]; split <;> rfl
            rw [this, hg]; rfl
      rw [this]
  · unfold State.inClause
    have : ((s.updClause uid p gid f).cable uid).ply (k / 32) = (s.cable uid).ply (k / 32) := by
      unfold State.updClause State.updGroup State.updPly
      cases hf : s.cables.find? uid with
      | none => rw [State.cable_updCable, if_pos rfl, hf]; unfold State.cable SMap.getD; rw [hf]; rfl
      | some c => rw [State.cable_updCable_of_some hf, if_pos rfl, Cable.ply_updPly_other hp]
    rw [this]

theorem inClause_writeOne (s : State) (uid j lay : Nat) (op : Operand) (i : Nat) (r : PReg) (who : Nat) (k : Nat) :
    (s.writeOne uid j lay op i r who).inClause uid k = s.inClause uid k := by
  have h1 (n : Nat) : SameClauses uid s (s.updCable uid fun c => (c.putReg (.v j n) r).staleReg j n) := by
    refine SameClauses.of_plies fun c p => ?_
    unfold Cable.staleReg
    split <;> rfl
  have h2 (n : Nat) : SameClauses uid s (s.updCable uid fun c => c.putReg (.o j n) r) := by
    refine SameClauses.of_plies fun c p => ?_
    rfl
  unfold State.writeOne
  cases op with
  | v n => exact (h1 (n + i) k).2
  | o n => exact (h2 (n + i) k).2
  | s n => dsimp only; split <;> first | rfl | exact inClause_updClause ..
  | k n => dsimp only; split <;> first | rfl | exact inClause_updClause ..
  | y n => dsimp only; split <;> first | rfl | exact inClause_updClause ..
  | _ => rfl

theorem inClause_writeDst {s : State} {e : Env} (hw : e.walker = false) (j lay : Nat) (op : Operand) (wide : Bool) (v : W64)
    (p0 p1 : Bool) (who : Nat) (k : Nat) :
    (s.writeDst e j lay op wide v p0 p1 who).inClause e.uid k = s.inClause e.uid k := by
  unfold State.writeDst
  rw [if_neg (by simp [hw])]
  dsimp only
  split <;> simp only [inClause_writeOne]

theorem inClause_deposit {s : State} {x : Issue} {d : Dest} (hw : x.e.walker = false) (j : Nat) (v : Val) (k : Nat) :
    (s.deposit x d j v).inClause x.e.uid k = s.inClause x.e.uid k := by
  unfold State.deposit
  have h1 := inClause_writeDst (s := s) hw j x.lay d.op d.ty.wide v.val v.p0 v.p1 j k
  rw [(SameClauses_setLatch hw j _ k).2, (SameClauses_putDraw _ x.e j _ k).2, (SameClauses_orFlags hw [j] _ k).2]
  exact h1

/-! ### Every contributor's own value -/

theorem inClause_deposits {x : Issue} {d : Dest} (hw : x.e.walker = false) (k : Nat) (l : List (Nat × Val)) (s : State) :
    (l.foldl (fun s jv => s.deposit x d jv.1 jv.2) s).inClause x.e.uid k = s.inClause x.e.uid k := by
  induction l generalizing s with
  | nil => rfl
  | cons a l ih => simp only [List.foldl_cons]; rw [ih, inClause_deposit hw]

/-- The highest-numbered writer's value stands (05 R130). -/
theorem readOne_depositEach {s : State} {x : Issue} {d : Dest} (f : Nat → Val) (hw : x.e.walker = false)
    (hs : d.op.shared = true) (hne : x.contrib ≠ []) (h : s.inClause x.e.uid (x.contrib.getLastD 0) = true) :
    (s.depositEach x d f).readOne x.e (x.contrib.getLastD 0) x.lay d.op 0
      = ⟨(f (x.contrib.getLastD 0)).val.lo, (f (x.contrib.getLastD 0)).p0⟩ ∧
    (d.ty.wide = true → (s.depositEach x d f).readOne x.e (x.contrib.getLastD 0) x.lay d.op 1
      = ⟨(f (x.contrib.getLastD 0)).val.hi, (f (x.contrib.getLastD 0)).p1⟩) := by
  unfold State.depositEach
  rw [(SameClauses_ownLatch _ x.e _).readOne rfl hs, (SameClauses_ownLatch _ x.e _).readOne rfl hs]
  revert h hne
  generalize x.contrib = l
  intro hne h
  obtain ⟨init, j, rfl⟩ : ∃ init j, l = init ++ [j] := ⟨l.dropLast, l.getLast hne, (List.dropLast_concat_getLast hne).symm⟩
  have hj : (init ++ [j]).getLastD 0 = j := by simp
  rw [hj] at h ⊢
  simp only [List.map_append, List.map_cons, List.map_nil, List.foldl_append, List.foldl_cons, List.foldl_nil]
  have hin : ((init.map fun j => (j, f j)).foldl (fun s jv => s.deposit x d jv.1 jv.2) s).inClause x.e.uid j = true := by
    rw [inClause_deposits hw]; exact h
  exact (readOne_deposit (f j) hw hs hin).2

/-! ### One value for a wider scope -/

/-- Clauses of one ply as a write at another leaves them. -/
theorem clauseOf_updClause_other {s : State} {uid j p gid : Nat} (h : j / 32 ≠ p) (f : Clause → Clause) :
    (s.updClause uid p gid f).clauseOf uid j = s.clauseOf uid j := by
  unfold State.clauseOf
  have : ((s.updClause uid p gid f).cable uid).ply (j / 32) = (s.cable uid).ply (j / 32) := by
    unfold State.updClause State.updGroup State.updPly
    cases hf : s.cables.find? uid with
    | none => rw [State.cable_updCable, if_pos rfl, hf]; unfold State.cable SMap.getD; rw [hf]; rfl
    | some c => rw [State.cable_updCable_of_some hf, if_pos rfl, Cable.ply_updPly_other h]
  rw [this]

theorem readOne_writeOne_other {s : State} {e : Env} {i j lay n m : Nat} {op : Operand} (hs : op.shared = true)
    (h : j / 32 ≠ i / 32) (r : PReg) (who : Nat) :
    (s.writeOne e.uid i lay op n r who).readOne e j lay op m = s.readOne e j lay op m := by
  obtain ⟨k, hk⟩ := Operand.shared_key hs j lay m
  obtain ⟨k', hk'⟩ := Operand.shared_key hs i lay n
  rw [readOne_shared hk, readOne_shared hk]
  cases hg : ((s.cable e.uid).ply (i / 32)).groups.find? (fun g => g.lanes.getLsbD (i % 32)) with
  | some g => rw [writeOne_shared hk' hg, clauseOf_updClause_other h]
  | none =>
    have : s.writeOne e.uid i lay op n r who = s := by
      unfold State.writeOne
      cases op <;> cases hk' <;> simp only [hg]
    rw [this]

theorem readOne_writeDst_other {s : State} {e : Env} {i j lay m : Nat} {op : Operand} (hw : e.walker = false)
    (hs : op.shared = true) (h : j / 32 ≠ i / 32) (wide : Bool) (v : W64) (p0 p1 : Bool) (who : Nat) :
    (s.writeDst e i lay op wide v p0 p1 who).readOne e j lay op m = s.readOne e j lay op m := by
  unfold State.writeDst
  rw [if_neg (by simp [hw])]
  dsimp only
  split <;> simp only [readOne_writeOne_other hs h]

/-- A fold of writes of one value to a shared register, one of them by the strand `j` itself. -/
theorem readOne_fold {e : Env} {j lay : Nat} {op : Operand} {wide : Bool} {v : Val} (hs : op.shared = true)
    (hw : e.walker = false) (g : State → Nat → State)
    (hg : ∀ s q, (q = j / 32 → ∃ who, g s q = s.writeDst e j lay op wide v.val v.p0 v.p1 who) ∧
      (q ≠ j / 32 → g s q = s ∨ ∃ i who, i / 32 = q ∧ g s q = s.writeDst e i lay op wide v.val v.p0 v.p1 who))
    (l : List Nat) (s : State) (h : s.inClause e.uid j = true)
    (hl : j / 32 ∈ l ∨ (s.readOne e j lay op 0 = ⟨v.val.lo, v.p0⟩ ∧
      (wide = true → s.readOne e j lay op 1 = ⟨v.val.hi, v.p1⟩))) :
    (l.foldl g s).readOne e j lay op 0 = ⟨v.val.lo, v.p0⟩ ∧
      (wide = true → (l.foldl g s).readOne e j lay op 1 = ⟨v.val.hi, v.p1⟩) := by
  induction l generalizing s with
  | nil => rcases hl with hl | hl
           · cases hl
           · exact hl
  | cons q l ih =>
    simp only [List.foldl_cons]
    by_cases hq : q = j / 32
    · obtain ⟨who, he⟩ := (hg s q).1 hq
      rw [he]
      obtain ⟨h1, h2⟩ := readOne_writeDst (lay := lay) hw hs h wide v.val v.p0 v.p1 who
      exact ih _ h1 (.inr h2)
    · have hl' : j / 32 ∈ l ∨ (s.readOne e j lay op 0 = ⟨v.val.lo, v.p0⟩ ∧
          (wide = true → s.readOne e j lay op 1 = ⟨v.val.hi, v.p1⟩)) := by
        rcases hl with hl | hl
        · rcases List.mem_cons.mp hl with hl | hl
          · exact absurd hl.symm hq
          · exact .inl hl
        · exact .inr hl
      rcases (hg s q).2 hq with he | ⟨i, who, hi, he⟩
      · rw [he]; exact ih s h hl'
      · rw [he]
        have hne : j / 32 ≠ i / 32 := by omega
        refine ih _ (by rw [inClause_writeDst hw]; exact h) ?_
        rcases hl' with hl' | hl'
        · exact .inl hl'
        · exact .inr (by simpa only [readOne_writeDst_other hw hs hne] using hl')

/-- The members of an issue are what its groups hold. -/
structure Issue.Sound (s : State) (x : Issue) : Prop where
  live : ∀ j ∈ x.contrib, ((s.cable x.e.uid).strand j).live = true
  nodup : x.contrib.Nodup
  sub : ∀ j ∈ x.contrib, j ∈ x.members
  plies : x.scope ≠ .strand → ∀ j ∈ x.contrib, j / 32 ∈ x.plies

theorem Issue.lead_mem {x : Issue} (h : x.contrib ≠ []) : x.lead ∈ x.contrib := by
  unfold Issue.lead
  cases hx : x.contrib with
  | nil => exact absurd hx h
  | cons a l => simp

theorem mem_setInsert {x y : Nat} {l : List Nat} : y ∈ setInsert x l ↔ y = x ∨ y ∈ l := by
  induction l with
  | nil => simp [setInsert]
  | cons a l ih =>
    unfold setInsert
    split
    · simp
    · split
      · rename_i h; subst h; simp
      · simp only [List.mem_cons, ih]
        constructor
        · rintro (h | h | h)
          · exact .inr (.inl h)
          · exact .inl h
          · exact .inr (.inr h)
        · rintro (h | h | h)
          · exact .inr (.inl h)
          · exact .inl h
          · exact .inr (.inr h)

theorem mem_distinct {y : Nat} {l : List Nat} : y ∈ distinct l ↔ y ∈ l := by
  unfold distinct
  have : ∀ (l a : List Nat), y ∈ l.foldl (fun a x => setInsert x a) a ↔ y ∈ l ∨ y ∈ a := by
    intro l
    induction l with
    | nil => simp
    | cons b l ih =>
      intro a
      simp only [List.foldl_cons, ih, mem_setInsert, List.mem_cons]
      constructor
      · rintro (h | h | h)
        · exact .inl (.inr h)
        · exact .inl (.inl h)
        · exact .inr h
      · rintro ((h | h) | h)
        · exact .inr (.inl h)
        · exact .inl h
        · exact .inr (.inr h)
  simpa using this l []

/-- The lowest contributor reads the value of a wider scope. -/
theorem readOne_putUniform {s : State} {x : Issue} {d : Dest} (v : Val) (hw : x.e.walker = false)
    (hs : d.op.shared = true) (hx : x.Sound s) (hsc : x.scope ≠ .strand) (hne : x.contrib ≠ [])
    (h : s.inClause x.e.uid x.lead = true) :
    (s.putUniform x d v).readOne x.e x.lead x.lay d.op 0 = ⟨v.val.lo, v.p0⟩ ∧
    (d.ty.wide = true → (s.putUniform x d v).readOne x.e x.lead x.lay d.op 1 = ⟨v.val.hi, v.p1⟩) := by
  have hlead := Issue.lead_mem hne
  have hfirst : ∀ q, q = x.lead / 32 → x.contrib.find? (fun j => j / 32 == q) = some x.lead := by
    rintro q rfl
    unfold Issue.lead
    cases hc : x.contrib with
    | nil => exact absurd hc hne
    | cons a l => simp
  unfold State.putUniform
  split
  · refine readOne_fold hs hw _ (fun s q => ⟨fun hq => ⟨x.lead, ?_⟩, fun hq => ?_⟩) _ s h (.inl ?_)
    · simp only [hfirst q hq]
    · cases hf : x.contrib.find? (fun j => j / 32 == q) with
      | none => exact .inl rfl
      | some i =>
        have := List.find?_some hf
        exact .inr ⟨i, i, by simpa using this, rfl⟩
    · exact mem_distinct.mpr (List.mem_map.mpr ⟨x.lead, hlead, rfl⟩)
  · refine readOne_fold hs hw _ (fun s q => ⟨fun hq => ?_, fun hq => ?_⟩) _ s h (.inl (hx.plies hsc _ hlead))
    · cases hf : x.members.find? (fun j => j / 32 == q) with
      | none =>
        have := List.find?_eq_none.mp hf x.lead (hx.sub _ hlead)
        simp [hq] at this
      | some i =>
        have hi : i / 32 = q := by simpa using List.find?_some hf
        refine ⟨x.lead, ?_⟩
        dsimp only
        rw [if_pos (by rw [hi]; exact hq)]
    · cases hf : x.members.find? (fun j => j / 32 == q) with
      | none => exact .inl rfl
      | some i =>
        have hi : i / 32 = q := by simpa using List.find?_some hf
        refine .inr ⟨i, x.lead, hi, ?_⟩
        dsimp only
        rw [if_neg (by rw [hi]; exact hq)]

theorem SameClauses_setLatches {e : Env} (hw : e.walker = false) (g : Nat → Option Latch) (l : List Nat) (s : State) :
    SameClauses e.uid s (l.foldl (fun s j => s.setLatch e j (g j)) s) := by
  refine SameClauses.foldl (fun s j => s.setLatch e j (g j)) ?_ _ _
  intro s j; exact SameClauses_setLatch hw j _

theorem readOne_depositUniform {s : State} {x : Issue} {d : Dest} (v : Val) (hw : x.e.walker = false)
    (hs : d.op.shared = true) (hx : x.Sound s) (hsc : x.scope ≠ .strand) (hne : x.contrib ≠ [])
    (h : s.inClause x.e.uid x.lead = true) :
    (s.depositUniform x d v).readOne x.e x.lead x.lay d.op 0 = ⟨v.val.lo, v.p0⟩ ∧
    (d.ty.wide = true → (s.depositUniform x d v).readOne x.e x.lead x.lay d.op 1 = ⟨v.val.hi, v.p1⟩) := by
  have hsame : SameClauses x.e.uid (s.putUniform x d v) (s.depositUniform x d v) := by
    unfold State.depositUniform
    refine SameClauses.trans ?_ (SameClauses_setLatches hw (fun _ => some (v.latch d.ty.wide)) _ _)
    refine SameClauses.trans ?_ (SameClauses_putDraw _ x.e _ _)
    exact SameClauses_orFlags hw _ _
  rw [hsame.readOne rfl hs, hsame.readOne rfl hs]
  exact readOne_putUniform v hw hs hx hsc hne h

/-! The strands at a wider scope. -/

/-- A change of state that leaves every strand of a cable. -/
def SameStrands (uid : Nat) (s t : State) : Prop := ∀ i, (t.cable uid).strand i = (s.cable uid).strand i

theorem SameStrands.foldl {α : Type} {uid : Nat} (g : State → α → State) (h : ∀ s a, SameStrands uid s (g s a))
    (l : List α) (s : State) : SameStrands uid s (l.foldl g s) := by
  induction l generalizing s with
  | nil => exact fun _ => rfl
  | cons a l ih => exact fun i => (ih _ i).trans (h s a i)

theorem strand_writeDst_shared {s : State} {e : Env} {j lay : Nat} {op : Operand} (hw : e.walker = false)
    (h : ∀ n, op ≠ .v n ∧ op ≠ .o n) (wide : Bool) (v : W64) (p0 p1 : Bool) (who : Nat) :
    SameStrands e.uid s (s.writeDst e j lay op wide v p0 p1 who) := by
  intro i
  unfold State.writeDst
  rw [if_neg (by simp [hw])]
  dsimp only
  split <;> simp only [strand_writeOne_shared h]

theorem Operand.not_own {op : Operand} (h : op.perStrand = false) : ∀ n, op ≠ .v n ∧ op ≠ .o n := by
  intro n; cases op <;> simp_all [Operand.perStrand]

theorem strand_putUniform {s : State} {x : Issue} {d : Dest} (v : Val) (hw : x.e.walker = false)
    (h : d.op.perStrand = false) : SameStrands x.e.uid s (s.putUniform x d v) := by
  unfold State.putUniform
  split
  all_goals
    refine SameStrands.foldl _ (fun s a => ?_) _ _
    split
    · intro i; exact strand_writeDst_shared hw (Operand.not_own h) _ _ _ _ _ i
    · exact fun _ => rfl

/-- A fold that changes the strands of a list, each by itself. -/
theorem strand_foldl {uid : Nat} (g : State → Nat → State) (f : Strand → Strand) (hf : ∀ t, (f t).live = t.live)
    (hg : ∀ s j, ((s.cable uid).strand j).live = true → ∀ i, ((g s j).cable uid).strand i
      = if i = j then f ((s.cable uid).strand j) else (s.cable uid).strand i)
    (l : List Nat) (hn : l.Nodup) (s : State) (hl : ∀ j ∈ l, ((s.cable uid).strand j).live = true) (i : Nat) :
    ((l.foldl g s).cable uid).strand i = if i ∈ l then f ((s.cable uid).strand i) else (s.cable uid).strand i := by
  induction l generalizing s with
  | nil => simp
  | cons j l ih =>
    obtain ⟨hj, hn⟩ := List.nodup_cons.mp hn
    have hlj := hl j (List.mem_cons_self ..)
    simp only [List.foldl_cons]
    rw [ih hn]
    · rw [hg s j hlj]
      by_cases hi : i = j
      · subst hi; simp [hj]
      · simp [hi]
    · intro k hk
      rw [hg s j hlj]
      by_cases hkj : k = j
      · rw [if_pos hkj, hf]; exact hlj
      · rw [if_neg hkj]; exact hl k (List.mem_cons_of_mem _ hk)

theorem strand_orFlags {s : State} {e : Env} (hw : e.walker = false) (l : List Nat) (hn : l.Nodup) (fl : Flags)
    (hl : ∀ j ∈ l, ((s.cable e.uid).strand j).live = true) (i : Nat) :
    ((s.orFlags e l fl).cable e.uid).strand i = if i ∈ l then
      { (s.cable e.uid).strand i with fflags := ((s.cable e.uid).strand i).fflags ||| fl } else (s.cable e.uid).strand i := by
  unfold State.orFlags
  by_cases hf : fl = 0
  · rw [if_pos hf]; subst hf; split <;> simp
  · rw [if_neg hf, if_neg (by simp [hw])]
    exact strand_foldl _ (fun t => { t with fflags := t.fflags ||| fl }) (fun _ => rfl)
      (fun s j hj i => State.strand_updStrand hj i _) l hn s hl i

theorem strand_depositUniform {s : State} {x : Issue} {d : Dest} (v : Val) (hw : x.e.walker = false)
    (hp : d.op.perStrand = false) (hx : x.Sound s) (hne : x.contrib ≠ []) (i : Nat) :
    ((s.depositUniform x d v).cable x.e.uid).strand i = if i ∈ x.contrib then
      ((s.cable x.e.uid).strand i).given .lat d.ty.wide { v with sr := if i = x.lead then v.sr else none }
    else (s.cable x.e.uid).strand i := by
  have h0 := strand_putUniform (s := s) v hw hp
  have hlead := Issue.lead_mem hne
  unfold State.depositUniform
  have h1 : ∀ i, (((s.putUniform x d v).orFlags x.e x.contrib v.flags).cable x.e.uid).strand i
      = if i ∈ x.contrib then { (s.cable x.e.uid).strand i with fflags := ((s.cable x.e.uid).strand i).fflags ||| v.flags }
        else (s.cable x.e.uid).strand i := by
    intro i
    rw [strand_orFlags hw _ hx.nodup _ (fun j hj => by rw [h0]; exact hx.live j hj)]
    simp only [h0 i]
  have h2 : ∀ i, ((((s.putUniform x d v).orFlags x.e x.contrib v.flags).putDraw x.e x.lead v.sr).cable x.e.uid).strand i
      = if i ∈ x.contrib then
          { (s.cable x.e.uid).strand i with
            fflags := ((s.cable x.e.uid).strand i).fflags ||| v.flags
            sr := match (if i = x.lead then v.sr else none) with | some y => srFix y | none => ((s.cable x.e.uid).strand i).sr }
        else (s.cable x.e.uid).strand i := by
    intro i
    unfold State.putDraw
    cases hsr : v.sr with
    | none => simp only [h1]; split <;> simp
    | some y =>
      simp only
      rw [State.strand_updStrand (by rw [h1, if_pos hlead]; exact hx.live _ hlead), h1, h1]
      by_cases hi : i = x.lead
      · subst hi; simp [hlead]
      · simp [hi]
  have h3 := strand_foldl (uid := x.e.uid) (fun s j => s.setLatch x.e j (some (v.latch d.ty.wide)))
    (fun t => { t with latch := some (v.latch d.ty.wide) }) (fun _ => rfl)
    (fun s j hj i => by
      unfold State.setLatch; rw [if_neg (by simp [hw])]; exact State.strand_updStrand hj i _)
    x.contrib hx.nodup (((s.putUniform x d v).orFlags x.e x.contrib v.flags).putDraw x.e x.lead v.sr)
    (fun j hj => by rw [h2, if_pos hj]; exact hx.live j hj) i
  rw [h3, h2]
  by_cases hi : i ∈ x.contrib
  · rw [if_pos hi, if_pos hi, if_pos hi]; rfl
  · rw [if_neg hi, if_neg hi, if_neg hi]

end Sys2Proof.Machine
end

