-- ==== Sys2Proof/Laws/Issue.lean ====
section
/-! SUPPORT. What an instruction that issues comes to: one lemma for every row (01 R20, R21). -/
namespace Sys2Proof.Machine

/-- What registers at hand are. -/
theorem atHand_spec {s s1 : State} {x y : Issue} {r : Row} (h : s.atHand x r = some (y, s1)) :
    y = x ∧ s.goesOn x.e = false ∧ s.mayWrite x r = true ∧ (!x.e.walker && !s.poolRoom x r) = false ∧
    s.sourcesBack x r = .ok s1 ∧ s1.poisoned x r = none ∧ (!x.contrib.isEmpty && r.srcs.any fun u => !u.late u.op) = false := by
  unfold State.atHand at h
  split at h
  · cases h
  rename_i hu
  simp only [Bool.or_eq_true, not_or, Bool.not_eq_true] at hu
  obtain ⟨⟨hu1, hu2⟩, hu3⟩ := hu
  split at h
  · cases h
  rename_i s2 hs
  split at h
  · cases h
  rename_i hp
  simp only [Bool.or_eq_true, not_or, Bool.not_eq_true, Option.isSome_eq_false_iff, Option.isNone_iff_eq_none] at hp
  simp only [Option.some.injEq, Prod.mk.injEq] at h
  obtain ⟨rfl, rfl⟩ := h
  exact ⟨rfl, hu1, by simpa using hu2, hu3, hs, hp.1, hp.2⟩

/-- With its registers at hand, an attempt comes to its effect, or to nothing where no strand contributes. -/
theorem attempt_atHand {s s1 : State} {x y : Issue} {r : Row} (h : s.atHand x r = some (y, s1)) :
    s.attempt x r = match (if x.contrib.isEmpty && !r.always && r.latch != .own then Attempt.done s1 [] else r.act s1 x) with
      | .done s2 goto => .done ((s2.latchRest x r).releaseMarks x r) goto
      | a => a := by
  obtain ⟨-, h1, h2, h3, h4, h5, h6⟩ := atHand_spec h
  simp only [State.attempt, h1, h2, h3, h4, h5, h6, Bool.not_true, Bool.false_eq_true, if_false]
  all_goals rfl

/-- A row whose registers are at hand does what its effect says. -/
theorem attempt_done {s s1 t : State} {x : Issue} {r : Row} {goto : List (Nat × Nat)} {y : Issue}
    (h : s.atHand x r = some (y, s1)) (hc : x.contrib ≠ [] ∨ r.always = true ∨ r.latch = .own)
    (ha : r.act s1 x = .done t goto) :
    s.attempt x r = .done ((t.latchRest x r).releaseMarks x r) goto ∧ y = x := by
  have hg : (x.contrib.isEmpty && !r.always && r.latch != .own) = false := by
    rcases hc with h | h | h
    · cases hx : x.contrib with
      | nil => exact absurd hx h
      | cons => simp
    · simp [h]
    · simp [h]
  exact ⟨by simp [attempt_atHand h, hg, ha], (atHand_spec h).1⟩

/-- A row without a contributor, whose effect needs one, has none. -/
theorem attempt_idle {s s1 : State} {x : Issue} {r : Row} {y : Issue}
    (h : s.atHand x r = some (y, s1)) (hc : x.contrib = []) (ha : r.always = false) (hl : r.latch ≠ .own) :
    s.attempt x r = .done ((s1.latchRest x r).releaseMarks x r) [] := by
  have hg : (x.contrib.isEmpty && !r.always && r.latch != .own) = true := by simp [hc, ha, hl]
  simp [attempt_atHand h, hg]

theorem conclude_done {s t : State} {x : Issue} {goto : List (Nat × Nat)} (h : x.e.walker = false) :
    s.conclude x (.done t goto)
      = x.groups.foldl (fun s g => (s.advance x.e.uid goto g).stepped x.e.uid g.1 g.2 false) t := by
  simp [State.conclude, h]

/-- What an instruction that issues comes to follows from what its attempt does. -/
theorem perform_attempt {s s1 t : State} {i : Instr} {cm : Common} {r : Row} {x : Issue} {goto : List (Nat × Nat)}
    (h : s.issues i cm r = some (x, s1))
    (hatt : ∀ s0 : State, s0.atHand x r = some (x, s1) → s0.attempt x r = .done ((t.latchRest x r).releaseMarks x r) goto) :
    s.perform i cm r = .next (t.retire x r goto) := by
  unfold State.issues at h
  unfold State.perform
  split at h
  · rename_i uid p gid hcur
    simp only [hcur]
    split at h
    · cases h
    rename_i g hg
    simp only [hg]
    split at h
    · cases h
    rename_i cl hcl
    simp only [hcl]
    simp only at h
    split at h
    · cases h
    rename_i hn
    simp only [Bool.or_eq_true, not_or, Bool.not_eq_true, Option.isSome_eq_false_iff, Option.isNone_iff_eq_none,
      Bool.not_eq_eq_eq_not, Bool.not_true] at hn
    obtain ⟨⟨⟨⟨⟨⟨⟨h1, h0⟩, h2⟩, h3⟩, h4⟩, h5⟩, h6⟩, h7⟩ := hn
    have hx := (atHand_spec h).1
    subst hx
    have hatt := hatt _ h
    unfold State.groupTurn
    simp only [h1, h0, h2, h3, Option.filter_none, Bool.false_eq_true, if_false, State.ownIssue, Issue.lay, h4]
    have h5' : (s.cable uid).allIn (s.issueMembers { uid := uid, ply := p, gid := gid } g cm)
        ((p, g) :: s.signed { uid := uid, ply := p, gid := gid } g cm) = true := by simpa [State.fullIssue] using h5
    have h6' : s.waiting { uid := uid, ply := p, gid := gid } cm.lay.toNat
        (s.issueMembers { uid := uid, ply := p, gid := gid } g cm) r = false := by simpa [State.fullIssue] using h6
    simp only [h5', h6', h7, Bool.not_true, Bool.false_eq_true, if_false, hatt]
    rw [conclude_done (by rfl)]
    rfl
  · rename_i uid cmd w hcur
    simp only [hcur]
    split at h
    rotate_left
    · cases h
    rename_i m k hm hk
    try simp only [hm, hk]
    split at h
    · cases h
    rename_i cl hcl
    simp only [hcl]
    simp only at h
    split at h
    · cases h
    rename_i hn
    simp only [Bool.or_eq_true, not_or, Bool.not_eq_true, Option.isSome_eq_false_iff, Option.isNone_iff_eq_none] at hn
    obtain ⟨⟨h1, h2⟩, h3⟩ := hn
    have hx := (atHand_spec h).1
    subst hx
    have hatt := hatt _ h
    unfold State.walkerTurn
    have h2' : ¬ (m.walkLimit ≤ k.count) := by simpa using h2
    simp only [h1, Bool.false_eq_true, if_false, h2', h3, hatt]
    simp [State.conclude, State.retire]
  · cases h

/-- An instruction that issues, and whose effect is `t`, completes: the next state is `t` after its retirement. -/
theorem perform_done {s s1 t : State} {i : Instr} {cm : Common} {r : Row} {x : Issue} {goto : List (Nat × Nat)}
    (h : s.issues i cm r = some (x, s1)) (hc : x.Contributes ∨ r.always = true ∨ r.latch = .own)
    (ha : r.act s1 x = .done t goto) : s.perform i cm r = .next (t.retire x r goto) :=
  perform_attempt h fun _ h0 => (attempt_done h0 hc ha).1

/-- One that issues without a contributor, and whose effect needs one, only retires. -/
theorem perform_idle {s s1 : State} {i : Instr} {cm : Common} {r : Row} {x : Issue}
    (h : s.issues i cm r = some (x, s1)) (hc : x.contrib = []) (ha : r.always = false) (hl : r.latch ≠ .own) :
    s.perform i cm r = .next (s1.retire x r []) :=
  perform_attempt h fun _ h0 => attempt_idle h0 hc ha hl

/-! ### What a row asks does not depend on its effect -/

/-- Two rows that ask the same. -/
structure SameAsks (r q : Row) : Prop where
  srcs : r.srcs = q.srcs
  dst : r.dst = q.dst
  latch : r.latch = q.latch
  transfer : r.transfer = q.transfer
  priv : r.priv = q.priv
  legal : r.legal = q.legal
  always : r.always = q.always
  extra : r.extra = q.extra
  more : r.more = q.more

theorem SameAsks.eq {r q : Row} (h : SameAsks r q) : ∃ act, r = { q with act := act } := by
  obtain ⟨h1, h2, h3, h4, h5, h6, h7, h8, h9⟩ := h
  refine ⟨r.act, ?_⟩
  cases r; cases q
  simp only at h1 h2 h3 h4 h5 h6 h7 h8 h9
  subst h1; subst h2; subst h3; subst h4; subst h5; subst h6; subst h7; subst h8; subst h9
  rfl

theorem issues_asks {r q : Row} (h : SameAsks r q) (s : State) (i : Instr) (cm : Common) :
    s.issues i cm r = s.issues i cm q := by
  obtain ⟨act, rfl⟩ := h.eq
  rfl

theorem retire_asks {r q : Row} (h : SameAsks r q) (t : State) (x : Issue) (goto : List (Nat × Nat)) :
    t.retire x r goto = t.retire x q goto := by
  obtain ⟨act, rfl⟩ := h.eq
  rfl

end Sys2Proof.Machine
end

