-- ==== Sys2Proof/Laws/Agents.lean ====
section
/-! SUPPORT. Walkers given a result (14 R349), the members of an issue (05 R134), and what computing leaves, whole. -/
namespace Sys2Proof.Machine

/-! ### Walkers -/

theorem cmd?_updCable {s : State} {uid id : Nat} {f : Cable → Cable} (h : ∀ c, (f c).cmds = c.cmds) :
    ((s.updCable uid f).cable uid).cmd? id = (s.cable uid).cmd? id := by
  unfold Cable.cmd?
  cases hf : s.cables.find? uid with
  | none => rw [State.cable_updCable, if_pos rfl, hf]; unfold State.cable SMap.getD; rw [hf]; rfl
  | some c => rw [State.cable_updCable_of_some hf, if_pos rfl, h]

theorem cmd?_updCmd {s : State} {uid id : Nat} (f : Cmd → Cmd) (hf : ∀ m, (f m).id = m.id) :
    ((s.updCmd uid id f).cable uid).cmd? id = ((s.cable uid).cmd? id).map f := by
  have key : ∀ c : Cable, (c.updCmd id f).cmd? id = (c.cmd? id).map f := by
    intro c
    unfold Cable.cmd? Cable.updCmd
    simp only [List.find?_map]
    have : ((fun m : Cmd => m.id == id) ∘ fun m : Cmd => if m.id = id then f m else m) = fun m => m.id == id := by
      funext m; simp only [Function.comp]; split <;> simp [hf]
    rw [this]
    cases hm : c.cmds.find? (fun m => m.id == id) with
    | none => rfl
    | some m =>
      have : m.id = id := by simpa using List.find?_some hm
      simp [this]
  unfold State.updCmd
  cases hc : s.cables.find? uid with
  | none =>
    rw [State.cable_updCable, if_pos rfl, hc]
    unfold State.cable SMap.getD; rw [hc]; rfl
  | some c => rw [State.cable_updCable_of_some hc, if_pos rfl, key]

theorem walker?_updWalker (s : State) (uid cmd w : Nat) (f : Walker → Walker) :
    (s.updWalker uid cmd w f).walker? uid cmd w = (s.walker? uid cmd w).map f := by
  unfold State.updWalker State.walker?
  rw [cmd?_updCmd (fun m => { m with srch := { m.srch with walkers := m.srch.walkers.modify w f } }) (fun _ => rfl)]
  cases (s.cable uid).cmd? cmd with
  | none => rfl
  | some m => simp

theorem walker?_of_cmds {s : State} {uid cmd w : Nat} {f : Cable → Cable} (h : ∀ c, (f c).cmds = c.cmds) :
    (s.updCable uid f).walker? uid cmd w = s.walker? uid cmd w := by
  unfold State.walker?; rw [cmd?_updCable h]

theorem walker?_orFlags {s : State} {e : Env} (hw : e.walker = true) (l : List Nat) (fl : Flags) :
    (s.orFlags e l fl).walker? e.uid e.cmd e.w = s.walker? e.uid e.cmd e.w := by
  unfold State.orFlags
  by_cases hf : fl = 0
  · rw [if_pos hf]
  · rw [if_neg hf, if_pos hw]
    unfold State.walker?
    rw [cmd?_updCmd (fun m => { m with srch := { m.srch with flags := m.srch.flags ||| fl } }) (fun _ => rfl)]
    cases (s.cable e.uid).cmd? e.cmd <;> rfl

/-- A walker given a result. -/
theorem walker?_deposit {s : State} {x : Issue} {d : Dest} (v : Val) (hw : x.e.walker = true) (j : Nat) :
    (s.deposit x d j v).walker? x.e.uid x.e.cmd x.e.w
      = (s.walker? x.e.uid x.e.cmd x.e.w).map fun k => k.given d.op d.ty.wide v := by
  unfold State.deposit
  show (State.setLatch _ x.e j (some (v.latch d.ty.wide))).walker? _ _ _ = _
  unfold State.setLatch
  rw [if_pos hw, walker?_updWalker]
  have h1 : ∀ s : State, (s.putDraw x.e j v.sr).walker? x.e.uid x.e.cmd x.e.w = s.walker? x.e.uid x.e.cmd x.e.w := by
    intro s
    unfold State.putDraw
    split
    · rfl
    · unfold State.updStrand; exact walker?_of_cmds fun _ => rfl
  rw [h1, walker?_orFlags hw]
  unfold State.writeDst
  rw [if_pos hw]
  cases d.op with
  | s n =>
    dsimp only
    rw [walker?_updWalker, Option.map_map]
    cases s.walker? x.e.uid x.e.cmd x.e.w <;> rfl
  | _ => cases s.walker? x.e.uid x.e.cmd x.e.w <;> rfl

theorem walker?_depositEach {s : State} {x : Issue} {d : Dest} (f : Nat → Val) (hw : x.e.walker = true)
    (hc : x.contrib = [0]) :
    (s.depositEach x d f).walker? x.e.uid x.e.cmd x.e.w
      = (s.walker? x.e.uid x.e.cmd x.e.w).map fun k => k.given d.op d.ty.wide (f 0) := by
  unfold State.depositEach
  rw [hc]
  have : ∀ (s : State) (l : List Nat), (s.ownLatch x.e l).walker? x.e.uid x.e.cmd x.e.w
      = s.walker? x.e.uid x.e.cmd x.e.w := by
    intro s l
    unfold State.ownLatch
    split
    · rfl
    · exact walker?_of_cmds fun _ => rfl
  rw [this]
  simp only [List.map_cons, List.map_nil, List.foldl_cons, List.foldl_nil]
  exact walker?_deposit (f 0) hw 0

/-! ### The members of an issue -/

theorem mem_laneSet {m : W32} {j : Nat} (h : j ∈ laneSet m) : j < 32 := by
  unfold laneSet at h
  simpa using (List.mem_filter.mp h).1

theorem groupStrands_nodup (c : Cable) (p : Nat) (g : Group) : (c.groupStrands p g).Nodup := by
  unfold Cable.groupStrands laneSet
  refine List.Pairwise.filter _ ?_
  refine List.Pairwise.map (R := fun a b : Nat => a ≠ b) _ (fun a b h => by omega) ?_
  exact List.Pairwise.filter _ List.nodup_range

theorem groupStrands_live {c : Cable} {p : Nat} {g : Group} {j : Nat} (h : j ∈ c.groupStrands p g) :
    (c.strand j).live = true ∧ j / 32 = p := by
  unfold Cable.groupStrands at h
  obtain ⟨h1, h2⟩ := List.mem_filter.mp h
  obtain ⟨i, hi, rfl⟩ := List.mem_map.mp h1
  have := mem_laneSet hi
  exact ⟨h2, by omega⟩

theorem livePly_live {c : Cable} {p j : Nat} (h : j ∈ c.livePly p) : (c.strand j).live = true ∧ j / 32 = p := by
  unfold Cable.livePly at h
  obtain ⟨h1, h2⟩ := List.mem_filter.mp h
  obtain ⟨i, hi, rfl⟩ := List.mem_map.mp h1
  have : i < 32 := by simpa using hi
  exact ⟨h2, by omega⟩

theorem livePly_nodup (c : Cable) (p : Nat) : (c.livePly p).Nodup := by
  unfold Cable.livePly
  refine List.Pairwise.filter _ ?_
  exact List.Pairwise.map (R := fun a b : Nat => a ≠ b) _ (fun a b h => by omega) List.nodup_range

theorem memberPlies_nodup (c : Cable) (sc : Scope) (lay p : Nat) : (c.memberPlies sc lay p).Nodup := by
  unfold Cable.memberPlies
  split
  · simp
  · simp
  · exact List.Pairwise.filter _ List.nodup_range
  · exact List.nodup_range

theorem membersOf_live {c : Cable} {sc : Scope} {lay p j : Nat} (h : j ∈ c.membersOf sc lay p) : (c.strand j).live = true := by
  unfold Cable.membersOf at h
  obtain ⟨q, -, hq⟩ := List.mem_flatMap.mp h
  exact (livePly_live hq).1

theorem membersOf_nodup (c : Cable) (sc : Scope) (lay p : Nat) : (c.membersOf sc lay p).Nodup := by
  unfold Cable.membersOf
  have h := memberPlies_nodup c sc lay p
  generalize c.memberPlies sc lay p = l at h
  induction l with
  | nil => simp
  | cons q l ih =>
    obtain ⟨hq, hl⟩ := List.nodup_cons.mp h
    simp only [List.flatMap_cons]
    refine List.nodup_append.mpr ⟨livePly_nodup c q, ih hl, fun a ha b hb => ?_⟩
    rintro rfl
    obtain ⟨r, hr, hb⟩ := List.mem_flatMap.mp hb
    have h1 := (livePly_live ha).2
    have h2 := (livePly_live hb).2
    exact hq (by rw [← h1, h2]; exact hr)

/-! ### The state in which an effect takes place -/

theorem SameStrands.trans {uid : Nat} {s t u : State} (h : SameStrands uid s t) (g : SameStrands uid t u) :
    SameStrands uid s u := fun i => (g i).trans (h i)

theorem strand_updPly (s : State) (uid p : Nat) (f : Ply → Ply) : SameStrands uid s (s.updPly uid p f) := by
  intro i
  unfold State.updPly
  exact State.strand_updCable (f := fun c => c.updPly p f) (fun _ _ => rfl) i

theorem strand_gathered (s : State) (e : Env) (g : Group) (cm : Common) : SameStrands e.uid s (s.gathered e g cm) := by
  unfold State.gathered
  split
  · exact fun _ => rfl
  · unfold State.mergeSigned
    refine SameStrands.foldl _ (fun s a => ?_) _ _
    intro i
    exact strand_updPly s e.uid a.1 _ i

/-- Strands that are live stay so. -/
def KeepsLive (uid : Nat) (s t : State) : Prop :=
  ∀ i, ((t.cable uid).strand i).live = ((s.cable uid).strand i).live

theorem KeepsLive.of_strands {uid : Nat} {s t : State} (h : SameStrands uid s t) : KeepsLive uid s t := fun i => by rw [h i]
theorem KeepsLive.trans {uid : Nat} {s t u : State} (h : KeepsLive uid s t) (g : KeepsLive uid t u) : KeepsLive uid s u :=
  fun i => (g i).trans (h i)

theorem KeepsLive.updStrand (s : State) (uid j : Nat) (f : Strand → Strand) (hf : ∀ t, (f t).live = t.live) :
    KeepsLive uid s (s.updStrand uid j f) := by
  intro i
  by_cases hl : ((s.cable uid).strand j).live = true
  · rw [State.strand_updStrand hl]
    split
    · rename_i h; subst h; exact hf _
    · rfl
  · have key : ∀ c : Cable, ((c.updStrand j f).strand i).live = (c.strand i).live := by
      intro c
      unfold Cable.strand Cable.updStrand SMap.getD
      simp only [SMap.find?_update]
      split
      · rename_i h; subst h; cases c.strands.find? i <;> simp [hf]
      · rfl
    unfold State.updStrand
    cases hc : s.cables.find? uid with
    | none =>
      rw [State.cable_updCable, if_pos rfl, hc]
      have hs : s.cable uid = { uid := uid, state := .ended } := by unfold State.cable SMap.getD; rw [hc]; rfl
      rw [hs]; rfl
    | some c =>
      have hs : s.cable uid = c := by unfold State.cable SMap.getD; rw [hc]; rfl
      rw [State.cable_updCable_of_some hc, if_pos rfl, hs, key]

/-! ### What home slices leave of a cable -/

/-- The plies and strands of every cable are as they were. -/
def KeepsPlies (s t : State) : Prop :=
  ∀ u, (t.cable u).strands = (s.cable u).strands ∧ (t.cable u).plies = (s.cable u).plies

theorem KeepsPlies.rfl {s : State} : KeepsPlies s s := fun _ => ⟨by rfl, by rfl⟩
theorem KeepsPlies.trans {s t u : State} (h : KeepsPlies s t) (g : KeepsPlies t u) : KeepsPlies s u :=
  fun v => ⟨(g v).1.trans (h v).1, (g v).2.trans (h v).2⟩
theorem KeepsPlies.of_cables {s t : State} (h : t.cables = s.cables) : KeepsPlies s t := by
  intro u; unfold State.cable; rw [h]; exact ⟨by rfl, by rfl⟩
theorem KeepsPlies.updCable (s : State) (u : Nat) (f : Cable → Cable)
    (h : ∀ c, (f c).strands = c.strands ∧ (f c).plies = c.plies) : KeepsPlies s (s.updCable u f) := by
  intro v
  rw [State.cable_updCable]
  split
  · rename_i hv; subst hv
    unfold State.cable SMap.getD
    cases s.cables.find? v with
    | none => exact ⟨by rfl, by rfl⟩
    | some c => exact h c
  · exact ⟨by rfl, by rfl⟩
theorem KeepsPlies.foldl {α : Type} (g : State → α → State) (h : ∀ s a, KeepsPlies s (g s a)) (l : List α) (s : State) :
    KeepsPlies s (l.foldl g s) := by
  induction l generalizing s with
  | nil => exact .rfl
  | cons a l ih => exact (h s a).trans (ih _)

theorem find?_mapVals {α : Type} (m : SMap α) (g : Nat × α → Nat × α) (hg : ∀ e, (g e).1 = e.1) (k : Nat) :
    SMap.find? (m.map g) k = (m.find? k).map fun x => (g (k, x)).2 := by
  induction m with
  | nil => rfl
  | cons e l ih =>
    obtain ⟨a, x⟩ := e
    have h1 : g (a, x) = (a, (g (a, x)).2) := Prod.ext (hg (a, x)) (by rfl)
    simp only [List.map_cons]
    rw [h1]
    unfold SMap.find?
    by_cases ha : a = k
    · subst ha; simp
    · simp [ha, ih]

theorem KeepsPlies_rebase (s : State) (p : Nat) : KeepsPlies s (s.rebase p) := by
  intro u
  unfold State.cable SMap.getD State.rebase
  simp only
  rw [find?_mapVals _ _ (fun e => by split <;> rfl)]
  cases s.cables.find? u with
  | none => exact ⟨by rfl, by rfl⟩
  | some c =>
    simp only [Option.map_some, Option.getD_some]
    split <;> exact ⟨by rfl, by rfl⟩

theorem cables_evict (s : State) (l : Nat) : (s.evict l).cables = s.cables := by
  unfold State.evict; split
  · rfl
  · dsimp only; split <;> rfl

theorem cables_rowActivate (s : State) (pa : Nat) : (s.rowActivate pa).cables = s.cables := by
  unfold State.rowActivate
  rfl

theorem cables_foldl {α : Type} (g : State → α → State) (h : ∀ s a, (g s a).cables = s.cables) (l : List α) (s : State) :
    (l.foldl g s).cables = s.cables := by
  induction l generalizing s with
  | nil => rfl
  | cons a l ih => rw [List.foldl_cons, ih, h]

theorem cables_recode (s : State) (on : Bool) (l : List Nat) : (s.recode on l).cables = s.cables := by
  unfold State.recode; split <;> rfl

theorem cables_touchBlock (s : State) (l lo n : Nat) : (s.touchBlock l lo n).cables = s.cables := by
  have h1 : (s.enterLlc l).cables = s.cables := by
    unfold State.enterLlc
    split
    · rfl
    · exact cables_foldl _ cables_evict _ _
  have h2 : ((s.enterLlc l).rowActivate (l * 128)).cables = s.cables := (cables_rowActivate _ _).trans h1
  unfold State.touchBlock
  dsimp only
  split
  · rfl
  · split
    · exact h2
    · exact (cables_recode ..).trans h2

theorem KeepsPlies_touchBlock (s : State) (l lo n : Nat) : KeepsPlies s (s.touchBlock l lo n) :=
  .of_cables (cables_touchBlock ..)

theorem KeepsPlies_stampWrite (s : State) (part p l lo n : Nat) : KeepsPlies s (s.stampWrite part p l lo n).1 := by
  unfold State.stampWrite
  refine (KeepsPlies_touchBlock s l lo n).trans ?_
  generalize s.touchBlock l lo n = s
  dsimp only
  split
  · exact (KeepsPlies_rebase s part).trans (.of_cables (by rfl))
  · exact .of_cables (by rfl)

theorem KeepsPlies_homeLease (s : State) (part l lo n p lease : Nat) : KeepsPlies s (s.homeLease part l lo n p lease).1 := by
  unfold State.homeLease
  refine (KeepsPlies_touchBlock s l lo n).trans ?_
  generalize s.touchBlock l lo n = s
  dsimp only
  split
  · exact (KeepsPlies_rebase s part).trans (.of_cables (by rfl))
  · exact .of_cables (by rfl)

theorem KeepsPlies_multicast (s : State) (r : Nat) (u : Update) : KeepsPlies s (s.multicast r u) := by
  unfold State.multicast
  split
  · exact .rfl
  · refine KeepsPlies.foldl _ (fun s a => ?_) _ _
    refine KeepsPlies.updCable _ _ _ fun c => ?_
    split <;> exact ⟨by rfl, by rfl⟩

theorem KeepsPlies_publishRange (s : State) (pa : Nat) (bytes : List (Nat × Byte × Bool)) :
    KeepsPlies s (s.publishRange pa bytes).1 := by
  unfold State.publishRange
  dsimp only
  split
  · exact .rfl
  · exact KeepsPlies.trans (.of_cables (by rfl)) (KeepsPlies_multicast _ _ _)

theorem KeepsPlies_homeWrite (s : State) (part p : Nat) (bytes : List (Nat × Byte × Bool)) (esr : Bool) :
    KeepsPlies s (s.homeWrite part p bytes esr).1 := by
  unfold State.homeWrite
  split
  · exact .rfl
  · rename_i pa b pp l
    dsimp only
    refine KeepsPlies.trans ?_ (KeepsPlies_publishRange _ _ _)
    refine KeepsPlies.trans (KeepsPlies_stampWrite s part p (pa / 128)
      (((pa, b, pp) :: l).foldl (fun a b => min a b.1) pa % 128) _) (.of_cables ((cables_recode ..).trans rfl))

theorem KeepsPlies_engineLine (s : State) (part : Nat) (ch : List (Nat × Byte × Bool)) (esr : Bool) :
    KeepsPlies s (s.engineLine part ch esr).1 := by
  unfold State.engineLine
  dsimp only
  split
  · exact KeepsPlies_homeWrite s part 0 ch esr
  · exact KeepsPlies.trans (.of_cables (by rfl)) (KeepsPlies_publishRange _ _ _)

theorem KeepsPlies_engineWrite (s : State) (part pa : Nat) (bytes : List (Byte × Bool)) (esr : Bool) :
    KeepsPlies s (s.engineWrite part pa bytes esr).1 := by
  unfold State.engineWrite State.engineCells
  dsimp only
  generalize splitLines _ = l
  generalize hb : (s, 0, ([] : List (Nat × Nat))) = b
  have : ∀ (l : List (List (Nat × Byte × Bool))) (b : State × Nat × List (Nat × Nat)), KeepsPlies b.1
      (l.foldl (fun (b : State × Nat × List (Nat × Nat)) ch =>
        ((b.1.engineLine part ch esr).1, max (b.1.sinceRebase (b.1.engineLine part ch esr).1 part b.2.1)
          (b.1.engineLine part ch esr).2.1, b.2.2 ++ (b.1.engineLine part ch esr).2.2.toList)) b).1 := by
    intro l
    induction l with
    | nil => intro b; exact .rfl
    | cons a l ih => intro b; exact KeepsPlies.trans (KeepsPlies_engineLine b.1 part a esr) (ih _)
  have h := this l b
  rw [← hb] at h ⊢
  exact h

theorem KeepsPlies_touchLeaf (s : State) (part : Nat) (lf : Leaf) (w : Bool) : KeepsPlies s (s.touchLeaf part lf w).1 := by
  unfold State.touchLeaf
  dsimp only
  generalize (if (w && _) = true then _ else _) = e2
  by_cases he : e2 = lf.pte
  · rw [if_pos he]; exact .rfl
  · rw [if_neg he]; exact KeepsPlies_engineWrite s part _ _ _

theorem KeepsPlies_translateWalk (s : State) (ctx va : Nat) (acc : Access) (user : Bool) :
    KeepsPlies s (s.translateWalk ctx va acc user).1 := by
  unfold State.translateWalk
  dsimp only
  split
  · exact .rfl
  · split
    · exact .rfl
    · split
      · exact .rfl
      · show KeepsPlies s (State.touchLeaf ..).1
        exact KeepsPlies_touchLeaf _ _ _ _

theorem KeepsPlies_translate (s : State) (core ctx va : Nat) (acc : Access) (user : Bool) :
    KeepsPlies s (s.translate core ctx va acc user).1 := by
  have h : KeepsPlies s (match s.translateWalk ctx va acc user with
      | (s1, .error f) => (s1, Except.error f)
      | (s1, .ok (p, lf)) => (s1.fillTlb core ctx va lf, .ok p)).1 := by
    have h := KeepsPlies_translateWalk s ctx va acc user
    split <;> (rename_i hx; rw [hx] at h)
    · exact h
    · exact h.trans (.of_cables (by rfl))
  unfold State.translate
  dsimp only
  split
  · exact h
  · split
    · exact .rfl
    · split
      · exact h
      · split <;> exact .rfl

theorem KeepsPlies_slotAt (s : State) (uid slot : Nat) (kind : Access) : KeepsPlies s (s.slotAt uid slot kind).1 := by
  unfold State.slotAt
  dsimp only
  have h := KeepsPlies_translate s (s.cable uid).coreD (s.cable uid).ctx slot kind false
  split
  · exact .rfl
  · split <;> (rename_i hx; rw [hx] at h; exact h)

theorem KeepsPlies.strands {s t : State} (h : KeepsPlies s t) (uid : Nat) : SameStrands uid s t := by
  intro i; unfold Cable.strand; rw [(h uid).1]

theorem KeepsPlies_l1Install (s : State) (core line w r ver lo : Nat) (bytes : List (Byte × Bool)) :
    KeepsPlies s (s.l1Install core line w r ver lo bytes) := by
  unfold State.l1Install; split
  · exact .rfl
  · exact .of_cables (by rfl)

theorem KeepsPlies_loadNow {s t : State} {core uid p pa n lease : Nat} {bs : List (Byte × Bool)}
    (h : s.loadNow core uid p pa n lease = some (t, bs)) : KeepsPlies s t := by
  unfold State.loadNow at h
  dsimp only at h
  split at h
  · cases h
  split at h
  · simp only [Option.some.injEq, Prod.mk.injEq] at h
    rw [← h.1]; exact .of_cables (by rfl)
  · split at h
    · cases h
    · split at h
      · simp only [Option.some.injEq, Prod.mk.injEq] at h
        rw [← h.1]
        exact (KeepsPlies.trans (KeepsPlies_homeLease s _ _ _ _ _ _) (KeepsPlies_l1Install _ _ _ _ _ _ _ _)).trans (.of_cables (by rfl))
      · simp only [Option.some.injEq, Prod.mk.injEq] at h
        rw [← h.1]; exact .rfl

theorem KeepsLive_unspillOne {s t : State} {uid lead : Nat} {e : Nat × Nat} (h : s.unspillOne uid lead e = .ok t) :
    KeepsLive uid s t := by
  unfold State.unspillOne at h
  dsimp only at h
  split at h
  · cases h
  have h1 := KeepsPlies_slotAt s uid ((s.cable uid).spillSlot e.1 e.2) .read
  split at h
  · cases h
  rename_i s1 p hx
  rw [hx] at h1
  split at h
  · cases h
  split at h
  · cases h
  split at h
  · cases h
  rename_i s2 bs hy
  simp only [Except.ok.injEq] at h
  subst h
  refine (KeepsLive.of_strands ((h1.trans (KeepsPlies_loadNow hy)).strands uid)).trans ?_
  refine KeepsLive.updStrand s2 uid e.1 _ fun t => ?_
  split <;> rfl

/-- Bringing spilled sources back keeps the strands that are live. -/
theorem KeepsLive_unspill {s t : State} {uid lead : Nat} {l : List (Nat × Nat)} (h : s.unspill uid lead l = .ok t) :
    KeepsLive uid s t := by
  unfold State.unspill at h
  induction l generalizing s with
  | nil => cases h; exact fun _ => by rfl
  | cons e l ih =>
    rw [List.foldlM_cons] at h
    cases hu : s.unspillOne uid lead e with
    | error a => rw [hu] at h; cases h
    | ok u => rw [hu] at h; exact (KeepsLive_unspillOne hu).trans (ih h)

/-- So does bringing back those of an instruction. -/
theorem KeepsLive_sourcesBack {s t : State} {x : Issue} {r : Row} (h : s.sourcesBack x r = .ok t) :
    KeepsLive x.e.uid s t := by
  unfold State.sourcesBack at h
  split at h
  · cases h; exact fun _ => by rfl
  · exact KeepsLive_unspill h

/-! ### Issues are sound -/

theorem mergePlan_plies (e : Env) (l : List (Nat × Group)) :
    ((mergePlan e l).map fun t => (t.1, t.2.1)).map Prod.fst = distinct (e.ply :: l.map Prod.fst) := by
  unfold mergePlan
  simp only [List.map_map]
  conv => rhs; rw [← List.map_id (distinct (e.ply :: l.map Prod.fst))]
  refine List.map_congr_left fun q _ => ?_
  simp only [Function.comp, id]
  split
  · rfl
  · split <;> rfl

/-- What `State.issues` has tested of a group's instruction. -/
theorem issues_group {s s1 : State} {i : Instr} {cm : Common} {r : Row} {x : Issue} {uid p gid : Nat}
    (hcur : s.cur = .group uid p gid) (h : s.issues i cm r = some (x, s1)) :
    ∃ g cl, s.group? uid p gid = some g ∧ g.clause = some cl ∧
      x = s.fullIssue { uid := uid, ply := p, gid := gid } g cl cm ∧
      (s.cable uid).allIn x.members ((p, g) :: s.signed { uid := uid, ply := p, gid := gid } g cm) = true ∧
      (s.gathered { uid := uid, ply := p, gid := gid } g cm).atHand x r = some (x, s1) := by
  unfold State.issues at h
  simp only [hcur] at h
  split at h
  · cases h
  rename_i g hg
  split at h
  · cases h
  rename_i cl hcl
  split at h
  · cases h
  rename_i hn
  simp only [Bool.or_eq_true, not_or, Bool.not_eq_true, Bool.not_eq_eq_eq_not, Bool.not_true] at hn
  have hx := (atHand_spec h).1
  exact ⟨g, cl, hg, hcl, hx, by rw [hx]; simpa using hn.1.1.2, by rw [← hx] at h; exact h⟩

theorem atHand_walker {s s1 : State} {x y : Issue} {r : Row} (h : s.atHand x r = some (y, s1)) (hw : x.e.walker = true) :
    s1 = s := by
  have := (atHand_spec h).2.2.2.2.1
  unfold State.sourcesBack at this
  rw [if_pos hw] at this
  cases this; rfl

/-- What `State.issues` has tested of a walker's instruction. -/
theorem issues_walker {s s1 : State} {i : Instr} {cm : Common} {r : Row} {x : Issue}
    (h : s.issues i cm r = some (x, s1)) (hw : x.e.walker = true) :
    s.cur = .walker x.e.uid x.e.cmd x.e.w ∧ s1 = s ∧ (x.contrib = [] ∨ x.contrib = [0]) := by
  unfold State.issues at h
  split at h
  · rename_i uid p gid hcur
    split at h
    · cases h
    split at h
    · cases h
    dsimp only at h
    split at h
    · cases h
    have hx := (atHand_spec h).1
    rw [hx] at hw; cases hw
  · rename_i uid cmd w hcur
    split at h
    rotate_left
    · cases h
    split at h
    · cases h
    dsimp only at h
    split at h
    · cases h
    have hx := (atHand_spec h).1
    refine ⟨by rw [hcur, hx], atHand_walker h rfl, ?_⟩
    · rw [hx]; dsimp only; split
      · exact .inr rfl
      · exact .inl rfl
  · cases h

/-- A group's issue: its strands are live, each counted once, and its plies are those of its groups. -/
theorem issues_sound {s s1 : State} {i : Instr} {cm : Common} {r : Row} {x : Issue}
    (h : s.issues i cm r = some (x, s1)) (hw : x.e.walker = false) : x.Sound s1 ∧ x.c = cm := by
  have hcur : ∃ uid p gid, s.cur = .group uid p gid := by
    unfold State.issues at h
    split at h
    · rename_i uid p gid hc; exact ⟨uid, p, gid, hc⟩
    · split at h
      · split at h
        · cases h
        · dsimp only at h
          split at h
          · cases h
          · rw [(atHand_spec h).1] at hw; cases hw
      · cases h
    · cases h
  obtain ⟨uid, p, gid, hcur⟩ := hcur
  obtain ⟨g, cl, hg, hcl, hx, hall, hat⟩ := issues_group hcur h
  have huid : x.e.uid = uid := by rw [hx]; rfl
  have hkeep : KeepsLive uid s s1 := by
    have h1 : KeepsLive uid s (s.gathered { uid := uid, ply := p, gid := gid } g cm) :=
      KeepsLive.of_strands (strand_gathered s { uid := uid, ply := p, gid := gid } g cm)
    refine h1.trans ?_
    have := KeepsLive_sourcesBack (atHand_spec hat).2.2.2.2.1
    rwa [huid] at this
  have hsub : ∀ j ∈ x.contrib, j ∈ x.members := by
    intro j hj
    rw [hx] at hj ⊢
    exact (List.mem_filter.mp hj).1
  have hmem : ∀ j ∈ x.members, ((s.cable uid).strand j).live = true := by
    intro j hj
    rw [hx] at hj
    unfold State.fullIssue State.issueMembers at hj
    dsimp only at hj
    split at hj
    · exact (groupStrands_live hj).1
    · exact membersOf_live hj
  refine ⟨⟨fun j hj => ?_, ?_, hsub, fun hsc j hj => ?_⟩, by rw [hx]; rfl⟩
  · rw [huid, hkeep j]; exact hmem j (hsub j hj)
  · rw [hx]
    unfold State.fullIssue State.issueMembers
    dsimp only
    refine List.Pairwise.filter _ ?_
    split
    · exact groupStrands_nodup ..
    · exact membersOf_nodup ..
  · have hin : j / 32 ∈ (p :: (s.signed { uid := uid, ply := p, gid := gid } g cm).map Prod.fst) := by
      have := List.all_eq_true.mp hall j (hsub j hj)
      obtain ⟨e, he, hc⟩ := List.any_eq_true.mp this
      have hj2 := (groupStrands_live (List.contains_iff_mem.mp hc)).2
      rw [hj2]
      rcases List.mem_cons.mp he with rfl | he
      · exact List.mem_cons_self ..
      · exact List.mem_cons_of_mem _ (List.mem_map.mpr ⟨e, he, rfl⟩)
    rw [hx]
    show j / 32 ∈ Issue.plies _
    unfold Issue.plies State.fullIssue
    dsimp only
    rw [mergePlan_plies]
    exact mem_distinct.mpr hin

/-! ### What computing leaves -/

/-- The one lemma about `State.compute`: it is done, and leaves what 04 R90 and R92 say. -/
theorem compute_spec {s : State} {x : Issue} (d : Dest) (f : Nat → Val) (hx : x.e.walker = false → x.Sound s)
    (hne : x.Contributes) : ∃ t, s.compute x d f = .done t [] ∧ Computed s t x d f := by
  unfold State.compute
  by_cases hsc : x.scope = .strand
  · rw [if_pos hsc]
    refine ⟨_, rfl, OnlyCable_depositEach .., fun hw _ j => ?_, fun _ h => absurd hsc h, fun hw hs => ?_, fun hw _ hc => ?_⟩
    · exact strand_depositEach f hw (hx hw).live (hx hw).nodup j
    · rw [if_pos hsc]; exact fun h => readOne_depositEach f hw hs hne h
    · exact walker?_depositEach f hw hc
  · rw [if_neg hsc]
    refine ⟨_, rfl, (OnlyCable_depositUniform ..).trans (OnlyCable_ownLatch ..), fun _ h => absurd h hsc,
      fun hw _ hp j => ?_, fun hw hs => ?_, fun _ h => absurd h hsc⟩
    · rw [strand_ownLatch]; exact strand_depositUniform _ hw hp (hx hw) hne j
    · rw [if_neg hsc]
      intro j h
      have := readOne_depositUniform (f x.lead) hw hs (hx hw) hsc hne h
      rw [(SameClauses_ownLatch _ x.e _).readOne rfl hs, (SameClauses_ownLatch _ x.e _).readOne rfl hs]
      exact this

/-- An instruction whose effect is to compute completes, and its effect is as `Computed` says. -/
theorem perform_compute {s s1 : State} {i : Instr} {cm : Common} {r : Row} {x : Issue} {d : Dest} {f : Nat → Val}
    (h : s.issues i cm r = some (x, s1)) (hne : x.Contributes) (ha : r.act s1 x = s1.compute x d f) :
    ∃ t, s.perform i cm r = .next (t.retire x r []) ∧ Computed s1 t x d f := by
  obtain ⟨t, ht, hc⟩ := compute_spec (s := s1) d f (fun hw => (issues_sound h hw).1) hne
  exact ⟨t, perform_done h (.inl hne) (ha.trans ht), hc⟩

/-- The statement form of an instruction that computes, from its meaning. -/
theorem computes_of {i : Instr} {cm : Common} {r q : Row} {d : Dest} {val : State → Issue → Nat → Val}
    (he : ∀ s, exec i s = s.perform i cm q) (hs : SameAsks r q) (hl : q.latch ≠ .own) (ha : q.always = false)
    (hact : ∀ s x, q.act s x = s.compute x d (val s x)) : Computes i cm r d val := by
  intro s s1 x h
  rw [issues_asks hs] at h
  refine ⟨fun hc => ?_, fun hc => ?_⟩
  · rw [he, retire_asks hs]; exact perform_idle h hc ha hl
  · obtain ⟨t, ht, hcomp⟩ := perform_compute (d := d) (f := val s1 x) h hc (hact s1 x)
    exact ⟨t, by rw [he, ht, retire_asks hs], hcomp⟩

end Sys2Proof.Machine
end

