-- ==== Sys2Proof/Laws/Canonical.lean ====
section
/-! SUPPORT. Every operation that writes memory or a scratchpad keeps the canonical form, and reset has it. -/
namespace Sys2Proof.Machine

/-- Any number of byte writes keep the form. -/
theorem Memory.writes_wf (l : List (Nat × Byte × Bool)) {m : Memory} (h : m.wf) :
    (l.foldl (fun (m : Memory) (e : Nat × Byte × Bool) => Memory.write e.1 e.2.1 m) m).wf := by
  induction l generalizing m with
  | nil => exact h
  | cons e l ih => exact ih (Memory.write_wf h e.1 e.2.1)

theorem State.putBytes_wf (s : State) (l : List (Nat × Byte × Bool)) (h : s.mem.wf) : (s.putBytes l).mem.wf :=
  Memory.writes_wf l h

theorem Cable.padWrite_spad (c : Cable) (l : List (Nat × Byte × Bool)) : (c.padWrite l).spad =
    l.foldl (fun (m : Memory) (e : Nat × Byte × Bool) => Memory.write e.1 e.2.1 m) c.spad := by
  unfold Cable.padWrite Cable.stalePad
  dsimp only
  split <;> rfl

theorem Cable.padWrite_wf (c : Cable) (l : List (Nat × Byte × Bool)) (h : c.spad.wf) : (c.padWrite l).spad.wf := by
  rw [c.padWrite_spad]; exact Memory.writes_wf l h

theorem Cable.padWriteAt_wf (c : Cable) (off : Nat) (l : List (Byte × Bool)) (h : c.spad.wf) :
    (c.padWriteAt off l).spad.wf := c.padWrite_wf _ h

theorem State.revertLine_wf (s : State) (l : Nat) (h : s.mem.wf) : (s.revertLine l).mem.wf := by
  unfold State.revertLine
  split
  · exact h
  · exact Memory.writeN_wf h _ _

theorem State.dropDirty_wf (s : State) (h : s.mem.wf) : s.dropDirty.mem.wf := by
  unfold State.dropDirty
  generalize s.lines.keys = l
  induction l generalizing s with
  | nil => exact h
  | cons a l ih => exact ih _ (s.revertLine_wf a h)

theorem State.moduleReset_wf (s : State) (h : s.mem.wf) : s.moduleReset.mem.wf := Memory.filter_wf (s.dropDirty_wf h) _

/-- The host's own writes keep the form. -/
theorem State.hostSide_wf (s : State) (h : s.mem.wf) : s.hostSide.mem.wf := s.putBytes_wf _ h

/-- A firmware image that is loaded keeps the form. -/
theorem firmwareLoad_wf (s t : State) (h : s.mem.wf) (e : execFirmwareLoad s = .next t) : t.mem.wf := by
  unfold execFirmwareLoad at e
  injection e with e
  rw [← e]
  generalize firmwareAt = n, s.staged 0x8000 s.imageLength = l
  split
  · exact Memory.writeN_wf h n l
  · split <;> exact h
  · exact h

/-- The nonzero bytes of a list, each at its place, are in canonical form. -/
theorem Memory.placed_wf (l : List (Byte × Bool)) (n : Nat) :
    Memory.wf ((((List.range' n l.length).zip l).filterMap fun (e : Nat × Byte × Bool) =>
      if e.2.1 = 0 then none else some (e.1, e.2.1)) : Memory) ∧
    ∀ c ∈ ((((List.range' n l.length).zip l).filterMap fun (e : Nat × Byte × Bool) =>
      if e.2.1 = 0 then none else some (e.1, e.2.1)) : Memory), n ≤ c.1 := by
  induction l generalizing n with
  | nil => exact ⟨Memory.wf_nil, by simp⟩
  | cons b l ih =>
    obtain ⟨w, lo⟩ := ih (n + 1)
    simp only [List.length_cons, List.range'_succ, List.zip_cons_cons, List.filterMap_cons]
    split
    · exact ⟨w, fun c hc => Nat.le_of_succ_le (lo c hc)⟩
    · rename_i c hc
      split at hc
      · cases hc
      · cases hc
        refine ⟨⟨List.pairwise_cons.mpr ⟨fun a ha => lo a ha, w.1⟩, ?_⟩, ?_⟩
        · rintro c (_ | ⟨_, hc⟩)
          · assumption
          · exact w.2 c hc
        · rintro c (_ | ⟨_, hc⟩)
          · exact Nat.le_refl _
          · exact Nat.le_of_succ_le (lo c hc)

theorem State.slotPad_wf (s : State) (map : List Nat) (units : Nat) : Memory.wf (s.slotPad map units).1 := by
  unfold State.slotPad
  have h := (Memory.placed_wf ((List.range units).flatMap fun i => s.slotBytes map (padAt + 4096 * i) 4096) 0).1
  rw [← List.range_eq_range'] at h
  exact h

/-- The initial memory, and every initial scratchpad, has the canonical form. -/
theorem State.reset_memWf : State.reset.mem.wf ∧ State.reset.cables = [] := ⟨Memory.wf_nil, rfl⟩

end Sys2Proof.Machine
end

