-- ==== Sys2Proof/Laws/PerInstr.lean ====
section
/-! SUPPORT. One lemma for each instruction: what the decoder makes of the OP of its row. -/
namespace Sys2Proof.Laws.RowOfOp
open Sys2Proof

/-- The instruction that an assigned OP makes of the fields of its format. -/
def made : Mk → Payload → Option Instr
  | .a k, .a f => some (k f)
  | .b k, .b f => some (k f)
  | .i k, .i f => some (k f)
  | .m k, .m f => some (k f)
  | .e k, .e f => some (k f)
  | _, _ => none

/-- The OP of a well-formed instruction's row fits its field, and selects in its class what makes that instruction of its
fields (03 Tables 3.10 to 3.17). A step of the device has no row. -/
def Statement (i : Instr) : Prop :=
  i.WellFormed → match i.row with
    | none => True
    | some (c, op) => op < 1024 ∧ (mkOf c op).bind (fun k => made k i.payload) = some i

theorem rounding_cases (rm : BitVec 3) : rm = 0 ∨ rm = 1 ∨ rm = 2 ∨ rm = 3 ∨ rm = 4 ∨ rm = 5 ∨ rm = 6 ∨ rm = 7 := by
  revert rm; decide

theorem of_row (i : Instr) (c : Cls) (op : Nat) (h : i.row = some (c, op)) (lt : op < 1024)
    (e : (mkOf c op).bind (fun k => made k i.payload) = some i) : Statement i := by
  intro _; rw [h]; exact ⟨lt, e⟩
theorem of_none (i : Instr) (h : i.row = none) : Statement i := by
  intro _; rw [h]; trivial

theorem prefetch (f : FmtM) (i : Instr) (n : BitVec 10) (ok : i.WellFormed)
    (h : i.reject = firstReject [rejectIf (f.data != n) .unusedField, f.reject .splc .relaxed false false]) : f.data = n := by
  unfold Instr.WellFormed at ok; rw [h] at ok
  by_cases e : f.data = n
  · exact e
  · simp [firstReject, rejectIf, e] at ok

theorem addInt (t : IntTy) (f : FmtA) : Statement (.addInt t f) := by
  cases t <;> exact of_row _ _ _ rfl (by decide) rfl
theorem subInt (t : IntTy) (f : FmtA) : Statement (.subInt t f) := by
  cases t <;> exact of_row _ _ _ rfl (by decide) rfl
theorem mulInt (t : IntTy) (f : FmtA) : Statement (.mulInt t f) := by
  cases t <;> exact of_row _ _ _ rfl (by decide) rfl
theorem mulhi (t : IntTy) (f : FmtA) : Statement (.mulhi t f) := by
  cases t <;> exact of_row _ _ _ rfl (by decide) rfl
theorem minInt (t : IntTy) (f : FmtA) : Statement (.minInt t f) := by
  cases t <;> exact of_row _ _ _ rfl (by decide) rfl
theorem maxInt (t : IntTy) (f : FmtA) : Statement (.maxInt t f) := by
  cases t <;> exact of_row _ _ _ rfl (by decide) rfl
theorem divInt (t : IntTy) (f : FmtA) : Statement (.divInt t f) := by
  cases t <;> exact of_row _ _ _ rfl (by decide) rfl
theorem rem (t : IntTy) (f : FmtA) : Statement (.rem t f) := by
  cases t <;> exact of_row _ _ _ rfl (by decide) rfl
theorem shl (t : IntTy) (f : FmtA) : Statement (.shl t f) := by
  cases t <;> exact of_row _ _ _ rfl (by decide) rfl
theorem shr (t : IntTy) (f : FmtA) : Statement (.shr t f) := by
  cases t <;> exact of_row _ _ _ rfl (by decide) rfl
theorem mad (t : IntTy) (f : FmtB) : Statement (.mad t f) := by
  cases t <;> exact of_row _ _ _ rfl (by decide) rfl
theorem addiI32 (f : FmtI) : Statement (.addiI32 f) := of_row _ _ _ rfl (by decide) rfl
theorem addiI64 (f : FmtI) : Statement (.addiI64 f) := of_row _ _ _ rfl (by decide) rfl
theorem and (w : Width) (f : FmtA) : Statement (.and w f) := by
  cases w <;> exact of_row _ _ _ rfl (by decide) rfl
theorem or (w : Width) (f : FmtA) : Statement (.or w f) := by
  cases w <;> exact of_row _ _ _ rfl (by decide) rfl
theorem xor (w : Width) (f : FmtA) : Statement (.xor w f) := by
  cases w <;> exact of_row _ _ _ rfl (by decide) rfl
theorem andn (w : Width) (f : FmtA) : Statement (.andn w f) := by
  cases w <;> exact of_row _ _ _ rfl (by decide) rfl
theorem not (w : Width) (f : FmtA) : Statement (.not w f) := by
  cases w <;> exact of_row _ _ _ rfl (by decide) rfl
theorem popc (w : Width) (f : FmtA) : Statement (.popc w f) := by
  cases w <;> exact of_row _ _ _ rfl (by decide) rfl
theorem clz (w : Width) (f : FmtA) : Statement (.clz w f) := by
  cases w <;> exact of_row _ _ _ rfl (by decide) rfl
theorem ctz (w : Width) (f : FmtA) : Statement (.ctz w f) := by
  cases w <;> exact of_row _ _ _ rfl (by decide) rfl
theorem brev (w : Width) (f : FmtA) : Statement (.brev w f) := by
  cases w <;> exact of_row _ _ _ rfl (by decide) rfl
theorem bfe (w : Width) (f : FmtA) : Statement (.bfe w f) := by
  cases w <;> exact of_row _ _ _ rfl (by decide) rfl
theorem bfi (w : Width) (f : FmtB) : Statement (.bfi w f) := by
  cases w <;> exact of_row _ _ _ rfl (by decide) rfl
theorem mov (w : Width) (f : FmtA) : Statement (.mov w f) := by
  cases w <;> exact of_row _ _ _ rfl (by decide) rfl
theorem nop (f : FmtA) : Statement (.nop f) := of_row _ _ _ rfl (by decide) rfl
theorem li (f : FmtI) : Statement (.li f) := of_row _ _ _ rfl (by decide) rfl
theorem lih (f : FmtI) : Statement (.lih f) := of_row _ _ _ rfl (by decide) rfl
theorem sel (w : Width) (f : FmtB) : Statement (.sel w f) := by
  cases w <;> exact of_row _ _ _ rfl (by decide) rfl
theorem cmpEqInt (t : IntTy) (f : FmtA) : Statement (.cmpEqInt t f) := by
  cases t <;> exact of_row _ _ _ rfl (by decide) rfl
theorem cmpNeInt (t : IntTy) (f : FmtA) : Statement (.cmpNeInt t f) := by
  cases t <;> exact of_row _ _ _ rfl (by decide) rfl
theorem cmpLtInt (t : IntTy) (f : FmtA) : Statement (.cmpLtInt t f) := by
  cases t <;> exact of_row _ _ _ rfl (by decide) rfl
theorem cmpLeInt (t : IntTy) (f : FmtA) : Statement (.cmpLeInt t f) := by
  cases t <;> exact of_row _ _ _ rfl (by decide) rfl
theorem cmpGtInt (t : IntTy) (f : FmtA) : Statement (.cmpGtInt t f) := by
  cases t <;> exact of_row _ _ _ rfl (by decide) rfl
theorem cmpGeInt (t : IntTy) (f : FmtA) : Statement (.cmpGeInt t f) := by
  cases t <;> exact of_row _ _ _ rfl (by decide) rfl
theorem cmpEqFloat (t : FloatTy) (f : FmtA) : Statement (.cmpEqFloat t f) := by
  cases t <;> exact of_row _ _ _ rfl (by decide) rfl
theorem cmpNeFloat (t : FloatTy) (f : FmtA) : Statement (.cmpNeFloat t f) := by
  cases t <;> exact of_row _ _ _ rfl (by decide) rfl
theorem cmpLtFloat (t : FloatTy) (f : FmtA) : Statement (.cmpLtFloat t f) := by
  cases t <;> exact of_row _ _ _ rfl (by decide) rfl
theorem cmpLeFloat (t : FloatTy) (f : FmtA) : Statement (.cmpLeFloat t f) := by
  cases t <;> exact of_row _ _ _ rfl (by decide) rfl
theorem cmpGtFloat (t : FloatTy) (f : FmtA) : Statement (.cmpGtFloat t f) := by
  cases t <;> exact of_row _ _ _ rfl (by decide) rfl
theorem cmpGeFloat (t : FloatTy) (f : FmtA) : Statement (.cmpGeFloat t f) := by
  cases t <;> exact of_row _ _ _ rfl (by decide) rfl
theorem cmpNum (t : FloatTy) (f : FmtA) : Statement (.cmpNum t f) := by
  cases t <;> exact of_row _ _ _ rfl (by decide) rfl
theorem cmpNan (t : FloatTy) (f : FmtA) : Statement (.cmpNan t f) := by
  cases t <;> exact of_row _ _ _ rfl (by decide) rfl
theorem addFloat (t : FloatTy) (rm : BitVec 3) (f : FmtA) : Statement (.addFloat t rm f) := by
  cases t <;> rcases rounding_cases rm with rfl | rfl | rfl | rfl | rfl | rfl | rfl | rfl <;> exact of_row _ _ _ rfl (by decide) rfl
theorem subFloat (t : FloatTy) (rm : BitVec 3) (f : FmtA) : Statement (.subFloat t rm f) := by
  cases t <;> rcases rounding_cases rm with rfl | rfl | rfl | rfl | rfl | rfl | rfl | rfl <;> exact of_row _ _ _ rfl (by decide) rfl
theorem mulFloat (t : FloatTy) (rm : BitVec 3) (f : FmtA) : Statement (.mulFloat t rm f) := by
  cases t <;> rcases rounding_cases rm with rfl | rfl | rfl | rfl | rfl | rfl | rfl | rfl <;> exact of_row _ _ _ rfl (by decide) rfl
theorem divFloat (t : FloatTy) (rm : BitVec 3) (f : FmtA) : Statement (.divFloat t rm f) := by
  cases t <;> rcases rounding_cases rm with rfl | rfl | rfl | rfl | rfl | rfl | rfl | rfl <;> exact of_row _ _ _ rfl (by decide) rfl
theorem sqrt (t : FloatTy) (rm : BitVec 3) (f : FmtA) : Statement (.sqrt t rm f) := by
  cases t <;> rcases rounding_cases rm with rfl | rfl | rfl | rfl | rfl | rfl | rfl | rfl <;> exact of_row _ _ _ rfl (by decide) rfl
theorem minFloat (t : FloatTy) (rm : BitVec 3) (f : FmtA) : Statement (.minFloat t rm f) := by
  cases t <;> rcases rounding_cases rm with rfl | rfl | rfl | rfl | rfl | rfl | rfl | rfl <;> exact of_row _ _ _ rfl (by decide) rfl
theorem maxFloat (t : FloatTy) (rm : BitVec 3) (f : FmtA) : Statement (.maxFloat t rm f) := by
  cases t <;> rcases rounding_cases rm with rfl | rfl | rfl | rfl | rfl | rfl | rfl | rfl <;> exact of_row _ _ _ rfl (by decide) rfl
theorem rint (t : FloatTy) (rm : BitVec 3) (f : FmtA) : Statement (.rint t rm f) := by
  cases t <;> rcases rounding_cases rm with rfl | rfl | rfl | rfl | rfl | rfl | rfl | rfl <;> exact of_row _ _ _ rfl (by decide) rfl
theorem fma (t : FloatTy) (rm : BitVec 3) (f : FmtB) : Statement (.fma t rm f) := by
  cases t <;> rcases rounding_cases rm with rfl | rfl | rfl | rfl | rfl | rfl | rfl | rfl <;> exact of_row _ _ _ rfl (by decide) rfl
theorem fms (t : FloatTy) (rm : BitVec 3) (f : FmtB) : Statement (.fms t rm f) := by
  cases t <;> rcases rounding_cases rm with rfl | rfl | rfl | rfl | rfl | rfl | rfl | rfl <;> exact of_row _ _ _ rfl (by decide) rfl
theorem fnma (t : FloatTy) (rm : BitVec 3) (f : FmtB) : Statement (.fnma t rm f) := by
  cases t <;> rcases rounding_cases rm with rfl | rfl | rfl | rfl | rfl | rfl | rfl | rfl <;> exact of_row _ _ _ rfl (by decide) rfl
theorem fnms (t : FloatTy) (rm : BitVec 3) (f : FmtB) : Statement (.fnms t rm f) := by
  cases t <;> rcases rounding_cases rm with rfl | rfl | rfl | rfl | rfl | rfl | rfl | rfl <;> exact of_row _ _ _ rfl (by decide) rfl
theorem rsqrt (t : FloatTy) (rm : BitVec 3) (f : FmtA) : Statement (.rsqrt t rm f) := by
  cases t <;> rcases rounding_cases rm with rfl | rfl | rfl | rfl | rfl | rfl | rfl | rfl <;> exact of_row _ _ _ rfl (by decide) rfl
theorem exp2 (t : FloatTy) (rm : BitVec 3) (f : FmtA) : Statement (.exp2 t rm f) := by
  cases t <;> rcases rounding_cases rm with rfl | rfl | rfl | rfl | rfl | rfl | rfl | rfl <;> exact of_row _ _ _ rfl (by decide) rfl
theorem log2 (t : FloatTy) (rm : BitVec 3) (f : FmtA) : Statement (.log2 t rm f) := by
  cases t <;> rcases rounding_cases rm with rfl | rfl | rfl | rfl | rfl | rfl | rfl | rfl <;> exact of_row _ _ _ rfl (by decide) rfl
theorem tanh (t : FloatTy) (rm : BitVec 3) (f : FmtA) : Statement (.tanh t rm f) := by
  cases t <;> rcases rounding_cases rm with rfl | rfl | rfl | rfl | rfl | rfl | rfl | rfl <;> exact of_row _ _ _ rfl (by decide) rfl
theorem sin (t : FloatTy) (rm : BitVec 3) (f : FmtA) : Statement (.sin t rm f) := by
  cases t <;> rcases rounding_cases rm with rfl | rfl | rfl | rfl | rfl | rfl | rfl | rfl <;> exact of_row _ _ _ rfl (by decide) rfl
theorem cos (t : FloatTy) (rm : BitVec 3) (f : FmtA) : Statement (.cos t rm f) := by
  cases t <;> rcases rounding_cases rm with rfl | rfl | rfl | rfl | rfl | rfl | rfl | rfl <;> exact of_row _ _ _ rfl (by decide) rfl
theorem cvt (d : CvtTy) (rm : BitVec 3) (f : FmtA) : Statement (.cvt d rm f) := by
  cases d <;> rcases rounding_cases rm with rfl | rfl | rfl | rfl | rfl | rfl | rfl | rfl <;> exact of_row _ _ _ rfl (by decide) rfl
theorem br (f : FmtI) : Statement (.br f) := of_row _ _ _ rfl (by decide) rfl
theorem brx (f : FmtA) : Statement (.brx f) := of_row _ _ _ rfl (by decide) rfl
theorem call (f : FmtI) : Statement (.call f) := of_row _ _ _ rfl (by decide) rfl
theorem ret (f : FmtI) : Statement (.ret f) := of_row _ _ _ rfl (by decide) rfl
theorem musterCnt (f : FmtA) : Statement (.musterCnt f) := of_row _ _ _ rfl (by decide) rfl
theorem musterFirst (f : FmtA) : Statement (.musterFirst f) := of_row _ _ _ rfl (by decide) rfl
theorem musterSame (f : FmtA) : Statement (.musterSame f) := of_row _ _ _ rfl (by decide) rfl
theorem musterLanes (f : FmtA) : Statement (.musterLanes f) := of_row _ _ _ rfl (by decide) rfl
theorem xlaneAt (f : FmtA) : Statement (.xlaneAt f) := of_row _ _ _ rfl (by decide) rfl
theorem xlaneBelow (f : FmtA) : Statement (.xlaneBelow f) := of_row _ _ _ rfl (by decide) rfl
theorem xlaneAbove (f : FmtA) : Statement (.xlaneAbove f) := of_row _ _ _ rfl (by decide) rfl
theorem xlaneFlip (f : FmtA) : Statement (.xlaneFlip f) := of_row _ _ _ rfl (by decide) rfl
theorem redAdd (t : RedTy) (f : FmtA) : Statement (.redAdd t f) := by
  cases t <;> exact of_row _ _ _ rfl (by decide) rfl
theorem redMin (t : RedTy) (f : FmtA) : Statement (.redMin t f) := by
  cases t <;> exact of_row _ _ _ rfl (by decide) rfl
theorem redMax (t : RedTy) (f : FmtA) : Statement (.redMax t f) := by
  cases t <;> exact of_row _ _ _ rfl (by decide) rfl
theorem scanAdd (t : RedTy) (f : FmtA) : Statement (.scanAdd t f) := by
  cases t <;> exact of_row _ _ _ rfl (by decide) rfl
theorem redAnd (w : Width) (f : FmtA) : Statement (.redAnd w f) := by
  cases w <;> exact of_row _ _ _ rfl (by decide) rfl
theorem redOr (w : Width) (f : FmtA) : Statement (.redOr w f) := by
  cases w <;> exact of_row _ _ _ rfl (by decide) rfl
theorem redXor (w : Width) (f : FmtA) : Statement (.redXor w f) := by
  cases w <;> exact of_row _ _ _ rfl (by decide) rfl
theorem mand (f : FmtA) : Statement (.mand f) := of_row _ _ _ rfl (by decide) rfl
theorem mor (f : FmtA) : Statement (.mor f) := of_row _ _ _ rfl (by decide) rfl
theorem mxor (f : FmtA) : Statement (.mxor f) := of_row _ _ _ rfl (by decide) rfl
theorem mandn (f : FmtA) : Statement (.mandn f) := of_row _ _ _ rfl (by decide) rfl
theorem mnot (f : FmtA) : Statement (.mnot f) := of_row _ _ _ rfl (by decide) rfl
theorem mpop (f : FmtA) : Statement (.mpop f) := of_row _ _ _ rfl (by decide) rfl
theorem mfirst (f : FmtA) : Statement (.mfirst f) := of_row _ _ _ rfl (by decide) rfl
theorem mtov (f : FmtA) : Statement (.mtov f) := of_row _ _ _ rfl (by decide) rfl
theorem vtom (f : FmtA) : Statement (.vtom f) := of_row _ _ _ rfl (by decide) rfl
theorem mlive (f : FmtA) : Statement (.mlive f) := of_row _ _ _ rfl (by decide) rfl
theorem ldG (z : SizeZ) (f : FmtM) : Statement (.ldG z f) := by
  cases z <;> exact of_row _ _ _ rfl (by decide) rfl
theorem stG (z : SizeZ) (f : FmtM) : Statement (.stG z f) := by
  cases z <;> exact of_row _ _ _ rfl (by decide) rfl
theorem ldP (z : SizeZ) (f : FmtM) : Statement (.ldP z f) := by
  cases z <;> exact of_row _ _ _ rfl (by decide) rfl
theorem stP (z : SizeZ) (f : FmtM) : Statement (.stP z f) := by
  cases z <;> exact of_row _ _ _ rfl (by decide) rfl
theorem ldK (z : SizeZ) (f : FmtM) : Statement (.ldK z f) := by
  cases z <;> exact of_row _ _ _ rfl (by decide) rfl
theorem atomAdd (t : IntTy) (f : FmtM) : Statement (.atomAdd t f) := by
  cases t <;> exact of_row _ _ _ rfl (by decide) rfl
theorem atomMin (t : IntTy) (f : FmtM) : Statement (.atomMin t f) := by
  cases t <;> exact of_row _ _ _ rfl (by decide) rfl
theorem atomMax (t : IntTy) (f : FmtM) : Statement (.atomMax t f) := by
  cases t <;> exact of_row _ _ _ rfl (by decide) rfl
theorem atomAnd (t : IntTy) (f : FmtM) : Statement (.atomAnd t f) := by
  cases t <;> exact of_row _ _ _ rfl (by decide) rfl
theorem atomOr (t : IntTy) (f : FmtM) : Statement (.atomOr t f) := by
  cases t <;> exact of_row _ _ _ rfl (by decide) rfl
theorem atomXor (t : IntTy) (f : FmtM) : Statement (.atomXor t f) := by
  cases t <;> exact of_row _ _ _ rfl (by decide) rfl
theorem atomXchg (t : IntTy) (f : FmtM) : Statement (.atomXchg t f) := by
  cases t <;> exact of_row _ _ _ rfl (by decide) rfl
theorem atomCas (t : IntTy) (f : FmtM) : Statement (.atomCas t f) := by
  cases t <;> exact of_row _ _ _ rfl (by decide) rfl
theorem atomAddF32 (f : FmtM) : Statement (.atomAddF32 f) := of_row _ _ _ rfl (by decide) rfl
theorem aredAdd (t : IntTy) (f : FmtM) : Statement (.aredAdd t f) := by
  cases t <;> exact of_row _ _ _ rfl (by decide) rfl
theorem aredMin (t : IntTy) (f : FmtM) : Statement (.aredMin t f) := by
  cases t <;> exact of_row _ _ _ rfl (by decide) rfl
theorem aredMax (t : IntTy) (f : FmtM) : Statement (.aredMax t f) := by
  cases t <;> exact of_row _ _ _ rfl (by decide) rfl
theorem aredAnd (t : IntTy) (f : FmtM) : Statement (.aredAnd t f) := by
  cases t <;> exact of_row _ _ _ rfl (by decide) rfl
theorem aredOr (t : IntTy) (f : FmtM) : Statement (.aredOr t f) := by
  cases t <;> exact of_row _ _ _ rfl (by decide) rfl
theorem aredXor (t : IntTy) (f : FmtM) : Statement (.aredXor t f) := by
  cases t <;> exact of_row _ _ _ rfl (by decide) rfl
theorem aredAddF32 (f : FmtM) : Statement (.aredAddF32 f) := of_row _ _ _ rfl (by decide) rfl
theorem nredAddI32 (f : FmtM) : Statement (.nredAddI32 f) := of_row _ _ _ rfl (by decide) rfl
theorem nredAddF32 (f : FmtM) : Statement (.nredAddF32 f) := of_row _ _ _ rfl (by decide) rfl
theorem pfhL1 (f : FmtM) : Statement (.pfhL1 f) := fun ok =>
  ⟨by decide, by have h := prefetch f _ 0 ok rfl; simp [mkOf, memMk, Instr.payload, made, pfhOf, h]⟩
theorem pfhLlc (f : FmtM) : Statement (.pfhLlc f) := fun ok =>
  ⟨by decide, by have h := prefetch f _ 1 ok rfl; simp [mkOf, memMk, Instr.payload, made, pfhOf, h]⟩
theorem pfhNode0 (f : FmtM) : Statement (.pfhNode0 f) := fun ok =>
  ⟨by decide, by have h := prefetch f _ 2 ok rfl; simp [mkOf, memMk, Instr.payload, made, pfhOf, h]⟩
theorem sub (f : FmtM) : Statement (.sub f) := of_row _ _ _ rfl (by decide) rfl
theorem unsub (f : FmtM) : Statement (.unsub f) := of_row _ _ _ rfl (by decide) rfl
theorem fence (f : FmtM) : Statement (.fence f) := of_row _ _ _ rfl (by decide) rfl
theorem xfence (from_ : Path) (to_ : Path) (f : FmtA) : Statement (.xfence from_ to_ f) := by
  cases from_ <;> cases to_ <;> exact of_row _ _ _ rfl (by decide) rfl
theorem wtq (f : FmtM) : Statement (.wtq f) := of_row _ _ _ rfl (by decide) rfl
theorem wake (f : FmtM) : Statement (.wake f) := of_row _ _ _ rfl (by decide) rfl
theorem send (f : FmtE) : Statement (.send f) := of_row _ _ _ rfl (by decide) rfl
theorem recv (f : FmtE) : Statement (.recv f) := of_row _ _ _ rfl (by decide) rfl
theorem join (f : FmtA) : Statement (.join f) := of_row _ _ _ rfl (by decide) rfl
theorem bar (f : FmtA) : Statement (.bar f) := of_row _ _ _ rfl (by decide) rfl
theorem ringPut (f : FmtE) : Statement (.ringPut f) := of_row _ _ _ rfl (by decide) rfl
theorem ringGet (f : FmtE) : Statement (.ringGet f) := of_row _ _ _ rfl (by decide) rfl
theorem cntWait (f : FmtI) : Statement (.cntWait f) := of_row _ _ _ rfl (by decide) rfl
theorem cntMode (f : FmtI) : Statement (.cntMode f) := of_row _ _ _ rfl (by decide) rfl
theorem cntRd (f : FmtI) : Statement (.cntRd f) := of_row _ _ _ rfl (by decide) rfl
theorem crd (f : FmtI) : Statement (.crd f) := of_row _ _ _ rfl (by decide) rfl
theorem cwr (f : FmtI) : Statement (.cwr f) := of_row _ _ _ rfl (by decide) rfl
theorem trap (f : FmtI) : Statement (.trap f) := of_row _ _ _ rfl (by decide) rfl
theorem rft (f : FmtI) : Statement (.rft f) := of_row _ _ _ rfl (by decide) rfl
theorem launch (f : FmtA) : Statement (.launch f) := of_row _ _ _ rfl (by decide) rfl
theorem yield (f : FmtA) : Statement (.yield f) := of_row _ _ _ rfl (by decide) rfl
theorem exit (f : FmtA) : Statement (.exit f) := of_row _ _ _ rfl (by decide) rfl
theorem cp1d (f : FmtE) : Statement (.cp1d f) := of_row _ _ _ rfl (by decide) rfl
theorem cp2d (f : FmtE) : Statement (.cp2d f) := of_row _ _ _ rfl (by decide) rfl
theorem cpGth (f : FmtE) : Statement (.cpGth f) := of_row _ _ _ rfl (by decide) rfl
theorem cpSct (f : FmtE) : Statement (.cpSct f) := of_row _ _ _ rfl (by decide) rfl
theorem cpFillRaw (f : FmtE) : Statement (.cpFillRaw f) := of_row _ _ _ rfl (by decide) rfl
theorem cpFillEsr (f : FmtE) : Statement (.cpFillEsr f) := of_row _ _ _ rfl (by decide) rfl
theorem cpFillN4e (f : FmtE) : Statement (.cpFillN4e f) := of_row _ _ _ rfl (by decide) rfl
theorem cpZero (f : FmtE) : Statement (.cpZero f) := of_row _ _ _ rfl (by decide) rfl
theorem cpSeg (f : FmtE) : Statement (.cpSeg f) := of_row _ _ _ rfl (by decide) rfl
theorem cpCancel (f : FmtE) : Statement (.cpCancel f) := of_row _ _ _ rfl (by decide) rfl
theorem tbldT4 (x : WFmt) (a : AFmt) (f : FmtE) : Statement (.tbldT4 x a f) := by
  cases x <;> cases a <;> exact of_row _ _ _ rfl (by decide) rfl
theorem tbldG4 (a : Fmt8) (f : FmtE) : Statement (.tbldG4 a f) := by
  cases a <;> exact of_row _ _ _ rfl (by decide) rfl
theorem tbinv (f : FmtE) : Statement (.tbinv f) := of_row _ _ _ rfl (by decide) rfl
theorem tbspill (f : FmtE) : Statement (.tbspill f) := of_row _ _ _ rfl (by decide) rfl
theorem tbfill (f : FmtE) : Statement (.tbfill f) := of_row _ _ _ rfl (by decide) rfl
theorem lmmT8 (x : Fmt8) (a : Fmt8) (f : FmtE) : Statement (.lmmT8 x a f) := by
  cases x <;> cases a <;> exact of_row _ _ _ rfl (by decide) rfl
theorem lmmT4 (x : WFmt) (f : FmtE) : Statement (.lmmT4 x f) := by
  cases x <;> exact of_row _ _ _ rfl (by decide) rfl
theorem lmmT4Rb (x : WFmt) (f : FmtE) : Statement (.lmmT4Rb x f) := by
  cases x <;> exact of_row _ _ _ rfl (by decide) rfl
theorem lmmG4 (b : Planes) (f : FmtE) : Statement (.lmmG4 b f) := by
  cases b <;> exact of_row _ _ _ rfl (by decide) rfl
theorem lmmG4Rb (b : Planes) (f : FmtE) : Statement (.lmmG4Rb b f) := by
  cases b <;> exact of_row _ _ _ rfl (by decide) rfl
theorem dmm (t : FloatTy) (f : FmtE) : Statement (.dmm t f) := by
  cases t <;> exact of_row _ _ _ rfl (by decide) rfl
theorem saccMx (f : FmtE) : Statement (.saccMx f) := of_row _ _ _ rfl (by decide) rfl
theorem saccQ16 (f : FmtE) : Statement (.saccQ16 f) := of_row _ _ _ rfl (by decide) rfl
theorem zld (f : FmtE) : Statement (.zld f) := of_row _ _ _ rfl (by decide) rfl
theorem zst (f : FmtE) : Statement (.zst f) := of_row _ _ _ rfl (by decide) rfl
theorem zzero (f : FmtE) : Statement (.zzero f) := of_row _ _ _ rfl (by decide) rfl
theorem zmov (f : FmtE) : Statement (.zmov f) := of_row _ _ _ rfl (by decide) rfl
theorem srchDist (f : FmtE) : Statement (.srchDist f) := of_row _ _ _ rfl (by decide) rfl
theorem srchKnn (f : FmtE) : Statement (.srchKnn f) := of_row _ _ _ rfl (by decide) rfl
theorem srchWalk (f : FmtE) : Statement (.srchWalk f) := of_row _ _ _ rfl (by decide) rfl
theorem srchIns (f : FmtE) : Statement (.srchIns f) := of_row _ _ _ rfl (by decide) rfl
theorem srchDel (f : FmtE) : Statement (.srchDel f) := of_row _ _ _ rfl (by decide) rfl
theorem srchSnap (f : FmtE) : Statement (.srchSnap f) := of_row _ _ _ rfl (by decide) rfl
theorem srchRel (f : FmtE) : Statement (.srchRel f) := of_row _ _ _ rfl (by decide) rfl
theorem srchHeap (f : FmtE) : Statement (.srchHeap f) := of_row _ _ _ rfl (by decide) rfl
theorem srchReclaim (f : FmtE) : Statement (.srchReclaim f) := of_row _ _ _ rfl (by decide) rfl
theorem dist (f : FmtE) : Statement (.dist f) := of_row _ _ _ rfl (by decide) rfl
theorem heapPush (f : FmtE) : Statement (.heapPush f) := of_row _ _ _ rfl (by decide) rfl
theorem heapTop (f : FmtE) : Statement (.heapTop f) := of_row _ _ _ rfl (by decide) rfl
theorem heapPop (f : FmtE) : Statement (.heapPop f) := of_row _ _ _ rfl (by decide) rfl
theorem visit (f : FmtE) : Statement (.visit f) := of_row _ _ _ rfl (by decide) rfl
theorem hop (f : FmtE) : Statement (.hop f) := of_row _ _ _ rfl (by decide) rfl
theorem walkEnd (f : FmtE) : Statement (.walkEnd f) := of_row _ _ _ rfl (by decide) rfl
theorem fabRedAdd (t : FabTy) (f : FmtE) : Statement (.fabRedAdd t f) := by
  cases t <;> exact of_row _ _ _ rfl (by decide) rfl
theorem fabRedMin (t : FabTy) (f : FmtE) : Statement (.fabRedMin t f) := by
  cases t <;> exact of_row _ _ _ rfl (by decide) rfl
theorem fabRedMax (t : FabTy) (f : FmtE) : Statement (.fabRedMax t f) := by
  cases t <;> exact of_row _ _ _ rfl (by decide) rfl
theorem fabTopk (f : FmtE) : Statement (.fabTopk f) := of_row _ _ _ rfl (by decide) rfl
theorem fabPut (f : FmtE) : Statement (.fabPut f) := of_row _ _ _ rfl (by decide) rfl
theorem fabGet (f : FmtE) : Statement (.fabGet f) := of_row _ _ _ rfl (by decide) rfl
theorem fabBar (f : FmtE) : Statement (.fabBar f) := of_row _ _ _ rfl (by decide) rfl
theorem fabSig (f : FmtE) : Statement (.fabSig f) := of_row _ _ _ rfl (by decide) rfl
theorem illegalInstruction (why : Reject) : Statement (.illegalInstruction why) := of_none _ rfl
theorem clauseBegin (who : Beginner) : Statement (.clauseBegin who) := of_none _ rfl
theorem spill (core : Nat) : Statement (.spill core) := of_none _ rfl
theorem tick : Statement .tick := of_none _ rfl
theorem homeRead (txn : Nat) (evict : List Nat) : Statement (.homeRead txn evict) := of_none _ rfl
theorem loadReply (txn : Nat) : Statement (.loadReply txn) := of_none _ rfl
theorem homeWrite (txn : Nat) : Statement (.homeWrite txn) := of_none _ rfl
theorem writeAck (txn : Nat) : Statement (.writeAck txn) := of_none _ rfl
theorem homeAtomic (txn : Nat) : Statement (.homeAtomic txn) := of_none _ rfl
theorem capstanNred (txn : Nat) : Statement (.capstanNred txn) := of_none _ rfl
theorem refreshWindow : Statement .refreshWindow := of_none _ rfl
theorem meshEpoch : Statement .meshEpoch := of_none _ rfl
theorem bankAccess (core : Nat) (bank : Nat) : Statement (.bankAccess core bank) := of_none _ rfl
theorem homeSubscribe (txn : Nat) : Statement (.homeSubscribe txn) := of_none _ rfl
theorem segmentSnapshot (uid : Nat) (seg : Nat) : Statement (.segmentSnapshot uid seg) := of_none _ rfl
theorem segmentUpdate (uid : Nat) (seg : Nat) : Statement (.segmentUpdate uid seg) := of_none _ rfl
theorem wtqAppend (txn : Nat) : Statement (.wtqAppend txn) := of_none _ rfl
theorem wakeAtHome (txn : Nat) : Statement (.wakeAtHome txn) := of_none _ rfl
theorem wtqTimeout (waiter : Nat) : Statement (.wtqTimeout waiter) := of_none _ rfl
theorem messageDelivery (msg : Nat) : Statement (.messageDelivery msg) := of_none _ rfl
theorem pageWalk (core : Nat) (ctx : Nat) (va : W64) (write : Bool) (fetch : Bool) : Statement (.pageWalk core ctx va write fetch) := of_none _ rfl
theorem copyUnit (uid : Nat) (cmd : Nat) : Statement (.copyUnit uid cmd) := of_none _ rfl
theorem copyComplete (uid : Nat) (cmd : Nat) : Statement (.copyComplete uid cmd) := of_none _ rfl
theorem laUnit (uid : Nat) (cmd : Nat) : Statement (.laUnit uid cmd) := of_none _ rfl
theorem laComplete (uid : Nat) (cmd : Nat) : Statement (.laComplete uid cmd) := of_none _ rfl
theorem srchStart (uid : Nat) (cmd : Nat) : Statement (.srchStart uid cmd) := of_none _ rfl
theorem versionCommit (uid : Nat) (cmd : Nat) : Statement (.versionCommit uid cmd) := of_none _ rfl
theorem walkerReply (uid : Nat) (cmd : Nat) (w : Nat) : Statement (.walkerReply uid cmd w) := of_none _ rfl
theorem hopArrival (uid : Nat) (cmd : Nat) (w : Nat) : Statement (.hopArrival uid cmd w) := of_none _ rfl
theorem srchFinish (uid : Nat) (cmd : Nat) : Statement (.srchFinish uid cmd) := of_none _ rfl
theorem launchEnter (launch : Nat) : Statement (.launchEnter launch) := of_none _ rfl
theorem placement (part : Nat) : Statement (.placement part) := of_none _ rfl
theorem cableEnd (uid : Nat) : Statement (.cableEnd uid) := of_none _ rfl
theorem saveComplete (uid : Nat) : Statement (.saveComplete uid) := of_none _ rfl
theorem powerWindow (watts : Nat) : Statement (.powerWindow watts) := of_none _ rfl
theorem thermalMigration (core : Nat) (temp : Nat) (temps : List Nat) : Statement (.thermalMigration core temp temps) := of_none _ rfl
theorem thermalTrip (temp : Nat) : Statement (.thermalTrip temp) := of_none _ rfl
theorem gateIdle (core : Nat) (section_ : Nat) : Statement (.gateIdle core section_) := of_none _ rfl
theorem powerWakeComplete (core : Nat) (section_ : Nat) : Statement (.powerWakeComplete core section_) := of_none _ rfl
theorem fabricSlot (fibre : Nat) (relays : List (Nat × Nat × Nat)) : Statement (.fabricSlot fibre relays) := of_none _ rfl
theorem fecBlockReceive (fibre : Nat) (header flits check : List Nat) : Statement (.fecBlockReceive fibre header flits check) :=
  of_none _ rfl
theorem peerAccessTarget (msg : Nat) : Statement (.peerAccessTarget msg) := of_none _ rfl
theorem peerAck (mseq : Nat) (refused : Option Nat) (data : List Byte) (psn : Bool) : Statement (.peerAck mseq refused data psn) := of_none _ rfl
theorem messageLost (mseq : Nat) : Statement (.messageLost mseq) := of_none _ rfl
theorem fabComplete (uid : Nat) (cmd : Nat) (contribs : List Contribution) : Statement (.fabComplete uid cmd contribs) := of_none _ rfl
theorem cxlCompletionTimeout (port : Nat) : Statement (.cxlCompletionTimeout port) := of_none _ rfl
theorem cxlLinkDown (port : Nat) : Statement (.cxlLinkDown port) := of_none _ rfl
theorem hostMemWrite (off : Nat) (bytes : List Byte) : Statement (.hostMemWrite off bytes) := of_none _ rfl
theorem hostMemRead (off : Nat) (len : Nat) : Statement (.hostMemRead off len) := of_none _ rfl
theorem resumeRetry (ctx : Nat) (handle : Nat) : Statement (.resumeRetry ctx handle) := of_none _ rfl
theorem resumeSkip (ctx : Nat) (handle : Nat) : Statement (.resumeSkip ctx handle) := of_none _ rfl
theorem resumeTerminate (ctx : Nat) (handle : Nat) : Statement (.resumeTerminate ctx handle) := of_none _ rfl
theorem resumeCancel (ctx : Nat) (handle : Nat) : Statement (.resumeCancel ctx handle) := of_none _ rfl
theorem resumeRetrySpill (ctx : Nat) (handle : Nat) (size : Nat) : Statement (.resumeRetrySpill ctx handle size) := of_none _ rfl
theorem ctxPreempt (ctx : Nat) (cid : Nat) : Statement (.ctxPreempt ctx cid) := of_none _ rfl
theorem ctxRestore (ctx : Nat) (slot : Nat) : Statement (.ctxRestore ctx slot) := of_none _ rfl
theorem ctxTlbinv (ctx : Nat) (value : W64) : Statement (.ctxTlbinv ctx value) := of_none _ rfl
theorem ctxFqCtl (ctx : Nat) (value : W32) : Statement (.ctxFqCtl ctx value) := of_none _ rfl
theorem ctxFqTailRead (uid : Nat) : Statement (.ctxFqTailRead uid) := of_none _ rfl
theorem ctxNotify (ctx : Nat) (value : W32) : Statement (.ctxNotify ctx value) := of_none _ rfl
theorem ctxGpfStart (ctx : Nat) (value : W32) : Statement (.ctxGpfStart ctx value) := of_none _ rfl
theorem gpfComplete (port : Nat) : Statement (.gpfComplete port) := of_none _ rfl
theorem portOnline (port : Nat) : Statement (.portOnline port) := of_none _ rfl
theorem devSvnWrite (value : W32) : Statement (.devSvnWrite value) := of_none _ rfl
theorem devPartCfgWrite (value : W64) : Statement (.devPartCfgWrite value) := of_none _ rfl
theorem devCoreMapWrite (value : W64) : Statement (.devCoreMapWrite value) := of_none _ rfl
theorem ctxEnable : Statement .ctxEnable := of_none _ rfl
theorem ctxDisable : Statement .ctxDisable := of_none _ rfl
theorem ctxTerm : Statement .ctxTerm := of_none _ rfl
theorem devCtxLaunch (value : W64) : Statement (.devCtxLaunch value) := of_none _ rfl
theorem devFwqWrite (value : W64) : Statement (.devFwqWrite value) := of_none _ rfl
theorem fwqService (part : Nat) : Statement (.fwqService part) := of_none _ rfl
theorem devReset : Statement .devReset := of_none _ rfl
theorem powerOn : Statement .powerOn := of_none _ rfl
theorem port0HotReset : Statement .port0HotReset := of_none _ rfl
theorem scrubComplete (trained : Bool) (width : Nat) : Statement (.scrubComplete trained width) := of_none _ rfl
theorem bootDoor (value : W64) : Statement (.bootDoor value) := of_none _ rfl
theorem firmwareLoad : Statement .firmwareLoad := of_none _ rfl
theorem attestationRequest (nonce : List Byte) : Statement (.attestationRequest nonce) := of_none _ rfl
theorem ctxCreate (creq : W64) (arg0 : W64) (arg1 : W64) (arg2 : W64) : Statement (.ctxCreate creq arg0 arg1 arg2) := of_none _ rfl
theorem ctxDestroy (creq : W64) (arg0 : W64) (arg1 : W64) (arg2 : W64) : Statement (.ctxDestroy creq arg0 arg1 arg2) := of_none _ rfl
theorem ctxAnswer (creq : W64) (arg0 : W64) (arg1 : W64) (arg2 : W64) : Statement (.ctxAnswer creq arg0 arg1 arg2) := of_none _ rfl
theorem ctxTerminate (creq : W64) (arg0 : W64) (arg1 : W64) (arg2 : W64) : Statement (.ctxTerminate creq arg0 arg1 arg2) := of_none _ rfl
theorem badRequest (creq : W64) (arg0 : W64) (arg1 : W64) (arg2 : W64) : Statement (.badRequest creq arg0 arg1 arg2) := of_none _ rfl
theorem resumeActionReserved (ctx : Nat) (handle : Nat) (action : Nat) : Statement (.resumeActionReserved ctx handle action) := of_none _ rfl

end Sys2Proof.Laws.RowOfOp
end

