-- ==== Sys2Proof/Tests/Slice0.lean ====
section
/-! SUPPORT. Tests of the model by evaluation, and for each statement with hypotheses a state and operands that meet
them. -/
namespace Sys2Proof.Tests
open Sys2Proof Sys2Proof.Machine
set_option maxRecDepth 100000
set_option Elab.async false

/-! ### Ill-formed terms (03 Table 3.19) -/

/-- Fields of format A, B, I, M and E with nothing set. -/
abbrev fa : FmtA := default
abbrev fb : FmtB := default
abbrev fi : FmtI := default
abbrev fm : FmtM := default
abbrev fe : FmtE := default
/-- The common fields at a scope. -/
def at_ (s : Scope) : Common := { (default : Common) with scope := s }

theorem test_refused_unused : (Instr.nop { fa with dst := 1 }).reject = some .unusedField := by decide +kernel
theorem test_refused_mask : (Instr.mand { fa with c := at_ .ply, dst := 0x10 }).reject = some .maskField := by decide +kernel
theorem test_refused_scope : (Instr.musterCnt { fa with dst := 1 }).reject = some .scopeNotAccepted := by decide +kernel
theorem test_refused_predicate :
    (Instr.li { fi with c := { (default : Common) with pinv := true } }).reject = some .reservedPredicate := by decide +kernel
theorem test_refused_rounding : (Instr.addFloat .f32 4 fa).reject = some .rounding := by decide +kernel
theorem test_refused_cvt : (Instr.cvt .f32 0 { fa with sb := 15 }).reject = some .cvtTypes := by decide +kernel
theorem test_refused_order : (Instr.ldG .b32 { fm with ord := 2, ssc := 1 }).reject = some .order := by decide +kernel
theorem test_refused_split : (Instr.stG .b32 { fm with split := true }).reject = some .split := by decide +kernel
theorem test_refused_last : (Instr.fence { fm with ord := 1, ssc := 1, lrd := true }).reject = some .lastRead := by decide +kernel
theorem test_refused_variant : (Instr.cp1d { fe with var := 1 }).reject = some .variant := by decide +kernel
theorem test_refused_token : (Instr.cp1d { fe with tok := 1 }).reject = some .counterOrToken := by decide +kernel
theorem test_refused_immediate : (Instr.ret { fi with imm := 1 }).reject = some .immediate := by decide +kernel
/-- The check that refuses a word, if one does. -/
def refused (c : Cls) (w : W64) : Option Reject := match decodeWord c w with | .error r => some r | .ok _ => none
/-- A word without bit 63; an OP that no row has; a reserved bit of format B. -/
theorem test_refused_words : refused .alu 0x0060_0000_0000_0060 = some .notAnInstruction ∧
    refused .sys 0x8000_0000_0000_03FF = some .unassignedOp ∧ refused .alu 0x8100_1006_0208_0208 = some .reservedField := by
  decide +kernel
/-- A class that is none; a breakpoint beyond the clause; a reserved bit; a counter in a wait that is not enabled. -/
theorem test_refused_header : Header.decode 0x8000_0000_0000_0000 = none ∧ Header.decode 0x0000_0200_0000_0000 = none ∧
    Header.decode 0x0000_0000_0000_0001 = none ∧ Header.decode 0x0000_0008_0000_0000 = none := by decide +kernel

/-! ### Words of the spec's own listings -/

/-- Header of `.clause.sys.wa n1 0` (15): CLASS 7, LEN 0, WA_EN 1, WA_CNT 1. -/
theorem test_decode_header : Header.decode 0x7000_0088_0000_0000
    = some ⟨.sys, 0, 0, ⟨true, 1, 0⟩, ⟨false, 0, 0⟩, false⟩ ∧ (Header.decode 0x3300_0000_0000_0000).map Header.count = some 4 := by
  decide +kernel
/-- 04: `div.i32.sat v4, v2', v3'`. -/
theorem test_decode_div : (decodeWord .alu 0x8080_1006_4E00_0018).toOption
    = some (.divInt .i32 { fa with dst := 4, sa := 2, sb := 3, lra := true, lrb := true, clamp := 3 }) := by decide +kernel
/-- 14 Table 14.10: `cmp.ne.n32 m2, s5, 1`. -/
theorem test_decode_cmp : (decodeWord .alu 0x8058_2F82_0000_0085).toOption
    = some (.cmpNeInt .n32 { fa with dst := 2, sa := 0x305, sb := 0x3C1 }) := by decide +kernel
/-- 10: `ld.g.b32 v8, [v22]`. -/
theorem test_decode_ld : (decodeWord .mem 0x8100_B000_0000_0004).toOption
    = some (.ldG .b32 { fm with data := 8, base := 22 }) := by decide +kernel
/-- 10: `wake v7, [v20]`. -/
theorem test_decode_wake : (decodeWord .sync 0x80E0_A000_0000_0081).toOption
    = some (.wake { fm with data := 7, base := 20 }) := by decide +kernel
/-- 11 Table 11.7: `cp.1d.ply s8, k4, s12, n2, s3`. -/
theorem test_decode_cp : (decodeWord .copy 0xE11A_2619_2860_0400).toOption = some (.cp1d
    { fe with c := at_ .ply, opd := 0x308, opa := 0x344, opb := 0x30C, ce := true, cnt := 2, te := true, tok := 3 }) := by
  decide +kernel
/-- 15: `zst.ply k16, k18, k20, n1`. -/
theorem test_decode_zst : (decodeWord .la 0xEA1A_96A9_1000_0491).toOption = some (.zst
    { fe with c := at_ .ply, opd := 0x350, opa := 0x352, opb := 0x354, ce := true, cnt := 1 }) := by decide +kernel
/-- 18: `fab.red.add.f32.ply k0, k2, k4, n3, s1`. -/
theorem test_decode_fab : (decodeWord .fab 0xE81A_1689_3820_0400).toOption = some (.fabRedAdd .f32
    { fe with c := at_ .ply, opd := 0x340, opa := 0x342, opb := 0x344, ce := true, cnt := 3, te := true, tok := 1 }) := by
  decide +kernel
/-- 04: `call`, whose target lies seven words after its header, with its stack in `v30:v31`. -/
theorem test_decode_call : (decodeWord .alu 0x83C0_F000_0038_0072).toOption
    = some (.call { fi with dst := 30, sa := 30, imm := 7 }) := by decide +kernel

/-! ### Numbers -/

/-- 02 Table 2.6: roundings to `e4m3` and to `e2m1`. -/
theorem test_round_e4m3 : Fmt.e4m3.round (Fmt.f32.decode 0x3E99_999A) .rn false = (0x2A, Flags.nx) ∧
    Fmt.e4m3.round (Fmt.f32.decode 0x3E99_999A) .rz false = (0x29, Flags.nx) ∧
    Fmt.e4m3.round (Fmt.f32.decode 0x43EB_0000) .rn false = (0x7F, Flags.of ||| Flags.nx) ∧
    Fmt.e4m3.round (Fmt.f32.decode 0x3AC4_9BA6) .rn false = (0x01, Flags.uf ||| Flags.nx) := by decide +kernel
theorem test_round_e2m1 : Fmt.e2m1.round (Fmt.f32.decode 0x40D0_0000) .rn false = (0x7, Flags.nx) ∧
    Fmt.e2m1.round (Fmt.f32.decode 0x40F0_0000) .rn false = (0x7, Flags.of ||| Flags.nx) ∧
    Fmt.bf16.round (Fmt.f32.decode 0x4B80_0001) .rn false = (0x4B80, Flags.nx) := by decide +kernel
/-- 12: the `e4m3` activation 0x4D by Q16 code 14 is exactly 0x408C_2800. -/
theorem test_table_entry :
    Fmt.f32.round ((Fmt.e4m3.decode 0x4D).mul (Fmt.f16.decode (q16Pattern 14))).1 .rn false = (0x408C_2800, 0) := by
  decide +kernel
/-- 02 R57: the order of the terms of a sum matters. -/
theorem test_sum_order : let e := fun n => (Fmt.f32.decode n, (0 : Flags))
    Fmt.f32.encode (orderedSum .f32 (.zero false) (([0x4B80_0000, 0x3F80_0000, 0x3F80_0000].map e).map Prod.fst)).1 = 0x4B80_0000 ∧
    Fmt.f32.encode (orderedSum .f32 (.zero false) (([0x3F80_0000, 0x3F80_0000, 0x4B80_0000].map e).map Prod.fst)).1 = 0x4B80_0001 := by
  decide +kernel
/-- 18 R413: the tree of four ranks. -/
theorem test_rank_tree : treeFold (fabCombine .add .f32) 4 [0x3F80_0000, 0x3F80_0000, 0x4B80_0000, 0x3F80_0000]
    = (0x4B80_0001, Flags.nx) := by decide +kernel
/-- 11 Table 11.6: a canonical code. -/
theorem test_canonical_code : n4eCodes 0x0000_0032_1300_0000 = [(1, 0, 7), (2, 2, 8), (3, 6, 6), (3, 7, 9)] := by decide +kernel

/-! ### Small states -/

/-- The machine about to execute one instruction alone in its clause, in the one group of a cable of one ply. -/
def placed (c : Cls) (i : Instr) : State :=
  { State.reset.withFetchWord 128 ((Header.encode ⟨c, 0, 0, ⟨false, 0, 0⟩, ⟨false, 0, 0⟩, false⟩).toNat + (encode i).toNat * 2 ^ 64)
    with cur := .group 1 0 0 }
/-- Every strand's register `v n` holds a word. -/
def withV (n v : Nat) (s : State) : State :=
  s.updCable 1 fun c => { c with strands := c.strands.map fun e => (e.1, { e.2 with v := e.2.v.insert n ⟨BitVec.ofNat 32 v, false⟩ }) }
/-- The cable changed. -/
def withCable (f : Cable → Cable) (s : State) : State := s.updCable 1 f
/-- The running clause changed. -/
def withClause (f : Clause → Clause) (s : State) : State := s.updClause 1 0 0 f
/-- The running clause found a word in the cable's register `k n`. -/
def withK (n v : Nat) (s : State) : State :=
  withClause (fun cl => { cl with view := { cl.view with k := cl.view.k.insert n ⟨BitVec.ofNat 32 v, false⟩ } }) s
/-- Context 0 is enabled, and one table maps the gigabyte from 0x4000_0000 to physical address 0. -/
def mapped (s : State) : State :=
  { s with mem := Memory.writeN 0x3000_0000 (leBytes 0x3000_0001 8 ++ leBytes 0xFF 8) s.mem }.updCtx 0
    fun _ => { Context.fresh with en := true, ptbr := 0x3000_0000 }
/-- Lines that are in the LLC: what a memory bank holds of them is not read, and no granule of theirs can be bad (log 23). -/
def warm (l : List Nat) (s : State) : State := { s with lines := l.foldl (fun m n => m.insert n { inLlc := true, sectors := List.range 8 }) s.lines }
/-- A cable with four 4 KiB units of scratchpad, two table registers and two tiles. -/
def padded (s : State) : State :=
  withCable (fun c => { c with lrec := [0, 0x100010001, 0x220401] ++ List.replicate 13 0, units := [0, 1, 2, 3]
                               tables := [(0, {}), (1, {})], tiles := [(0, {}), (1, {})] }) s
/-- The group of a strand, at its scope, issues the instruction, with a contributor, where a condition holds. -/
def issuing (s : State) (i : Instr) (cm : Common) (r : Row) (more : Issue → State → Bool := fun _ _ => true) : Bool :=
  match s.issues i cm r with | some (x, s1) => !x.contrib.isEmpty && more x s1 | none => false
/-- The state after an instruction. -/
def after (i : Instr) (s : State) : State := match exec i s with | .next t => t | _ => State.reset
def vOf (s : State) (j n : Nat) : Nat := (((s.cable 1).strand j).v.getD n {}).val.toNat

/-! ### Single steps -/

/-- 04 R95: addition wraps; a saturating division of the least integer by −1 stops at the greatest. -/
theorem test_add_wraps : let i := Instr.addInt .i32 { fa with dst := 4, sa := 2, sb := 3 }
    vOf (after i (withV 2 0x7FFF_FFFF (withV 3 1 (placed .alu i)))) 5 4 = 0x8000_0000 := by decide +kernel
theorem test_div_saturates : let i := Instr.divInt .i32 { fa with dst := 4, sa := 2, sb := 3, clamp := 3 }
    vOf (after i (withV 2 0x8000_0000 (withV 3 0xFFFF_FFFF (placed .alu i)))) 5 4 = 0x7FFF_FFFF := by decide +kernel
/-- 04 R105: 1.5 × 2 + 0.25 = 3.25. -/
theorem test_fma : let i := Instr.fma .f32 0 { fb with dst := 8, sa := 2, sb := 3, sc := 4 }
    vOf (after i (withV 2 0x3FC0_0000 (withV 3 0x4000_0000 (withV 4 0x3E80_0000 (placed .alu i))))) 31 8 = 0x4050_0000 := by
  decide +kernel
/-- 06 R167: all 32 strands contribute, and their source is not zero. -/
theorem test_muster : let i := Instr.musterCnt { fa with c := at_ .ply, dst := 4, sa := 2 }
    vOf (after i (withV 2 7 (placed .alu i))) 9 4 = 0x0020_0020 := by decide +kernel
/-- 06 R168: each strand takes its number from the lane that differs from it in bit 0. -/
theorem test_flip : let i := Instr.xlaneFlip { fa with c := at_ .ply, dst := 4, sa := 2, sb := 3 }
    let s := withCable (fun c => { c with strands := c.strands.map fun e =>
      (e.1, { e.2 with v := e.2.v.insert 2 ⟨BitVec.ofNat 32 e.1, false⟩ }) }) (withV 3 0x501 (placed .alu i))
    vOf (after i s) 6 4 = 7 ∧ vOf (after i s) 7 4 = 6 := by decide +kernel
/-- 01 R38: a store is in the buffer of its core, and not yet in memory. -/
theorem test_store : let i := Instr.stG .b32 { fm with data := 9, base := 22 }
    let t := after i (withV 22 0x4000_0000 (withV 23 0 (withV 9 0x1122_3344 (mapped (placed .mem i)))))
    (t.ownByte 0 1 [0] 0).map Prod.fst = some 0x44 ∧ t.mem.read 0 = 0 := by decide +kernel
/-- 16 R365: a word that is no instruction posts one record, and its ply stands stopped. -/
theorem test_illegal : let i := Instr.li { fi with dst := 1 }
    let t := after (.illegalInstruction .unassignedOp) (warm [fwRing 0 / 128] (placed .alu i))
    ((t.cable 1).ply 0).stopped = true ∧ (t.ctx 0).handles.map Handle.cause = [1] := by decide +kernel

/-! ### Witnesses: encoding and steps -/

theorem witness_DecodeOfEncode : (Instr.li { fi with dst := 3, imm := 5 }).cls = some .alu ∧
    (Instr.li { fi with dst := 3, imm := 5 }).WellFormed ∧ (Instr.walkEnd fe).cls = some .srch ∧ (Instr.walkEnd fe).WellFormed := by
  decide +kernel
theorem witness_EncodeOfDecode : refused .alu 0x8060_07FF_FFF8_0060 = none ∧
    Header.ok ⟨.sys, 15, 0xFFFF, ⟨true, 1, 63⟩, ⟨false, 0, 0⟩, true⟩ = true ∧ (Header.decode 0x7000_0088_0000_0000).isSome = true := by
  decide +kernel
theorem witness_BitSixtyThree : (Instr.nop fa).HasWord ∧ ((0x8000_0000_0000_0031 : W64).getLsbD 63 = true) ∧
    let s := withClause (fun cl => { cl with words := [0x31] }) (placed .alu (.nop fa))
    s.turn = .instr 1 0 ∧ ((s.cable 1).ply 0).running = some 0 ∧ ((s.cable 1).ply 0).stopped = false ∧
    ((s.group? 1 0 0).bind Group.clause).any (fun cl => !cl.word.getLsbD 63 && ((s.cable 1).debugTrouble 0 cl).isNone && !cl.skip)
      = true := by decide +kernel

/-- A search command of the cable whose one walker is about to execute an instruction, its stack set reaching die 0. -/
def walking (i : Instr) : State :=
  let k : Walker := { stack := 0, pc := 0, clause := some { addr := 0, hdr := ⟨.srch, 0, 0, ⟨false, 0, 0⟩, ⟨false, 0, 0⟩, false⟩, words := [encode i] } }
  let m : Cmd := { id := 7, path := .srch, instr := .srchWalk fe, word := 0, pc := 0, ply := 0, strand := 0
                   srch := { started := true, walkers := [k] } }
  { withCable (fun c => { c with cmds := [m] }) (placed .srch (.srchWalk fe)) with cur := .walker 1 7 0 }

theorem witness_StepRunsDecoded :
    (let s := placed .alu (.li { fi with dst := 3 })
     s.turn = .instr 1 0 ∧ ((s.cable 1).ply 0).running = some 0 ∧
     ((s.group? 1 0 0).bind Group.clause).map (fun cl => refused cl.hdr.cls cl.word) = some none) ∧
    (let s := { walking (.walkEnd fe) with agenda := [.walker 1 7 0] }
     s.turn = .walker 1 7 0 ∧
     ((s.walker? 1 7 0).bind Walker.clause).map (fun cl => refused cl.hdr.cls cl.word) = some none) ∧
    { State.reset with agenda := [.event .tick] }.turn = .event .tick ∧ Instr.tick.row = none ∧
    { State.reset with agenda := [.firmware (.crd fi) 0] }.turn = .firmware (.crd fi) 0 ∧
    { State.reset with agenda := [.firmware (.cwr fi) 9] }.turn = .firmware (.cwr fi) 9 ∧
    (placed .alu (.nop fa)).due = [] ∧
    (∀ b : Bool, let s := State.setStopped { placed .alu (.nop fa) with due := [(1, 0, 0)] } 1 0 b
      s.due = [(1, 0, 0)] ∧ ((s.cable 1).ply 0).stopped = b ∧
      ((s.group? 1 0 0).bind Group.clause).map (fun cl => refused cl.hdr.cls cl.word) = some none ∧
      (match exec (.nop fa) { State.setStopped { s with due := [] } 1 0 false with cur := .group 1 0 0 } with | .next _ => true | _ => false)
        = true) := by decide +kernel
theorem witness_EveryStepAnswers : (placed .alu (.nop fa)).hasAgent = true ∧ (walking (.walkEnd fe)).hasAgent = true ∧
    Instr.powerOn.row = none := by decide +kernel

/-! ### Witnesses: instructions that compute -/

/-- The sources and the destination that the tests of the arithmetic families use. -/
abbrev fa1 : FmtA := { fa with dst := 4, sa := 2, sb := 3 }
abbrev fd1 : FmtA := { fa with dst := 4, sa := 2, sb := 6 }
abbrev fu1 : FmtA := { fa with dst := 4, sa := 2 }
abbrev fb1 : FmtB := { fb with dst := 8, sa := 2, sb := 3, sc := 4 }
abbrev plyu : FmtA := { fu1 with c := at_ .ply }
abbrev ply1 : FmtA := { fa1 with c := at_ .ply }

theorem witness_IntegerArithmetic : (integerOp (.shr .i64 fa1)).isSome = true ∧
    issuing (placed .alu (.shr .i64 fa1)) (.shr .i64 fa1) fa1.c
      (asks [fa1.useA IntTy.i64.oty, fa1.useB IntTy.n32.oty] (some (fa1.dest IntTy.i64.oty)) (scaleOk fa1.clamp fa1.scale IntTy.i64.oty))
      = true := by decide +kernel
theorem witness_WrappingArithmetic :
    issuing (placed .alu (.mad .n32 fb1)) (.mad .n32 fb1) fb1.c
      (asks [fb1.useA IntTy.n32.oty, fb1.useB IntTy.n32.oty, fb1.useC IntTy.n32.oty] (some (fb1.dest IntTy.n32.oty))) = true ∧
    (let f := { fi with dst := 4, sa := 2, imm := 0xFFFFFF }
     issuing (placed .alu (.addiI32 f)) (.addiI32 f) f.c (asks [f.useA IntTy.i32.oty] (some (f.dest IntTy.i32.oty))) = true ∧
     issuing (placed .alu (.addiI64 f)) (.addiI64 f) f.c (asks [f.useA IntTy.i64.oty] (some (f.dest IntTy.i64.oty))) = true) := by
  decide +kernel
theorem witness_BitOperations : (bitOp (.bfi .b32 fb1)).isSome = true ∧
    issuing (placed .alu (.bfi .b32 fb1)) (.bfi .b32 fb1) fb1.c
      (asks [fb1.useA Width.b32.oty, fb1.useB (.raw false), fb1.useC Width.b32.oty] (some (fb1.dest Width.b32.oty))) = true ∧
    issuing (placed .alu (.clz .b64 fu1)) (.clz .b64 fu1) fu1.c
      (asks [fu1.useA Width.b64.oty] (some (fu1.dest (.raw false))) (scaleOk fu1.clamp fu1.scale Width.b64.oty)) = true := by
  decide +kernel
theorem witness_Moves :
    issuing (placed .alu (.mov .b32 fu1)) (.mov .b32 fu1) fu1.c
      (asks [{ fu1.useA Width.b32.oty with carry := true }] (some (fu1.dest Width.b32.oty)) (scaleOk fu1.clamp fu1.scale Width.b32.oty))
      = true ∧
    issuing (placed .alu (.sel .b32 fb1)) (.sel .b32 fb1) fb1.c
      (asks [{ fb1.useA Width.b32.oty with carry := true }, { fb1.useB Width.b32.oty with carry := true }]
        (some (fb1.dest Width.b32.oty))) = true ∧
    (let f := { fi with dst := 3, imm := 0xFFFFFF }
     issuing (placed .alu (.li f)) (.li f) f.c (asks [] (some (f.dest (.raw false)))) = true ∧
     (let g := { fi with dst := 3, sa := 2, imm := 0xFFFF }
      issuing (placed .alu (.lih g)) (.lih g) g.c (asks [g.useA (.raw false)] (some (g.dest (.raw false)))) = true)) := by decide +kernel
theorem witness_UnheldNamesReadZero :
    (let f : FmtA := { fu1 with lra := true }
     let r := asks [{ f.useA Width.b32.oty with carry := true }] (some (f.dest Width.b32.oty)) (scaleOk f.clamp f.scale Width.b32.oty)
     Operand.ofField f.sa = .v 2 ∧ Operand.ofField f.dst = .v 4 ∧
     issuing (placed .alu (.mov .b32 f)) (.mov .b32 f) f.c r (fun x s1 => !x.e.walker && x.scope == .strand &&
       x.contrib.all fun j => (((s1.cable 1).strand j).v.find? 2).isNone) = true ∧
     ((((placed .alu (.mov .b32 f)).cable 1).strand 0).v.find? 2 = none ∧ 2 ∉ (((placed .alu (.mov .b32 f)).cable 1).strand 0).spilled)) ∧
    { State.reset with coils := [(6, { id := 6, ctx := 0, part := 0, lrec := fetchWordRecord, kargs := [] })] }.coils.find? 6 ≠ none := by
  decide +kernel
theorem witness_NopDoesNothing : (Instr.nop fa).WellFormed ∧
    issuing (placed .alu (.nop fa)) (.nop fa) fa.c { asks [] none with latch := .clear } = true ∧
    (((placed .alu (.nop fa)).cable 1).strand 0).latch = none := by decide +kernel
theorem witness_FloatArithmetic : (floatOp (.divFloat .f64 3 fd1)).isSome = true ∧
    issuing (placed .alu (.divFloat .f64 3 fd1)) (.divFloat .f64 3 fd1) fd1.c
      (asks [fd1.useA FloatTy.f64.oty, fd1.useB FloatTy.f64.oty] (some (fd1.dest FloatTy.f64.oty))) = true := by decide +kernel
theorem witness_FusedMultiplyAdd : (fusedOp (.fnms .f16 0 fb1)).isSome = true ∧
    issuing (placed .alu (.fnms .f16 0 fb1)) (.fnms .f16 0 fb1) fb1.c
      (asks [fb1.useA FloatTy.f16.oty, fb1.useB FloatTy.f16.oty, fb1.useC FloatTy.f16.oty] (some (fb1.dest FloatTy.f16.oty)))
      = true := by decide +kernel
theorem witness_TranscendentalFunctions : (functionOp (.tanh .f32 0 fu1)).isSome = true ∧
    issuing (placed .alu (.tanh .f32 0 fu1)) (.tanh .f32 0 fu1) fu1.c
      (asks [fu1.useA FloatTy.f32.oty] (some (fu1.dest FloatTy.f32.oty))) = true ∧
    (finishFloat .f64 (Fn.sin.exact (Fmt.f64.decode 0x3FF0_0000_0000_0000)).1 .rn 0 0).1 = 0x3FEA_ED54_8F09_0CEE := by
  decide +kernel
theorem witness_Conversions : (let f := { fa1 with sb := 9 }
    CvtTy.ofCode (maskField f.sb) = some .f32 ∧
    issuing (placed .alu (.cvt .e4m3 4 f)) (.cvt .e4m3 4 f) f.c (asks [f.useA CvtTy.f32.oty] (some (f.dest CvtTy.e4m3.oty)))
      = true) := by decide +kernel
theorem witness_Comparisons : (compareOp (.cmpLtFloat .f32 { fa1 with dst := 2 })).isSome = true ∧
    (let f := { fa1 with dst := 2 }
     issuing (placed .alu (.cmpLtFloat .f32 f)) (.cmpLtFloat .f32 f) f.c
      { asks [f.useA FloatTy.f32.oty, f.useB FloatTy.f32.oty] none with latch := .own } = true) := by decide +kernel
theorem witness_Musters : (musterOp (.musterSame ply1)).isSome = true ∧
    (let f := { ply1 with sb := 0 }
     issuing (placed .alu (.musterSame f)) (.musterSame f) f.c
      (asks [everyMember (f.useA (.raw false))] (some (ofEveryMember (f.dest (.raw false))))) fun x _ =>
        !x.e.walker && x.scope != .strand) = true := by decide +kernel
theorem witness_LaneMoves : (laneOp (.xlaneAt ply1)).isSome = true ∧
    issuing (placed .alu (.xlaneAt ply1)) (.xlaneAt ply1) ply1.c
      (asks [{ everyMember (ply1.useA (.raw false)) with carry := true }, everyMember (ply1.useB (.raw false))]
        (some { ofEveryMember (ply1.dest (.raw false)) with only := Operand.perStrand })) (fun x _ => x.scope == .ply) = true := by
  decide +kernel
theorem witness_Reductions : (reduceOp (.redMax .f32 plyu)).isSome = true ∧
    issuing (placed .alu (.redMax .f32 plyu)) (.redMax .f32 plyu) plyu.c
      (asks [everyMember (plyu.useA RedTy.f32.oty)] (some (ofEveryMember (plyu.dest RedTy.f32.oty)))) = true ∧
    issuing (placed .alu (.scanAdd .i32 plyu)) (.scanAdd .i32 plyu) plyu.c
      (asks [everyMember (plyu.useA RedTy.i32.oty)] (some { ofEveryMember (plyu.dest RedTy.i32.oty) with only := Operand.perStrand }))
      = true := by decide +kernel
theorem witness_MaskOperations :
    (let f := { ply1 with dst := 1, sa := 2, sb := 3 }
     (maskOp (.mandn f)).isSome = true ∧ issuing (placed .alu (.mandn f)) (.mandn f) f.c
      { asks [] none with latch := .own, always := true } = true) ∧
    (let f := { ply1 with dst := 0x303, sa := 2, sb := 0 }
     (maskOutOp (.mpop f)).isSome = true ∧ issuing (placed .alu (.mpop f)) (.mpop f) f.c
      (asks [] (some { f.dest (.raw false) with
        only := fun op => match op with | .s _ => true | .y _ => true | .k _ => true | _ => false })) = true) := by decide +kernel

/-! ### Witnesses: control transfer, traps, faults, control registers -/

theorem witness_Branches :
    (let f := { fi with imm := 0xFFFFFF }
     issuing (placed .alu (.br f)) (.br f) f.c { asks [] none with latch := .clear, transfer := true } (fun x s1 =>
      (s1.targetBad x false (BitVec.ofNat 64 x.hdr + f.imm.signExtend 64 * 8).toNat).2 == some false && !s1.acquiring x.e.uid x.contrib)
      = true) ∧
    (let f := { fa with sa := 2 }
     issuing (warm [2] <| withV 2 0x4000_0100 (mapped (placed .alu (.brx f)))) (.brx f) f.c
      { asks [f.useA (.raw true)] none with latch := .clear, transfer := true } (fun x s1 =>
      !s1.acquiring 1 x.contrib && ((s1.targets x true (x.contrib.map fun j => (j, (s1.readOp x.e j x.lay (.ofField f.sa) (.raw true)).1))).2).isNone) = true) := by
  decide +kernel

theorem witness_CallsAndReturns :
    (let f := { fi with dst := 30, sa := 30, imm := 7 }
     issuing (warm [0, 31, 32] <| withV 30 0x4000_1000 (mapped (placed .alu (.call f)))) (.call f) f.c
      { asks [f.useA (.raw true)] (some (f.dest (.raw true))) with transfer := true } (fun x s1 =>
        let sp := fun j => BitVec.ofNat 64 (s1.readOp x.e j x.lay (.ofField f.sa) (.raw true)).1 - 8
        !s1.acquiring x.e.uid x.contrib && match s1.resolve x { size := 8, read := false, write := true }
            (x.contrib.map fun j => (j, (sp j).toNat)) with
        | (s2, .ok accs) =>
          let a := (BitVec.ofNat 64 x.hdr + f.imm.signExtend 64 * 8).toNat
          let s3 := (s2.targetBad x false a).1
          !s2.acquiring x.e.uid x.contrib && (s2.targetBad x false a).2 == some false && s3.unackRoom x accs &&
          (s3.bufferAll 0 x (accs.map fun b => (b, (leBytes (x.addr + 8) 8).map fun b => (b, false)))).isSome
        | _ => false) = true) ∧
    (let f := { fi with dst := 30, sa := 30 }
     issuing (warm [0, 31, 32] <| withV 30 0x4000_1000 (mapped (placed .alu (.ret f)))) (.ret f) f.c
      { asks [f.useA (.raw true)] (some (f.dest (.raw true))) with transfer := true } (fun x s1 =>
        let sp := fun j => BitVec.ofNat 64 (s1.readOp x.e j x.lay (.ofField f.sa) (.raw true)).1
        !s1.acquiring x.e.uid x.contrib && match s1.resolve x { size := 8 } (x.contrib.map fun j => (j, (sp j).toNat)) with
        | (s2, .ok accs) => (match s2.loadStacks x accs with
          | .ok (s3, vs) => vs.all (fun v => v.2.all fun b => !b.2) && !s3.acquiring x.e.uid x.contrib &&
            (s3.targets x true (vs.map fun v => (v.1.strand, leNat (v.2.map Prod.fst)))).2.isNone
          | .error _ => false)
        | _ => false) = true) := by decide +kernel

theorem witness_TrapsAndReturns :
    (let f := { fi with imm := 0xFFFF }
     issuing (warm [0] <| withClause (fun cl => { cl with log := [.creg 0x102 0 0x4000_0000 (some 0)] }) (mapped (placed .sys (.trap f)))) (.trap f) f.c
      { asks [] none with latch := .clear, transfer := true } (fun x s1 =>
        let vec := (s1.clauseOf x.e.uid x.lead).readCreg x.lead 0x102
        !(s1.cable x.e.uid).trapStopped x s1.cycle && !s1.acquiring x.e.uid x.contrib && (s1.cable x.e.uid).priv == 0 && vec != 0 &&
        (s1.badTarget x vec.toNat).2 == some false && !(s1.badTarget x vec.toNat).1.lowerTrap x && (s1.cable x.e.uid).plies.length == 1)
        = true) ∧
    (let s := placed .sys (.trap fi)
     ((s.group? 1 0 0).bind Group.clause).map (fun cl => (cl.log, cl.splits, cl.sleeps, decide (cl.words.length ≤ cl.pos + 1)))
       = some ([], [], [], true) ∧
     (s.group? 1 0 0).map (fun g => g.lanes.getLsbD 0) = some true ∧ ((s.cable 1).strand 0).live = true ∧
     ((s.cable 1).ply 0).groups.length = 1) ∧
    issuing (withCable (fun c => { c with trapInfo := 0x8000_0000, priv := 1 }) (mapped (placed .sys (.rft fi)))) (.rft fi) fi.c
      { asks [] none with latch := .clear, transfer := true, priv := fun s e => (s.cable e.uid).priv != 0 } (fun x s1 =>
        (s1.cable x.e.uid).trapActive && !s1.acquiring x.e.uid x.contrib &&
        (s1.badTarget x ((s1.clauseOf x.e.uid x.lead).readCreg x.lead 0x103).toNat).2 == some false) = true := by
  decide +kernel

theorem witness_ExitsBarriersYields :
    issuing (placed .sys (.exit fa)) (.exit fa) fa.c { asks [] none with latch := .clear, transfer := true } (fun x s1 =>
      !x.e.walker && !(s1.cable x.e.uid).trapActive && (s1.loadsOf x.e.uid x.contrib).isEmpty && (s1.cable x.e.uid).lastOut x.contrib &&
      ((s1.drainCable 0 1).core 0).wc.isEmpty) = true ∧
    (let f := { fa with c := { (default : Common) with pmask := 1 } }
     issuing (withClause (fun cl => { cl with log := [.mask 1 0xFFFFFFFF 1 (some 0)] }) (placed .sys (.exit f))) (.exit f) f.c
      { asks [] none with latch := .clear, transfer := true } (fun x s1 =>
        (s1.loadsOf x.e.uid x.contrib).isEmpty && !(s1.cable x.e.uid).lastOut x.contrib) = true) ∧
    (let f := { fa with c := at_ .cable }
     issuing (placed .sync (.bar f)) (.bar f) f.c { asks [] none with latch := .clear, always := true } (fun x s1 =>
      (s1.drainPlies x.e.uid [0]).releaseHolds x.e.uid [0] x.members 1) = true) ∧
    (let f := { fa with c := at_ .ply }
     issuing (placed .sys (.yield f)) (.yield f) f.c { asks [] none with latch := .clear, always := true } = true) := by decide +kernel

theorem witness_JoinsMeet :
    let f := { fa with sa := 1 }
    issuing (withClause (fun cl => { cl with log := [.mask 1 0xFFFFFFFF 0xFFFFFFFF (some 0)] }) (placed .sync (.join f))) (.join f) f.c { asks [] none with latch := .clear, always := true } (fun x s1 =>
      let c := s1.cable x.e.uid
      let y := c.ply x.e.ply
      !x.e.walker && x.scope == .strand && match s1.group? x.e.uid x.e.ply x.e.gid with
      | some { clause := some cl, lanes := l, .. } =>
        let J := match y.joinAt x.addr with | some i => i.lanes | none => cl.readMask (maskField f.sa)
        decide (y.joins.length < 16) && l &&& c.liveLanes x.e.ply &&& J != 0 &&
          y.groups.length == 1 && c.liveLanes x.e.ply &&& J &&& ~~~(y.heldAt x.addr ||| (l &&& c.liveLanes x.e.ply &&& J)) == 0
      | _ => false) = true := by decide +kernel

theorem witness_ClauseEndDivides : let s := placed .alu (.nop fa)
    ((s.group? 1 0 0).bind Group.clause).map (fun cl => (cl.splits.isEmpty, cl.sleeps.isEmpty)) = some (true, true) ∧
    ((s.cable 1).ply 0).groups.length = 1 ∧ (s.group? 1 0 0).map (fun g => g.lanes.getLsbD 31) = some true ∧
    ((s.cable 1).strand 31).live = true := by decide +kernel
theorem witness_RetirementFrame : ((placed .alu (.nop fa)).cable 1).unstepped = true := by decide +kernel

theorem witness_IllegalWordsFault :
    (let s := placed .alu (.nop fa)
     s.cur = .group 1 0 0 ∧ ((s.cable 1).ply 0).stopped = false ∧
     ((s.group? 1 0 0).bind Group.clause).any (fun cl => ((s.cable 1).debugTrouble 0 cl).isNone && !cl.skip) = true) ∧
    (let s := walking (.walkEnd fe)
     s.cur = .walker 1 7 0 ∧ ((s.cable 1).cmd? 7).map (fun m => decide (0 < m.walkLimit)) = some true ∧
     (s.walker? 1 7 0).map (fun k => (k.state, k.count, k.clause.isSome)) = some (.run, 0, true)) := by decide +kernel

/-- A page fault of the cable's only ply, in a context that has one unanswered record for that page. -/
def faulting (s : State) : State :=
  s.updCtx 0 fun x => { x with en := true, handles := [
    { h := 5, cause := 7, engine := false, atHeader := false, detail := 0, page := some 0x1234, agents := [], toFirmware := false }] }
theorem witness_FaultsAreTaken : let s := faulting (placed .alu (.nop fa))
    (s.cables.find? 1).isSome = true ∧ ((s.cable 1).plies.find? 0).isSome = true ∧
    ((withCable (fun c => { c with saving := some { slot := 0, device := false } }) s).cable 1).saving.isSome = true ∧
    (s.cable 1).saving.isNone = true ∧ (s.pageHandle 0 0x1234).map Handle.h = some 5 ∧ (s.pageHandle 0 0x1235).isNone = true := by
  decide +kernel

/-- 16 Table 16.18: the record of the example. -/
theorem test_record : let r : FRec :=
      { cause := 7, restart := true, coal := true, halt := true, issuer := 5, seq := 7, count := 32, part := 3, cid := 0x42
        pc := 0x40_0110, addr := 0x0123_4000, instr := 0x8040_6000_0000_0004, handle := 0x31 }
    r.words = [0xC407_0005_0000_0007, 0x0200_0180_0000_0042, 0x0040_0110, 0x0123_4000, 0, 0, 0x8040_6000_0000_0004, 0x31] ∧
    r.seq < 2 ^ 32 ∧ r.issuer < 2 ^ 16 ∧ r.cause < 2 ^ 8 ∧ r.cid < 2 ^ 24 ∧ r.ply < 32 ∧ r.strand < 1024 ∧ r.count < 2048 ∧
    r.addr < 2 ^ 64 ∧ r.handle < 2 ^ 32 := by decide +kernel

/-- `crd` of the register `n` into `v4` or `v4:v5`. -/
abbrev reads (n : BitVec 24) : FmtI := { fi with dst := 4, imm := n }
def readsHere (n : BitVec 24) : Bool :=
  issuing (withCable (fun c => { c with priv := 1 }) (mapped (placed .sys (.crd (reads n))))) (.crd (reads n)) (reads n).c
    (asksReg [] (some ((reads n).dest (.raw ((regInfo n.toNat).getD {}).wide))) (reads n) false)
theorem witness_ControlRegisterReads : readsHere 0 = true ∧ readsHere 0x100 = true ∧ readsHere 0x184 = true ∧
    issuing (mapped (placed .sys (.crd (reads 8)))) (.crd (reads 8)) (reads 8).c
      (asksReg [] (some ((reads 8).dest (.raw ((regInfo 8).getD {}).wide))) (reads 8) false) (fun x s1 =>
        match s1.logEvent (s1.cable 1) { ctx := 0, cid := (s1.cable 1).cid, ply := 0, ic := 0, kind := 1
                                         word1 := s1.readReg 1 x.lead 8 } with
        | .go _ _ => true | _ => false) = true ∧
    issuing (mapped (placed .sys (.crd (reads 0x108)))) (.crd (reads 0x108)) (reads 0x108).c
      (asksReg [] (some ((reads 0x108).dest (.raw ((regInfo 0x108).getD {}).wide))) (reads 0x108) false) (fun x s1 =>
        (s1.ctx (s1.cable 1).ctx).rlogMode == 0 &&
        (match s1.readEach x (fun j => s1.readReg 1 j 0x108) x.accessors (fun t l => .done t l) with | .done _ _ => true | _ => false))
      = true ∧
    { State.reset with cur := .firmware 5 }.cur = .firmware 5 := by decide +kernel
theorem witness_ControlRegisterWrites :
    (let f := { fi with sa := 2, imm := 0x11 }
     issuing (placed .sys (.cwr f)) (.cwr f) f.c
      { asksReg [f.useA (.raw ((regInfo 0x11).getD {}).wide)] none f true with latch := .clear } = true) ∧
    (let x : Issue := { (default : Issue) with e := { uid := 1, ply := 0, gid := 0 }, members := [0], contrib := [0] }
     ((placed .sys (.cwr fi)).cwrBegin x 0x185 [(0, 5)]).2 = true ∧
     (((placed .sys (.cwr fi)).updPly 1 0 fun y => { y with unack := 1 }).cwrBegin x 0x185 [(0, 5)]).2 = false ∧
     (((placed .sys (.cwr fi)).updPly 1 0 fun y => { y with unack := 1 }).cwrBegin x 0x185 [(0, 5 + 2 * 2 ^ 32)]).2 = true) ∧
    (placed .sys (.cwr fi)).inClause 1 31 = true ∧ ((placed .sys (.cwr fi)).cable 1).strands.find? 31 ≠ none := by decide +kernel

/-! ### Witnesses: memory instructions -/

/-- A memory instruction with data in `v8` and its base in `v22:v23`, relaxed or with an order at device scope. -/
abbrev mm (ord : BitVec 2) : FmtM := { fm with data := 8, base := 22, ord := ord, ssc := if ord = 0 then 0 else 3 }
/-- The state in which one is about to execute, its strands at 0x4000_1000, which is mapped to 0x1000. -/
def atMem (c : Cls) (i : Instr) : State := warm [32] <| withV 22 0x4000_1000 (mapped (placed c i))

def loadReady (ord : BitVec 2) : Bool :=
  let f := mm ord
  let z := SizeZ.b32
  let d : Dest := { f.dest z.oty with only := fun _ => true }
  issuing (atMem .mem (.ldG z f)) (.ldG z f) f.c { asks [f.useBase] (some d) with
      latch := .value, legal := fun _ e _ => !e.walker || (f.ord == 0 && !f.split) } fun x s0 =>
    !x.e.walker && !s0.acquiring 1 x.ordered &&
    match s0.resolve x { size := z.bytes, peer := true, sync := if f.ord != 0 then some f.ssc else none } (x.accessors.map fun j => (j, s0.ea x f j)) with
    | (s1, .ok accs) => s1.freeEntries 0 (s1.loadNeed x z false accs) &&
      (match (if f.ord != 0 then s1.scopeChecks x f.ssc false accs else .ok s1) with
        | .ok s2 =>
          let (s3, ids) := s2.loadLines x d z f false accs
          (match s0.performNow s3 (s3.homeNow (f.ord != 0) ids) State.performLoad with | .ok _ => true | .error _ => false)
        | .error _ => false)
    | _ => false
/-- An issue of strand 0 by the cable's group. -/
def issue0 (members : List Nat) : Issue :=
  { e := { uid := 1, ply := 0, gid := 0 }, c := default, addr := 0x10008, hdr := 0x10000, word := 0, members := members
    contrib := members, groups := [(0, 0)] }
theorem witness_GlobalLoads : (loadOp (.ldG .b32 (mm 0))).isSome = true ∧ loadReady 0 = true ∧ loadReady 1 = true ∧
    (let a : Acc := { strand := 0, ea := 0x4000_007C, pa := 124 }
     a.pa / 128 = 0 ∧ a.pa % SizeZ.b32.bytes = 0 ∧
     ((placed .mem (.ldG .b32 (mm 0))).lineHit (issue0 [0]) 4 false [a]).isNone = true ∧
     (((placed .mem (.ldG .b32 (mm 0))).bufferStore 0 1 [0] [] 124 [(1, false), (2, false), (3, false), (4, false)] false).map fun s =>
       (s.lineHit (issue0 [0]) 4 false [a]).isSome) = some true) := by decide +kernel

def storeReady (ord : BitVec 2) : Bool :=
  let f := mm ord
  let u : Use := { f.useData SizeZ.b32.oty with carry := true }
  issuing (atMem .mem (.stG .b32 f)) (.stG .b32 f) f.c { asks [f.useBase, u] none with latch := .clear } fun x s0 =>
    !s0.acquiring 1 x.ordered &&
    match s0.resolve x { size := 4, read := false, write := true, peer := true, sync := if f.ord != 0 then some f.ssc else none }
      (x.accessors.map fun j => (j, s0.ea x f j)) with
    | (s1, .ok accs) =>
      let data := fun a : Acc => let v := s0.readOp x.e a.strand x.lay u.op u.ty; (leBytes v.1 4).map fun b => (b, v.2)
      s1.unackRoom x accs && (if f.releases then
        let s2 := s1.drainPlies 1 [0]
        s2.releaseHolds 1 [0] x.ordered f.ssc && s2.freeEntries 0 accs.length && (match s2.scopeChecks x f.ssc true accs with
          | .ok s3 =>
            let (s4, ids) := s3.sendWrites x f data accs
            (match s2.performNow s4 (s4.homeNow true ids) State.performWrite with | .ok _ => true | .error _ => false)
          | .error _ => false)
        else s1.freeEntries 0 0 && (s1.bufferAll 0 x (accs.map fun a => (a, data a))).isSome)
    | _ => false
theorem witness_GlobalStores : storeReady 0 = true ∧ storeReady 2 = true ∧
    ((placed .mem (.stG .b32 (mm 0))).bufferStore 0 1 [0] [] 120 (List.replicate 8 (7, true)) false).isSome = true ∧ 120 % 128 + 8 ≤ 128 ∧
    ((placed .mem (.stG .b32 (mm 0))).cable 1).plies.find? 0 ≠ none := by decide +kernel

/-- A queue of bank 31 of core 0 with a number of stores of a byte at offset 0x3FFF. -/
def banked (n : Nat) (s : State) : State :=
  s.updCore 0 fun k => { k with banks := [(31, List.replicate n { op := 0, uid := 1, plies := [0], off := 0x3FFF, store := some [(7, false)], strands := [0] })] }
theorem witness_ScratchpadAccesses :
    (let f := mm 0
     let d : Dest := f.dest SizeZ.b64.oty
     issuing (withV 22 0x3FF8 (padded (placed .mem (.ldP .b64 f)))) (.ldP .b64 f) f.c
      { asks [f.useBase] (some d) with latch := .value } fun x s0 =>
        let l := x.accessors.map fun j => (j, s0.ea x f j)
        !s0.goesOn x.e && !s0.acquiring 1 x.ordered && (s0.padTroubles x 8 false l).isNone && l.all (fun e => !s0.segWaits 1 (x.accPlies e.1) e.2) &&
        (s0.padLoads x d .b64 f (l.map fun e => ⟨e.1, e.2, none⟩)).2.isEmpty) = true ∧
    (let f := { mm 2 with ssc := 4 }
     let u : Use := { f.useData SizeZ.n8.oty with carry := true }
     let i := Instr.stP .n8 { f with c := { (default : Common) with pmask := 1 } }
     issuing (withClause (fun cl => { cl with log := [.mask 1 0xFFFFFFFF 1 (some 0)] }) (withV 22 0x3FFF (padded (placed .mem i)))) i
      { (default : Common) with pmask := 1 } { asks [f.useBase, u] none with latch := .clear } fun x s0 =>
        let l := x.accessors.map fun j => (j, s0.ea x f j)
        let s1 := s0.drainPlies 1 [0]
        let s2 := (s1.drainLines 0 x []).1
        !s0.goesOn x.e && !s0.acquiring 1 x.ordered && (s0.padTroubles x 1 true l).isNone && l.length == 1 &&
        ((s0.cable 1).ownedAccs l).isEmpty && s1.releaseHolds 1 [0] x.ordered (padSsc f.ssc) && (s1.drainLines 0 x []).2 &&
        s2.unackRoom x [] && s2.freeEntries 0 0 &&
        ((s2.padWrites x u .n8 f (s0.cable 1) l).padStores x (l.map fun e => ⟨e.1, e.2, some (s0.storeBytes x u 1 e.1)⟩)).2.isEmpty)
      = true ∧
    (let s := padded (placed .mem (.ldP .b64 (mm 0)))
     (((banked 15 s).core ((banked 15 s).cable 1).coreD).bank (0x3FFF / 8 % 32)).length = 15 ∧
     (((banked 16 s).core ((banked 16 s).cable 1).coreD).bank (0x3FFF / 8 % 32)).length = 16 ∧
     (((banked 1 s).core 0).bank 31).any (fun q => !(banked 1 s).bankWaits 0 q && q.store.isSome) = true ∧
     (let t := s.updCore 0 fun k => { k with banks := [(31, [{ op := 6, uid := 1, plies := [0], off := 0x3FF8, store := none, strands := [0]
                                                               parts := [{ strand := 0, pa := 0x3FF8, z := .b64, dests := [[.v 0 4, .v 0 5]], lats := [0] }] }])] }
      ((t.core 0).bank 31).any (fun q => !t.bankWaits 0 q && q.store.isNone) = true) ∧ (s.core 0).bank 30 = [] ∧
     (banked 1 s).cables.find? 1 ≠ none ∧ (s.cable 1).spad.wf) := by decide +kernel

/-- The atomics' condition to leave the core, for one strand. -/
def atomReady (i : Instr) (f : FmtM) (r : Row) (size : Nat) (read near : Bool) : Bool :=
  issuing (withClause (fun cl => { cl with log := [.mask 1 0xFFFFFFFF 1 (some 0)] }) (atMem .mem i)) i f.c r fun x s =>
    let plies := distinct (x.ordered.map (· / 32))
    !s.acquiring 1 x.ordered &&
    match s.resolve x { size := size, read := read, write := true, peer := !near, near := near
                        sync := if f.ord != 0 then some f.ssc else none } (x.accessors.map fun j => (j, s.ea x f j)) with
    | (s1, .ok accs) =>
      let (s2, ok) := (if f.releases then s1.drainPlies 1 plies f.ssc else s1).drainLines 0 x accs
      ok && s2.unackRoom x accs && (!f.releases || s2.releaseHolds 1 plies x.ordered f.ssc) && s2.freeEntries 0 accs.length &&
      (match (if f.ord != 0 then s2.scopeChecks x f.ssc true accs else .ok s2) with
        | .ok t =>
          let op := match i with | .atomCas .. => AtomOp.cas | .atomAddF32 _ => .addF32 | .aredMax .. => .max | _ => .add
          let (s4, ids) := match i with
            | .nredAddF32 g => t.sendEach x f (s.nredKind x true { g.useData (.float .f32) with carry := true }) (fun _ => none)
                (fun j => s2.loadsOf 1 [j]) accs
            | _ => t.sendEach x f (s.atomKind x op .i32 { f.useData IntTy.i32.oty with carry := true } fun _ => none) (fun _ => none)
                (fun j => s2.loadsOf 1 [j]) accs
          (match s2.performNow s4 (s4.homeNow (f.ord != 0) ids) State.performAtom with | .ok _ => true | .error _ => false)
        | .error _ => false)
    | _ => false
/-- A format M instruction of the one strand in which `m1` holds. -/
abbrev one (ord : BitVec 2) : FmtM := { mm ord with c := { (default : Common) with pmask := 1 } }
theorem witness_Atomics : (atomOp (.atomCas .i32 (one 0))).isSome = true ∧ (aredOp (.aredMax .i32 (one 0))).isSome = true ∧
    (nredOp (.nredAddF32 (one 0))).isSome = true ∧
    (let f := one 3
     let u : Use := { f.useData IntTy.i32.oty with carry := true, span := 2 }
     atomReady (.atomCas .i32 f) f { asks [f.useBase, u] (some (f.dest IntTy.i32.oty)) with
       latch := .value, legal := fun s e _ => u.op.aligned 2 && s.groupOk e u.op 2 } 4 false false = true) ∧
    (let f := one 0
     atomReady (.aredMax .i32 f) f { asks [f.useBase, { f.useData IntTy.i32.oty with carry := true }] none with latch := .clear }
      4 false false = true ∧
     atomReady (.nredAddF32 f) f { asks [f.useBase, { f.useData (.float .f32) with carry := true }] none with latch := .clear }
      4 true true = true) ∧
    (placed .mem (.aredMax .i32 (one 0))).cables.find? 1 ≠ none := by decide +kernel

theorem witness_PrefetchesAndSubscriptions :
    (let f := { mm 0 with data := 2 }
     issuing (atMem .mem (.pfhNode0 f)) (.pfhNode0 f) f.c { asks [{ f.useBase with carry := true }] none with latch := .clear }
      (fun x s1 => !s1.acquiring 1 x.ordered && (s1.prefetchers x f 4096).all fun j => (s1.prefetchTrouble x f j).isNone) = true) ∧
    (let only : Operand → Bool := fun op => match op with | .s _ => true | .k _ => true | .y _ => true | _ => false
     let f := { mm 0 with c := at_ .ply, data := 0x308, base := 0x340 }
     let u : Use := { f.useData (.raw false) with only := only }
     let r : Row := { asks [f.useBase, u] (some { f.dest (.raw false) with only := only }) with latch := .own }
     let sub := issuing (withK 0 0x4000_1000 (padded (atMem .mem (.sub f)))) (.sub f) f.c r fun x s0 =>
        let v := (s0.readOp x.e x.lead x.lay u.op (.raw false)).1
        decide (v / 2 % 2048 = 0) && decide (v < 2 ^ 20) && decide (v / 4096 < (s0.cable 1).spadUnits) && !s0.acquiring 1 x.ordered &&
        (match s0.resolve x { size := 4096, watched := false } [(x.lead, s0.ea x f x.lead)] with | (_, .ok [_]) => true | _ => false)
     sub = true) := by decide +kernel

/-! ### Witnesses: synchronisation -/

theorem witness_Fences :
    (let f := { fm with ord := 3, ssc := 3 }
     issuing (placed .sync (.fence f)) (.fence f) f.c { asks [] none with latch := .clear } (fun x s1 =>
      let t := s1.drainPlies 1 [0]
      t.releaseHolds 1 [0] x.ordered f.ssc && t.loadsBack 1 x.ordered) = true) ∧
    issuing (placed .sync (.xfence .mem .la fa)) (.xfence .mem .la fa) fa.c { asks [] none with latch := .clear } (fun x s1 =>
      (s1.drainPlies 1 [0]).releaseHolds 1 [0] ((s1.cable 1).livePly 0) 0 && x.scope == .strand) = true ∧
    issuing (placed .sync (.xfence .fab .mem fa)) (.xfence .fab .mem fa) fa.c { asks [] none with latch := .clear } = true := by
  decide +kernel

/-- A request at its home slice, nothing of its context recorded. -/
def asking (k : TxnKind) : State :=
  { placed .alu (.nop fa) with txns := [(4, { id := 4, core := 0, uid := 1, ply := 0, strands := [0], kind := k })] }
def part0 : LoadPart := { strand := 0, pa := 0, z := .b32, dests := [[.v 0 3]], lats := [0] }
def waiter0 : Waiter := { id := 6, part := 0, uid := 1, strand := 0, key := 0x1000, t0 := 0, tmo := 1, dest := [.v 0 3] }
theorem witness_WaitQueues :
    (let f := one 0
     issuing (withClause (fun cl => { cl with log := [.mask 1 0xFFFFFFFF 1 (some 0)] }) (atMem .sync (.wtq f))) (.wtq f) f.c
      (asks [f.useBase] (some (f.dest (.raw false)))) (fun x s0 => !s0.acquiring 1 x.ordered &&
        (match s0.resolve x { size := 8, watched := false } (x.accessors.map fun j => (j, s0.ea x f j)) with
          | (_, .ok accs) => accs.length == 1 | _ => false)) = true) ∧
    (let f := mm 0
     let s := { atMem .sync (.wake f) with txns := [(4, { id := 4, core := 0, uid := 1, ply := 0, pc := 0x10008, strands := [0], kind := .wake 0x1000 1, state := .performed 0 0 [] 0 })] }
     issuing s (.wake f) f.c { asks [f.useBase, f.useData (.raw false)] none with latch := .clear } (fun x s1 =>
      !(s1.wakesOf x).isEmpty && (s1.wakesOf x).all fun t => !t.state.isAsked) = true) ∧
    (let s := asking (.wtq 0x1000 0x4000_1000 part0)
     (s.txns.find? 4).any (fun q => s.homeReady q && !s.unreachable q) = true ∧ (s.ctx 0).rlogMode = 0) ∧
    (let s := asking (.wake 0x1000 1)
     (s.txns.find? 4).any (fun q => s.homeReady q && !s.unreachable q) = true) ∧
    (let s := { State.reset with waiters := [waiter0], cycle := 3000 }
     (s.waiters.find? (fun v => v.id == 6)).any (fun w => w.status.isNone && w.tmo != 0 && decide (w.t0 + w.tmo * 1000 ≤ s.clock)) = true) := by
  decide +kernel

/-- Fields of format E of the one strand in which `m1` holds: `v8:v9`, `v10` and `v12`. -/
abbrev fe1 : FmtE := { fe with c := { (default : Common) with pmask := 1 }, opd := 8, opa := 10, opb := 12 }
/-- Mask `m1` holds for strand 0 alone. -/
def alone (s : State) : State := withClause (fun cl => { cl with log := [.mask 1 0xFFFFFFFF 1 (some 0)] }) s
/-- Tag 0x1234 of the cable 0, a buffer at 32, and 16 bytes, for `send` and for `recv`. -/
def sends : State := alone (withV 8 0x1234 (withV 10 32 (withV 12 16 (padded (placed .sync (.send fe1))))))
def recvs : State := alone (withV 8 32 (withV 10 0x1234 (withV 12 16 (padded (placed .sync (.recv fe1))))))
def recv6 : Recv := { id := 6, uid := 1, scid := 0, tag := 0x1234, buf := 32, max := 16, cntOp := none, tok := [] }
def msg6 : Msg := { id := 6, scid := 0, dcid := 0, tag := 0x1234, sender := 1, to_ := 1, bytes := List.replicate 32 (7, false), cntOp := none }
theorem witness_Messages :
    (let f := fe1
     issuing sends (.send f) f.c { asks [f.useD (.raw true), f.useA (.raw false), f.useB (.raw false)] none with latch := .clear }
      (fun x s1 => s1.roomFor 1 f x.accessors.length && !s1.acquiring 1 x.ordered && x.plies.all (fun p => !s1.padStoring 1 p) &&
        (match s1.eachOf x.accessors (fun before s j => before.sendOne s x f j) with | .done _ _ => true | _ => false)) = true) ∧
    (let f := fe1
     issuing recvs (.recv f) f.c { asks [f.useD (.raw false), f.useA (.raw true), f.useB (.raw false)] none with latch := .clear }
      (fun x s1 => s1.roomFor 1 f x.accessors.length && !s1.acquiring 1 x.ordered &&
        (match s1.eachOf x.accessors (fun before s j => before.recvOne s x f j) with | .done _ _ => true | _ => false)) = true) ∧
    (let s := { sends with posted := [(0, [recv6])] }
     let x := issue0 [0]
     s.valueOf x (fe1.useD (.raw true)) 0 = 0x1234 ∧ s.valueOf x (fe1.useA (.raw false)) 0 = 32 ∧
     s.valueOf x (fe1.useB (.raw false)) 0 = 16 ∧ 48 ≤ (s.cable 1).spadBytes ∧ (s.cable 1).coreD / 8 = 0 ∧
     (s.namedBy 0 0 0).map Cable.uid = some 1 ∧ (s.ctx 0).rlogMode = 0 ∧
     (s.watchTrouble x 0 32 { size := 16 }).isNone = true ∧
     [recv6].find? (fun q : Recv => q.uid == 1 && q.scid == 0 && q.tag == 0x1234) = some recv6) ∧
    (let s := { recvs with overflow := [(0, [msg6])] }
     let x := issue0 [0]
     s.valueOf x (fe1.useD (.raw false)) 0 = 32 ∧ s.valueOf x (fe1.useA (.raw true)) 0 = 0x1234 ∧
     s.valueOf x (fe1.useB (.raw false)) 0 = 16 ∧
     (s.watchTrouble x 0 32 { size := 16, read := false, write := true }).isNone = true ∧
     [msg6].find? (fun m : Msg => m.to_ == 1 && m.scid == 0 && m.tag == 0x1234) = some msg6) ∧
    (let s := { recvs with deliveries := [{ msg6 with taken := some recv6 }] }
     (s.deliveries.find? (fun v => v.id == 6)).bind Msg.taken = some recv6 ∧ (s.cables.find? 1).any Cable.isPlaced = true ∧
     (s.cable 1).saving.isNone = true ∧ s.loadsReturned 0 [] = true ∧ s.padBusy 1 32 16 = false ∧ (s.cable 1).spad.wf) := by decide +kernel

/-- A ring of two slots of 16 bytes at 64, of ply 0 both ways, its descriptor at 32 with these states. -/
def ringed (word1 : Nat) (i : Instr) : State :=
  withK 0 32 (withCable (fun c => { c with
    spad := Memory.writeN 32 (leBytes (16 * 2 ^ 32 + 1 * 2 ^ 20 + 64) 8 ++ leBytes word1 8) c.spad }) (padded (placed .sync i)))
/-- `ring.put` and `ring.get` with the descriptor in `k0`, a mode, and the slot's address to `s8`. -/
abbrev fring (mode : BitVec 10) : FmtE := { fe with c := at_ .ply, opd := if mode = 1 then 0 else 0x308, opa := 0x340, opb := 0x3C0 + mode }
/-- What `ringAct` asks. -/
def ringReady (put : Bool) (mode : BitVec 10) (word1 : Nat) : Bool :=
  let f := fring mode
  let i := if put then Instr.ringPut f else .ringGet f
  let src := f.useA (.raw false)
  let d : Dest := { op := .ofField f.opd, ty := .raw false
                    only := fun op => match op with | .s _ => true | .y _ => true | .k _ => true | _ => false }
  let take := decide (2 ≤ mode.toNat)
  issuing (ringed word1 i) i f.c { asks [src] (if take then some d else none) with
      latch := if take then .value else .clear, legal := fun _ _ _ => 1 ≤ ringMode f && ringMode f ≤ 3 && (take || f.opd == 0), more := [.ofField f.opb, .ofField f.opd] } fun x s =>
    ringMode f == mode.toNat && s.valueOf x src x.lead == 32 && !s.acquiring 1 x.ordered && !s.padBusy 1 32 16 && (((s.cable 1).padRead 32 16).all fun b => !b.2) &&
    (match RingDesc.ofWords (leNat (((s.cable 1).padRead 32 8).map Prod.fst)) (leNat (((s.cable 1).padRead 40 8).map Prod.fst))
        (s.cable 1).spadBytes with
     | some q =>
       let q1 := if mode.toNat % 2 = 1 then q.letGo put else q
       (if put then q.prod else q.cons) == x.ringSide && (mode.toNat % 2 == 0 || q.holds put) &&
         (!take || (!q1.holds put && q1.free put))
     | none => false) &&
    !(s.clauseOf 1 x.lead).begun && (s.loadsOf 1 x.members).isEmpty && (s.watchTrouble x x.lead 32 { size := 16, write := true }).isNone &&
    (!(put && mode.toNat % 2 == 1) || (s.drainPlies 1 [0]).releaseHolds 1 [0] x.members 1) &&
    (match s.ringAct x f put src d with | .done _ _ => true | _ => false)
theorem witness_RingsAndCounters :
    ringReady true 1 0x10000 = true ∧ ringReady true 2 0 = true ∧ ringReady true 3 0x10000 = true ∧
    ringReady false 1 0x10001 = true ∧ ringReady false 2 1 = true ∧ ringReady false 3 0x10003 = true ∧
    (let f : FmtI := { fi with imm := 0x30005 }
     issuing (placed .sync (.cntWait f)) (.cntWait f) f.c { asks [] none with latch := .clear }
      (fun x s1 => decide (((s1.cable x.e.uid).counter 3).val ≤ 5)) = true) ∧
    (let f : FmtI := { fi with c := at_ .ply, imm := 0x30001 }
     issuing (placed .sync (.cntMode f)) (.cntMode f) f.c { asks [] none with latch := .clear }
      (fun x s1 => ((s1.cable x.e.uid).counter 3).val == 0) = true) ∧
    (let f : FmtI := { fi with c := at_ .ply, dst := 0x308, imm := 0x30000 }
     issuing (placed .sync (.cntRd f)) (.cntRd f) f.c (asks [] (some (f.dest (.raw false)))) (fun x s1 =>
      let c := s1.cable x.e.uid
      (match s1.logEvent c { ctx := c.ctx, cid := c.cid, ply := 0, ic := (c.ply 0).ic.toNat, kind := 1, word1 := (c.counter 3).val } with
        | .go _ v => v == 0 | _ => false)) = true) := by decide +kernel

/-! ### Witnesses: home slices, replies, subscribed ranges -/

/-- Nothing stands in the way of a request at its home slice. -/
def goes (k : TxnKind) : Bool :=
  match (asking k).txns.find? 4 with
  | some q => (asking k).homeReady q && !(asking k).unreachable q &&
    (!q.logged || (match (asking k).logEvent ((asking k).cable 1) (q.logEvent ((asking k).cable 1)) with | .go .. => true | _ => false))
  | none => false
def byte7 : WcByte := { val := 7, psn := false, seen := [((1, 0), 7, false)] }
theorem witness_HomeSlicesPerform :
    (∀ k ∈ ([.load 32 0 32 10 false true false [part0], .write [(0x1000, byte7)] false none, .write [] false none,
              .atom .add .i64 0x1000 1 0 false none, .atom .addF32 .i32 0x1000 1 0 false none,
              .nred true 0x1000 1 false none] : List TxnKind), goes k = true) ∧
    (asking (.load 32 0 32 10 false true false [part0])).cacheable 0x1000 = true ∧
    (asking (.nred true 0x1000 1 false none)).subscribed 0x1000 = false ∧
    (let s := warm [32] (asking (.write [(0x1000, byte7)] false none))
     max (s.core 0).p (((s.touchBlock 32 0 1).line 32).r + 1) ≤ maxTime) ∧ (placed .alu (.nop fa)).mem.wf ∧
    (let q : Txn := { id := 4, core := 0, uid := 1, ply := 0, strands := [0], kind := .nred true 0x1000 1 false none
                      state := .performed 3 (maxTime + 1) [] 0 }
     { placed .alu (.nop fa) with txns := [(4, q)] }.txns.find? 4 = some q ∧ q.id = 4) := by decide +kernel

theorem witness_RepliesArrive :
    (let q : Txn := { id := 4, core := 0, uid := 1, ply := 0, strands := [0], kind := .load 32 0 32 10 false true false [part0]
                      state := .performed 3 13 (List.replicate 32 (0, false)) 0 }
     let s := { placed .alu (.nop fa) with txns := [(4, q)] }
     s.txns.find? 4 = some q ∧ q.acquires = false ∧ s.replyNext q = true) ∧
    (let q : Txn := { id := 4, core := 0, uid := 1, ply := 0, strands := [0], kind := .write [(0x1000, byte7)] true none
                      state := .performed 3 2 [] 0, upd := some (1, 1), acks := [(1, 0)] }
     let s := { placed .alu (.nop fa) with txns := [(4, q)], dirs := [(1, { part := 0, seq := 1 })] }
     s.txns.find? 4 = some q ∧ q.id = 4 ∧ s.applied q.upd = true ∧ s.replyNext q = true) ∧
    (((placed .alu (.nop fa)).cable 1).strand 0).live = true := by decide +kernel

/-- A subscribed segment 1 of the range at 0x1000, and the request for it. -/
def seg1 (st : SegState) (snap : Option (Nat × List Byte × List Nat)) (inbox : List Update) : State :=
  withCable (fun c => { c with segs := [(1, { state := st, owned := true, range := 1, va := 0x40001000, snapshot := snap, inbox := inbox })] })
    (padded (placed .alu (.nop fa)))
def subReq (k : TxnKind) (s : State) : State :=
  { s with txns := [(4, { id := 4, core := 0, uid := 1, ply := 0, strands := [0], kind := k })] }
def partK : LoadPart := { strand := 0, pa := 0x1000, z := .b32, dests := [[.k 3]], lats := [] }
theorem witness_SubscribedRanges :
    (let s := subReq (.sub 1 0x40001000 1 true false partK) (padded (placed .alu (.nop fa)))
     (s.txns.find? 4).map Txn.kind = some (.sub 1 0x40001000 1 true false partK) ∧ (s.cable 1).copyWrites 1 = false ∧
     (s.subscribe 1 1 0x40001000 1 true false).2 = 0 ∧ (s.cables.find? 1).isSome = true) ∧
    (let s := subReq (.unsub 1 1 partK) (seg1 .current none [])
     (s.txns.find? 4).map Txn.kind = some (.unsub 1 1 partK) ∧ (s.unsubscribe 1 1 1).map Prod.snd = some 0) ∧
    (let s := seg1 .inTransit (some (5, List.replicate 16 9, [])) []
     (((s.cable 1).segs.find? 1).bind Seg.snapshot).isSome = true ∧ (s.cables.find? 1).isSome = true ∧ s.rangeNext 0 1 0 = true ∧
     (s.cable 1).spad.wf) ∧
    (let s := seg1 .current none [{ num := 1, bytes := [(3, 9, false)] }]
     ((s.cable 1).segs.find? 1).any (fun g => !g.inbox.isEmpty && g.snapshot.isNone && g.state != .saved) = true ∧
     s.rangeNext 0 1 0 = true ∧ (s.cable 1).isPlaced = true) := by decide +kernel

/-! ### Witnesses: engine commands -/

/-- Words in `k0`, `k1`, …, as the running clause found them. -/
def withKs (l : List Nat) (s : State) : State :=
  withClause (fun cl => { cl with view := { cl.view with k := (List.range l.length).map fun i => (i, ⟨BitVec.ofNat 32 (l.getD i 0), false⟩) } }) s
/-- Format E at ply scope with `k0`, `k4` and `k8` for its operands, and a token in `s1`. -/
abbrev fek (d a b : Bool) : FmtE :=
  { fe with c := at_ .ply, opd := if d then 0x340 else 0, opa := if a then 0x344 else 0, opb := if b then 0x348 else 0 }
abbrev fe0 : FmtE := fek true true true
/-- The upper word of a scratchpad address. -/
abbrev padHi : Nat := 0x80000000
/-- A cable with room, about to issue a command at ply scope on these words. -/
def enginePlace (c : Cls) (ks : List Nat) (i : Instr) : State :=
  withCable (fun c => { c with priv := 2 }) (warm [64, 65] (withKs ks (padded (mapped (placed c i)))))
def decideRoom (s : State) (x : Issue) (f : FmtE) (path : Path) (limit n : Nat) : Bool :=
  s.roomFor x.e.uid f n && decide ((s.cable x.e.uid).cmds.length + n ≤ 256) &&
    decide (s.engineLoad (s.cable x.e.uid).coreD path + n ≤ limit)
/-- What the statement on engine commands asks of one. -/
def engineReady (c : Cls) (i : Instr) (ks : List Nat) : Bool :=
  match engineOp i with
  | some (path, limit, f, uses, check, privileged) =>
    issuing (enginePlace c ks i) i f.c (asksEngine f (uses.map Prod.fst) privileged) fun x s1 =>
      let cmds := s1.engineCmds x path i f uses
      (cmds.all fun m => (check s1 (s1.cable x.e.uid) m.2).isNone) && decideRoom s1 x f path limit cmds.length
  | none => false

/-- From scratchpad 64 to scratchpad 0. -/
abbrev moves (l : List Nat) : List Nat := [0, padHi, 0, 0, 64, padHi, 0, 0] ++ l
theorem witness_engineCommands :
    engineReady .copy (.cp1d fe0) (moves [16]) = true ∧ engineReady .copy (.cp2d fe0) (moves [16, 1, 0, 0]) = true ∧
    engineReady .copy (.cpGth fe0) (moves [128, padHi, 1, 4]) = true ∧
    engineReady .copy (.cpSct fe0) (moves [128, padHi, 1, 4]) = true ∧
    engineReady .copy (.cpZero (fek true false true)) (moves [16]) = true ∧
    engineReady .copy (.cpFillRaw fe0) [0x2000, 0, 0, 0, 0x3000, 0, 0, 0, 1] = true ∧
    engineReady .la (.tbinv (fek true false false)) [1] = true ∧
    engineReady .la (.tbspill (fek true true false)) [1, 0, 0, 0, 0x40000000, 0] = true ∧
    engineReady .la (.lmmT8 .e4m3 .int8 fe0) [0, 0, 0, 0, 0, padHi, 16, 1, 64, padHi, 16, 0] = true ∧
    engineReady .la (.lmmT4 .int4 (fek true true false)) [0, 0, 0, 0, 0, padHi, 16, 1] = true ∧
    engineReady .la (.lmmG4Rb .w2 (fek true true false)) [0, 0, 0, 0, 0, padHi, 16, 1] = true ∧
    engineReady .la (.dmm .f32 fe0) [0, 0, 0, 0, 0, padHi, 16, 1, 64, padHi, 64, 0] = true ∧
    engineReady .la (.saccMx (fek true true false)) [16, 0, 0, 0, 0, padHi, 16, 0] = true ∧
    engineReady .la (.saccQ16 fe0) [16, 0, 0, 0, 0, padHi, 16, 0, 0, 0, 0, 32, padHi, 16, 0, 0] = true ∧
    engineReady .la (.zld fe0) [0, 0, 0, 0, 0, padHi, 0, 0, 16] = true ∧
    engineReady .la (.zst fe0) [0, 0, 0, 0, 0, padHi, 0, 0, 16] = true ∧
    engineReady .la (.zmov (fek true true false)) [1, 0, 0, 0, 0] = true := by decide +kernel

theorem witness_CommandsIssue :
    (let f := fek true false true
     let i := Instr.srchHeap f
     issuing (enginePlace .srch [0, padHi, 0, 0, 0, 0, 0, 0, 0, 0, 0, 0, 64, padHi, 1, 0] i) i f.c
      (asksEngine f [srchD f, srchG f] false) fun x s1 =>
        let (s2, ts, cmds) := s1.srchPlans x i f false
        ts.isEmpty && !cmds.isEmpty && decideRoom s2 x f .srch (2 ^ 32) cmds.length) = true ∧
    (let f := fek true true false
     let i := Instr.tbldT4 .int4 .int8 f
     issuing (enginePlace .la [0, 0, 0, 0, 0, 256] i) i f.c (asksEngine f [(scalarD f).1, (laPairA f).1] false) fun x s1 =>
        let m := s1.newCmd x f i .la x.lead (s1.regsOf x (scalarD f).1 x.lead 1) (s1.regsOf x (laPairA f).1 x.lead 2) []
        (laCheck s1 (s1.cable 1) m).isNone && m.buildTag.kind == 1 && decideRoom s1 x f .la 32 1) = true ∧
    (let f := fek true true false
     let i := Instr.tbldT4 .int4 .int8 f
     issuing (enginePlace .la [8, 0, 0, 0, 64, 0] i) i f.c (asksEngine f [(scalarD f).1, (laPairA f).1] false) fun x s1 =>
        let m := s1.newCmd x f i .la x.lead (s1.regsOf x (scalarD f).1 x.lead 1) (s1.regsOf x (laPairA f).1 x.lead 2) []
        let t := m.buildTag
        let lanes := (List.range t.m).map (32 * t.ply + ·)
        let names := (List.range t.vcnt).map (t.vlo + ·)
        let want := lanes.flatMap fun j => (names.filter fun n => ((s1.cable 1).strand j).spilled.contains n).map fun n => (j, n)
        (laCheck s1 (s1.cable 1) m).isNone && t.kind == 2 && (s1.cable 1).board.isEmpty &&
        decide ((s1.cable 1).buildsInFlight < 8) && decide (s1.poolUse 0 + want.length ≤ Config.physRegs) &&
        (match s1.unspill 1 x.lead want with | .ok s2 => decideRoom s2 x f .la 32 1 | _ => false)) = true ∧
    (let f := fe0
     let i := Instr.fabPut f
     issuing (enginePlace .fab [0, 0x0F001000, 0, 0, 0, padHi, 0, 0, 16] i) i f.c
      (asksEngine f [(fabPairD f).1, (laPairA f).1, (scalarB f).1] false) fun x s1 =>
        let m := s1.fabCmd x i f [fabPairD f, laPairA f, scalarB f]
        (s1.fabCheck (s1.cable 1) m).isNone && decideRoom s1 x f .fab (2 ^ 32) 1) = true ∧
    (let f := fek false false true
     let i := Instr.fabBar f
     issuing (enginePlace .fab [0, 0, 0, 0, 0, 0, 0, 0, 0x40002000, 0, 3, 0] i) i f.c
      (asksEngine f [(laGroupB f 4).1] false) fun x s1 =>
        let m := s1.fabCmd x i f [laGroupB f 4]
        (s1.fabCheck (s1.cable 1) m).isNone && s1.collectives.isEmpty &&
        (match s1.readCrew (s1.cable 1) m with
          | (s2, .ok _) => s2.collectives.isEmpty && decideRoom (s2.drainPlies 1 [0]) x f .fab (2 ^ 32) 1
          | _ => false)) = true ∧
    (let f := fek false true false
     let u := f.useA (.raw false)
     issuing (enginePlace .copy [0, 0, 0, 0, 3] (.cpCancel f)) (.cpCancel f) f.c { asks [u] none with latch := .clear }
      (fun x s1 => x.accessors.all fun j => decide (s1.valueOf x u j ≤ 15)) = true) ∧
    ((placed .copy (.cp1d fe0)).cables.find? 1).isSome = true := by decide +kernel

/-! ### Witnesses: walkers, clauses, launches -/

/-- An index of one stack at physical 0: dimension 16 of bytes, degree 1, four slots at 0x10000, code at 0x20000. -/
def indexed (s : State) : State :=
  let word := fun (n a : Nat) (m : Memory) => Memory.writeN a (leBytes n 8) m
  warm [0, 2, 512, 1024] { s with mem := word (16 + 2 * 2 ^ 12 + 2 ^ 32) 8 (word 0x10000 0x100 (word 4 0x108 (word 0x20000 0x110 s.mem))) }
/-- Its walker about to execute an instruction, with words in `s2` and `s6`. -/
def walks (i : Instr) (a b : Nat) : State :=
  (indexed (walking i)).updWalker 1 7 0 fun k => { k with s := [(2, ⟨BitVec.ofNat 64 a, false⟩), (6, ⟨BitVec.ofNat 64 b, false⟩)] }
/-- From `s2` and `s6`, to `s4`. -/
abbrev fw (d a b : Bool) : FmtE :=
  { fe with opd := if d then 0x304 else 0, opa := if a then 0x302 else 0, opb := if b then 0x306 else 0 }
/-- Its walk's home die is that of another stack. -/
def farHome (s : State) : State := s.updSrch 1 7 fun k => { k with home := 4 }
theorem witness_WalkerInstructions_far :
    (let f := fw true true false
     let u : Use := { sUse (f.useA (.raw true)) with carry := true }
     issuing ((walks (.dist f) 1 0).updWalker 1 7 0 fun k => { k with stack := 4 }) (.dist f) f.c
      { asks [u] (some (sDest f.opd)) with legal := fun s e _ => f.var.toNat == (s.walkOf e).metric } fun x s1 =>
        let id := (s1.wsrc x u).1 % 2 ^ 32
        x.e.walker && s1.idOk (s1.descAt (s1.walkOf x.e).srch.desc) id && !s1.atDie x (id / 2 ^ 28) &&
        (s1.walker? x.e.uid x.e.cmd x.e.w).isSome) = true ∧
    (let f := fw true false false
     homeOp (.heapTop f) = some (f.c, asks [] (some (sDest f.opd))) ∧
     issuing (farHome (walks (.heapTop f) 0 0)) (.heapTop f) f.c (asks [] (some (sDest f.opd)))
      (fun x s1 => x.e.walker && !s1.atDie x (s1.walkOf x.e).srch.home && (s1.walker? x.e.uid x.e.cmd x.e.w).isSome) = true) := by
  refine ⟨by decide +kernel, rfl, by decide +kernel⟩
theorem witness_WalkerInstructions :
    (let f := fw true true false
     let u : Use := { sUse (f.useA (.raw true)) with carry := true }
     issuing (walks (.dist f) 1 0) (.dist f) f.c
      { asks [u] (some (sDest f.opd)) with legal := fun s e _ => f.var.toNat == (s.walkOf e).metric } fun x s1 =>
        let id := (s1.wsrc x u).1 % 2 ^ 32
        id == 1 && s1.idOk (s1.descAt (s1.walkOf x.e).srch.desc) id && s1.atDie x (id / 2 ^ 28)) = true ∧
    (let f := fw false true true
     let a : Use := { sUse (f.useA (.raw true)) with carry := true }
     let b : Use := { sUse (f.useB (.raw true)) with carry := true }
     issuing (walks (.heapPush f) (2 ^ 32) 1) (.heapPush f) f.c { asks [a, b] none with latch := .clear }
      (fun x s1 => (s1.wsrc x a).1.testBit 32 && s1.atDie x (s1.walkOf x.e).srch.home)) = true ∧
    (let f := fw true false false
     issuing (walks (.heapPop f) 0 0) (.heapPop f) f.c (asks [] (some (sDest f.opd)))
      (fun x s1 => s1.atDie x (s1.walkOf x.e).srch.home) = true ∧
     issuing (walks (.heapTop f) 0 0) (.heapTop f) f.c (asks [] (some (sDest f.opd)))
      (fun x s1 => s1.atDie x (s1.walkOf x.e).srch.home) = true) ∧
    (let f := fw true true false
     issuing (walks (.visit f) 1 0) (.visit f) f.c (asks [sUse (f.useA (.raw true))] (some (sDest f.opd)))
      (fun x s1 => s1.atDie x (s1.walkOf x.e).srch.home)) = true ∧
    (let f := fw false true false
     issuing (walks (.hop f) 3 0) (.hop f) f.c { asks [sUse (f.useA (.raw false))] none with latch := .clear, transfer := true }
      (fun x s1 => s1.idOk (s1.descAt (s1.walkOf x.e).srch.desc) (s1.wsrc x (sUse (f.useA (.raw false)))).1)) = true ∧
    issuing (walks (.walkEnd fe) 0 0) (.walkEnd fe) fe.c { asks [] none with latch := .clear, transfer := true } = true ∧
    (let f : FmtM := { fm with data := 0x304, base := 0x302 }
     issuing (walks (.ldG .b32 f) 0x10004 0) (.ldG .b32 f) f.c
      { asks [f.useBase] (some (f.dest SizeZ.b32.oty)) with
        latch := .value, legal := fun _ e _ => !e.walker || (f.ord == 0 && !f.split) } fun x s1 =>
        let pa := s1.ea x f 0
        x.e.walker && pa == 0x10004 && (s1.walker? x.e.uid x.e.cmd x.e.w).isSome &&
        (match (s1.cable x.e.uid).cmd? x.e.cmd with
          | some m => s1.inShard (s1.descAt m.srch.desc) 0 pa 4 | none => false)) = true := by decide +kernel

/-- Code at 0x4000_1000: one clause of class ALU with a `nop`, and core 0 with every slot free before it. -/
def fetching : State :=
  let s := warm [32] (mapped (placed .alu (.nop fa)))
  ({ s with mem := Memory.writeN 0x1000 (leBytes (Header.encode ⟨.alu, 0, 0, ⟨false, 0, 0⟩, ⟨false, 0, 0⟩, false⟩).toNat 8 ++
      leBytes (encode (.nop fa)).toNat 8) s.mem }.updPly 1 0 fun y =>
    { y with running := none, groups := [{ gid := 0, lanes := 0xFFFFFFFF, pc := 0x40001000 }] }).updCore 0
      fun k => { k with slots := [none, none, none, none] }
/-- The walker between two clauses, its code a `walk.end`. -/
def walkFetch : State :=
  let s := walks (.walkEnd fe) 0 0
  { s with mem := Memory.writeN 0x20000 (leBytes (Header.encode ⟨.srch, 0, 0, ⟨false, 0, 0⟩, ⟨false, 0, 0⟩, false⟩).toNat 8 ++
      leBytes (encode (.walkEnd fe)).toNat 8) s.mem }.updWalker 1 7 0 fun k => { k with clause := none }
theorem witness_ClausesBegin :
    (fetching.core 0).slots.getD 0 none = none ∧ (fetching.core 0).slots.length = 4 ∧
    (triedBy fetching 0 0).map (fun u => (u.1, u.2.1, u.2.2.gid)) = [(1, 0, 0)] ∧
    (let s := withClause (fun cl => cl) (placed .alu (.nop fa))
     let s := (s.updPly 1 0 fun y => { y with running := none }).updCore 0 fun k => { k with slots := [none, none, none, none] }
     (triedBy s 0 0).map (fun u => (u.1, u.2.1, u.2.2.clause.isSome)) = [(1, 0, true)] ∧ (triedBy s 0 1).isEmpty = true) ∧
    (let s := withCable (fun c => { c with counters := [(0, { val := 1 })] }) fetching
     s.acquiring 1 [0] = false ∧ (s.cable 1).waitHolds ⟨true, 0, 0⟩ = false) ∧
    (((fetching.cable 1).nextGroups 0).map fun g => (g.gid, g.pc, g.clause.isNone)) = [(0, 0x40001000, true)] ∧
    ((fetching.cable 1).nextGroups 0).all (fun g => !fetching.acquiring 1 ((fetching.cable 1).groupStrands 0 g)) = true ∧
    (match fetching.fetchClause 0 1 0 0x40001000 with
      | (s1, .clause h ws) => ws.length == 1 && (fetching.cable 1).waitHolds h.wa && (fetching.cable 1).waitHolds h.wb &&
          (s1.core 0).slots.length == 4
      | _ => false) = true ∧
    ((fetching.cable 1).plies.find? 0).any (fun y => y.groups.any fun k => k.gid == 0) = true ∧
    (match (fetching.updPly 1 0 fun y => { y with groups := y.groups.map fun g => { g with pc := 0x8000_0000 } }).fetchClause 0 1 0 0x8000_0000 with
      | (_, .bad _ t) => t.cause == 7 | _ => false) = true ∧
    (walkFetch.srchTurn 1 7).isSome = true ∧
    (walkFetch.walker? 1 7 0).any (fun k => k.state == .run && k.clause.isNone && k.pc == 0) = true ∧
    (match walkFetch.imageWord 1 7 0 0 with
      | some (v, false) => (walkerHeader v).any fun h => h.len.toNat == 0 | _ => false) = true ∧
    (walkFetch.imageWord 1 7 0 8).any (fun e => !e.2) = true := by decide +kernel

/-- A coil of one cable of one ply. -/
def coil6 : Coil := { id := 6, ctx := 0, part := 0, lrec := fetchWordRecord, kargs := [] }
theorem witness_LaunchesAndEnds :
    (let f : FmtA := { fa with c := at_ .ply, sa := 0x340 }
     let u := f.useA (.raw true)
     let s0 := warm [64] (withKs [0x40002000, 0] (mapped (placed .sync (.launch f))))
     let s := { s0 with mem := Memory.writeN 0x2000 (fetchWordRecord.flatMap fun w => leBytes w.toNat 8) s0.mem }
     issuing s (.launch f) f.c { asks [u] none with latch := .clear } fun x s1 =>
        let t := s1.drainPlies 1 [0]
        !s1.acquiring 1 x.ordered && t.releaseHolds 1 [0] x.ordered 3 &&
        (match t.readRecords 0 true (x.accessors.map fun j => (j, s1.valueOf x u j)) with
          | (s2, .ok rs) => rs.length == 1 && (s1.cable 1).launchRoom rs && decide (s2.launchesOf 0 + rs.length ≤ 4096)
          | _ => false)) = true ∧
    (let s := { State.reset with coils := [(6, coil6)], cycle := 1 }
     s.coils.find? 6 = some coil6 ∧ coil6.queued = false ∧ s.depsHold coil6 = true ∧ coil6.cycle < s.cycle ∧
     (s.ctx 0).queues.length = 8 ∧ coil6.before coil6 = false) ∧
    (let s := withCable (fun c => { c with strands := [] }) (placed .alu (.nop fa))
     let c := s.cable 1
     (s.cables.find? 1).isSome = true ∧ c.uid = 1 ∧ c.isPlaced = true ∧ c.live = [] ∧ c.saving.isNone = true ∧ c.cmds = [] ∧
     c.counters = [] ∧ c.cntOps = [] ∧ s.posted = [] ∧ s.coils = [] ∧ s.deliveries = []) := by decide +kernel

/-! ### Witnesses: steps of the device -/

theorem witness_TimeAndSpills :
    ({ State.reset with cycle := 4096 }.nextTick ≤ 4096 ∧ (State.reset.core 703).p < maxTime) ∧
    State.reset.refreshStart + 96000000 ≤ { State.reset with cycle := 96000000 }.cycle ∧
    (let s := mapped (placed .alu (.nop fa))
     (s.ctx 0).en = true ∧ (match s.walk 0x40001000 ((s.ctx 0).ptbr.toNat) 5 with
       | .ok lf => leafAllows lf.pte .read false && lf.pte.testBit 5 && (s.checkPhys 0 (lf.phys 0x40001000)).isNone | _ => false) = true) ∧
    (let s := withV 3 7 (withCable (fun c => { c with spillBase := 0x40000000, spillSize := 16 }) (warm [0x2000] (mapped (placed .alu (.nop fa)))))
     let c := s.cable 1
     (match c.victim 0 [] with
       | some (k, n) => n == 3 && decide (c.spillSlot k n + 7 < c.spillBaseNow + c.spillSizeNow * 4096) &&
          (match s.slotAt 1 (c.spillSlot k n) .write with
            | (t, some p) => !t.unackFull 1 (k / 32) 1 && !t.acquiring 1 [k] && decide (p.pa % 128 ≤ 120) &&
                (t.bufferStore c.coreD 1 [k / 32] (t.loadsOf 1 [k]) p.pa (List.replicate 8 (0, false)) p.esr).isSome
            | _ => false)
       | none => false) = true) ∧
    (let s := withClause (fun cl => { cl with blocked := some 0, allocs := ([0], []) }) (withV 3 7
       (withCable (fun c => { c with spillBase := 0x40000000, spillSize := 16 }) (warm [0, 32, 64, 96] (mapped (placed .alu (.nop fa))))))
     (s.runningOn 0).map (fun e => (e.1, e.2.1, e.2.2.2.allocs)) = [(1, 0, [0], [])] ∧ s.coreStuck 0 = true ∧
     ((s.runningOn 0).all fun e => (s.spillWatched 1 e.2.2.2 0).isNone) = true ∧
     (match s.spillFor 1 0 [] with | .done _ => true | _ => false) = true) := by decide +kernel

/-- One command of an engine, its cable placed. -/
def commanded (m : Cmd) : State := withCable (fun c => { c with cmds := [m] }) (padded (placed .alu (.nop fa)))
def cmd7 (path : Path) (i : Instr) : Cmd := { id := 7, path := path, instr := i, d := [⟨0, false⟩, ⟨0x80000000, false⟩], a := [⟨64, false⟩, ⟨0x80000000, false⟩]
                                              b := [⟨16, false⟩] }
/-- The walker asks another die with `heap.top`, or hops to stack 0. -/
def walkTo (st : WalkState) : State := (walks (.heapTop (fw true false false)) 0 0).updWalker 1 7 0 fun k => { k with state := st }
theorem witness_EngineSteps :
    (let s := commanded (cmd7 .copy (.cp1d fe0))
     (s.engineTurn 1 7 .copy).isSome = true ∧ s.copyNext 0 = some 1 ∧ { cmd7 .copy (.cp1d fe0) with cancel := true }.copyBegun = false) ∧
    (let s := commanded { cmd7 .copy (.cp1d fe0) with held := [[((0x1000, 7, false), false)]] }
     (s.engineTurn 1 7 .copy).isSome = true ∧ s.copyNext 0 = some 1) ∧
    (let m := cmd7 .la (.zzero fe0)
     let s := withCable (fun c => { c with late := [{ path := .la, bytes := [(3, 7, false)] }] }) (commanded m)
     (s.engineTurn 1 7 .la).isSome = true ∧ (s.cable 1).laFirst = some 7 ∧ (s.cable 1).late.isEmpty = false ∧
     (commanded { m with held := [[((0x1000, 7, false), false)]] }).engineTurn 1 7 .la ≠ none) ∧
    (let m := { cmd7 .copy (.cp1d fe0) with tok := [.s 0 1] }
     let s := withCable (fun c => { c with plies := c.plies.map fun (p, y) =>
       (p, { y with groups := y.groups.map fun g => { g with clause := none } }) }) (commanded m)
     (s.cables.find? 1).map Cable.state ≠ some .ended ∧ ((s.cable 1).plies.find? 0).isSome = true ∧
     (s.cable 1).plies.all (fun e => e.2.groups.all fun g => g.clause.isNone) = true) ∧
    (let m := { cmd7 .copy (.cp1d fe0) with progress := 16 }
     let s := commanded m
     m.copyOver (s.cable 1) = true ∧ s.recordsWait (s.cable 1) (copyIssuer (s.cable 1)) = false ∧ s.updatesApplied m = true) ∧
    (let m := cmd7 .la (.zzero fe0)
     let s := commanded m
     (s.engineTurn 1 7 .la).isSome = true ∧ (s.cable 1).laFirst = some 7 ∧ m.progress < m.laTotal ∧
     { m with progress := m.laTotal }.laTotal ≤ { m with progress := m.laTotal }.progress ∧
     s.recordsWait (s.cable 1) (laIssuer (s.cable 1)) = false) ∧
    (let m := { cmd7 .la (.tbfill fe0) with progress := 8, cancel := true }
     let s := commanded m
     (s.engineTurn 1 7 .la).isSome = true ∧ (s.cable 1).laFirst = some 7 ∧ 0 < m.progress ∧ m.progress < imageBytes ∧
     s.updatesApplied m = true) ∧
    (let m := cmd7 .srch (.srchHeap fe0)
     ((commanded m).srchTurn 1 7).isSome = true ∧ m.srch.started = false ∧ m.srch.finished = false ∧ m.srch.arrived = 0 ∧
     ((commanded { m with srch := { arrived := 1 } }).srchTurn 1 7).isSome = true ∧
     ((commanded { m with srch := { finished := true } }).srchTurn 1 7).isSome = true) ∧
    (let m := { cmd7 .srch (.srchIns fe0) with srch := { started := true, version := 1 } }
     m.srchOp = .ins ∧ ((indexed (commanded m)).srchTurn 1 7).isSome = true ∧ ((indexed (commanded m)).descAt 0).ver + 1 = 1) ∧
    (let s := walkTo (.asking 0)
     (s.srchTurn 1 7).isSome = true ∧ (match s.walker? 1 7 0 with
       | some { state := .asking _, clause := some cl, .. } =>
         (match decodeWord cl.hdr.cls cl.word with | .ok i => askingOp i | .error _ => false)
       | _ => false) = true) ∧
    (let s := walkTo (.hopping 0)
     (s.srchTurn 1 7).isSome = true ∧ (s.walker? 1 7 0).map Walker.state = some (.hopping 0)) := by decide +kernel

/-- A module in service: partition 0 enabled with cores 0 and 9, and context 0. -/
def ready (s : State) : State :=
  { (s.updPart 0 fun p => { p with en := true }) with ready := true, boot := .run, coreMap := [(0, 16), (9, 16)] }
theorem witness_PlacementAndPower :
    (let s := { (ready State.reset).updCtx 0 fun _ => { Context.fresh with en := true, queues := [[.coil 6], [], [], [], [], [], [], []] } with
       coils := [(6, { coil6 with queued := true })] }
     s.ready = true ∧ (s.part 0).en = true ∧ s.pwrShed = false ∧ s.heads 0 = [(0, 0, .coil 6)] ∧
     s.headOf (.coil 6) = some (fetchWordRecord, none) ∧
     s.bestCore 0 (fun k => s.mayTake none k && s.fits k fetchWordRecord) = some 0) ∧
    (let s := (placed .alu (.nop fa)).updPly 1 0 fun y => { y with running := none }
     let v : Saving := { slot := 0, device := true }
     let s := withCable (fun c => { c with saving := some v, slotMap := devSlotMap 0 0 }) s
     let s1 := (s.postUnsaved 1).drainPlies 1 (List.range (s.cable 1).plyCount)
     (s.cable 1).saving = some v ∧ (s.cable 1).isPlaced = true ∧ s1.saveReady (s1.cable 1) = true ∧
     (s.cables.find? 1).map Cable.uid = some 1) ∧
    (let s := { ready (placed .alu (.nop fa)) with cycle := 90000000, pwrOver := 10 }
     s.nextWindow ≤ s.cycle ∧ s.boot ≠ .failed ∧ 5000 ≤ s.pwrLimit ∧ s.pwrLimit < 6000 ∧ 10 ≤ s.pwrOver ∧ s.shedVictim.map Cable.uid = some 1) ∧
    (let s := { ready (placed .alu (.nop fa)) with cycle := 90000000, coreTemps := [(0, 96)] }
     s.thermMig ≤ 96 ∧ (s.migrant 0).map Cable.uid = some 1 ∧ (s.core 0).lastMigration = none ∧
     (s.migrant 0).bind (fun c => s.coolest c 0) = some 9 ∧ (s.deviceSave 1 (some 9) false).2 = true ∧
     (let s := { s with unsaved := [{ ctx := 0, uid := 1, addr := 0, detail := 1, at_ := 90000000 }] }
      (s.deviceSave 1 (some 9) false).1.unsaved = [{ ctx := 0, uid := 1, addr := 0, detail := 3, at_ := 90000000 }])) ∧
    (let s := { State.reset with cycle := 90000000, boot := .failed }
     s.nextWindow ≤ s.cycle ∧ s.boot = .failed) ∧
    (let s := State.reset.updCore 5 fun k => { k with migrating := true }
     (s.core 5).migrating = true ∧ s.cores.all (fun e => e.1 == 5 || !e.2.migrating) = true ∧ (s.core 6).migrating = false ∧
     s.coreTemps.getD 5 0 < s.thermMig) ∧
    (let s := { State.reset with cycle := 300000 }
     (s.placedOn 5).isEmpty = true ∧ (s.core 5).idleSince + s.thermGidle * 1000 ≤ s.clock ∧ (s.core 5).waking.contains 3 = false) ∧
    (let s := State.reset.updCore 5 fun k => { k with waking := [3] }
     (s.core 5).waking.contains 3 = true) := by decide +kernel

def head9 (op : NetOp) (dom : Nat) : NetHead :=
  { src := 2, dst := 0, dom := dom, hops := 0, op := op, ndata := 0, mseq := 9, off := 0x1000, psn := [], inline := [], age := 0, limit := 100 }
/-- A contribution of a rank of two to `fab.bar`. -/
def joinOf (r : Nat) : Contribution := { rank := r, peers := [0, 1], kind := 4, ty := .f32, count := 0, elems := [], psn := [] }
theorem witness_FabricAndPorts :
    (ready State.reset).ready = true ∧ (ready State.reset).fibreSlot.getD 47 0 ≤ (ready State.reset).cycle / 15000 ∧
    (List.replicate 8 0).length = 8 ∧ (List.replicate 2048 0).length = 2048 ∧ (List.replicate 120 0).length = 120 ∧
    ({ head9 (.put 1) 0 with dst := 5 }.dst ≠ State.reset.fabId ∧ (head9 (.put 1) 0).hops = 0 ∧
     (head9 (.put 1) 0).age < (head9 (.put 1) 0).limit ∧ State.reset.relayRoom (head9 (.put 1) 0) = true) ∧
    (let m : InMsg := { id := 9, head := head9 (.put 1) 0, data := [(1, false)] }
     let s := { warm [32] (ready State.reset) with inMsgs := [m] }
     s.inMsgs.find? (fun m => m.id == 9) = some m ∧ m.performed = none ∧
     m.head.age + (s.cycle - m.at_ + 2999) / 3000 < m.head.limit ∧ s.ready = true ∧ s.domainPart 0 = some 0 ∧ s.domainPart 3 = none ∧
     s.refusal 0 0x1000 (netReach (.put 1)) = none ∧ s.refusal 0 0xFC0000000 (netReach (.put 1)) = some 4 ∧
     (s.performRemote 0 m.head m.data).2.2 = [] ∧
     (let t := { s with dirs := [(1, { part := 0, seq := 1, subs := [{ uid := 1, seg := 1, owned := false }] })] }
      (t.performRemote 0 m.head m.data).2.2 ≠ [])) ∧
    (let m : InMsg := { id := 9, head := head9 (.put 1) 0, data := [], performed := some (0, [], [(1, 1)]) }
     let s := { ready (seg1 .current none [{ num := 1, bytes := [] }]) with
       inMsgs := [m], dirs := [(1, { part := 0, seq := 1, subs := [{ uid := 1, seg := 1, owned := false }] })] }
     s.inMsgs.find? (fun m => m.id == 9) = some m ∧ s.applied (some (1, 1)) = false ∧ State.reset.applied (some (1, 1)) = true) ∧
    (let o : OutMsg := { id := 8, head := head9 .sig 0, sentAt := some 0, part := 0 }
     let s := { State.reset with outMsgs := [o], cycle := 90000000 }
     s.sentMsg 9 = some o ∧ 0 + s.fabTmo * 3000 ≤ s.cycle) ∧
    (let m := { cmd7 .fab (.fabPut fe0) with progress := 16 }
     ((commanded m).engineTurn 1 7 .fab).isSome = true ∧ m.fabOp.collective = false ∧ m.fabTotal ≤ m.progress) ∧
    (let m := { cmd7 .fab (.fabBar fe0) with progress := 1 }
     let q : Collective := { part := 0, crew := 0, seq := 0, uid := 1, cmd := 7, got := [joinOf 0] }
     let s := { commanded m with collectives := [q] }
     (s.engineTurn 1 7 .fab).isSome = true ∧ m.fabOp.collective = true ∧ m.fabTotal ≤ m.progress ∧ s.instanceOf 1 7 = some q ∧
     q.completeWith [joinOf 1] = true ∧ s.outMsgs = []) ∧
    (let s := { (State.reset.updPort 1 fun p => { p with online := true }) with
       cycle := 90000000, txns := [(4, { id := 4, core := 0, uid := 1, ply := 0, strands := [0]
                                         kind := .load (0x200000000000 / 128) 0 32 10 false true false [part0] })] }
     (s.port 1).online = true ∧ s.overdue 1 = true ∧ s.ports.length = 2) ∧
    (((State.reset.updPort 1 fun p => { p with gpf := [0] }).port 1).gpf = [0] ∧ 1 < State.reset.ports.length) ∧
    (ready State.reset).boot = .run ∧ (ready State.reset).fwLaunch = none ∧ ((ready State.reset).port 1).online = false := by decide +kernel

/-! ### Witnesses: contexts, reset, the host -/

/-- Context 0 with an unanswered record of cause 5 that a command of cable 1 waits on. -/
def handled : State :=
  (commanded { cmd7 .copy (.cp1d fe0) with state := .suspended, handle := 6 }).updCtx 0 fun _ =>
    { Context.fresh with en := true, handles := [{ h := 6, cause := 5, engine := true, atHeader := false, agents := [.cmd 1 7] }] }
theorem witness_ResumesAnswer :
    (handled.ctx 0).en = true ∧ 6 + 3 * 2 ^ 32 < 2 ^ 40 ∧ (handled.handle? 0 6).isSome = true ∧
    handled.handle? 0 5 = none ∧
    (let s := handled.updCtx 0 fun x => { x with handles := x.handles.map fun k => { k with atEvent := true } }
     (s.handle? 0 6).any Handle.atEvent = true ∧ (s.ctx 0).en = true ∧ (handled.handle? 0 6).any Handle.atEvent = false) ∧
    ((handled.cable 1).core? = some 0 ∧ (handled.ctx (handled.cable 1).ctx).en = true ∧
     (handled.handle? 0 6).any (fun k => (causeActions k.cause k.engine).contains 0 && k.uids.contains 1) = true ∧
     ((handled.resumeSees 0 6 77).core 0).p = 77 ∧ ((handled.resumeSees 0 (6 + 3 * 2 ^ 32) 77).core 0).p = 0) ∧
    (handled.handle? 0 6).any (fun k => (causeActions k.cause k.engine).contains 3 && !(causeActions k.cause k.engine).contains 1) = true := by
  decide +kernel

/-- A gigabyte page that a supervisor may write, for save slots. -/
def saving0 : State :=
  (warm [] (mapped (placed .alu (.nop fa)))).updCtx 0 fun x => { x with saveBase := 0x40000000, nslot := 2 }
theorem witness_ContextRegisters :
    (handled.ctx 0).en = true ∧ (handled.ctx 1).en = false ∧ (handled.ctx 0).fqWaiting = [] ∧ handled.ports.length = 2 ∧
    ((saving0.cableOf 0 0).any fun c => c.saving.isNone && c.isPlaced) = true ∧
    freeSlot (saving0.ctx 0).slots (saving0.ctx 0).nslot = some 0 ∧
    (saving0.cableOf 0 5).isNone = true ∧ (freeSlot (handled.ctx 0).slots (handled.ctx 0).nslot).isNone = true ∧
    ((withCable (fun c => { c with saving := some { slot := 0, device := false } }) saving0).cableOf 0 0).any
      (fun c => c.saving.isSome || !c.isPlaced) = true ∧
    (let s := handled.updCtx 0 fun x => { x with nslot := 1, saveBase := 0x8000_0000 }
     ((s.cableOf 0 0).any fun c => c.saving.isNone && c.isPlaced) = true ∧ freeSlot (s.ctx 0).slots (s.ctx 0).nslot = some 0 ∧
     (s.mapSlot 0 ((s.ctx 0).slotVa 0)).isNone = true) ∧
    (let s := withCable (fun c => { c with state := .saved 1 false }) (handled.updCtx 0 fun x => { x with slots := [(1, 1)] })
     (s.ctx 0).slots.find? 1 = some 1 ∧ (s.cables.find? 1).map Cable.state = some (.saved 1 false) ∧ (s.ctx 0).queues.length = 8) ∧
    (let s := { handled with cycle := 9, unsaved := [{ ctx := 0, uid := 1, addr := 0, detail := 1, at_ := 8 }] }
     s.unsaved.map Unsaved.uid = [1] ∧ s.unsaved.all (fun u => decide (u.at_ < s.cycle)) = true) ∧
    (handled.cable 1).core? = some 0 := by decide +kernel
theorem witness_ContextRegisters_slot : (saving0.mapSlot 0 ((saving0.ctx 0).slotVa 0)).isSome = true := by decide +kernel

theorem witness_ResetsDiscard : (ready State.reset).boot = .run ∧ (State.reset.updPort 0 fun p => { p with mode := 1 }).port 0 = { mode := 1 } ∧
    State.reset.thermTrip ≤ 110 ∧ State.reset.mem.wf ∧ State.reset.lines = [] ∧
    (let s := { State.reset with lines := [(0x2000000000, { dirty := true, inLlc := true, far := some ([9], []) })] }
     (s.lines.getD 0x2000000000 {}).far = some ([9], [])) := by decide +kernel

theorem witness_BootAndHost : State.reset.boot = .scrub ∧ State.reset.ports.length = 2 ∧
    { State.reset with boot := .await }.boot = .await ∧ { State.reset with boot := .load }.boot = .load ∧
    ({ State.reset with boot := .run }.ready = false ∧ { State.reset with boot := .run }.svn ≤ 64 ∧
     { State.reset with boot := .run }.imageSvn < 2 ^ 32) ∧
    (let s := { (State.reset.updPort 0 fun p => { p with online := true, mode := 1 }) with boot := .run }
     s.hostThere = true ∧ (s.hdm 0x10000000000).isSome = true ∧ (s.hdm 0x10000000001).isSome = true ∧ s.hdm (2 ^ 50) = none ∧
     s.ports.all (fun p => !p.mboxEn) = true) := by decide +kernel

theorem witness_FirmwareRegisters : (ready State.reset).boot = .run ∧
    (ready (placed .alu (.nop fa))).partBusy 0 = true ∧ State.reset.partBusy 0 = false ∧
    (let s := ready State.reset
     let new := fun (v : W64) (q : Partition) => { q with
       en := v.getLsbD 63, domain := v.toNat / 2 ^ 56 % 16, hbm := v.toNat / 2 ^ 49 % 128
       ways := BitVec.ofNat 16 (v.toNat / 2 ^ 32), fab := v.toNat / 2 ^ 24 % 128 }
     let ok := fun v : W64 => partsOk ((List.range 16).map fun i => if i = s.partSel then new v (s.part i) else s.part i)
     ok 0x8002000100000000 = true ∧ ok 0x80FE000000000000 = false) ∧
    ((ready State.reset).ctx 0).en = false ∧ ((ready State.reset).part 0).en = true ∧
    ((ready State.reset).launchIn 0 0x80).isSome = true ∧ (ready State.reset).fwLaunch = none ∧
    (let s := { ready State.reset with fwLaunch := some (0, 0x80) }
     s.fwLaunch = some (0, 0x80) ∧ (s.launchIn 0 0x80).map Prod.snd = some 3) ∧
    ((ready (placed .alu (.nop fa))).updCtx 0 fun _ => { Context.fresh with en := true }).ctxIdle 0 = false := by decide +kernel

theorem witness_HostRequests :
    (let q : W64 := 0x4000000000000000
     let s := (ready State.reset).updCtx 0 fun _ => { Context.fresh with en := true }
     q.toNat / 2 ^ 60 % 16 = 4 ∧ s.ready = true ∧ s.hostBusy = none ∧ s.badRequest q 0 0 0 = false ∧ s.badRequest (q + 1) 0 0 0 = true ∧
     (s.ctx 0).en = true ∧ s.badRequest 0x2000000000000000 0 0 0 = false ∧ s.badRequest 0x3000000000000000 6 0 0 = false ∧
     (ready State.reset).badRequest q 0 0 0 = false ∧ ((ready State.reset).ctx 0).en = false) ∧
    (let q : W64 := 0x1000000000000000
     let s := ready State.reset
     q.toNat / 2 ^ 60 % 16 = 1 ∧ s.badRequest q 0x80 0x1000 0x10000001000 = false ∧ (s.part 0).en = true ∧ (s.ctx 0).en = false ∧
     (s.part 1).en = false) ∧
    (let s := { (ready State.reset) with hostBusy := some 0 }
     s.hostBusy = some 0 ∧ s.ctxIdle 0 = true) := by decide +kernel

/-- Memory is in canonical form after reset, and in a state with cables. -/
theorem witness_MemoryStaysCanonical : State.reset.memWf ∧ (placed .alu (.nop fa)).memWf ∧
    (match exec (.gateIdle 5 3) State.reset with | .next t => decide t.memWf | _ => false) = true := by decide +kernel

end Sys2Proof.Tests
end

/-! PROOFS. The sequential machine: bit 63 of a word (O4), names that hold no register (O10). -/

namespace Sys2Proof

/-! ### Bit 63 of a word (01 R18, 03 R59, R62) -/

theorem FmtA.encode_bit63 (f : FmtA) (op : BitVec 10) : (f.encode op).getLsbD 63 = true := by
  simp only [FmtA.encode, BitVec.getLsbD_append]; rfl
theorem FmtB.encode_bit63 (f : FmtB) (op : BitVec 10) : (f.encode op).getLsbD 63 = true := by
  simp only [FmtB.encode, BitVec.getLsbD_append]; rfl
theorem FmtI.encode_bit63 (f : FmtI) (op : BitVec 10) : (f.encode op).getLsbD 63 = true := by
  simp only [FmtI.encode, BitVec.getLsbD_append]; rfl
theorem FmtM.encode_bit63 (f : FmtM) (op : BitVec 10) : (f.encode op).getLsbD 63 = true := by
  simp only [FmtM.encode, BitVec.getLsbD_append]; rfl
theorem FmtE.encode_bit63 (f : FmtE) (op : BitVec 10) : (f.encode op).getLsbD 63 = true := by
  simp only [FmtE.encode, BitVec.getLsbD_append]; rfl

theorem Cls.code_bit3 (c : Cls) : c.code.getLsbD 3 = false := by cases c <;> rfl

theorem Cls.ofCode_of_bit3 : ∀ b : BitVec 4, b.getLsbD 3 = true → Cls.ofCode b = none := by decide

theorem Header.encode_bit63 (h : Header) : h.encode.getLsbD 63 = false := by
  rw [← h.cls.code_bit3]
  simp only [Header.encode, BitVec.getLsbD_append]; rfl

theorem Header.decode_of_bit63 (w : W64) (h : w.getLsbD 63 = true) : Header.decode w = none := by
  have hc : (w.extractLsb' 60 4).getLsbD 3 = true := by rw [BitVec.getLsbD_extractLsb', h]; rfl
  unfold Header.decode
  rw [Cls.ofCode_of_bit3 _ hc]

/-- What carries the fields of no format is a step of the device: it has no row in 03 Tables 3.10 to 3.17. -/
theorem Instr.row_of_payload_none {i : Instr} (h : i.payload = .none) : i.row = none := by
  cases i <;> simp_all [Instr.payload, Instr.row]

theorem encode_bit63 {i : Instr} (h : i.HasWord) : (encode i).getLsbD 63 = true := by
  obtain ⟨⟨c, op⟩, hrow⟩ := Option.isSome_iff_exists.mp h
  unfold encode
  rw [hrow]
  cases hf : i.payload with
  | a f => exact f.encode_bit63 _
  | b f => exact f.encode_bit63 _
  | i f => exact f.encode_bit63 _
  | m f => exact f.encode_bit63 _
  | e f => exact f.encode_bit63 _
  | none => rw [Instr.row_of_payload_none hf] at hrow; cases hrow

theorem decodeWord_of_bit63_clear (c : Cls) {w : W64} (h : w.getLsbD 63 = false) : decodeWord c w = .error .notAnInstruction := by
  unfold decodeWord
  rw [if_pos h]

end Sys2Proof

namespace Sys2Proof.Machine

/-! ### What falls due (05 R137) is as it was: home slices and posted records leave `State.due` -/

theorem due_foldl {α : Type} (g : State → α → State) (h : ∀ s a, (g s a).due = s.due) (l : List α) (s : State) :
    (l.foldl g s).due = s.due := by
  induction l generalizing s with
  | nil => rfl
  | cons a l ih => rw [List.foldl_cons, ih, h]

theorem due_evict (s : State) (l : Nat) : (s.evict l).due = s.due := by
  unfold State.evict
  split
  · rfl
  · dsimp only; split <;> rfl

theorem due_enterLlc (s : State) (l : Nat) : (s.enterLlc l).due = s.due := by
  unfold State.enterLlc
  split
  · rfl
  · exact due_foldl _ due_evict _ _

theorem due_recode (s : State) (on : Bool) (l : List Nat) : (s.recode on l).due = s.due := by
  unfold State.recode; split <;> rfl

theorem due_touchBlock (s : State) (l lo n : Nat) : (s.touchBlock l lo n).due = s.due := by
  unfold State.touchBlock
  dsimp only
  split
  · rfl
  · split
    · exact due_enterLlc s l
    · exact (due_recode ..).trans (due_enterLlc s l)

theorem due_stampWrite (s : State) (part p l lo n : Nat) : (s.stampWrite part p l lo n).1.due = s.due := by
  rw [← due_touchBlock s l lo n]
  unfold State.stampWrite
  dsimp only
  split <;> rfl

theorem due_multicast (s : State) (r : Nat) (u : Update) : (s.multicast r u).due = s.due := by
  unfold State.multicast
  split
  · rfl
  · refine due_foldl _ (fun s sub => ?_) _ _
    rfl

theorem due_publishRange (s : State) (pa : Nat) (bytes : List (Nat × Byte × Bool)) : (s.publishRange pa bytes).1.due = s.due := by
  unfold State.publishRange
  dsimp only
  split
  · rfl
  · exact due_multicast ..

theorem due_homeWrite (s : State) (part p : Nat) (bytes : List (Nat × Byte × Bool)) (esr : Bool) :
    (s.homeWrite part p bytes esr).1.due = s.due := by
  unfold State.homeWrite
  split
  · rfl
  · dsimp only
    rw [due_publishRange, due_recode]
    exact due_stampWrite ..

theorem due_engineLine (s : State) (part : Nat) (ch : List (Nat × Byte × Bool)) (esr : Bool) :
    (s.engineLine part ch esr).1.due = s.due := by
  unfold State.engineLine
  dsimp only
  split
  · exact due_homeWrite s part 0 ch esr
  · exact due_publishRange ..

theorem due_engineCells (s : State) (part : Nat) (cells : List (Nat × Byte × Bool)) (esr : Nat → Bool) :
    (s.engineCells part cells esr).1.due = s.due := by
  unfold State.engineCells
  refine List.foldlRecOn (motive := fun b : State × Nat × List (Nat × Nat) => b.1.due = s.due) _ _ rfl fun b hb ch _ => ?_
  exact (due_engineLine b.1 ..).trans hb

theorem due_engineWrite (s : State) (part pa : Nat) (bytes : List (Byte × Bool)) (esr : Bool) :
    (s.engineWrite part pa bytes esr).1.due = s.due := due_engineCells ..

theorem due_touchLeaf (s : State) (part : Nat) (lf : Leaf) (w : Bool) : (s.touchLeaf part lf w).1.due = s.due := by
  unfold State.touchLeaf
  dsimp only
  generalize (if (w && _) = true then _ else _) = pte
  split
  · rfl
  · exact due_engineWrite ..

theorem due_translateWalk (s : State) (ctx va : Nat) (acc : Access) (user : Bool) :
    (s.translateWalk ctx va acc user).1.due = s.due := by
  unfold State.translateWalk
  dsimp only
  split
  · rfl
  · split
    · rfl
    · split
      · rfl
      · exact due_touchLeaf ..

theorem due_translateEngine (s : State) (ctx va : Nat) (acc : Access) (user : Bool) :
    (s.translateEngine ctx va acc user).1.due = s.due := by
  rw [← due_translateWalk s ctx va acc user]
  unfold State.translateEngine
  split <;> (rename_i h; rw [h])

theorem due_postFw (s : State) (part : Nat) (r : FRec) : (s.postFw part r).due = s.due := by
  unfold State.postFw
  extract_lets q
  generalize fwRing part + _ = pa
  by_cases hfull : (q.fwTail - q.fwHead).toNat = 8192
  · rw [if_pos hfull]; split <;> rfl
  · rw [if_neg hfull]
    have hw := due_engineWrite s part pa r.bytes false
    split
    rename_i s1 w h1
    rw [h1] at hw
    exact (State.updPart_due ..).trans hw

/-- A record posted to a context's queue, where the wake of the ring's waiters leaves what falls due. -/
theorem due_postCtxBy {wake : State → Nat → Nat → Nat → State} (hw : ∀ s part key p, (wake s part key p).due = s.due)
    (s : State) (c : Nat) (r : FRec) : (State.postCtxBy wake s c r).due = s.due := by
  unfold State.postCtxBy
  dsimp only
  split
  · split <;> rfl
  · split
    · exact due_postFw ..
    · have hslot := due_translateEngine s c ((s.ctx c).fqBase.toNat + 64 * ((s.ctx c).fqTail.toNat % 2 ^ (s.ctx c).fqLog)) .write false
      split
      · rename_i s1 f h1
        rw [h1] at hslot
        rw [due_postFw, hslot]
      · rename_i s1 p h1
        rw [h1] at hslot
        generalize hs3 : State.updCtx _ _ _ = s3
        have hring : s3.due = s.due := by rw [← hs3, State.updCtx_due, due_engineWrite, hslot]
        have hkey := due_translateEngine s3 c (s.ctx c).fqBase.toNat .read false
        split
        · rename_i s4 f h4
          rw [h4] at hkey
          exact hkey.trans hring
        · rename_i s4 k h4
          rw [h4] at hkey
          rw [hw, hkey, hring]

/-! ### Wakes leave what falls due -/

theorem due_giveStatus (s : State) (w : Waiter) (status : Nat) : (s.giveStatus w status).due = s.due := rfl

theorem due_raiseWaiter (s : State) (w : Waiter) (p : Option Nat) : (s.raiseWaiter w p).due = s.due := by
  unfold State.raiseWaiter; split <;> rfl

theorem due_markWaiter (s : State) (w : Waiter) (status : Nat) : (s.markWaiter w status).due = s.due := rfl

theorem due_markKey (s : State) (part key p : Nat) : (s.markKey part key p).due = s.due := by
  unfold State.markKey
  exact due_foldl _ (fun s w => (due_markWaiter ..).trans (due_raiseWaiter ..)) _ _

theorem due_logAppend (s : State) (e : LogEvent) : (s.logAppend e).due = s.due := by
  unfold State.logAppend
  dsimp only
  have htr := due_translateEngine s e.ctx ((s.ctx e.ctx).rlogAt (s.ctx e.ctx).rlogTail) .write false
  rw [State.updCtx_due]
  split <;> (rename_i h; rw [h] at htr)
  · exact htr
  · rw [due_engineWrite, htr]

theorem due_logRead {s t : State} {e : LogEvent} {v : Nat} (h : s.logRead e = some (t, v)) : t.due = s.due := by
  unfold State.logRead at h
  dsimp only at h
  split at h
  · split at h
    · cases h
    · cases h; exact due_logAppend s e
  · split at h
    · obtain ⟨w, -, hw⟩ := Option.map_eq_some_iff.mp h
      cases hw; rfl
    · cases h; rfl

theorem due_logFullBy {wake : State → Nat → Nat → Nat → State} (hw : ∀ s part key p, (wake s part key p).due = s.due)
    (s : State) (c : Cable) (e : LogEvent) : (State.logFullBy wake s c e).due = s.due := by
  unfold State.logFullBy
  dsimp only
  split
  · rfl
  · split
    · rw [due_postFw]; rfl
    · rw [due_postCtxBy hw]; rfl

theorem due_releaseWaiter (s : State) (w : Waiter) (status : Nat) (p : Option Nat) : (s.releaseWaiter w status p).due = s.due := by
  unfold State.releaseWaiter
  dsimp only
  rw [← due_raiseWaiter s w p]
  split
  · rename_i s2 v h
    rw [due_giveStatus, due_logRead h]
  · rw [due_logFullBy due_markKey, due_markWaiter]

theorem due_wakeKey (s : State) (part key count p : Nat) : (s.wakeKey part key count p).due = s.due := by
  unfold State.wakeKey
  exact due_foldl _ (fun s w => due_releaseWaiter s w 0 (some p)) _ _

theorem due_postFor (s : State) (c : Cable) (r : FRec) : (s.postFor c r).due = s.due := by
  unfold State.postFor State.postCtx
  split
  · exact due_postFw ..
  · exact due_postCtxBy (fun s part key p => due_wakeKey ..) ..

theorem due_joinHandle (s : State) (ctx h : Nat) (a : Stopped) (pages : List Nat) : (s.joinHandle ctx h a pages).due = s.due := rfl

theorem due_haltPlies (s : State) (uid handle : Nat) (plies now : List Nat) : (s.haltPlies uid handle plies now).due = s.due := rfl

theorem due_stopHere (s : State) (uid p : Nat) : (s.stopHere uid p).due = s.due := rfl

/-- A synchronous event of a group leaves what falls due. -/
theorem due_raisePly (s : State) (e : Env) (pc : Nat) (word : W64) (t : Trouble) : (s.raisePly e pc word t).due = s.due := by
  unfold State.raisePly
  dsimp only
  split
  · rw [due_stopHere, State.updCable_due]
  · split
    · rw [due_stopHere, due_haltPlies, due_joinHandle, State.updCable_due]
    · rw [due_stopHere, due_haltPlies, State.updCtx_due, State.updPly, State.updCable_due, due_postFor, State.updCable_due]

/-! ### A word with bit 63 clear at the turn of a group (01 R18) -/

theorem issueDue_of_due_nil {s : State} (h : s.due = []) (n : Nat) : s.issueDue n = .next s := by
  cases n with
  | zero => rfl
  | succ n => unfold State.issueDue; rw [h]

theorem withDue_raisePly {s : State} (h : s.due = []) (e : Env) (pc : Nat) (word : W64) (t : Trouble) :
    withDue (.next (s.raisePly e pc word t)) = .next (s.raisePly e pc word t) :=
  issueDue_of_due_nil ((due_raisePly ..).trans h) 1024

theorem runGroup_of_clause {s : State} {uid p gid : Nat} {g : Group} {cl : Clause} (hg : s.group? uid p gid = some g)
    (hcl : g.clause = some cl) : s.runGroup uid p gid = exec cl.instr { s with cur := .group uid p gid } := by
  obtain ⟨_, _, _, c, _⟩ := g
  cases hcl
  unfold State.runGroup
  rw [hg]

theorem Clause.instr_of_bit63_clear {cl : Clause} (h : cl.word.getLsbD 63 = false) :
    cl.instr = .illegalInstruction .notAnInstruction := by
  unfold Clause.instr
  rw [decodeWord_of_bit63_clear _ h]

/-- A word that is no instruction, at the turn of a group that runs, with no debug event due and no skip in force. -/
theorem performIllegal_group {s : State} {uid p gid : Nat} {g : Group} {cl : Clause} (why : Reject)
    (hcur : s.cur = .group uid p gid) (hg : s.group? uid p gid = some g) (hcl : g.clause = some cl)
    (hstop : ((s.cable uid).ply p).stopped = false) (hdebug : (s.cable uid).debugTrouble p cl = none) (hskip : cl.skip = false) :
    s.performIllegal why = .next (s.raisePly { uid := uid, ply := p, gid := gid } g.next cl.word { cause := 1 }) := by
  unfold State.performIllegal
  simp only [hcur, hg, hcl, hstop, hdebug, hskip, State.raise, Bool.false_eq_true, if_false]

/-- Running a group whose next word has bit 63 clear is the illegal-instruction fault at that word. -/
theorem runGroup_of_bit63_clear {s : State} {uid p gid : Nat} {g : Group} {cl : Clause} (hg : s.group? uid p gid = some g)
    (hcl : g.clause = some cl) (hbit : cl.word.getLsbD 63 = false) (hstop : ((s.cable uid).ply p).stopped = false)
    (hdebug : (s.cable uid).debugTrouble p cl = none) (hskip : cl.skip = false) :
    s.runGroup uid p gid = .next (State.raisePly { s with cur := .group uid p gid } { uid := uid, ply := p, gid := gid } g.next cl.word
      { cause := 1 }) := by
  rw [runGroup_of_clause hg hcl, Clause.instr_of_bit63_clear hbit]
  exact performIllegal_group (s := { s with cur := .group uid p gid }) .notAnInstruction rfl hg hcl hstop hdebug hskip

/-- The turn of a group is what running it leaves, with what falls due in it. -/
theorem step_of_group {s : State} {uid p gid : Nat} (hturn : s.turn = .instr uid p)
    (hrun : ((s.begun.cable uid).ply p).running = some gid) : step s = withDue (s.begun.runGroup uid p gid) := by
  unfold step
  simp only [hturn, hrun]

/-- Time that passes before a step changes no cable. -/
@[simp] theorem begun_cable (s : State) (uid : Nat) : s.begun.cable uid = s.cable uid := rfl
@[simp] theorem begun_group? (s : State) (uid p gid : Nat) : s.begun.group? uid p gid = s.group? uid p gid := rfl

/-- Settles O4: bit 63 leads every instruction format and no class code. A word without it is no instruction, so the turn is the
fault at that word; and a fault leaves nothing due, so the turn ends there. -/
theorem bitSixtyThree : Obligations.BitSixtyThree := by
  refine ⟨fun _ => encode_bit63, Header.encode_bit63, Header.decode_of_bit63, ?_⟩
  intro s uid p gid g cl hturn hrun hg hcl hbit hstop hdebug hskip
  rw [← begun_cable] at hrun hstop hdebug
  rw [← begun_group?] at hg
  rw [step_of_group hturn hrun, runGroup_of_bit63_clear hg hcl hbit hstop hdebug hskip]
  exact withDue_raisePly rfl ..

/-! ### A name without a register that holds one after its reader (01 R12, 16 R386, 09 R258 to R261)

What follows the effect of a stepped instruction is the record of its single step. Posting it to the context's fault queue wakes
the waiters of the queue's ring, and a waiter takes its status in the register of its `wtq`. Nothing that the statement asks keeps
that register from being the name in question: no issue looks at a waiter's record, only at the scoreboard. -/

/-- The fields of `mov.b32 v4, v2`, at strand scope. -/
def movFields : FmtA := { (default : FmtA) with dst := 4, sa := 2 }

/-- What `mov.b32 v4, v2` asks. -/
def movAsks : Row :=
  asks [{ movFields.useA Width.b32.oty with carry := true }] (some (movFields.dest Width.b32.oty))
    (scaleOk movFields.clamp movFields.scale Width.b32.oty)

/-- A cable whose one ply is stepped (bit 0 of `CBL_DEBUG`) and has fetched `mov.b32 v4, v2`. Its context's table maps the
gigabyte from 0x4000_0000 to physical address 0, where its fault queue lies in a line that the LLC holds; the queue's one waiter is strand 0, with `v2` for its status and the scoreboard
empty. No strand holds a register under `v2`. -/
def steppedMov : State :=
  let s := State.reset.withFetchWord 64 (encode (.mov .b32 movFields)).toNat
  let s := s.updCable 1 fun c => { c with dbg := 1 }
  let s := s.updCtx 0 fun _ => { Context.fresh with en := true, ptbr := 0x30000000, fqBase := 0x40000000 }
  { s with
    cur := .group 1 0 0
    mem := Memory.writeN 0x30000000 (leBytes 0x30000001 8 ++ leBytes 0xFF 8) s.mem
    lines := [(0, { inLlc := true, sectors := List.range 8 })]
    waiters := [{ id := 9, part := 0, key := 0, uid := 1, strand := 0, t0 := 0, tmo := 0, dest := [.v 0 2] }] }

/-- Its issue: all 32 strands contribute. -/
def steppedMovIssue : Issue :=
  { e := { uid := 1, ply := 0, gid := 0 }, c := movFields.c, addr := 0x10008, hdr := 0x10000, word := encode (.mov .b32 movFields)
    members := List.range 32, contrib := List.range 32, groups := [(0, 0)] }

theorem steppedMov_issues :
    steppedMov.issues (.mov .b32 movFields) movFields.c movAsks = some (steppedMovIssue, steppedMov) := by decide +kernel

theorem steppedMov_unheld : ((steppedMov.cable 1).strand 0).v.find? 2 = none := by decide +kernel

/-- The instruction completes with strand 0 holding a register under `v2`: the status that its waiter took. -/
theorem steppedMov_held : (match exec (.mov .b32 movFields) steppedMov with
    | .next t => ((t.cable 1).strand 0).v.find? 2
    | _ => none) = some { val := 0, psn := false } := by decide +kernel

/-- Refutes O10: after `mov.b32 v4, v2` in a stepped ply, strand 0 holds a register under `v2`, which held none. The record of the
step has woken a `wtq` of the strand whose status goes to `v2`; such a waiter with nothing on the scoreboard is not excluded. -/
theorem not_unheldNamesReadZero : ¬ Obligations.UnheldNamesReadZero := by
  rintro ⟨-, -, hmov⟩
  obtain ⟨t, hexec, hafter⟩ := hmov movFields 2 4 steppedMov steppedMov steppedMovIssue (by decide) (by decide) (by decide)
    steppedMov_issues (by decide) rfl rfl
  obtain ⟨hunheld, -⟩ := hafter 0 (by decide)
  have hnone : ((t.cable 1).strand 0).v.find? 2 = none := (hunheld steppedMov_unheld).2
  have hsome := steppedMov_held
  rw [hexec] at hsome
  cases hnone.symm.trans hsome

end Sys2Proof.Machine

/-! PROOFS. The instructions of a strand: `nop` (O11). -/

namespace Sys2Proof

/-! ### What `nop`'s word holds (04 R100, 03 Table 3.3, R70) -/

/-- OP is bits [9:0] of a format A word. -/
theorem FmtA.extractLsb'_op_encode (f : FmtA) (op : BitVec 10) : (f.encode op).extractLsb' 0 10 = op := by
  ext i hi
  simp only [FmtA.encode, Common.bits, BitVec.getElem_extractLsb', BitVec.getLsbD_append, Nat.zero_add, hi]
  simp [hi, show i < 19 by omega]

theorem firstReject_cons_eq_none {o : Option Reject} {l : List (Option Reject)} :
    firstReject (o :: l) = none ↔ o = none ∧ firstReject l = none := by
  cases o <;> simp [firstReject]

theorem rejectIf_eq_none {b : Bool} {r : Reject} : rejectIf b r = none ↔ b = false := by
  cases b <;> simp [rejectIf]

theorem Role.reject_off_eq_none {x : BitVec 10} {mods : Bool} : Role.off.reject x mods = none ↔ x = 0 ∧ mods = false := by
  simp [Role.reject]

/-- A format A word of a row without operands has every field but the common ones zero. -/
theorem FmtA.eq_of_reject_bare {f : FmtA} {sc : Scopes} (h : f.reject (.bare sc) = none) :
    f = { c := f.c, dst := 0, sa := 0, sb := 0, nega := false, absa := false, lra := false
          negb := false, absb := false, lrb := false, clamp := 0, scale := 0 } := by
  unfold FmtA.reject ARow.bare at h
  simp only [firstReject_cons_eq_none, rejectIf_eq_none, Role.reject_off_eq_none] at h
  obtain ⟨-, ⟨hdst, -⟩, ⟨hsa, hmodsa⟩, ⟨hsb, hmodsb⟩, hscale, -, -⟩ := h
  cases f
  simp_all

end Sys2Proof

namespace Sys2Proof.Machine

/-! ### Latches cleared (01 R26) -/

/-- An update of a strand, listed or not, by a function that keeps what stands for a strand that is not listed. -/
theorem Cable.strand_updStrand_of_fixed {f : Strand → Strand} (hf : f { live := false } = { live := false }) (c : Cable) (i j : Nat) :
    (c.updStrand i f).strand j = if j = i then f (c.strand i) else c.strand j := by
  unfold Cable.strand Cable.updStrand
  rw [SMap.getD_update]
  split
  · unfold SMap.getD
    cases c.strands.find? i with
    | none => exact hf.symm
    | some t => rfl
  · rfl

theorem State.strand_updStrand_of_fixed {f : Strand → Strand} (hf : f { live := false } = { live := false }) (s : State)
    (uid i j : Nat) :
    ((s.updStrand uid i f).cable uid).strand j = if j = i then f ((s.cable uid).strand i) else (s.cable uid).strand j := by
  rw [← Cable.strand_updStrand_of_fixed hf]
  unfold State.updStrand State.cable State.updCable
  rw [SMap.getD_update, if_pos rfl]
  unfold SMap.getD
  cases s.cables.find? uid <;> rfl

/-- Whatever strands are named, live or not, each of them is left without a latch, and no other strand changes. -/
theorem strand_clearLatches {e : Env} (hw : e.walker = false) (l : List Nat) (s : State) (j : Nat) :
    ((l.foldl (fun s i => s.setLatch e i none) s).cable e.uid).strand j
      = if j ∈ l then { (s.cable e.uid).strand j with latch := none } else (s.cable e.uid).strand j := by
  induction l generalizing s with
  | nil => simp
  | cons i l ih =>
    have hone : ((s.setLatch e i none).cable e.uid).strand j
        = if j = i then { (s.cable e.uid).strand i with latch := none } else (s.cable e.uid).strand j := by
      unfold State.setLatch
      rw [if_neg (by simp [hw])]
      exact State.strand_updStrand_of_fixed (f := fun t => { t with latch := none }) rfl s e.uid i j
    rw [List.foldl_cons, ih, hone]
    by_cases hij : j = i <;> by_cases hjl : j ∈ l <;> simp [hij, hjl]

/-- A row that gives no latch leaves every member without one, and no other strand changes. -/
theorem strand_latchRest_clear {x : Issue} {r : Row} (hl : r.latch = .clear) (hw : x.e.walker = false) (s : State) (j : Nat) :
    ((s.latchRest x r).cable x.e.uid).strand j
      = if j ∈ x.members then { (s.cable x.e.uid).strand j with latch := none } else (s.cable x.e.uid).strand j := by
  unfold State.latchRest
  rw [hl]
  dsimp only
  rw [strand_clearLatches hw, strand_ownLatch]

/-- No source may be the latch where one of the group's strands has none (01 R26). -/
theorem operandOk_lat_of_latch_none {s : State} {e : Env} {lay j : Nat} {sc : Scope} {lanes : List Nat} {r : OpRule}
    (hw : e.walker = false) (hr : r.dest = false) (hj : j ∈ lanes)
    (hnone : ((s.cable e.uid).strand (32 * e.ply + j)).latch = none) : s.operandOk e sc lay lanes r .lat = false := by
  unfold State.operandOk
  simp only [hw, hr, Bool.false_or, Bool.false_eq_true, if_false, Bool.and_eq_false_iff, List.all_eq_false]
  exact .inr (.inr (.inr ⟨j, hj, by simp [hnone]⟩))

/-! ### A row with no effect -/

/-- An instruction whose effect leaves the state, with or without a contributor, only retires wherever it issues. -/
theorem perform_noEffect {s s1 : State} {i : Instr} {cm : Common} {r : Row} {x : Issue} (h : s.issues i cm r = some (x, s1))
    (ha : r.always = false) (hl : r.latch ≠ .own) (hact : r.act s1 x = .done s1 []) :
    s.perform i cm r = .next (s1.retire x r []) := by
  by_cases hc : x.contrib = []
  · exact perform_idle h hc ha hl
  · exact perform_done h (.inl hc) hact

/-- Settles O11: `nop`'s row has no operand, no effect and no latch, so what is left of an issue is its retirement, which clears
the latch of each member. -/
theorem nopDoesNothing : Obligations.NopDoesNothing := by
  refine ⟨fun f => ⟨rfl, f.extractLsb'_op_encode _⟩, ?_, fun f => FmtA.eq_of_reject_bare, fun f s s1 x h => ⟨?_, ?_⟩⟩
  · intro s e sc lay j lanes r hw hr hj hnone
    exact operandOk_lat_of_latch_none hw hr hj hnone
  · exact perform_noEffect h rfl (by decide) rfl
  · exact fun hw => strand_latchRest_clear rfl hw s1

end Sys2Proof.Machine
